-- ==== Sys2Proof/Word.lean ====
section
/-! DEFINITION. Word types of the USB3 endpoint-control engine. -/

namespace Sys2Proof

/-- A byte of device-visible memory (R70). -/
abbrev Byte := BitVec 8

/-- A 16-bit operation word `op[15:0]` (R90). -/
abbrev OpWord := BitVec 16

/-- The endpoint field `p = op[7:0]` of an operation word (R90). -/
abbrev EpField := BitVec 8

end Sys2Proof
end

