-- ==== Sys2Proof/Config.lean ====
section
/-! DEFINITION. The named enumerations of R98, the launch parameters of R6, R76 and R292, and the free values.
The parameters are plain data held in State (`cfg`): no rule gives them a value, so a statement holds for every one. -/

namespace Sys2Proof

/-- Direction of a physical endpoint (R7, R98): OUT is host to device, IN is device to host (R14). -/
inductive Dir where
  | OUT | IN
  deriving DecidableEq, Repr

/-- Negotiated speed (R34, R41, R98). -/
inductive Speed where
  | SS | HS | FS | LS
  deriving DecidableEq, Repr

/-- Endpoint type (R23, R24): `none` until enabled; isochronous is not a value of it. -/
inductive EpType where
  | none | control | bulk | interrupt
  deriving DecidableEq, Repr

/-- The status phase after a data stage, parameter `STATUS_AFTER_DATA` (R199). -/
inductive StatusAfterData where
  | status2 | status3
  deriving DecidableEq, Repr

/-- One row of `MAXP_TABLE` (R243): the max-packet size of each endpoint type at one speed. -/
structure MaxpRow where
  control   : Nat
  bulk      : Nat
  interrupt : Nat
  deriving DecidableEq, Repr

/-- `MAXP_TABLE(speed, type)` (R6, R243). -/
structure MaxpTable where
  ss : MaxpRow
  hs : MaxpRow
  fs : MaxpRow
  ls : MaxpRow
  deriving DecidableEq, Repr

/-- One decoded hardware event record (R93, R233): an endpoint number or link state as the record carries it. -/
inductive Event where
  | xferComplete (p : Nat)
  | xferNotReady (p : Nat)
  | epCmdComplete (p : Nat)
  | epOther (p : Nat)
  | usbReset
  | connectDone
  | linkState (st : BitVec 4)
  | disconnect
  | other
  deriving DecidableEq, Repr

/-- Parameter `TD_LAYOUT` (R6, R27, D16): the lowest bit of each field of a transfer descriptor, its sixteen bytes (R123) read
as one little-endian number. The widths are R27's: `ADDR_BITS`, `LEN_BITS` twice, 1, and 3 for the codes of R98. -/
structure TdLayout where
  bufBit   : Nat
  lenBit   : Nat
  remBit   : Nat
  ownerBit : Nat
  ctlBit   : Nat
  deriving DecidableEq, Repr

/-- Parameter `REG_MAP` (R6, R38, R76, D5): the base of the register window, the bytes of a register word, the offset of each
register, the distance between two endpoints' registers, and the bit positions of the fields. -/
structure RegMap where
  base       : Nat
  wordBytes  : Nat
  devctl     : Nat
  devsts     : Nat
  evbufBase  : Nat
  evbufSize  : Nat
  evbufCount : Nat
  epEnable   : Nat
  epPar0     : Nat
  epPar1     : Nat
  epPar2     : Nat
  epCmd      : Nat
  epStride   : Nat
  runStopBit : Nat
  devAddrBit : Nat
  speedBit   : Nat
  typeBit    : Nat
  forceBit   : Nat
  iocBit     : Nat
  activeBit  : Nat
  resIdxBit  : Nat
  resIdxBits : Nat
  deriving DecidableEq, Repr

/-- Which optional upcalls the upper layer bound (R12: "setup required; suspend/resume/disconnect optional"). -/
structure Bound where
  disconnect : Bool
  suspend    : Bool
  resume     : Bool
  deriving DecidableEq, Repr

/-- The launch parameters: the table of R6, the addresses of R76 and R292, the upcalls bound (R292).
`decodeEvent` is `eventTable`, the record words with a meaning of their own, over the default of R100 (log 3).
`zlpBuf` is the buffer address of a zero-length request, which no rule gives (log 29). -/
structure Config where
  numPhysEp       : Nat
  evtBytes        : Nat
  evtBufBytes     : Nat
  cmdTimeout      : Nat
  deferCap        : Option Nat
  lenBits         : Nat
  addrBits        : Nat
  tdAlign         : Nat
  maxpTable       : MaxpTable
  deviceStatus    : BitVec 16
  statusAfterData : StatusAfterData
  regMap          : RegMap
  eventTable      : List (Nat × Event)
  tdLayout        : TdLayout
  evbufAddr       : Nat
  tdAddrs         : List Nat
  setupBuf        : Nat
  statusBuf       : Nat
  selBuf          : Nat
  zlpBuf          : Nat
  bound           : Bound
  deriving DecidableEq, Repr

/-- The default `MAXP_TABLE` of R243. -/
def MaxpTable.default : MaxpTable :=
  { ss := ⟨512, 1024, 1024⟩, hs := ⟨64, 512, 1024⟩, fs := ⟨64, 64, 64⟩, ls := ⟨8, 8, 8⟩ }

/-- The default `TD_LAYOUT` of R99: words 0 and 1 the address, word 2 the length and the remaining length, word 3 bit 0 the
owner and bits [6:4] the control type. -/
def TdLayout.default : TdLayout := { bufBit := 0, lenBit := 64, remBit := 64, ownerBit := 96, ctlBit := 100 }

/-- The default `EPCMD[p]` layout of R101; every other offset and position and the word's four bytes are DESIGN CHOICE (log 5): the
spec leaves them OPEN. -/
def RegMap.default : RegMap :=
  { base := 0, wordBytes := 4, devctl := 0x00, devsts := 0x04, evbufBase := 0x08, evbufSize := 0x10, evbufCount := 0x14, epEnable := 0x18,
    epPar0 := 0x100, epPar1 := 0x104, epPar2 := 0x108, epCmd := 0x10C, epStride := 0x10,
    runStopBit := 0, devAddrBit := 1, speedBit := 0,
    typeBit := 0, forceBit := 8, iocBit := 9, activeBit := 10, resIdxBit := 16, resIdxBits := 7 }

/-- The spec defaults of R6. The addresses are DESIGN CHOICE (log 2): the spec fixes none (R76). -/
def Config.default : Config :=
  { numPhysEp := 8, evtBytes := 4, evtBufBytes := 64, cmdTimeout := 500, deferCap := Option.none,
    lenBits := 24, addrBits := 64, tdAlign := 16, maxpTable := MaxpTable.default,
    deviceStatus := 0, statusAfterData := .status3,
    regMap := RegMap.default, eventTable := [], tdLayout := TdLayout.default,
    evbufAddr := 0x1000,
    tdAddrs := [0x2000, 0x2010, 0x2020, 0x2030, 0x2040, 0x2050, 0x2060, 0x2070],
    setupBuf := 0x3000, statusBuf := 0x3010, selBuf := 0x3020, zlpBuf := 0,
    bound := ⟨true, true, true⟩ }

/-- Free value: the buffer address of the n-th freshly allocated request, "`buf` unspecified" (R170). No body: nothing
can be proved about its value (log 13). -/
opaque Config.freeBuf : Nat → Nat

end Sys2Proof
end

