-- ==== Sys2Proof/Syntax.lean ====
section
/-! DEFINITION. The operations of the engine (opcode_table.json; R90 to R97): one constructor of `Instr` for each of the 41
rows. A constructor carries what its 16-bit word carries, the physical endpoint field `p` (R90); operands that travel beside
the word stand in State (`args`). -/

namespace Sys2Proof

/-- One operation of the engine, by its row of the opcode table. -/
inductive Instr where
  -- upper-layer calls, class 0x1 (R92)
  | enable (p : EpField)
  | disable (p : EpField)
  | queue (p : EpField)
  | dequeue (p : EpField)
  | setHalt (p : EpField)
  | allocRequest
  | freeRequest
  -- event records, class 0x2 (R93)
  | evXferComplete (p : EpField)
  | evXferNotReady (p : EpField)
  | evEpCmdComplete (p : EpField)
  | evEpOther (p : EpField)
  | evUsbReset
  | evConnectDone
  | evLinkState
  | evDisconnect
  | evOther
  -- lifecycle operations, class 0x3 (R94)
  | init
  | teardown
  | interrupt
  -- hardware commands, class 0x4 (R95)
  | cmdStartNewConfig (p : EpField)
  | cmdSetEpConfig (p : EpField)
  | cmdSetXferResource (p : EpField)
  | cmdStartTransfer (p : EpField)
  | cmdEndTransfer (p : EpField)
  | cmdSetStall (p : EpField)
  | cmdClearStall (p : EpField)
  -- upcalls, class 0x5 (R96)
  | upSetup
  | upDisconnect
  | upSuspend
  | upResume
  | upCompleteCb
  -- internal procedures, class 0x6 (R97)
  | procStartTransfer (p : EpField)
  | procIssue (p : EpField)
  | procActivate (p : EpField)
  | procDeactivate (p : EpField)
  | procComplete (p : EpField)
  | procKillAll (p : EpField)
  | procProcessControl
  | procDrainDeferred (p : EpField)
  | procEp0Advance (p : EpField)
  | procEp0Stall
  deriving DecidableEq, Repr

/-- The classes of R91. -/
inductive OpClass where
  | upperCall | event | lifecycle | command | upcall | internal
  deriving DecidableEq, Repr

/-- The class of an operation (R91 to R97). -/
def Instr.cls : Instr → OpClass
  | .enable _ | .disable _ | .queue _ | .dequeue _ | .setHalt _ | .allocRequest | .freeRequest => .upperCall
  | .evXferComplete _ | .evXferNotReady _ | .evEpCmdComplete _ | .evEpOther _ | .evUsbReset | .evConnectDone
  | .evLinkState | .evDisconnect | .evOther => .event
  | .init | .teardown | .interrupt => .lifecycle
  | .cmdStartNewConfig _ | .cmdSetEpConfig _ | .cmdSetXferResource _ | .cmdStartTransfer _ | .cmdEndTransfer _
  | .cmdSetStall _ | .cmdClearStall _ => .command
  | .upSetup | .upDisconnect | .upSuspend | .upResume | .upCompleteCb => .upcall
  | .procStartTransfer _ | .procIssue _ | .procActivate _ | .procDeactivate _ | .procComplete _ | .procKillAll _
  | .procProcessControl | .procDrainDeferred _ | .procEp0Advance _ | .procEp0Stall => .internal

/-- The endpoint field of an operation, where it has one (R90). -/
def Instr.endpoint? : Instr → Option EpField
  | .enable p | .disable p | .queue p | .dequeue p | .setHalt p
  | .evXferComplete p | .evXferNotReady p | .evEpCmdComplete p | .evEpOther p
  | .cmdStartNewConfig p | .cmdSetEpConfig p | .cmdSetXferResource p | .cmdStartTransfer p | .cmdEndTransfer p
  | .cmdSetStall p | .cmdClearStall p
  | .procStartTransfer p | .procIssue p | .procActivate p | .procDeactivate p | .procComplete p | .procKillAll p
  | .procDrainDeferred p | .procEp0Advance p => some p
  | .allocRequest | .freeRequest | .evUsbReset | .evConnectDone | .evLinkState | .evDisconnect | .evOther
  | .init | .teardown | .interrupt | .upSetup | .upDisconnect | .upSuspend | .upResume | .upCompleteCb
  | .procProcessControl | .procEp0Stall => none

/-- Why an operation word is illegal (R104). -/
inductive DecodeReject where
  /-- `cls` is 0x0 or 0x7 to 0xF (R91). -/
  | reservedClass
  /-- The `code` is not listed in its class. -/
  | unlistedCode
  /-- `op[7:0]` is not 0 in an operation without an endpoint (R90, the table's mask 0xFFFF). -/
  | operandNotZero
  deriving DecidableEq, Repr

end Sys2Proof
end

