-- ==== Sys2Proof/WellFormed.lean ====
section
/-! DEFINITION. Well-formed operations (R104) and well-formed launch parameters (R6, R27, R72, R76, R292). -/

namespace Sys2Proof

/-- An operation is legal only if its endpoint, where it has one, is below `NUM_PHYS_EP` (R104). -/
def Instr.wf (numPhysEp : Nat) (i : Instr) : Bool :=
  match i.endpoint? with
  | some p => decide (p.toNat < numPhysEp)
  | none => true

/-- The engine's memory regions as (address, size): the TDs, the event ring and the engine-owned buffers (R292). -/
def Config.regions (c : Config) : List (Nat × Nat) :=
  (c.tdAddrs.map fun a => (a, 16)) ++
    [(c.evbufAddr, c.evtBufBytes), (c.setupBuf, 8), (c.statusBuf, 2), (c.selBuf, 6)]

/-- Two regions share no byte (R76). -/
def regionsDisjoint (x y : Nat × Nat) : Bool :=
  decide (x.1 + x.2 ≤ y.1) || decide (y.1 + y.2 ≤ x.1)

/-- Every region is disjoint from those after it in the list (R76 "pairwise disjoint"). -/
def pairwiseDisjoint : List (Nat × Nat) → Bool
  | [] => true
  | x :: xs => xs.all (regionsDisjoint x) && pairwiseDisjoint xs

/-- Every entry of a row is at least 1 (R6: `MAXP_TABLE` constraint). -/
def MaxpRow.wf (r : MaxpRow) : Bool :=
  decide (1 ≤ r.control) && decide (1 ≤ r.bulk) && decide (1 ≤ r.interrupt)

/-- `n` is a power of 2 (R6: `TD_ALIGN`). -/
def isPow2 (n : Nat) : Bool := n != 0 && n == 2 ^ n.log2

/-- The bit ranges of a TD's fields, as (lowest bit, width), the remaining length apart. -/
def TdLayout.fields (k : TdLayout) (addrBits lenBits : Nat) : List (Nat × Nat) :=
  [(k.bufBit, addrBits), (k.lenBit, lenBits), (k.ownerBit, 1), (k.ctlBit, 3)]

/-- A `TD_LAYOUT` that holds its fields: inside the sixteen bytes, and disjoint, but that the remaining length may rewrite the
length (R99 "one field, rewritten"). -/
def TdLayout.wf (k : TdLayout) (addrBits lenBits : Nat) : Bool :=
  let rest := [(k.bufBit, addrBits), (k.ownerBit, 1), (k.ctlBit, 3)]
  ((k.remBit, lenBits) :: k.fields addrBits lenBits).all (fun x => decide (x.1 + x.2 ≤ 128)) &&
  pairwiseDisjoint (k.fields addrBits lenBits) && rest.all (regionsDisjoint (k.remBit, lenBits)) &&
  (k.remBit == k.lenBit || regionsDisjoint (k.remBit, lenBits) (k.lenBit, lenBits))

/-- The constraints of R6, the alignments of R72, the field widths of R27, and the launch premises of R76 and R292. -/
def Config.wf (c : Config) : Bool :=
  (c.numPhysEp % 2 == 0) && decide (2 ≤ c.numPhysEp) &&
  decide (1 ≤ c.evtBytes) && (c.evtBufBytes % c.evtBytes == 0) && decide (0 < c.evtBufBytes) &&
  decide (1 ≤ c.cmdTimeout) &&
  (match c.deferCap with | none => true | some n => decide (1 ≤ n)) &&
  decide (1 ≤ c.lenBits) && decide (1 ≤ c.addrBits) && isPow2 c.tdAlign &&
  c.maxpTable.ss.wf && c.maxpTable.hs.wf && c.maxpTable.fs.wf && c.maxpTable.ls.wf &&
  (c.tdAddrs.length == c.numPhysEp) && c.tdAddrs.all (fun a => a % c.tdAlign == 0) &&
  (c.evbufAddr % c.evtBytes == 0) &&
  c.regions.all (fun r => decide (r.1 + r.2 ≤ 2 ^ c.addrBits)) &&
  pairwiseDisjoint c.regions && decide (c.zlpBuf < 2 ^ c.addrBits) && c.tdLayout.wf c.addrBits c.lenBits

end Sys2Proof
end

