-- ==== Sys2Proof/Decode.lean ====
section
/-! DEFINITION. Decoding and encoding of operation words (R90 to R97, R104, R112) and of hardware event records (R100).
Decoding is total and rejects by name; the encoders are written from the same tables of the spec. -/

namespace Sys2Proof

/-- `x[hi:lo]` of R8, on naturals. -/
def bits (x hi lo : Nat) : Nat := (x / 2 ^ lo) % 2 ^ (hi + 1 - lo)

/-- An operation without an endpoint has `op[7:0] = 0` (R90). -/
def noOperand (p : EpField) (i : Instr) : Except DecodeReject Instr :=
  if p = 0 then .ok i else .error .operandNotZero

/-- Class 0x1 (R92). -/
def decodeUpperCall (code : Nat) (p : EpField) : Except DecodeReject Instr :=
  match code with
  | 0x0 => .ok (.enable p)
  | 0x1 => .ok (.disable p)
  | 0x2 => .ok (.queue p)
  | 0x3 => .ok (.dequeue p)
  | 0x4 => .ok (.setHalt p)
  | 0x5 => noOperand p .allocRequest
  | 0x6 => noOperand p .freeRequest
  | _ => .error .unlistedCode

/-- Class 0x2 (R93). -/
def decodeEventOp (code : Nat) (p : EpField) : Except DecodeReject Instr :=
  match code with
  | 0x0 => .ok (.evXferComplete p)
  | 0x1 => .ok (.evXferNotReady p)
  | 0x2 => .ok (.evEpCmdComplete p)
  | 0x3 => .ok (.evEpOther p)
  | 0x8 => noOperand p .evUsbReset
  | 0x9 => noOperand p .evConnectDone
  | 0xA => noOperand p .evLinkState
  | 0xB => noOperand p .evDisconnect
  | 0xF => noOperand p .evOther
  | _ => .error .unlistedCode

/-- Class 0x3 (R94). -/
def decodeLifecycle (code : Nat) (p : EpField) : Except DecodeReject Instr :=
  match code with
  | 0x0 => noOperand p .init
  | 0x1 => noOperand p .teardown
  | 0x2 => noOperand p .interrupt
  | _ => .error .unlistedCode

/-- Class 0x4 (R95). -/
def decodeCommandOp (code : Nat) (p : EpField) : Except DecodeReject Instr :=
  match code with
  | 0x0 => .ok (.cmdStartNewConfig p)
  | 0x1 => .ok (.cmdSetEpConfig p)
  | 0x2 => .ok (.cmdSetXferResource p)
  | 0x3 => .ok (.cmdStartTransfer p)
  | 0x4 => .ok (.cmdEndTransfer p)
  | 0x5 => .ok (.cmdSetStall p)
  | 0x6 => .ok (.cmdClearStall p)
  | _ => .error .unlistedCode

/-- Class 0x5 (R96). -/
def decodeUpcall (code : Nat) (p : EpField) : Except DecodeReject Instr :=
  match code with
  | 0x0 => noOperand p .upSetup
  | 0x1 => noOperand p .upDisconnect
  | 0x2 => noOperand p .upSuspend
  | 0x3 => noOperand p .upResume
  | 0x4 => noOperand p .upCompleteCb
  | _ => .error .unlistedCode

/-- Class 0x6 (R97). -/
def decodeInternal (code : Nat) (p : EpField) : Except DecodeReject Instr :=
  match code with
  | 0x0 => .ok (.procStartTransfer p)
  | 0x1 => .ok (.procIssue p)
  | 0x2 => .ok (.procActivate p)
  | 0x3 => .ok (.procDeactivate p)
  | 0x4 => .ok (.procComplete p)
  | 0x5 => .ok (.procKillAll p)
  | 0x6 => noOperand p .procProcessControl
  | 0x7 => .ok (.procDrainDeferred p)
  | 0x8 => .ok (.procEp0Advance p)
  | 0x9 => noOperand p .procEp0Stall
  | _ => .error .unlistedCode

/-- The operation a 16-bit word names, or why it is illegal (R90, R91, R104). -/
def decode (w : OpWord) : Except DecodeReject Instr :=
  let cls := bits w.toNat 15 12
  let code := bits w.toNat 11 8
  let p : EpField := BitVec.ofNat 8 w.toNat
  match cls with
  | 0x1 => decodeUpperCall code p
  | 0x2 => decodeEventOp code p
  | 0x3 => decodeLifecycle code p
  | 0x4 => decodeCommandOp code p
  | 0x5 => decodeUpcall code p
  | 0x6 => decodeInternal code p
  | _ => .error .reservedClass

/-- The word whose high byte is `cls:code` and whose low byte is `p` (R90: `{cls, code, p}`). -/
def opWord (clsCode : BitVec 8) (p : EpField) : OpWord := clsCode ++ p

/-- The operation word of an operation (R92 to R97, R112). -/
def encode : Instr → OpWord
  | .enable p => opWord 0x10 p
  | .disable p => opWord 0x11 p
  | .queue p => opWord 0x12 p
  | .dequeue p => opWord 0x13 p
  | .setHalt p => opWord 0x14 p
  | .allocRequest => opWord 0x15 0
  | .freeRequest => opWord 0x16 0
  | .evXferComplete p => opWord 0x20 p
  | .evXferNotReady p => opWord 0x21 p
  | .evEpCmdComplete p => opWord 0x22 p
  | .evEpOther p => opWord 0x23 p
  | .evUsbReset => opWord 0x28 0
  | .evConnectDone => opWord 0x29 0
  | .evLinkState => opWord 0x2A 0
  | .evDisconnect => opWord 0x2B 0
  | .evOther => opWord 0x2F 0
  | .init => opWord 0x30 0
  | .teardown => opWord 0x31 0
  | .interrupt => opWord 0x32 0
  | .cmdStartNewConfig p => opWord 0x40 p
  | .cmdSetEpConfig p => opWord 0x41 p
  | .cmdSetXferResource p => opWord 0x42 p
  | .cmdStartTransfer p => opWord 0x43 p
  | .cmdEndTransfer p => opWord 0x44 p
  | .cmdSetStall p => opWord 0x45 p
  | .cmdClearStall p => opWord 0x46 p
  | .upSetup => opWord 0x50 0
  | .upDisconnect => opWord 0x51 0
  | .upSuspend => opWord 0x52 0
  | .upResume => opWord 0x53 0
  | .upCompleteCb => opWord 0x54 0
  | .procStartTransfer p => opWord 0x60 p
  | .procIssue p => opWord 0x61 p
  | .procActivate p => opWord 0x62 p
  | .procDeactivate p => opWord 0x63 p
  | .procComplete p => opWord 0x64 p
  | .procKillAll p => opWord 0x65 p
  | .procProcessControl => opWord 0x66 0
  | .procDrainDeferred p => opWord 0x67 p
  | .procEp0Advance p => opWord 0x68 p
  | .procEp0Stall => opWord 0x69 0

/-- The instruction the decoder reads from a table word of `nbits` bits; every word of this table has 16 (R106). -/
def decodeTableWord (nbits w : Nat) : Option Instr :=
  if nbits = 16 then (decode (BitVec.ofNat 16 w)).toOption else none

/-- Endpoint event by kind `w[9:6]` (R100). -/
def decodeEndpointEvent (kind p : Nat) : Event :=
  match kind with
  | 0x1 => .xferComplete p
  | 0x3 => .xferNotReady p
  | 0x7 => .epCmdComplete p
  | _ => .epOther p

/-- Device event by type `w[11:8]` (R100); `st` is the link state field. -/
def decodeDeviceEvent (ty : Nat) (st : BitVec 4) : Event :=
  match ty with
  | 0x0 => .disconnect
  | 0x1 => .usbReset
  | 0x2 => .connectDone
  | 0x3 => .linkState st
  | _ => .other

/-- The default `decodeEvent` (R100), total on every record value. -/
def decodeEvent (w : Nat) : Event :=
  if bits w 0 0 = 0 then decodeEndpointEvent (bits w 9 6) (bits w 5 1)
  else if bits w 7 1 = 0 then decodeDeviceEvent (bits w 11 8) (BitVec.ofNat 4 (bits w 19 16))
  else .other

/-- Parameter `decodeEvent` (R6, D15): the words a table gives a meaning, the first entry of a word counting, and R100 for every
other word. Every total function of the record words has such a table. -/
def decodeEventBy (table : List (Nat × Event)) (w : Nat) : Event :=
  match table.find? fun x => x.1 == w with
  | some x => x.2
  | none => decodeEvent w

/-- A record value that decodes to the event under R100 for `p < 32`. EV_EP_OTHER and EV_OTHER have many; DESIGN CHOICE: kind 2
and `w[7:1] = 1`. DESIGN CHOICE: R100's 5-bit field has no place for a larger `p`; the record written is that of `p mod 32`
(log 27). -/
def encodeEvent : Event → Nat
  | .xferComplete p => 2 * (p % 32) + 64 * 0x1
  | .xferNotReady p => 2 * (p % 32) + 64 * 0x3
  | .epCmdComplete p => 2 * (p % 32) + 64 * 0x7
  | .epOther p => 2 * (p % 32) + 64 * 0x2
  | .disconnect => 1
  | .usbReset => 1 + 256 * 0x1
  | .connectDone => 1 + 256 * 0x2
  | .linkState st => 1 + 256 * 0x3 + 65536 * st.toNat
  | .other => 3

/-- The record word the hardware writes for an event: the first word of the table with that meaning, else R100's (R111). DESIGN
CHOICE (log 27): so an event of any kind whose R100 word the table gives another meaning arrives as that other event. -/
def encodeEventBy (table : List (Nat × Event)) (e : Event) : Nat :=
  match table.find? fun x => x.2 == e && decodeEventBy table x.1 == e with
  | some x => x.1
  | none => encodeEvent e

/-- The device events (R93, R245), one for each link state. -/
def deviceEvents : List Event :=
  [.disconnect, .usbReset, .connectDone, .other] ++ (List.range 16).map fun st => .linkState (BitVec.ofNat 4 st)

/-- The events of a launch: four of each existing endpoint, and the device events (R93). -/
def Config.events (c : Config) : List Event :=
  ((List.range c.numPhysEp).flatMap fun p => [.xferComplete p, .xferNotReady p, .epCmdComplete p, .epOther p]) ++ deviceEvents

/-- The record of an event holds it: the word decodes to it and fits `EVT_BYTES` bytes. -/
def Config.recordFits (c : Config) (e : Event) : Bool :=
  decodeEventBy c.eventTable (encodeEventBy c.eventTable e) == e && decide (encodeEventBy c.eventTable e < 256 ^ c.evtBytes)

/-- Every event of the launch, of an endpoint or of the device, has a record word of `EVT_BYTES` bytes: under R100 alone, at most
32 endpoints and three bytes (log 27). -/
def Config.recordsFit (c : Config) : Bool := c.events.all c.recordFits

/-- The event a class 0x2 operation names; the link state travels beside the word (R93, R245). -/
def Instr.event? (st : BitVec 4) : Instr → Option Event
  | .evXferComplete p => some (.xferComplete p.toNat)
  | .evXferNotReady p => some (.xferNotReady p.toNat)
  | .evEpCmdComplete p => some (.epCmdComplete p.toNat)
  | .evEpOther p => some (.epOther p.toNat)
  | .evUsbReset => some .usbReset
  | .evConnectDone => some .connectDone
  | .evLinkState => some (.linkState st)
  | .evDisconnect => some .disconnect
  | .evOther => some .other
  | _ => none

end Sys2Proof
end

