-- ==== Sys2Proof/Machine/State.lean ====
section
/-! DEFINITION. The state of the engine as plain data: the records of 10_state.md, the hardware register window, the
request objects, device-visible memory, the hardware agent's record, and the inputs a step reads (INVENTORY.md '## State'). -/

namespace Sys2Proof.Machine

/-- EP0 phase (R34, R190). -/
inductive Phase where
  | unconnected | setup | data | waitNrdy | status2 | status3 | stalled
  deriving DecidableEq, Repr

/-- Control type of a transfer descriptor (R27, R98). -/
inductive CtlType where
  | normal | setup | data | status2 | status3
  deriving DecidableEq, Repr

/-- A transfer descriptor (R27). Widths are the parameters `ADDR_BITS` and `LEN_BITS`, so the fields are naturals (R8). -/
structure Td where
  bufAddr   : Nat
  length    : Nat
  remaining : Nat
  owner     : Bool
  ctlType   : CtlType
  deriving DecidableEq, Repr

/-- A request reference (R31, R32): an upper-layer request by number, or one of the engine's own (R33). -/
inductive ReqRef where
  | setupRead | statusReply | selRead | zlp
  | user (id : Nat)
  deriving DecidableEq, Repr

/-- The completion callback of a request (R31, R33, R170). -/
inductive Callback where
  | unset | internal | upper
  deriving DecidableEq, Repr

/-- Status of a request (R31, R98). -/
inductive ReqStatus where
  | inProgress | success | shutdown | connectionReset
  deriving DecidableEq, Repr

/-- The result a completion carries (R180: Success, Shutdown or ConnectionReset). -/
inductive Result where
  | success | shutdown | connectionReset
  deriving DecidableEq, Repr

/-- A request object (R31). -/
structure Request where
  buf      : Nat
  length   : Nat
  callback : Callback
  status   : ReqStatus
  actual   : Nat
  mapped   : Bool
  deriving DecidableEq, Repr

/-- The seven command types (R29, R95). -/
inductive CmdType where
  | startNewConfig | setEpConfig | setXferResource | startTransfer | endTransfer | setStall | clearStall
  deriving DecidableEq, Repr

/-- The content of one command parameter (R95, R153, R154): the spec names the contents and gives no bit layout. -/
inductive ParVal where
  /-- a 32-bit word: half of a TD address, a slot count, or 0 -/
  | word (w : BitVec 32)
  /-- par0 of SET_EP_CONFIG -/
  | epConfig (type : EpType) (maxp : Nat)
  /-- par1 of SET_EP_CONFIG -/
  | burstFifo (burst fifo : Nat)
  /-- par2 of SET_EP_CONFIG: the notification set -/
  | notify (xferComplete xferNotReady : Bool)
  deriving DecidableEq, Repr

/-- A Command (R29). Its activate flag is always 1 (R95) and is written by issue_now (R131). -/
structure Command where
  target : Nat
  type   : CmdType
  par0   : ParVal
  par1   : ParVal
  par2   : ParVal
  force  : Bool
  ioc    : Bool
  resIdx : Nat
  deriving DecidableEq, Repr

/-- What issue returns (R133). -/
inductive CmdRes where
  | done (idx : Nat) | deferred | timeout
  deriving DecidableEq, Repr

/-- An Endpoint record (R23). `num` and `dir` are functions of the physical number (R7). -/
structure Endpoint where
  type     : EpType
  maxp     : Nat
  burst    : Nat
  halted   : Bool
  notReady : Bool
  queue    : List ReqRef
  active   : Option ReqRef
  td       : Td
  resIdx   : Option Nat
  deferred : List Command
  deriving DecidableEq, Repr

/-- The current control transfer (R35). -/
structure Ep0Ctx where
  bmRequestType : BitVec 8
  bRequest      : BitVec 8
  wValue        : BitVec 16
  wIndex        : BitVec 16
  wLength       : BitVec 16
  hasData       : Bool
  dataDir       : Dir
  deriving DecidableEq, Repr

/-- The controller-wide fields (R34). -/
structure Controller where
  evtCursor   : Nat
  speed       : Option Speed
  ep0Phase    : Phase
  connected   : Bool
  cfgStarted  : Bool
  ep0Ctx      : Ep0Ctx
  selData     : List Byte
  dispatching : Bool
  deriving DecidableEq, Repr

/-- `EPCMD[p]` (R45). -/
structure EpCmd where
  type   : CmdType
  active : Bool
  force  : Bool
  ioc    : Bool
  resIdx : Nat
  deriving DecidableEq, Repr

/-- The registers of one physical endpoint: `EPPAR0..2[p]`, `EPCMD[p]` (R45) and bit `p` of `EP_ENABLE` (R44). -/
structure EpPort where
  par0    : ParVal
  par1    : ParVal
  par2    : ParVal
  cmd     : EpCmd
  enabled : Bool
  deriving DecidableEq, Repr

/-- The hardware register window (R38 to R45), as abstract fields; `REG_MAP` places them (Window.lean). -/
structure Regs where
  runStop    : Bool
  devAddr    : BitVec 7
  stsSpeed   : Speed
  evbufBase  : Nat
  evbufSize  : Nat
  evbufCount : Nat
  ports      : List EpPort
  deriving DecidableEq, Repr

/-- What SET_EP_CONFIG told the hardware (R136, R153). -/
structure HwConfig where
  type    : EpType
  maxp    : Nat
  burst   : Nat
  fifo    : Nat
  notify  : Bool × Bool
  deriving DecidableEq, Repr

/-- A transfer the hardware runs (R136): its transfer-resource index, and the address of the TD it took ownership of; none where
the command named no address (log 19). -/
structure Running where
  idx : Nat
  td  : Option Nat
  deriving DecidableEq, Repr

/-- A command the hardware is still executing after the engine's poll timed out (R47(a), R134), with the transfer-resource index it
will return. -/
structure LateCommand where
  cmd : Command
  idx : Nat
  deriving DecidableEq, Repr

/-- The hardware agent's side of one endpoint, as far as R47 and R136 name it (log 19). -/
structure HwEndpoint where
  config  : Option HwConfig
  slots   : Nat
  stalled : Bool
  running : Option Running
  late    : Option LateCommand
  deriving DecidableEq, Repr

/-- The hardware agent's record (R47, R136, log 19). -/
structure Hardware where
  eps     : List HwEndpoint
  configs : Nat
  deriving DecidableEq, Repr

/-- Device-visible memory as (address, byte) pairs in one canonical form (`Memory.wf`). -/
abbrev Memory := List Host.Cell

/-- Endpoint type as a descriptor gives it (R98, R102): isochronous can be asked for and is rejected. -/
inductive DescType where
  | control | isochronous | bulk | interrupt
  deriving DecidableEq, Repr

/-- The endpoint descriptor of ENABLE (R102). -/
structure Descriptor where
  num   : Nat
  dir   : Dir
  type  : DescType
  maxp  : Nat
  burst : Nat
  deriving DecidableEq, Repr

/-- The two operand forms of a descriptor (R102): the record, or USB descriptor bytes. -/
inductive DescArg where
  | record (d : Descriptor)
  | usb (bEndpointAddress bmAttributes : BitVec 8) (wMaxPacketSize : BitVec 16)
  deriving DecidableEq, Repr

/-- One call the upper layer makes inside an upcall (R183, R209): an upper-layer call, or an INTERRUPT delivered there,
which R250 gives a fault. -/
inductive NestedCall where
  | enable (p : Nat) (d : DescArg)
  | disable (p : Nat)
  | queue (p req buf len : Nat)
  | dequeue (p req : Nat)
  | setHalt (p : Nat) (value : Bool)
  | allocRequest
  | freeRequest (req : Nat)
  | interrupt
  deriving DecidableEq, Repr

/-- The hardware's answer to one command (R131, I1, I3): `EPCMD.active` reads 1 for `stillActive` polls; `idx` is the
transfer-resource index START_TRANSFER returns. -/
structure CmdDraw where
  stillActive : Nat
  idx         : Nat
  deriving DecidableEq, Repr

/-- The hardware's side of one EV_XFER_COMPLETE (R110, I4): the TD write-back, its `remaining` none where the key is not given,
and the bytes it moved into an OUT buffer. -/
structure XferDraw where
  remaining : Option Nat
  owner     : Bool
  data      : List Byte
  deriving DecidableEq, Repr

/-- The upper layer's answer to one SETUP upcall (R209, I13). -/
structure SetupDraw where
  ret   : Int
  calls : List NestedCall
  deriving DecidableEq, Repr

/-- The environment's draws for the current line, each list consumed in order (R9, R110, log 6). -/
structure Draws where
  cmds   : List CmdDraw
  maps   : List Bool
  speeds : List Speed
  xfers  : List XferDraw
  setups : List SetupDraw
  cbs    : List (List NestedCall)
  deriving DecidableEq, Repr

/-- The operands that travel beside an operation word (R90). -/
structure Args where
  desc      : DescArg
  req       : Nat
  buf       : Nat
  len       : Nat
  value     : Bool
  linkState : BitVec 4
  ref       : ReqRef
  result    : Result
  cmd       : Command
  packet    : BitVec 64
  deriving DecidableEq, Repr

/-- Where an operation word is presented: at one of the block's interfaces, or from inside the engine (R91, R104). -/
inductive Port where
  | external | engine
  deriving DecidableEq, Repr

/-- One line of a trace (R110, R111): the word, its operands and draws, and what the outside does before it: the endpoints whose
timed-out command takes effect (`lands`, R134), memory writes (`dma`), and event records put in the ring (`records`). -/
structure Line where
  port    : Port
  word    : OpWord
  args    : Args
  draws   : Draws
  lands   : List Nat
  dma     : List (Nat × List Byte)
  records : List Nat
  deriving DecidableEq, Repr

/-- The error taxonomy of R260 that is returned or handled locally (codes 1 to 5). -/
inductive Err where
  | hardwareCommandTimeout | unsupportedEndpointType | mismatchedDescriptor | bufferMapFailure | requestNotFound
  deriving DecidableEq, Repr

/-- What a call returns synchronously (R260, R133). -/
inductive Ret where
  | int (v : Int)
  | err (e : Err)
  | request (id : Nat)
  | cmd (r : CmdRes)
  deriving DecidableEq, Repr

/-- One output of the engine, in the order made (R95, R96, R110, R260; log 28). -/
inductive Output where
  /-- a command written to `EPCMD` (R131) -/
  | command (c : Command)
  /-- an error recorded and handled locally on an endpoint (R261) -/
  | localError (e : Err) (p : Nat)
  /-- upcall SETUP with its packet and its return (R209) -/
  | setup (packet : BitVec 64) (ret : Int)
  | disconnect
  | suspend
  | resume
  /-- upcall COMPLETE_CB with what the request then holds (R183) -/
  | completeCb (r : ReqRef) (status : ReqStatus) (actual : Nat)
  | returned (r : Ret)
  deriving DecidableEq, Repr

/-- Hazard marks kept for the whole run; a claim takes their absence as a premise (R305). -/
inductive Mark where
  /-- an active request was completed without Success, so its buffer was released while the hardware may own its TD (R305) -/
  | bufferReleased (p : Nat) (r : ReqRef)
  /-- a START_TRANSFER timed out and may still be taken (R304, I7) -/
  | lateStart (p : Nat)
  /-- an upper-layer call while `run_stop = 0`, so not after a completed INIT (R292) -/
  | callWhileStopped
  /-- INIT outside its premises (R290) -/
  | initPremise
  /-- a buffer was mapped that shares a byte with a TD, the event ring, an engine-owned buffer or another mapped buffer, against
  the launch premise of R76 -/
  | bufferOverlap (r : ReqRef)
  deriving DecidableEq, Repr

/-- The machine. Everything INVENTORY.md '## State' lists; the last five fields are the model's own. -/
structure State where
  cfg            : Config
  eps            : List Endpoint
  ctl            : Controller
  regs           : Regs
  reqs           : List (ReqRef × Request)
  mem            : Memory
  hw             : Hardware
  marks          : List Mark
  ep0AcrossReset : Bool
  trace          : List Line
  args           : Args
  draws          : Draws
  outs           : List Output
  freeCtr        : Nat
  deriving DecidableEq, Repr

/-- Model faults: the machine stops. All are safe: the model stops where RS gives no meaning (R268). -/
inductive Fault where
  /-- start_transfer, OUT with `maxp = 0` (R122). Safe. -/
  | zeroMaxPacket
  /-- start_transfer, `xfer_len >= 2^LEN_BITS` (R122). Safe. -/
  | lengthOverflow
  /-- an EP0 transfer in a phase with no control type (R126), an upper-layer EP0 queue outside DATA (R174). Safe. -/
  | ep0BadPhase
  /-- issue, full deferred FIFO (R30, R130). Safe. -/
  | deferOverflow
  /-- transfer-complete with `owner = 1` (R235). Safe. -/
  | descriptorStillOwned
  /-- transfer-complete with `remaining > xfer_len` (R234). Safe. -/
  | remainingTooLarge
  /-- the dispatcher, bad `EVBUF_COUNT` (R232). Safe. -/
  | badEventCount
  /-- an endpoint record with `p >= NUM_PHYS_EP` (R233). Safe. -/
  | badEventEndpoint
  /-- INTERRUPT during a dispatch (R250). Safe. -/
  | reentrantDispatch
  /-- a memory access past `2^ADDR_BITS` (R46; log 11). Safe. -/
  | addressBeyondSpace
  deriving DecidableEq, Repr

/-- Refusals: the operation has no meaning (R269). All are safe: the model stops. DESIGN CHOICE (log 39): the run ends at a refusal,
and the outcome itself, which carries no state, stands for the refusal mark R269 keeps for the whole run; whether a later operation
still runs the spec leaves open. -/
inductive Refusal where
  /-- An arm of exec without a meaning yet. Safe. -/
  | notModelled (mnemonic : String)
  /-- An illegal operation word, raised by fetch (R104). Safe. -/
  | illegalWord (why : DecodeReject)
  /-- A class 0x4, 0x5 or 0x6 word at an interface, raised by fetch (R104). Safe. -/
  | notAnInput
  /-- `p >= NUM_PHYS_EP` in an operation word, raised by every operation with an endpoint (R104). Safe. -/
  | illegalEndpoint
  /-- ENABLE or DISABLE of physical endpoint 0 or 1 (R162). Safe. -/
  | ep0NotForUpperLayer
  /-- submit of a request already on a queue (R172). Safe. -/
  | alreadyQueued
  /-- free of a queued request (R171). Safe. -/
  | freeOfQueued
  /-- a TD placed at a misaligned address, raised by start_transfer (R72). Safe. -/
  | misalignedTd
  /-- INIT with a misaligned event ring (R72). Safe. -/
  | misalignedRing
  /-- a setup read completed after a USB reset with another EP0 request pending, raised by process_control (I9, R309). Safe. -/
  | ep0PendingAcrossReset
  /-- A write from outside over an event record not yet acknowledged, which the hardware does not make (R82), raised by taking a
  line and by the hardware's DMA (log 35). Safe. -/
  | overwritesRecord
  /-- an INTERRUPT in the middle of an upper-layer call, raised by a nested call (R272). Safe. -/
  | interruptInsideOperation
  deriving DecidableEq, Repr

/-- A TD at creation: `owner = 0` (R48); the other fields are unspecified, DESIGN CHOICE 0 and NORMAL (log 9). -/
def Td.creation : Td := { bufAddr := 0, length := 0, remaining := 0, owner := false, ctlType := .normal }

/-- An endpoint at creation (R48). -/
def Endpoint.creation : Endpoint :=
  { type := .none, maxp := 0, burst := 0, halted := false, notReady := false, queue := [], active := none,
    td := Td.creation, resIdx := none, deferred := [] }

/-- `ep0_ctx` at creation: unspecified, DESIGN CHOICE 0 (log 9; I12: nothing reads it before it is written). -/
def Ep0Ctx.creation : Ep0Ctx :=
  { bmRequestType := 0, bRequest := 0, wValue := 0, wIndex := 0, wLength := 0, hasData := false, dataDir := .OUT }

/-- The controller record at creation (R48). -/
def Controller.creation : Controller :=
  { evtCursor := 0, speed := none, ep0Phase := .unconnected, connected := false, cfgStarted := false,
    ep0Ctx := Ep0Ctx.creation, selData := [], dispatching := false }

/-- The registers of one endpoint at reset: `active = 0`, enable 0 (R44, R45); the rest DESIGN CHOICE 0 (log 9). -/
def EpPort.creation : EpPort :=
  { par0 := .word 0, par1 := .word 0, par2 := .word 0,
    cmd := { type := .startNewConfig, active := false, force := false, ioc := false, resIdx := 0 },
    enabled := false }

/-- The register window at reset (R39 to R45); unspecified registers DESIGN CHOICE 0, speed SS (log 9). -/
def Regs.creation (numPhysEp : Nat) : Regs :=
  { runStop := false, devAddr := 0, stsSpeed := .SS, evbufBase := 0, evbufSize := 0, evbufCount := 0,
    ports := List.replicate numPhysEp EpPort.creation }

/-- The hardware agent's record at reset, DESIGN CHOICE (log 19). -/
def HwEndpoint.creation : HwEndpoint := 
  { config := none, slots := 0, stalled := false, running := none, late := none }

/-- A fresh request (R170); `buf` is the allocator's unspecified value. -/
def Request.fresh (buf : Nat) : Request :=
  { buf := buf, length := 0, callback := .unset, status := .inProgress, actual := 0, mapped := false }

/-- A command with every parameter 0 and no flag (R95). DESIGN CHOICE (log 36): its `resIdx` is 0; R131 writes one with every
command and R95 gives one to END_TRANSFER alone. -/
def Command.plain (target : Nat) (type : CmdType) : Command :=
  { target := target, type := type, par0 := .word 0, par1 := .word 0, par2 := .word 0,
    force := false, ioc := false, resIdx := 0 }

/-- Operands all zero: what travels beside a word placed alone (log 7). -/
def Args.zero : Args :=
  { desc := .record { num := 0, dir := .OUT, type := .control, maxp := 0, burst := 0 },
    req := 0, buf := 0, len := 0, value := false, linkState := 0, ref := .setupRead, result := .success,
    cmd := Command.plain 0 .startNewConfig, packet := 0 }

/-- No draw given: every draw takes its trace default (R110, log 6). -/
def Draws.none : Draws := { cmds := [], maps := [], speeds := [], xfers := [], setups := [], cbs := [] }

/-- The creation state for given launch parameters (attach, R48, R294). -/
def State.creation (cfg : Config) : State :=
  { cfg := cfg
    eps := List.replicate cfg.numPhysEp Endpoint.creation
    ctl := Controller.creation
    regs := Regs.creation cfg.numPhysEp
    reqs := []
    mem := []
    hw := { eps := List.replicate cfg.numPhysEp HwEndpoint.creation, configs := 0 }
    marks := []
    ep0AcrossReset := false
    trace := []
    args := Args.zero
    draws := Draws.none
    outs := []
    freeCtr := 0 }

/-- The machine right after attach, before INIT (R48), with the spec-default parameters (R6). -/
def State.reset : State := State.creation Config.default

end Sys2Proof.Machine
end

