-- ==== Sys2Proof/Machine/Ops.lean ====
section
/-! DEFINITION. The named operations the meanings are written over: outcome chaining, the accessors of endpoints, registers
and requests, device-visible memory (R46, R70), outputs and marks, the environment's draws (R9), and returning an error. -/

namespace Sys2Proof.Machine

/-- An outcome carrying any value. -/
abbrev Out (α : Type) := Host.Outcome α Fault Refusal

/-- Run `k` on what `o` answers; a fault or a refusal ends the operation (R9 `fault`, R269), and with it the run (R268, log 39). -/
def andThen {α β : Type} (o : Out α) (k : α → Out β) : Out β :=
  match o with
  | .next a => k a
  | .fault f => .fault f
  | .refused r => .refused r

/-- Run an operation on each element of a list, in order. -/
def eachInOrder {α : Type} (f : α → State → Out State) : List α → State → Out State
  | [], s => .next s
  | x :: xs, s => andThen (f x s) (eachInOrder f xs)

/-! ## Endpoints, registers, the hardware agent -/

/-- `ep[p]` (R9, R22). -/
def State.ep (s : State) (p : Nat) : Endpoint := s.eps.getD p Endpoint.creation

/-- `ep[p] <- e`. -/
def State.setEp (s : State) (p : Nat) (e : Endpoint) : State := { s with eps := s.eps.set p e }

/-- The registers of physical endpoint `p` (R44, R45). -/
def State.port (s : State) (p : Nat) : EpPort := s.regs.ports.getD p EpPort.creation

/-- Write the registers of physical endpoint `p`. -/
def State.setPort (s : State) (p : Nat) (x : EpPort) : State :=
  { s with regs := { s.regs with ports := s.regs.ports.set p x } }

/-- The hardware agent's record of physical endpoint `p` (R136). -/
def State.hwEp (s : State) (p : Nat) : HwEndpoint := s.hw.eps.getD p HwEndpoint.creation

/-- Write the hardware agent's record of physical endpoint `p`. -/
def State.setHwEp (s : State) (p : Nat) (h : HwEndpoint) : State :=
  { s with hw := { s.hw with eps := s.hw.eps.set p h } }

/-- `ctl.ep0_phase <- ph`. -/
def State.setPhase (s : State) (ph : Phase) : State := { s with ctl := { s.ctl with ep0Phase := ph } }

/-- `RegWrite(DEVCTL.dev_addr, a)` (R40). -/
def State.setDevAddr (s : State) (a : BitVec 7) : State := { s with regs := { s.regs with devAddr := a } }

/-- `RegWrite(DEVCTL.run_stop, b)` (R39). -/
def State.setRunStop (s : State) (b : Bool) : State := { s with regs := { s.regs with runStop := b } }

/-- `EP_ENABLE[p] <- b` (R44). -/
def State.setEnable (s : State) (p : Nat) (b : Bool) : State := s.setPort p { s.port p with enabled := b }

/-- The weighted bits of a list of enable bits, lowest first. -/
def enableWord : List EpPort → Nat
  | [] => 0
  | x :: xs => x.enabled.toNat + 2 * enableWord xs

/-- `EP_ENABLE` read as one word: bit `p` is endpoint `p`'s enable bit (R44). -/
def State.epEnable (s : State) : Nat := enableWord s.regs.ports

/-- `td_addr(p)` (R76). -/
def State.tdAddr (s : State) (p : Nat) : Nat := s.cfg.tdAddrs.getD p 0

/-- Refuse an operation word with `p >= NUM_PHYS_EP` (R104), else go on with the endpoint number. -/
def withEp (p : Nat) (s : State) (k : Nat → Out State) : Out State :=
  if p < s.cfg.numPhysEp then k p else .refused .illegalEndpoint

/-! ## Requests -/

/-- Look a reference up among the request objects. -/
def findReq : List (ReqRef × Request) → ReqRef → Option Request
  | [], _ => none
  | x :: xs, r => if x.1 = r then some x.2 else findReq xs r

/-- Write a request object, in place if it exists. -/
def putReq : List (ReqRef × Request) → ReqRef → Request → List (ReqRef × Request)
  | [], r, q => [(r, q)]
  | x :: xs, r, q => if x.1 = r then (r, q) :: xs else x :: putReq xs r q

/-- What a reference without an object reads as: a fresh request, internal for the engine's own (R33, R170; log 14). -/
def absentReq : ReqRef → Request
  | .user _ => Request.fresh 0
  | .setupRead => { Request.fresh 0 with callback := .internal }
  | .statusReply => { Request.fresh 0 with callback := .internal }
  | .selRead => { Request.fresh 0 with callback := .internal }
  | .zlp => { Request.fresh 0 with callback := .internal }

/-- The request object `r`. -/
def State.req (s : State) (r : ReqRef) : Request := (findReq s.reqs r).getD (absentReq r)

/-- Write the request object `r`. -/
def State.setReq (s : State) (r : ReqRef) (q : Request) : State := { s with reqs := putReq s.reqs r q }

/-- The request object `r` ceases to exist (R171). -/
def State.dropReq (s : State) (r : ReqRef) : State :=
  { s with reqs := s.reqs.filter fun x => decide (x.1 ≠ r) }

/-- `r` is on some endpoint's queue (R32). -/
def State.onAnyQueue (s : State) (r : ReqRef) : Bool := s.eps.any fun e => e.queue.contains r

/-- The upper-layer request numbers in a list of references. -/
def userIds : List ReqRef → List Nat
  | [] => []
  | .user n :: rs => n :: userIds rs
  | _ :: rs => userIds rs

/-- Every upper-layer request number in use: of an object, or on a queue. -/
def State.usedIds (s : State) : List Nat :=
  userIds (s.reqs.map fun x => x.1) ++ userIds (s.eps.flatMap fun e => e.queue)

/-- The least number above every number of a list. -/
def aboveAll : List Nat → Nat
  | [] => 0
  | n :: ns => max (n + 1) (aboveAll ns)

/-- A number no request uses (R170 "a fresh Request"). -/
def State.freshId (s : State) : Nat := aboveAll s.usedIds

/-! ## Device-visible memory (R46, R70) -/

/-- One byte; an address that is not listed reads 0 (DESIGN CHOICE, log 10). -/
def Memory.get : Memory → Nat → Byte
  | [], _ => 0#8
  | c :: m, a => if c.1 = a then c.2 else Memory.get m a

/-- Write one byte, keeping addresses strictly rising and no 0 listed. -/
def Memory.set : Memory → Nat → Byte → Memory
  | [], a, v => if v = 0#8 then [] else [(a, v)]
  | c :: m, a, v =>
    if a < c.1 then (if v = 0#8 then c :: m else (a, v) :: c :: m)
    else if a = c.1 then (if v = 0#8 then m else (a, v) :: m)
    else c :: Memory.set m a v

/-- Every listed address is at least `lo`, strictly rising, and no listed byte is 0. -/
def Memory.wfFrom : Nat → Memory → Bool
  | _, [] => true
  | lo, c :: m => decide (lo ≤ c.1) && decide (c.2 ≠ 0#8) && Memory.wfFrom (c.1 + 1) m

/-- The canonical form of memory. -/
def Memory.wf (m : Memory) : Bool := Memory.wfFrom 0 m

/-- Write bytes from address `a` upward. -/
def Memory.setBytes : Memory → Nat → List Byte → Memory
  | m, _, [] => m
  | m, a, b :: bs => Memory.setBytes (Memory.set m a b) (a + 1) bs

/-- The `n` bytes from address `a` upward. -/
def Memory.getBytes : Memory → Nat → Nat → List Byte
  | _, _, 0 => []
  | m, a, n + 1 => Memory.get m a :: Memory.getBytes m (a + 1) n

/-- The value of little-endian bytes (R70: the sum of `byte[i] * 256^i`). -/
def ofBytes : List Byte → Nat
  | [] => 0
  | b :: bs => b.toNat + 256 * ofBytes bs

/-- The low `n` bytes of a value, little-endian (R70). -/
def toBytes : Nat → Nat → List Byte
  | 0, _ => []
  | n + 1, v => BitVec.ofNat 8 v :: toBytes n (v / 256)

/-- The `n` bytes at `a` lie inside the `ADDR_BITS` space (R46). -/
def State.inSpace (s : State) (a n : Nat) : Bool := decide (a + n ≤ 2 ^ s.cfg.addrBits)

/-- Write bytes to device-visible memory; past the address space it faults (log 11). -/
def writeMem (a : Nat) (bs : List Byte) (s : State) : Out State :=
  if s.inSpace a bs.length then .next { s with mem := Memory.setBytes s.mem a bs }
  else .fault .addressBeyondSpace

/-- Read `n` bytes of device-visible memory; past the address space it faults (log 11). -/
def readMem (a n : Nat) (s : State) : Out (List Byte) :=
  if s.inSpace a n then .next (Memory.getBytes s.mem a n) else .fault .addressBeyondSpace

/-- `a` holds a byte of an event record the hardware has counted and the engine has not acknowledged (R43, R82). -/
def State.pendingByte (s : State) (a : Nat) : Bool :=
  decide (s.regs.evbufBase ≤ a ∧ a < s.regs.evbufBase + s.cfg.evtBufBytes ∧
    (a - s.regs.evbufBase + s.cfg.evtBufBytes - s.ctl.evtCursor) % s.cfg.evtBufBytes < s.regs.evbufCount)

/-- A write from outside the engine: it does not overwrite a record until it is acknowledged (R82); one that would is refused
(log 35). -/
def writeOutside (a : Nat) (bs : List Byte) (s : State) : Out State :=
  if (List.range bs.length).any fun i => s.pendingByte (a + i) then .refused .overwritesRecord else writeMem a bs s

/-- Synchronise a mapped buffer with the device: a no-op on state (R83, R77). -/
def syncBuffer (_buf _len : Nat) (s : State) : State := s

/-! ## Outputs, marks, draws -/

/-- Record an output. -/
def State.emit (s : State) (o : Output) : State := { s with outs := s.outs ++ [o] }

/-- Record a hazard mark (R305). -/
def State.mark (s : State) (m : Mark) : State := { s with marks := s.marks ++ [m] }

/-- Return a value to the caller. -/
def State.returns (s : State) (r : Ret) : State := s.emit (.returned r)

/-- `raise e` of an error delivered synchronously (R9, R260): the caller gets it and nothing else changes. -/
def raiseErr (e : Err) (s : State) : Out State := .next (s.returns (.err e))

/-- The next command draw; with none left, the trace default `cmd=ok`, `idx=0` (R110). -/
def State.cmdDraw (s : State) : CmdDraw := s.draws.cmds.headD { stillActive := 0, idx := 0 }

/-- The command draw is used up. -/
def State.popCmd (s : State) : State := { s with draws := { s.draws with cmds := s.draws.cmds.tail } }

/-- `draw map_ok` (R77); the trace default is `ok` (R110). -/
def State.mapDraw (s : State) : Bool := s.draws.maps.headD true

/-- The map draw is used up. -/
def State.popMap (s : State) : State := { s with draws := { s.draws with maps := s.draws.maps.tail } }

/-- `RegRead(DEVSTS.speed)`: the hardware writes the register before it is read, where a draw is left (R41, I2). -/
def State.latchSpeed (s : State) : State :=
  { s with
    regs := { s.regs with stsSpeed := s.draws.speeds.headD s.regs.stsSpeed }
    draws := { s.draws with speeds := s.draws.speeds.tail } }

/-- The next SETUP answer; with none left, 0 and no calls (log 6). -/
def State.setupDraw (s : State) : SetupDraw := s.draws.setups.headD { ret := 0, calls := [] }

/-- The SETUP answer is used up. -/
def State.popSetup (s : State) : State := { s with draws := { s.draws with setups := s.draws.setups.tail } }

end Sys2Proof.Machine
end

