-- ==== Sys2Proof/Machine/Operands.lean ====
section
/-! DEFINITION. Operand forms, field encodings and the block's arithmetic: endpoint numbering (R7), lengths (R8, R122, R238),
the descriptor forms (R102), the setup packet (R71, R103), the TD layout (R99), the code tables
(R95, R98, R260, R268), and `MAXP_TABLE` lookup (R243). -/

namespace Sys2Proof.Machine

/-! ## Endpoint numbering (R7) -/

/-- Code of a direction: OUT = 0, IN = 1 (R98). -/
def dirCode : Dir → Nat
  | .OUT => 0
  | .IN => 1

/-- `phys(n, d) = n*2 + d` (R7). -/
def phys (n : Nat) (d : Dir) : Nat := n * 2 + dirCode d

/-- The logical number of physical endpoint `p` (R7). -/
def epNum (p : Nat) : Nat := p / 2

/-- The direction of physical endpoint `p` (R7). -/
def epDir (p : Nat) : Dir := if p % 2 = 0 then .OUT else .IN

/-- Physical endpoints 0 and 1 are both "endpoint 0" (R126). -/
def isEp0 (p : Nat) : Bool := decide (p = 0 ∨ p = 1)

/-! ## Lengths -/

/-- `ceil_div(a, b)` (R8). -/
def ceilDiv (a b : Nat) : Nat := (a + b - 1) / b

/-- `roundup(a, b)` (R8). -/
def roundup (a b : Nat) : Nat := ceilDiv a b * b

/-- `xfer_len` (R122): exact for IN, rounded up to a max-packet multiple for OUT; a zero max-packet OUT and a length that
does not fit `LEN_BITS` fault, in that order. -/
def xferLen (d : Dir) (maxp len lenBits : Nat) : Out Nat :=
  if d = .OUT ∧ maxp = 0 then .fault .zeroMaxPacket
  else
    let n := if d = .IN then len else roundup len maxp
    if 2 ^ lenBits ≤ n then .fault .lengthOverflow else .next n

/-- `actual = min(length, xfer_len - remaining)` (R234, R238). -/
def actualLen (len xlen rem : Nat) : Nat := min len (xlen - rem)

/-- The control type of an EP0 transfer in a phase; the other phases fault (R126). -/
def ep0CtlType : Phase → Out CtlType
  | .setup => .next .setup
  | .data => .next .data
  | .status2 => .next .status2
  | .status3 => .next .status3
  | .unconnected | .waitNrdy | .stalled => .fault .ep0BadPhase

/-- The control type of a transfer on physical endpoint `p` (R123, R126). -/
def ctlTypeFor (p : Nat) (ph : Phase) : Out CtlType := if isEp0 p then ep0CtlType ph else .next .normal

/-- The phase a status stage enters (R198, R199). -/
def statusPhase (hasData : Bool) (after : StatusAfterData) : Phase :=
  if hasData then (match after with | .status2 => .status2 | .status3 => .status3) else .status2

/-- Opposite of the data stage; IN with no data stage (R198). -/
def statusDir (hasData : Bool) (dataDir : Dir) : Dir := if hasData && decide (dataDir = .IN) then .OUT else .IN

/-! ## Code tables -/

/-- Endpoint type codes; `none` has no code (R98). -/
def epTypeCode : EpType → Option Nat
  | .none => Option.none
  | .control => some 0
  | .bulk => some 2
  | .interrupt => some 3

/-- Descriptor type codes (R98). -/
def descTypeCode : DescType → Nat
  | .control => 0
  | .isochronous => 1
  | .bulk => 2
  | .interrupt => 3

/-- Speed codes (R98). -/
def speedCode : Speed → Nat
  | .SS => 0
  | .HS => 1
  | .FS => 2
  | .LS => 3

/-- TD control type codes (R98). -/
def ctlTypeCode : CtlType → Nat
  | .normal => 0
  | .setup => 1
  | .data => 2
  | .status2 => 3
  | .status3 => 4

/-- Request status codes (R98). -/
def statusCode : ReqStatus → Nat
  | .inProgress => 0
  | .success => 1
  | .shutdown => 2
  | .connectionReset => 3

/-- Command codes (R95). -/
def cmdCode : CmdType → Nat
  | .startNewConfig => 0
  | .setEpConfig => 1
  | .setXferResource => 2
  | .startTransfer => 3
  | .endTransfer => 4
  | .setStall => 5
  | .clearStall => 6

/-- Error codes 1 to 5 (R261 to R265). -/
def errCode : Err → Nat
  | .hardwareCommandTimeout => 1
  | .unsupportedEndpointType => 2
  | .mismatchedDescriptor => 3
  | .bufferMapFailure => 4
  | .requestNotFound => 5

/-- Codes 6 and 7 of the synthetic completion results (R266). -/
def resultErrCode : Result → Option Nat
  | .success => Option.none
  | .shutdown => some 6
  | .connectionReset => some 7

/-- Fault codes (R268); the model's own fault has none. -/
def faultCode : Fault → Option Nat
  | .zeroMaxPacket => some 16
  | .lengthOverflow => some 17
  | .ep0BadPhase => some 18
  | .deferOverflow => some 19
  | .descriptorStillOwned => some 20
  | .remainingTooLarge => some 21
  | .badEventCount => some 22
  | .badEventEndpoint => some 23
  | .reentrantDispatch => some 24
  | .addressBeyondSpace => Option.none

/-- The request status a completion result gives (R180). -/
def resultStatus : Result → ReqStatus
  | .success => .success
  | .shutdown => .shutdown
  | .connectionReset => .connectionReset

/-! ## `MAXP_TABLE` -/

/-- One row's entry for an endpoint type; an endpoint without a type has no entry and reads 0 (R243 never asks). -/
def maxpOfRow (r : MaxpRow) : EpType → Nat
  | .none => 0
  | .control => r.control
  | .bulk => r.bulk
  | .interrupt => r.interrupt

/-- `MAXP_TABLE(speed, type)` (R6, R243). -/
def maxpLookup (t : MaxpTable) (sp : Speed) (ty : EpType) : Nat :=
  match sp with
  | .SS => maxpOfRow t.ss ty
  | .HS => maxpOfRow t.hs ty
  | .FS => maxpOfRow t.fs ty
  | .LS => maxpOfRow t.ls ty

/-! ## Descriptors (R102) -/

/-- Type from `bmAttributes[1:0]` (R98, R102). -/
def descTypeOfCode (c : Nat) : DescType :=
  match c with
  | 0 => .control
  | 1 => .isochronous
  | 2 => .bulk
  | _ => .interrupt

/-- A descriptor from its operand form: USB bytes give `bEndpointAddress[3:0]`, `[7]`, `bmAttributes[1:0]`,
`wMaxPacketSize[10:0]`, and `burst` 0 (R102). -/
def descOfArg : DescArg → Descriptor
  | .record d => d
  | .usb addr attr mps =>
    { num := bits addr.toNat 3 0, dir := if bits addr.toNat 7 7 = 0 then .OUT else .IN,
      type := descTypeOfCode (bits attr.toNat 1 0), maxp := bits mps.toNat 10 0, burst := 0 }

/-- The endpoint type a descriptor type records; isochronous has none (R24, R150). -/
def epTypeOfDesc : DescType → Option EpType
  | .control => some .control
  | .isochronous => Option.none
  | .bulk => some .bulk
  | .interrupt => some .interrupt

/-! ## Setup packets (R71, R103, R193, R194) -/

/-- The control-transfer record of an 8-byte setup packet (R71, R193). -/
def decodeSetup (pkt : BitVec 64) : Ep0Ctx :=
  let rt : BitVec 8 := pkt.extractLsb' 0 8
  let len : BitVec 16 := pkt.extractLsb' 48 16
  { bmRequestType := rt, bRequest := pkt.extractLsb' 8 8, wValue := pkt.extractLsb' 16 16,
    wIndex := pkt.extractLsb' 32 16, wLength := len,
    hasData := decide (0 < len.toNat), dataDir := if bits rt.toNat 7 7 = 1 then .IN else .OUT }

/-- The five standard requests answered locally (R103). -/
inductive LocalReq where
  | getStatus | clearFeature | setFeature | setAddress | setSel
  deriving DecidableEq, Repr

/-- `bRequest` of a local request (R103). -/
def localReqOfCode (c : Nat) : Option LocalReq :=
  match c with
  | 0 => some .getStatus
  | 1 => some .clearFeature
  | 3 => some .setFeature
  | 5 => some .setAddress
  | 48 => some .setSel
  | _ => none

/-- `is_local(ctx)`: standard (`bmRequestType[6:5] = 0`) and one of the five codes (R194). -/
def localReq (c : Ep0Ctx) : Option LocalReq :=
  if bits c.bmRequestType.toNat 6 5 = 0 then localReqOfCode c.bRequest.toNat else none

/-- Recipient `bmRequestType[4:0]` (R103). -/
def recipient (c : Ep0Ctx) : Nat := bits c.bmRequestType.toNat 4 0

/-- The endpoint `wIndex` names, `phys(wIndex[3:0], wIndex[7])` (R202). -/
def indexEp (c : Ep0Ctx) : Nat := bits c.wIndex.toNat 3 0 * 2 + bits c.wIndex.toNat 7 7

/-! ## TD layout (R99) -/

/-- Write the `w` bits of `x` from bit `lo` up. -/
def putField (x lo w v : Nat) : Nat := x - x / 2 ^ lo % 2 ^ w * 2 ^ lo + v % 2 ^ w * 2 ^ lo

/-- Read the `w` bits of `x` from bit `lo` up. -/
def getField (x lo w : Nat) : Nat := x / 2 ^ lo % 2 ^ w

/-- `encode_TD` (R123) in the layout `TD_LAYOUT`: sixteen bytes, every bit outside the fields 0. Where the length and the
remaining length are one field, it holds the length (R99). -/
def encodeTd (c : Config) (t : Td) : List Byte :=
  let k := c.tdLayout
  let x1 := putField 0 k.bufBit c.addrBits t.bufAddr
  let x2 := putField x1 k.remBit c.lenBits t.remaining
  let x3 := putField x2 k.lenBit c.lenBits t.length
  let x4 := putField x3 k.ownerBit 1 t.owner.toNat
  toBytes 16 (putField x4 k.ctlBit 3 (ctlTypeCode t.ctlType))

/-- `owner` of a TD's sixteen bytes (R27, R99). -/
def tdOwner (c : Config) (bs : List Byte) : Bool := decide (getField (ofBytes bs) c.tdLayout.ownerBit 1 = 1)

/-- `bufAddr` of a TD's sixteen bytes (R27, R99). -/
def tdBufAddr (c : Config) (bs : List Byte) : Nat := getField (ofBytes bs) c.tdLayout.bufBit c.addrBits

/-- `remaining` of a TD's sixteen bytes (R27, R99). -/
def tdRemaining (c : Config) (bs : List Byte) : Nat := getField (ofBytes bs) c.tdLayout.remBit c.lenBits

/-- A TD's sixteen bytes as the hardware writes them back: the owner bit, and the remaining length if one is given; every other
bit as it was (R27, R47). -/
def tdWriteBack (c : Config) (remaining : Option Nat) (owner : Bool) (bs : List Byte) : List Byte :=
  let x := ofBytes bs
  let y := match remaining with | some n => putField x c.tdLayout.remBit c.lenBits n | none => x
  toBytes 16 (putField y c.tdLayout.ownerBit 1 owner.toNat)

end Sys2Proof.Machine
end

