-- ==== Sys2Proof/Machine/Window.lean ====
section
/-! DEFINITION. The register window as bytes at addresses (R38, R70): the registers by name, where `REG_MAP` places them and their
fields, the `EPCMD[p]` layout (R101), and what a read of the window gives. The engine's operations name their registers and
fields (R9), so nothing else depends on the map. -/

namespace Sys2Proof.Machine

/-- The registers of the window (R39 to R45). -/
inductive RegName where
  | devctl | devsts | evbufBase | evbufSize | evbufCount | epEnable
  | epPar0 (p : Nat) | epPar1 (p : Nat) | epPar2 (p : Nat) | epCmd (p : Nat)
  deriving DecidableEq, Repr

/-- The address of a register (R38, R76). -/
def regAddress (m : RegMap) : RegName → Nat
  | .devctl => m.base + m.devctl
  | .devsts => m.base + m.devsts
  | .evbufBase => m.base + m.evbufBase
  | .evbufSize => m.base + m.evbufSize
  | .evbufCount => m.base + m.evbufCount
  | .epEnable => m.base + m.epEnable
  | .epPar0 p => m.base + m.epPar0 + p * m.epStride
  | .epPar1 p => m.base + m.epPar1 + p * m.epStride
  | .epPar2 p => m.base + m.epPar2 + p * m.epStride
  | .epCmd p => m.base + m.epCmd + p * m.epStride

/-- The `EPCMD[p]` word (R45, R101). DESIGN CHOICE (log 5): a bit outside the fields is 0, and `type` has the 4 bits of R101's
default layout in every `REG_MAP`, since R45 gives it no width. -/
def encodeEpCmd (m : RegMap) (c : EpCmd) : Nat :=
  let x1 := putField 0 m.typeBit 4 (cmdCode c.type)
  let x2 := putField x1 m.forceBit 1 c.force.toNat
  let x3 := putField x2 m.iocBit 1 c.ioc.toNat
  let x4 := putField x3 m.activeBit 1 c.active.toNat
  putField x4 m.resIdxBit m.resIdxBits c.resIdx

/-- The command a type field names (R95, R101). -/
def cmdTypeOfCode (c : Nat) : Option CmdType :=
  match c with
  | 0 => some .startNewConfig
  | 1 => some .setEpConfig
  | 2 => some .setXferResource
  | 3 => some .startTransfer
  | 4 => some .endTransfer
  | 5 => some .setStall
  | 6 => some .clearStall
  | _ => none

/-- The fields of an `EPCMD[p]` word (R101). DESIGN CHOICE (log 5): the widths are those of `encodeEpCmd`. -/
def decodeEpCmd (m : RegMap) (w : Nat) : Option EpCmd :=
  (cmdTypeOfCode (getField w m.typeBit 4)).map fun t =>
    { type := t, force := decide (getField w m.forceBit 1 = 1), ioc := decide (getField w m.iocBit 1 = 1),
      active := decide (getField w m.activeBit 1 = 1), resIdx := getField w m.resIdxBit m.resIdxBits }

/-- What a register reads as; `EPPAR0..2[p]` are write-only to the engine (R45). DESIGN CHOICE (log 5): a bit outside the fields
reads 0, and `DEVSTS.speed` has 2 bits with the codes of R98 in every `REG_MAP`, since R41 gives it no width and no code. -/
def State.regWord (s : State) : RegName → Option Nat
  | .devctl =>
    some (putField (putField 0 s.cfg.regMap.runStopBit 1 s.regs.runStop.toNat) s.cfg.regMap.devAddrBit 7 s.regs.devAddr.toNat)
  | .devsts => some (putField 0 s.cfg.regMap.speedBit 2 (speedCode s.regs.stsSpeed))
  | .evbufBase => some s.regs.evbufBase
  | .evbufSize => some s.regs.evbufSize
  | .evbufCount => some s.regs.evbufCount
  | .epEnable => some s.epEnable
  | .epPar0 _ => none
  | .epPar1 _ => none
  | .epPar2 _ => none
  | .epCmd p => some (encodeEpCmd s.cfg.regMap (s.port p).cmd)

/-- The readable registers of the window. -/
def readableRegs (numPhysEp : Nat) : List RegName :=
  [.devctl, .devsts, .evbufBase, .evbufSize, .evbufCount, .epEnable] ++ (List.range numPhysEp).map .epCmd

/-- The least number of bytes that hold `n` bits. -/
def bytesFor (n : Nat) : Nat := (n + 7) / 8

/-- How many bytes of the window a register takes. DESIGN CHOICE (log 5): a word of the map, and as many as they need for the
registers whose widths are `ADDR_BITS` (R42) and `NUM_PHYS_EP` (R44). -/
def regBytes (c : Config) : RegName → Nat
  | .evbufBase => max c.regMap.wordBytes (bytesFor c.addrBits)
  | .epEnable => max c.regMap.wordBytes (bytesFor c.numPhysEp)
  | _ => c.regMap.wordBytes

/-- The address lies in a register. -/
def inRegister (c : Config) (a : Nat) (r : RegName) : Bool :=
  decide (regAddress c.regMap r ≤ a ∧ a < regAddress c.regMap r + regBytes c r)

/-- The byte at an address of the window, little-endian in its register (R70), if a readable register is there. DESIGN CHOICE
(log 5): where a map places two on one byte the first of `readableRegs` counts. -/
def State.windowByte (s : State) (a : Nat) : Option Byte :=
  match (readableRegs s.cfg.numPhysEp).find? (inRegister s.cfg a) with
  | some r => (s.regWord r).map fun w => BitVec.ofNat 8 (w / 256 ^ (a - regAddress s.cfg.regMap r))
  | none => none

/-- The `n` bytes of the window from `a` on, if each is readable. -/
def State.windowBytes (s : State) (a : Nat) : Nat → Option (List Byte)
  | 0 => some []
  | n + 1 => (s.windowByte a).bind fun b => (s.windowBytes (a + 1) n).map fun bs => b :: bs

/-- A read of `n` bytes at an address of the window: the sum of `byte[a + i] * 256^i` (R70). -/
def State.readWindow (s : State) (a n : Nat) : Option Nat := (s.windowBytes a n).map ofBytes

end Sys2Proof.Machine
end

