-- ==== Sys2Proof/Machine/Flags.lean ====
section
/-! DEFINITION. The status flags of the block and what writes each (R36): halted, not_ready, connected, cfg_started,
dispatching, and the mapped and status fields of a request. Every write of a flag goes through one of these. -/

namespace Sys2Proof.Machine

/-- `ep[p].halted <- b` (R36, R212, R240). -/
def State.setHalted (s : State) (p : Nat) (b : Bool) : State := s.setEp p { s.ep p with halted := b }

/-- `ep[p].not_ready <- b` (R36, R132, R138, R158). -/
def State.setNotReady (s : State) (p : Nat) (b : Bool) : State := s.setEp p { s.ep p with notReady := b }

/-- `ctl.connected <- b` (R36, R243, R246). -/
def State.setConnected (s : State) (b : Bool) : State := { s with ctl := { s.ctl with connected := b } }

/-- `ctl.cfg_started <- b` (R36, R152, R240). -/
def State.setCfgStarted (s : State) (b : Bool) : State := { s with ctl := { s.ctl with cfgStarted := b } }

/-- `ctl.dispatching <- b` (R36, R230). -/
def State.setDispatching (s : State) (b : Bool) : State := { s with ctl := { s.ctl with dispatching := b } }

/-- Clear every endpoint's halted flag (R240). -/
def State.clearHalts (s : State) : State := { s with eps := s.eps.map fun e => { e with halted := false } }

/-- The status a completion leaves: it changes only from InProgress, so the first error wins (R180, R182). -/
def settleStatus (old : ReqStatus) (res : Result) : ReqStatus :=
  if old = .inProgress then resultStatus res else old

end Sys2Proof.Machine
end

