-- ==== Sys2Proof/Machine/Command.lean ====
section
/-! DEFINITION. The command issuer (40_transfer_and_commands.md, R95, R130 to R141): the seven commands and their parameters,
the hardware's effect (R136), issue_now, issue, drain_deferred, and the meanings of the class 0x4 operations, `issue` and
`drain_deferred`. -/

namespace Sys2Proof.Machine

/-! ## The commands (R95) -/

/-- SET_EP_CONFIG of endpoint `p` (R153): type and maxp; burst, and the FIFO number for IN; the notification set. -/
def setEpConfigCmd (p : Nat) (e : Endpoint) : Command :=
  { Command.plain p .setEpConfig with
    par0 := .epConfig e.type e.maxp
    par1 := .burstFifo e.burst (if epDir p = .IN then epNum p else 0)
    par2 := .notify true true }

/-- SET_XFER_RESOURCE: reserve one slot (R154). -/
def setXferResourceCmd (p : Nat) : Command := { Command.plain p .setXferResource with par0 := .word 1 }

/-- START_TRANSFER with the TD address, high word then low word (R123). -/
def startTransferCmd (p tdAddr : Nat) : Command :=
  { Command.plain p .startTransfer with
    par0 := .word (BitVec.ofNat 32 (tdAddr / 2 ^ 32))
    par1 := .word (BitVec.ofNat 32 tdAddr) }

/-- END_TRANSFER, force and ioc, of the transfer `idx` (R158). -/
def endTransferCmd (p idx : Nat) : Command :=
  { Command.plain p .endTransfer with force := true, ioc := true, resIdx := idx }

/-! ## The hardware's side (R136, log 19) -/

/-- The configuration the parameters of a SET_EP_CONFIG carry (R153); none if they have other contents. -/
def hwConfigOf (c : Command) : Option HwConfig :=
  match c.par0, c.par1, c.par2 with
  | .epConfig ty mp, .burstFifo b f, .notify x y =>
    some { type := ty, maxp := mp, burst := b, fifo := f, notify := (x, y) }
  | _, _, _ => none

/-- The TD address a START_TRANSFER carries, high word then low word (R95, R123); none if its parameters are no words. -/
def hwTdOf (c : Command) : Option Nat :=
  match c.par0, c.par1 with
  | .word hi, .word lo => some (hi.toNat * 2 ^ 32 + lo.toNat)
  | _, _ => none

/-- The transfer END_TRANSFER aborts, if the hardware runs the one with that index (R136). -/
def abortRunning (idx : Nat) (r : Option Running) : Option Running :=
  match r with
  | some x => if x.idx = idx then none else some x
  | none => none

/-- The effect of a command on its endpoint's hardware record (R136): START_TRANSFER takes the TD at the address it carries; the
endpoint then has no command outstanding. DESIGN CHOICE (log 19): a SET_EP_CONFIG whose parameters do not have R153's contents
leaves the configuration as it was, an END_TRANSFER aborts whatever its `force` is, a START_TRANSFER takes the place of a transfer
the hardware still runs there, whose index is then known no more, and a START_NEW_CONFIG keeps the configuration and the slots the
hardware already holds; the spec is silent on all four. -/
def hwEpEffect (c : Command) (idx : Nat) (h : HwEndpoint) : HwEndpoint :=
  match c.type with
  | .startNewConfig => { h with late := none }
  | .setEpConfig => { h with config := (match hwConfigOf c with | some k => some k | none => h.config), late := none }
  | .setXferResource => { h with slots := h.slots + 1, late := none }
  | .startTransfer => { h with running := some { idx := idx, td := hwTdOf c }, late := none }
  | .endTransfer => { h with running := abortRunning c.resIdx h.running, late := none }
  | .setStall => { h with stalled := true, late := none }
  | .clearStall => { h with stalled := false, late := none }

/-- The hardware performs a command (R136). DESIGN CHOICE (log 19): a START_NEW_CONFIG counts one more new configuration and
changes no endpoint's configuration, slots, stall or running transfer. -/
def hwPerform (c : Command) (idx : Nat) (s : State) : State :=
  let s1 := s.setHwEp c.target (hwEpEffect c idx (s.hwEp c.target))
  if c.type = .startNewConfig then { s1 with hw := { s1.hw with configs := s1.hw.configs + 1 } } else s1

/-! ## issue_now (R131, R132) -/

/-- Write the parameters, then the command word with `active = 1` (R131). -/
def writeCommand (c : Command) (s : State) : State :=
  let x := s.port c.target
  (s.setPort c.target
    { x with par0 := c.par0, par1 := c.par1, par2 := c.par2,
             cmd := { type := c.type, active := true, force := c.force, ioc := c.ioc, resIdx := c.resIdx } }).emit
    (.command c)

/-- The hardware clears `EPCMD.active`, and leaves in `resIdx` the index of a started transfer (R45, R131). -/
def finishCommand (c : Command) (idx : Nat) (s : State) : State :=
  let x := s.port c.target
  s.setPort c.target { x with cmd := { x.cmd with active := false, resIdx := idx } }

/-- What `EPCMD.resIdx` reads after a completed command: the returned index after START_TRANSFER, else what was written
(R45, R133). -/
def doneIdx (c : Command) (drawn : Nat) : Nat := if c.type = .startTransfer then drawn else c.resIdx

/-- The hardware completes a command: its effect, then `EPCMD` (R45, R131, R136). -/
def completeCommand (c : Command) (idx : Nat) (s : State) : State := finishCommand c idx (hwPerform c idx s)

/-- The hardware goes on executing a command the engine has given up on (R47(a), R134). DESIGN CHOICE (log 18): it takes the place
of one still outstanding there, which only drain_deferred run alone can meet (R135). -/
def leaveLate (c : Command) (idx : Nat) (s : State) : State :=
  s.setHwEp c.target { s.hwEp c.target with late := some { cmd := c, idx := idx } }

/-- A START_TRANSFER that timed out may still be taken: the hazard of R304 (I7). -/
def lateMarks (c : Command) : List Mark := if c.type = .startTransfer then [.lateStart c.target] else []

/-- issue_now (R131): the poll loop is one draw, `ok` when `active` reads 0 within `CMD_TIMEOUT` polls; on a timeout the
endpoint becomes not-ready and the command is dropped (R132), and the hardware may still be executing it (R134). -/
def issueNow (c : Command) (s : State) : State × CmdRes :=
  let d := s.cmdDraw
  let s1 := (writeCommand c s).popCmd
  if d.stillActive < s.cfg.cmdTimeout then
    (completeCommand c (doneIdx c d.idx) s1, .done (doneIdx c d.idx))
  else
    let s2 := ((leaveLate c d.idx s1).setNotReady c.target true).emit (.localError .hardwareCommandTimeout c.target)
    ({ s2 with marks := s2.marks ++ lateMarks c }, .timeout)

/-- The command outstanding on `p` lands: the hardware completes it (R134). Nothing if none is outstanding. -/
def landLate (p : Nat) (s : State) : State :=
  match (s.hwEp p).late with
  | none => s
  | some x => completeCommand { x.cmd with target := p } (doneIdx x.cmd x.idx) s

/-! ## issue and the drain -/

/-- Append to a deferred FIFO; a full one faults (R30, R130). -/
def defer (c : Command) (s : State) : Out State :=
  let e := s.ep c.target
  if s.cfg.deferCap = some e.deferred.length then .fault .deferOverflow
  else .next (s.setEp c.target { e with deferred := e.deferred ++ [c] })

/-- issue (R130): deferred while the endpoint is not ready, else issued now. -/
def issue (c : Command) (s : State) : Out (State × CmdRes) :=
  if (s.ep c.target).notReady then andThen (defer c s) fun t => .next (t, .deferred)
  else .next (issueNow c s)

/-- One drained command: popped, issued, and a completed END_TRANSFER leaves the endpoint not ready (R138). -/
def drainOne (p : Nat) (c : Command) (rest : List Command) (s : State) : State :=
  let x := issueNow c (s.setEp p { s.ep p with deferred := rest })
  if c.type = .endTransfer ∧ x.2 ≠ .timeout then x.1.setNotReady p true else x.1

/-- The drain loop over at most `n` commands: it stops on an empty FIFO or a not-ready endpoint (R138, R139). -/
def drainLoop : Nat → Nat → State → State
  | 0, _, s => s
  | n + 1, p, s =>
    if (s.ep p).notReady then s
    else match (s.ep p).deferred with
      | [] => s
      | c :: rest => drainLoop n p (drainOne p c rest s)

/-- drain_deferred (R138). The bound is the FIFO's length: a drained command adds none. -/
def drainDeferred (p : Nat) (s : State) : State :=
  drainLoop (s.ep p).deferred.length p (s.setNotReady p false)

/-- The END_TRANSFER of R158: issued if a resource index is outstanding, and then the endpoint is not ready whatever issue
returned. -/
def endTransfer (p : Nat) (s : State) : Out State :=
  match (s.ep p).resIdx with
  | none => .next s
  | some idx => andThen (issue (endTransferCmd p idx) s) fun x => .next (x.1.setNotReady p true)

/-- Issue a command whose result nothing records. -/
def issueCommand (c : Command) (s : State) : Out State := andThen (issue c s) fun x => .next x.1

/-! ## Meanings -/

/-- START_NEW_CONFIG on `p` (R95, R152). -/
def execCmdStartNewConfig (p : EpField) (s : State) : Out State :=
  withEp p.toNat s fun n => issueCommand (Command.plain n .startNewConfig) s

/-- SET_EP_CONFIG on `p`, from the endpoint's record (R95, R153). -/
def execCmdSetEpConfig (p : EpField) (s : State) : Out State :=
  withEp p.toNat s fun n => issueCommand (setEpConfigCmd n (s.ep n)) s

/-- SET_XFER_RESOURCE on `p` (R95, R154). -/
def execCmdSetXferResource (p : EpField) (s : State) : Out State :=
  withEp p.toNat s fun n => issueCommand (setXferResourceCmd n) s

/-- START_TRANSFER on `p` with the address of its TD (R95, R123); never deferred: on a not-ready endpoint nothing is issued
(R121, log 20). -/
def execCmdStartTransfer (p : EpField) (s : State) : Out State :=
  withEp p.toNat s fun n => if (s.ep n).notReady then .next s else issueCommand (startTransferCmd n (s.tdAddr n)) s

/-- END_TRANSFER on `p` (R95, R158). -/
def execCmdEndTransfer (p : EpField) (s : State) : Out State := withEp p.toNat s fun n => endTransfer n s

/-- SET_STALL on `p` (R95). -/
def execCmdSetStall (p : EpField) (s : State) : Out State :=
  withEp p.toNat s fun n => issueCommand (Command.plain n .setStall) s

/-- CLEAR_STALL on `p` (R95). -/
def execCmdClearStall (p : EpField) (s : State) : Out State :=
  withEp p.toNat s fun n => issueCommand (Command.plain n .clearStall) s

/-- issue of the Command beside the word, on target `p`; it returns R133's result. -/
def execProcIssue (p : EpField) (s : State) : Out State :=
  withEp p.toNat s fun n => andThen (issue { s.args.cmd with target := n } s) fun x => .next (x.1.returns (.cmd x.2))

/-- drain_deferred on `p` (R138). -/
def execProcDrainDeferred (p : EpField) (s : State) : Out State :=
  withEp p.toNat s fun n => .next (drainDeferred n s)

end Sys2Proof.Machine
end

