-- ==== Sys2Proof/Machine/Transfer.lean ====
section
/-! DEFINITION. The transfer descriptor builder: start_transfer (R120 to R127), and placing a request on a queue
(the tail of submit, R172). -/

namespace Sys2Proof.Machine

/-- Write endpoint `p`'s TD: the record and its sixteen bytes in device-visible memory (R123); a misaligned TD is refused
(R72). -/
def placeTd (p : Nat) (td : Td) (s : State) : Out State :=
  if s.tdAddr p % s.cfg.tdAlign = 0 then
    writeMem (s.tdAddr p) (encodeTd s.cfg td) (s.setEp p { s.ep p with td := td })
  else .refused .misalignedTd

/-- What start_transfer records of the command's result: the index and the active marker on success (R124); nothing on a
timeout (R125). -/
def recordStart (p : Nat) (r : ReqRef) (x : State × CmdRes) : State :=
  match x.2 with
  | .done idx => x.1.setEp p { x.1.ep p with resIdx := some idx, active := some r }
  | .timeout => x.1
  | .deferred => x.1

/-- start_transfer of the request `r` at the queue's head (R122 to R126). -/
def startHead (p : Nat) (r : ReqRef) (s : State) : Out State :=
  andThen (xferLen (epDir p) (s.ep p).maxp (s.req r).length s.cfg.lenBits) fun n =>
  andThen (ctlTypeFor p s.ctl.ep0Phase) fun t =>
  andThen (placeTd p { bufAddr := (s.req r).buf, length := n, remaining := n, owner := true, ctlType := t } s) fun s1 =>
  andThen (issue (startTransferCmd p (s.tdAddr p)) s1) fun x => .next (recordStart p r x)

/-- start_transfer (R120, R121, R127): nothing on a halted or not-ready endpoint, with an active request, or with an empty
queue; otherwise the head starts. -/
def startTransfer (p : Nat) (s : State) : Out State :=
  let e := s.ep p
  if e.halted ∨ e.notReady ∨ e.active.isSome then .next s
  else match e.queue with
    | [] => .next s
    | r :: _ => startHead p r s

/-- Append to the endpoint's queue, and start if it was empty and the endpoint is ready (R172). -/
def enqueue (p : Nat) (r : ReqRef) (s : State) : Out State :=
  let e := s.ep p
  let s1 := s.setEp p { e with queue := e.queue ++ [r] }
  if e.queue = [] ∧ e.notReady = false then startTransfer p s1 else .next s1

/-- submit of one of the engine's own requests on the physical endpoint its rule names (R33, R174, R190): fresh, mapped,
internal; refused if it is already on a queue (R172). -/
def submitInternal (p : Nat) (r : ReqRef) (buf len : Nat) (s : State) : Out State :=
  if s.onAnyQueue r then .refused .alreadyQueued
  else enqueue p r (s.setReq r
    { buf := buf, length := len, callback := .internal, status := .inProgress, actual := 0, mapped := true })

/-- arm_setup (R191). -/
def armSetup (s : State) : Out State := submitInternal 0 .setupRead s.cfg.setupBuf 8 (s.setPhase .setup)

/-- start_transfer on `p` (R120). -/
def execProcStartTransfer (p : EpField) (s : State) : Out State := withEp p.toNat s fun n => startTransfer n s

end Sys2Proof.Machine
end

