-- ==== Sys2Proof/Machine/Lifecycle.lean ====
section
/-! DEFINITION. Endpoint lifecycle: activate (R151 to R156) and deactivate (R157 to R159). -/

namespace Sys2Proof.Machine

/-- The new-configuration command of activate: on the first non-control endpoint since the last reset, on physical
endpoint 0 (R152). -/
def newConfig (p : Nat) (s : State) : Out State :=
  if (s.ep p).type ≠ .control ∧ s.ctl.cfgStarted = false then
    andThen (issue (Command.plain 0 .startNewConfig) s) fun x => .next (x.1.setCfgStarted true)
  else .next s

/-- activate (R151): new configuration if due, configure endpoint, transfer resource, and the enable bit whatever the
commands returned (R155, R156). -/
def activate (p : Nat) (s : State) : Out State :=
  andThen (newConfig p s) fun s1 =>
  andThen (issueCommand (setEpConfigCmd p (s1.ep p)) s1) fun s2 =>
  andThen (issueCommand (setXferResourceCmd p) s2) fun s3 => .next (s3.setEnable p true)

/-- deactivate (R157): the end transfer of R158, then the enable bit at once (R159). -/
def deactivate (p : Nat) (s : State) : Out State :=
  andThen (endTransfer p s) fun s1 => .next (s1.setEnable p false)

/-- activate on `p` (R151). -/
def execProcActivate (p : EpField) (s : State) : Out State := withEp p.toNat s fun n => activate n s

/-- deactivate on `p` (R157). -/
def execProcDeactivate (p : EpField) (s : State) : Out State := withEp p.toNat s fun n => deactivate n s

end Sys2Proof.Machine
end

