-- ==== Sys2Proof/Machine/Completion.lean ====
section
/-! DEFINITION. The completion path over a given callback and a given EP0 phase advance: complete (R180 to R185), kill_all
(R186), and the EP0 stall effects (R214). UpperCall.lean and Control.lean supply the two. -/

namespace Sys2Proof.Machine

/-- What a completion callback does: the host action of R183. -/
abbrev CallbackAct := ReqRef → State → Out State

/-- What a successful completion on EP0 does to the phase: ep0_advance (R196). -/
abbrev AdvanceAct := Nat → ReqRef → State → Out State

/-- No phase advance: what a completion without Success does on EP0 (R185). -/
def noAdvance : AdvanceAct := fun _ _ s => .next s

/-- The first part of complete: status if still InProgress (R182), the active marker and index if the request is the active
one (R181), off the queue, mapping released (R78). Releasing the active request without Success is the hazard of R305. -/
def release (p : Nat) (r : ReqRef) (res : Result) (s : State) : State :=
  let q := s.req r
  let e := s.ep p
  let isActive := decide (e.active = some r)
  let s1 := (s.setReq r { q with status := settleStatus q.status res, mapped := false }).setEp p
    { e with
      queue := e.queue.erase r
      active := if isActive then none else e.active
      resIdx := if isActive then none else e.resIdx }
  if isActive ∧ res ≠ .success then s1.mark (.bufferReleased p r) else s1

/-- complete (R180). -/
def completeWith (cb : CallbackAct) (adv : AdvanceAct) (p : Nat) (r : ReqRef) (res : Result) (s : State) : Out State :=
  let s1 := release p r res s
  andThen (if isEp0 p ∧ res = .success then adv p r s1 else .next s1) fun s2 =>
  andThen (if (s1.req r).callback ≠ .internal then cb r s2 else .next s2) fun s3 =>
  if (s3.ep p).active = none ∧ res = .success then startTransfer p s3 else .next s3

/-- kill_all over the snapshot of the queue, head first; a request no longer queued is skipped (R186). -/
def killAllWith (cb : CallbackAct) (adv : AdvanceAct) (p : Nat) (res : Result) (s : State) : Out State :=
  eachInOrder (fun r t => if r ∈ (t.ep p).queue then completeWith cb adv p r res t else .next t) (s.ep p).queue s

/-- ep0_stall_effects (R214): phase STALLED, both EP0 queues killed with ConnectionReset, then arm_setup. -/
def ep0StallEffectsWith (cb : CallbackAct) (s : State) : Out State :=
  andThen (killAllWith cb noAdvance 0 .connectionReset (s.setPhase .stalled)) fun s1 =>
  andThen (killAllWith cb noAdvance 1 .connectionReset s1) armSetup

end Sys2Proof.Machine
end

