-- ==== Sys2Proof/Machine/UpperCall.lean ====
section
/-! DEFINITION. The upper-layer calls (R92; 41_endpoint_lifecycle.md, 42_requests.md, R212): ENABLE, DISABLE, QUEUE, DEQUEUE,
SET_HALT, ALLOC_REQUEST, FREE_REQUEST, each over the callback it may cause; then the completion callback itself, which makes
such calls nested (R183); then the meanings of the class 0x1 operations. -/

namespace Sys2Proof.Machine

/-- "No upper-layer call is valid before INIT completes" (R292): a call while `run_stop = 0` is marked (log 15). -/
def noteCall (s : State) : State := if s.regs.runStop then s else s.mark .callWhileStopped

/-! ## ENABLE, DISABLE -/

/-- enable (R150): EP0 refused (R162), mismatch, isochronous, in that order (R270); then the record and activate. -/
def callEnable (p : Nat) (d : DescArg) (s : State) : Out State :=
  let dd := descOfArg d
  if isEp0 p then .refused .ep0NotForUpperLayer
  else if dd.num ≠ epNum p ∨ dd.dir ≠ epDir p then raiseErr .mismatchedDescriptor s
  else match epTypeOfDesc dd.type with
    | none => raiseErr .unsupportedEndpointType s
    | some ty =>
      andThen (activate p (s.setEp p { s.ep p with type := ty, maxp := dd.maxp, burst := dd.burst })) fun t =>
        .next (t.returns (.int 0))

/-- disable (R160): EP0 refused (R162), deactivate, then every queued request fails with Shutdown. -/
def callDisable (cb : CallbackAct) (p : Nat) (s : State) : Out State :=
  if isEp0 p then .refused .ep0NotForUpperLayer
  else
    andThen (deactivate p s) fun s1 =>
    andThen (killAllWith cb noAdvance p .shutdown s1) fun s2 => .next (s2.returns (.int 0))

/-! ## QUEUE, DEQUEUE, ALLOC_REQUEST, FREE_REQUEST -/

/-- Where an upper-layer request goes: on EP0 only in phase DATA, on the data stage's endpoint (R174). -/
def ep0Target (p : Nat) (s : State) : Out Nat :=
  if isEp0 p then
    (if s.ctl.ep0Phase = .data then .next (phys 0 s.ctl.ep0Ctx.dataDir) else .fault .ep0BadPhase)
  else .next p

/-- The request as submit first writes it: the caller's buffer, length and callback; InProgress; byte count 0 (R172). -/
def submitted (q : Request) (buf len : Nat) : Request :=
  { q with buf := buf, length := len, callback := .upper, status := .inProgress, actual := 0 }

/-- Two buffers share a byte. -/
def overlap (x y : Nat × Nat) : Bool := decide (0 < x.2 ∧ 0 < y.2) && !regionsDisjoint x y

/-- The launch premise of R76 for a buffer about to be mapped for `r`: disjoint from the TDs, the event ring, the engine's
buffers and every other mapped buffer. -/
def State.bufferClear (s : State) (r : ReqRef) (x : Request) : Bool :=
  !(s.cfg.regions.any (overlap (x.buf, x.length))) &&
  !(s.reqs.any fun y => decide (y.1 ≠ r) && y.2.mapped && overlap (x.buf, x.length) (y.2.buf, y.2.length))

/-- A mapping outside that premise is marked (log 34). -/
def noteBuffer (r : ReqRef) (x : Request) (s : State) : State :=
  if s.bufferClear r x then s else s.mark (.bufferOverlap r)

/-- submit (R172): refused if queued (R32), then the EP0 phase, then the mapping (R173, R270), then the queue. -/
def callQueue (p req buf len : Nat) (s : State) : Out State :=
  let r := ReqRef.user req
  if s.onAnyQueue r then .refused .alreadyQueued
  else
    andThen (ep0Target p s) fun q =>
    let x := submitted (s.req r) (buf % 2 ^ s.cfg.addrBits) len
    if x.mapped then
      andThen (enqueue q r (syncBuffer x.buf len ((noteBuffer r x s).setReq r x))) fun t => .next (t.returns (.int 0))
    else if s.mapDraw then
      andThen (enqueue q r ((noteBuffer r x s.popMap).setReq r { x with mapped := true })) fun t => .next (t.returns (.int 0))
    else raiseErr .bufferMapFailure (s.popMap.setReq r x)

/-- The EP0 physical endpoint holding a request, if any (R176). -/
def holderOf (p : Nat) (r : ReqRef) (s : State) : Nat :=
  if isEp0 p then (if r ∈ (s.ep 0).queue then 0 else if r ∈ (s.ep 1).queue then 1 else p) else p

/-- cancel (R176): RequestNotFound, or completed with ConnectionReset and no hardware abort (R177). -/
def callDequeue (cb : CallbackAct) (p req : Nat) (s : State) : Out State :=
  let r := ReqRef.user req
  let q := holderOf p r s
  if r ∈ (s.ep q).queue then
    andThen (completeWith cb noAdvance q r .connectionReset s) fun t => .next (t.returns (.int 0))
  else raiseErr .requestNotFound s

/-- alloc_request (R170): a fresh request whose buffer address is a free value (log 13). -/
def callAlloc (s : State) : Out State :=
  let id := s.freshId
  let s1 := s.setReq (.user id) (Request.fresh (Config.freeBuf s.freeCtr % 2 ^ s.cfg.addrBits))
  .next ({ s1 with freeCtr := s.freeCtr + 1 }.returns (.request id))

/-- free_request (R171): refused while queued. -/
def callFree (req : Nat) (s : State) : Out State :=
  if s.onAnyQueue (.user req) then .refused .freeOfQueued else .next (s.dropReq (.user req))

/-! ## SET_HALT (R212) -/

/-- The endpoint a stall command addresses: the OUT physical index for a control endpoint (R212). -/
def stallTarget (p : Nat) (s : State) : Nat := if (s.ep p).type = .control then phys (epNum p) .OUT else p

/-- SET_STALL or CLEAR_STALL by value (R212). -/
def stallCmd (p : Nat) (value : Bool) (s : State) : Command :=
  Command.plain (stallTarget p s) (if value then .setStall else .clearStall)

/-- Clear-stall restart (R213). -/
def restartAfterClear (p : Nat) (value : Bool) (s : State) : Out State :=
  if value = false ∧ (s.ep p).type ≠ .control ∧ (s.ep p).active = none ∧ (s.ep p).queue ≠ [] then startTransfer p s
  else .next s

/-- halt_op on an endpoint other than EP0 (R212, R203): the command, then `halted` unless it timed out, then the restart. -/
def haltOp (p : Nat) (value : Bool) (s : State) : Out (State × CmdRes) :=
  andThen (issue (stallCmd p value s) s) fun x =>
  if x.2 = .timeout then .next x
  else andThen (restartAfterClear p value (x.1.setHalted p value)) fun t => .next (t, x.2)

/-- What set_halt returns: -1 on a timeout, else 0 (R212). -/
def haltRet (r : CmdRes) : Ret := .int (if r = .timeout then -1 else 0)

/-- set_halt (R212): on EP0 the stall effects of R214 and no flag (R216); elsewhere halt_op. -/
def callSetHalt (cb : CallbackAct) (p : Nat) (value : Bool) (s : State) : Out State :=
  if isEp0 p then
    andThen (issue (stallCmd p value s) s) fun x =>
    andThen (if value then ep0StallEffectsWith cb x.1 else .next x.1) fun t => .next (t.returns (haltRet x.2))
  else andThen (haltOp p value s) fun x => .next (x.1.returns (haltRet x.2))

/-! ## The completion callback (R183) -/

/-- One nested call. Only upper-layer calls are made from an upcall (R183); an INTERRUPT there faults during a dispatch
(R250), and is refused in the middle of an upper-layer call (R272, log 22). -/
def nestedCall (cb : CallbackAct) (c : NestedCall) (s : State) : Out State :=
  match c with
  | .enable p d => withEp p s fun n => callEnable n d (noteCall s)
  | .disable p => withEp p s fun n => callDisable cb n (noteCall s)
  | .queue p req buf len => withEp p s fun n => callQueue n req buf len (noteCall s)
  | .dequeue p req => withEp p s fun n => callDequeue cb n req (noteCall s)
  | .setHalt p v => withEp p s fun n => callSetHalt cb n v (noteCall s)
  | .allocRequest => callAlloc (noteCall s)
  | .freeRequest req => callFree req (noteCall s)
  | .interrupt => if s.ctl.dispatching then .fault .reentrantDispatch else .refused .interruptInsideOperation

/-- The upcall COMPLETE_CB itself (R96). -/
def emitCb (r : ReqRef) (s : State) : State := s.emit (.completeCb r (s.req r).status (s.req r).actual)

/-- The completion callback with at most `n` callbacks still scripted: the upcall, then its nested calls in order (R183). -/
def callbackN : Nat → CallbackAct
  | 0, r, s => .next (emitCb r s)
  | n + 1, r, s =>
    match s.draws.cbs with
    | [] => .next (emitCb r s)
    | calls :: rest =>
      eachInOrder (nestedCall (callbackN n)) calls (emitCb r { s with draws := { s.draws with cbs := rest } })

/-- The completion callback (R183). Each one uses up a scripted list, so the script's length bounds the nesting. -/
def callback : CallbackAct := fun r s => callbackN s.draws.cbs.length r s

/-! ## Meanings -/

/-- ENABLE `p` (R150). -/
def execEnable (p : EpField) (s : State) : Out State :=
  withEp p.toNat s fun n => callEnable n s.args.desc (noteCall s)

/-- DISABLE `p` (R160). -/
def execDisable (p : EpField) (s : State) : Out State :=
  withEp p.toNat s fun n => callDisable callback n (noteCall s)

/-- QUEUE `p` (R172). -/
def execQueue (p : EpField) (s : State) : Out State :=
  withEp p.toNat s fun n => callQueue n s.args.req s.args.buf s.args.len (noteCall s)

/-- DEQUEUE `p` (R176). -/
def execDequeue (p : EpField) (s : State) : Out State :=
  withEp p.toNat s fun n => callDequeue callback n s.args.req (noteCall s)

/-- SET_HALT `p` (R212). -/
def execSetHalt (p : EpField) (s : State) : Out State :=
  withEp p.toNat s fun n => callSetHalt callback n s.args.value (noteCall s)

/-- ALLOC_REQUEST (R170). -/
def execAllocRequest (s : State) : Out State := callAlloc (noteCall s)

/-- FREE_REQUEST (R171). -/
def execFreeRequest (s : State) : Out State := callFree s.args.req (noteCall s)

end Sys2Proof.Machine
end

