-- ==== Sys2Proof/Machine/Control.lean ====
section
/-! DEFINITION. The EP0 control sequencer (43_ep0_control.md): the SETUP upcall (R209), process_control (R193 to R195, R210),
the five locally answered requests (R201 to R208), ep0_advance (R196, R197, R200), ep0_not_ready (R198), ep0_stall (R214);
complete and kill_all with the two actions supplied (R180, R186); and the meanings of the operations on them. -/

namespace Sys2Proof.Machine

/-- ep0_stall from process_control (R214): SET_STALL on physical endpoint 0, then the effects whatever it returned. -/
def ep0Stall (s : State) : Out State :=
  andThen (issueCommand (Command.plain 0 .setStall) s) fun t => ep0StallEffectsWith callback t

/-- The upcall SETUP (R209): the upper layer makes its nested calls and returns a value. -/
def upcallSetup (pkt : BitVec 64) (s : State) : Out (State × Int) :=
  let d := s.setupDraw
  andThen (eachInOrder (nestedCall callback) d.calls (s.popSetup.emit (.setup pkt d.ret))) fun t => .next (t, d.ret)

/-! ## Locally answered requests -/

/-- The GET_STATUS reply value by recipient, or none for `ret = -1` (R202). -/
def statusReplyValue (c : Ep0Ctx) (s : State) : Option (BitVec 16) :=
  match recipient c with
  | 0 => some s.cfg.deviceStatus
  | 1 => some 0
  | 2 =>
    if s.cfg.numPhysEp ≤ indexEp c then none
    else if isEp0 (indexEp c) then some 0
    else some (BitVec.ofNat 16 (s.ep (indexEp c)).halted.toNat)
  | _ => none

/-- GET_STATUS (R201). -/
def localGetStatus (c : Ep0Ctx) (s : State) : Out (State × Int) :=
  if c.wLength = 2 ∧ c.dataDir = .IN then
    match statusReplyValue c s with
    | none => .next (s, -1)
    | some v =>
      andThen (writeMem s.cfg.statusBuf (toBytes 2 v.toNat) s) fun s1 =>
      andThen (submitInternal 1 .statusReply s.cfg.statusBuf 2 s1) fun s2 => .next (s2, 0)
  else .next (s, -1)

/-- CLEAR_FEATURE (`v = 0`) and SET_FEATURE (`v = 1`) (R203). -/
def localFeature (v : Bool) (c : Ep0Ctx) (s : State) : Out (State × Int) :=
  if c.wLength = 0 then
    match recipient c with
    | 0 => .next (s, 0)
    | 1 => .next (s, 0)
    | 2 =>
      if c.wValue = 0 then
        (if s.cfg.numPhysEp ≤ indexEp c then .next (s, -1)
        else if isEp0 (indexEp c) then .next (s, 0)
        else andThen (haltOp (indexEp c) v s) fun x => .next (x.1, 0))
      else .next (s, -1)
    | _ => .next (s, -1)
  else .next (s, -1)

/-- SET_ADDRESS (R205, R206): only the device-address register, then WAIT-NOT-READY. -/
def localSetAddress (c : Ep0Ctx) (s : State) : Out (State × Int) :=
  if c.wLength = 0 ∧ c.wValue.toNat ≤ 127 then
    .next ((s.setDevAddr (c.wValue.extractLsb' 0 7)).setPhase .waitNrdy, 0)
  else .next (s, -1)

/-- SET_SEL (R207). -/
def localSetSel (c : Ep0Ctx) (s : State) : Out (State × Int) :=
  if c.wLength = 6 ∧ c.dataDir = .OUT then
    andThen (submitInternal 0 .selRead s.cfg.selBuf 6 s) fun s1 => .next (s1, 0)
  else .next (s, -1)

/-- The local handler of a request (R194, R201 to R208). -/
def localHandler (r : LocalReq) (c : Ep0Ctx) (s : State) : Out (State × Int) :=
  match r with
  | .getStatus => localGetStatus c s
  | .clearFeature => localFeature false c s
  | .setFeature => localFeature true c s
  | .setAddress => localSetAddress c s
  | .setSel => localSetSel c s

/-! ## process_control, ep0_advance -/

/-- A setup packet answered locally or forwarded (R193, R194, R209). -/
def answerSetup (pkt : BitVec 64) (c : Ep0Ctx) (s : State) : Out (State × Int) :=
  match localReq c with
  | some r => localHandler r c s
  | none => upcallSetup pkt s

/-- The end of process_control: a negative outcome stalls (R204); a request without data goes to WAIT_NRDY (R210). -/
def settleSetup (c : Ep0Ctx) (x : State × Int) : Out State :=
  if x.2 < 0 then ep0Stall x.1
  else if c.hasData then .next x.1
  else .next (x.1.setPhase .waitNrdy)

/-- A decoded setup packet is recorded, and a data-bearing one enters DATA before the handler runs (R193, R195). -/
def recordSetup (c : Ep0Ctx) (s : State) : State :=
  let s1 : State := { s with ctl := { s.ctl with ep0Ctx := c } }
  if c.hasData then s1.setPhase .data else s1

/-- The eight setup bytes as one little-endian value (R70, R71). -/
def setupPacket (bs : List Byte) : BitVec 64 := BitVec.ofNat 64 (ofBytes bs)

/-- process_control of the completed setup read (R193). Refused after a USB reset that left an EP0 request pending
(I9, R309, log 21). -/
def processControl (s : State) : Out State :=
  if s.ep0AcrossReset then .refused .ep0PendingAcrossReset
  else if (s.req .setupRead).actual ≠ 8 then ep0Stall s
  else
    andThen (readMem s.cfg.setupBuf 8 s) fun bs =>
    let pkt := setupPacket bs
    let c := decodeSetup pkt
    andThen (answerSetup pkt c (recordSetup c s)) (settleSetup c)

/-- The data stage ends: SET_SEL's data is kept (R208), and the phase is WAIT_NRDY (R197). -/
def endDataStage (r : ReqRef) (s : State) : Out State :=
  if r = .selRead then
    andThen (readMem s.cfg.selBuf 6 s) fun bs =>
      .next ({ s with ctl := { s.ctl with selData := bs } }.setPhase .waitNrdy)
  else .next (s.setPhase .waitNrdy)

/-- ep0_advance (R196). -/
def ep0Advance : AdvanceAct := fun _ r s =>
  match s.ctl.ep0Phase with
  | .setup => if r = .setupRead then processControl s else .next s
  | .data => endDataStage r s
  | .status2 => armSetup s
  | .status3 => armSetup s
  | .unconnected => .next s
  | .waitNrdy => .next s
  | .stalled => .next s

/-- ep0_not_ready (R198): in WAIT_NRDY, in the status direction, the status phase and a zero-length request. -/
def ep0NotReady (p : Nat) (s : State) : Out State :=
  let c := s.ctl.ep0Ctx
  let sdir := statusDir c.hasData c.dataDir
  if s.ctl.ep0Phase = .waitNrdy ∧ epDir p = sdir then
    submitInternal (phys 0 sdir) .zlp s.cfg.zlpBuf 0 (s.setPhase (statusPhase c.hasData s.cfg.statusAfterData))
  else .next s

/-- complete (R180), with the callback of R183 and the phase advance of R196. -/
def complete (p : Nat) (r : ReqRef) (res : Result) (s : State) : Out State :=
  completeWith callback ep0Advance p r res s

/-- kill_all (R186). -/
def killAll (p : Nat) (res : Result) (s : State) : Out State := killAllWith callback ep0Advance p res s

/-! ## Meanings -/

/-- complete on `p` of the request and result beside the word (R180). -/
def execProcComplete (p : EpField) (s : State) : Out State :=
  withEp p.toNat s fun n => complete n s.args.ref s.args.result s

/-- kill_all on `p` with the result beside the word (R186). -/
def execProcKillAll (p : EpField) (s : State) : Out State := withEp p.toNat s fun n => killAll n s.args.result s

/-- process_control (R193). -/
def execProcProcessControl (s : State) : Out State := processControl s

/-- ep0_advance on `p` for the completed request beside the word (R196). -/
def execProcEp0Advance (p : EpField) (s : State) : Out State :=
  withEp p.toNat s fun n => ep0Advance n s.args.ref s

/-- ep0_stall (R214). -/
def execProcEp0Stall (s : State) : Out State := ep0Stall s

end Sys2Proof.Machine
end

