-- ==== Sys2Proof/Machine/Upcall.lean ====
section
/-! DEFINITION. The upcalls (R96): DISCONNECT, SUSPEND and RESUME are optional for the upper layer to bind (R12); and the
meanings of the class 0x5 operations. -/

namespace Sys2Proof.Machine

/-- `upcall DISCONNECT()` if the upper layer bound one (R246). -/
def upcallDisconnect (s : State) : State := if s.cfg.bound.disconnect then s.emit .disconnect else s

/-- `upcall SUSPEND()` if bound (R12, R96); no rule of RS issues it (R245). -/
def upcallSuspend (s : State) : State := if s.cfg.bound.suspend then s.emit .suspend else s

/-- `upcall RESUME()` if bound (R12, R96); no rule of RS issues it (R245). -/
def upcallResume (s : State) : State := if s.cfg.bound.resume then s.emit .resume else s

/-- UP_SETUP of the packet beside the word (R209). -/
def execUpSetup (s : State) : Out State := andThen (upcallSetup s.args.packet s) fun x => .next (x.1.returns (.int x.2))

/-- UP_DISCONNECT (R246). -/
def execUpDisconnect (s : State) : Out State := .next (upcallDisconnect s)

/-- UP_SUSPEND (R245). -/
def execUpSuspend (s : State) : Out State := .next (upcallSuspend s)

/-- UP_RESUME (R245). -/
def execUpResume (s : State) : Out State := .next (upcallResume s)

/-- UP_COMPLETE_CB of the request beside the word (R183). DESIGN CHOICE (log 37): it makes the upcall for one of the engine's own
requests too, for which the engine itself makes none (R33). -/
def execUpCompleteCb (s : State) : Out State := callback s.args.ref s

end Sys2Proof.Machine
end

