-- ==== Sys2Proof/Machine/Events.lean ====
section
/-! DEFINITION. The event dispatcher (44_events.md): the handlers of endpoint events (R234 to R239) and device events (R240 to
R247), routing (R233), the dispatch loop (R230 to R232, R248 to R250), the interrupt line (R271 to R273), and the meanings of
the class 0x2 operations and INTERRUPT. -/

namespace Sys2Proof.Machine

/-! ## The hardware's side of a transfer event (R47, R110, I4) -/

/-- Where the TD is that the hardware works on: the address the running transfer's START_TRANSFER carried (R136). DESIGN CHOICE
(log 25): with no such address, the endpoint's own TD. -/
def State.hwTdAddr (s : State) (p : Nat) : Nat :=
  match (s.hwEp p).running with
  | some x => x.td.getD (s.tdAddr p)
  | none => s.tdAddr p

/-- The hardware's TD write-back (R27, R47, R136). DESIGN CHOICE: with the owner bit cleared the transfer the hardware record shows
running has ended, and with the bit set it runs on (logs 19, 25: the spec does not say when it ends). -/
def writeBackTd (p : Nat) (d : XferDraw) (s : State) : Out State :=
  andThen (readMem (s.hwTdAddr p) 16 s) fun bs =>
  andThen (writeOutside (s.hwTdAddr p) (tdWriteBack s.cfg d.remaining d.owner bs) s) fun t =>
  .next (t.setHwEp p { t.hwEp p with running := if d.owner then (t.hwEp p).running else none })

/-- The trace's default write-back: `owner=0`, no `remaining=`, no `setup=` (R110). -/
def XferDraw.default : XferDraw := { remaining := none, owner := false, data := [] }

/-- The bytes the hardware moves into the buffer its TD names (R110 `setup=`; log 25). -/
def hwDma (p : Nat) (data : List Byte) (s : State) : Out State :=
  andThen (readMem (s.hwTdAddr p) 16 s) fun bs => writeOutside (tdBufAddr s.cfg bs) data s

/-- What the hardware did before one EV_XFER_COMPLETE: the bytes moved into an OUT buffer, then the TD write-back. With no draw
left and a request active, the trace's default. -/
def hwTransfer (p : Nat) (s : State) : Out State :=
  match s.draws.xfers with
  | [] => if (s.ep p).active = none then .next s else writeBackTd p XferDraw.default s
  | d :: rest =>
    let s0 : State := { s with draws := { s.draws with xfers := rest } }
    andThen (if epDir p = .OUT then hwDma p d.data s0 else .next s0) (writeBackTd p d)

/-! ## Endpoint events -/

/-- on_xfer_complete with the active request `r` (R234, R235): the owner bit, then the remaining length, then the byte count
and complete with Success. -/
def finishTransfer (p : Nat) (r : ReqRef) (s : State) : Out State :=
  andThen (readMem (s.tdAddr p) 16 s) fun bs =>
  if tdOwner s.cfg bs then .fault .descriptorStillOwned
  else if (s.ep p).td.length < tdRemaining s.cfg bs then .fault .remainingTooLarge
  else
    let q := s.req r
    complete p r .success
      (s.setReq r { q with actual := actualLen q.length (s.ep p).td.length (tdRemaining s.cfg bs) })

/-- on_xfer_complete (R234): ignored with no active request. -/
def onXferComplete (p : Nat) (s : State) : Out State :=
  andThen (hwTransfer p s) fun s1 =>
  match (s1.ep p).active with
  | none => .next s1
  | some r => finishTransfer p r s1

/-- EV_XFER_NOT_READY (R236): drives EP0, ignored otherwise. -/
def onXferNotReady (p : Nat) (s : State) : Out State := if isEp0 p then ep0NotReady p s else .next s

/-- `EPCMD[p].active` reads 0. -/
def clearActive (p : Nat) (s : State) : State :=
  let x := s.port p
  s.setPort p { x with cmd := { x.cmd with active := false } }

/-- The hardware has completed the command it reports: one still outstanding has landed (R134), and `EPCMD[p].active` reads 0 (R45;
DEDUCED, log 24). -/
def hwCommandDone (p : Nat) (s : State) : State := clearActive p (landLate p s)

/-- on_cmd_complete (R237): drain, then restart a queued request. -/
def onCmdComplete (p : Nat) (s : State) : Out State :=
  let s1 := drainDeferred p (hwCommandDone p s)
  if (s1.ep p).active = none ∧ (s1.ep p).queue ≠ [] then startTransfer p s1 else .next s1

/-- EV_EP_OTHER: ignored (R239). -/
def onEpOther (_p : Nat) (s : State) : Out State := .next s

/-! ## Device events -/

/-- An EP0 request other than the setup read is queued (I9). -/
def ep0Pending (s : State) : Bool := ((s.ep 0).queue ++ (s.ep 1).queue).any fun r => decide (r ≠ .setupRead)

/-- on_usb_reset (R240). -/
def onUsbReset (s : State) : Out State :=
  let s0 : State := { s with ep0AcrossReset := s.ep0AcrossReset || ep0Pending s }
  andThen (eachInOrder (fun p t => killAll p .connectionReset t) ((List.range s.cfg.numPhysEp).drop 2) s0) fun t =>
  .next ((t.clearHalts.setDevAddr 0).setCfgStarted false)

/-- Resize max-packet on every endpoint with a type (R243). -/
def resizeMaxp (sp : Speed) (s : State) : State :=
  { s with eps := s.eps.map fun e =>
      if e.type = .none then e else { e with maxp := maxpLookup s.cfg.maxpTable sp e.type } }

/-- on_connect_done (R243, R244). -/
def onConnectDone (s : State) : Out State :=
  let s0 := s.latchSpeed
  let sp := s0.regs.stsSpeed
  let s1 := resizeMaxp sp { s0 with ctl := { s0.ctl with speed := some sp } }
  andThen (activate 0 s1) fun s2 =>
  andThen (activate 1 s2) fun s3 =>
  let s4 := s3.setConnected true
  if s4.ctl.ep0Phase = .unconnected then armSetup s4 else .next s4

/-- EV_DISCONNECT (R246). -/
def onDisconnect (s : State) : Out State := .next ((upcallDisconnect s).setConnected false)

/-- EV_LINK_STATE (R245): the disconnect state, code 0x4 (R100), is a disconnect; any other is ignored. -/
def onLinkState (st : BitVec 4) (s : State) : Out State := if st = 4 then onDisconnect s else .next s

/-- EV_OTHER: ignored (R247). -/
def onOther (s : State) : Out State := .next s

/-! ## Dispatch -/

/-- An endpoint record with `p >= NUM_PHYS_EP` faults (R233). -/
def eventEp (p : Nat) (s : State) (k : Nat → Out State) : Out State :=
  if p < s.cfg.numPhysEp then k p else .fault .badEventEndpoint

/-- Route one decoded record (R233). -/
def handle (e : Event) (s : State) : Out State :=
  match e with
  | .xferComplete p => eventEp p s fun n => onXferComplete n s
  | .xferNotReady p => eventEp p s fun n => onXferNotReady n s
  | .epCmdComplete p => eventEp p s fun n => onCmdComplete n s
  | .epOther p => eventEp p s fun n => onEpOther n s
  | .usbReset => onUsbReset s
  | .connectDone => onConnectDone s
  | .linkState st => onLinkState st s
  | .disconnect => onDisconnect s
  | .other => onOther s

/-- After a record: the cursor advances and wraps (R231), and its bytes are acknowledged (R43, R248). -/
def acknowledge (s : State) : State :=
  { s with
    ctl := { s.ctl with evtCursor := (s.ctl.evtCursor + s.cfg.evtBytes) % s.cfg.evtBufBytes }
    regs := { s.regs with evbufCount := s.regs.evbufCount - s.cfg.evtBytes } }

/-- One record: read at the cursor, handled, acknowledged (R230, R73). -/
def oneRecord (s : State) : Out State :=
  andThen (readMem (s.regs.evbufBase + s.ctl.evtCursor) s.cfg.evtBytes s) fun bs =>
  andThen (handle (decodeEventBy s.cfg.eventTable (ofBytes bs)) s) fun t => .next (acknowledge t)

/-- Handle `n` records in ring order (R249). -/
def dispatchLoop : Nat → State → Out State
  | 0, s => .next s
  | n + 1, s => andThen (oneRecord s) (dispatchLoop n)

/-- The count the hardware may not show (R232). -/
def badCount (s : State) : Bool :=
  decide (s.regs.evbufCount % s.cfg.evtBytes ≠ 0) || decide (s.cfg.evtBufBytes < s.regs.evbufCount)

/-- dispatch (R230): taking the interrupt (R272) and returning from it (R273). The count is read once. -/
def dispatch (s : State) : Out State :=
  if s.ctl.dispatching then .fault .reentrantDispatch
  else if badCount s then .fault .badEventCount
  else
    andThen (dispatchLoop (s.regs.evbufCount / s.cfg.evtBytes) (s.setDispatching true)) fun t =>
      .next (t.setDispatching false)

/-- The level-sensitive interrupt line (R271). -/
def irqAsserted (s : State) : Bool := decide (0 < s.regs.evbufCount) && s.regs.runStop

/-! ## Meanings -/

/-- EV_XFER_COMPLETE `p` (R234). -/
def execEvXferComplete (p : EpField) (s : State) : Out State := withEp p.toNat s fun n => onXferComplete n s

/-- EV_XFER_NOT_READY `p` (R236). -/
def execEvXferNotReady (p : EpField) (s : State) : Out State := withEp p.toNat s fun n => onXferNotReady n s

/-- EV_EP_CMD_COMPLETE `p` (R237). -/
def execEvEpCmdComplete (p : EpField) (s : State) : Out State := withEp p.toNat s fun n => onCmdComplete n s

/-- EV_EP_OTHER `p` (R239). -/
def execEvEpOther (p : EpField) (s : State) : Out State := withEp p.toNat s fun n => onEpOther n s

/-- EV_USB_RESET (R240). -/
def execEvUsbReset (s : State) : Out State := onUsbReset s

/-- EV_CONNECT_DONE (R243). -/
def execEvConnectDone (s : State) : Out State := onConnectDone s

/-- EV_LINK_STATE of the link state beside the word (R245). -/
def execEvLinkState (s : State) : Out State := onLinkState s.args.linkState s

/-- EV_DISCONNECT (R246). -/
def execEvDisconnect (s : State) : Out State := onDisconnect s

/-- EV_OTHER (R247). -/
def execEvOther (s : State) : Out State := onOther s

/-- INTERRUPT (R230). -/
def execInterrupt (s : State) : Out State := dispatch s

end Sys2Proof.Machine
end

