-- ==== Sys2Proof/Machine/Boot.lean ====
section
/-! DEFINITION. Controller lifecycle: INIT (R290, R291) and TEARDOWN (R293). -/

namespace Sys2Proof.Machine

/-- INIT's premises as far as the state shows them: nothing counted, nothing running, no command outstanding, the phase and the
queues of the creation state (R290, R48). -/
def initPremises (s : State) : Bool :=
  decide (s.regs.evbufCount = 0) && !s.regs.runStop && decide (s.ctl.ep0Phase = .unconnected) &&
    (s.eps.all fun e => e.queue.isEmpty && !e.notReady) && s.hw.eps.all fun h => h.late.isNone

/-- INIT outside its premises is marked (log 16). -/
def noteInit (s : State) : State := if initPremises s then s else s.mark .initPremise

/-- EP0's type and initial max-packet, by physical endpoint (R290). -/
def initEp0 (p : Nat) (s : State) : State :=
  s.setEp p { s.ep p with type := .control, maxp := maxpLookup s.cfg.maxpTable .SS .control }

/-- The register and controller writes of INIT before activate (R290). -/
def initRegs (s : State) : State :=
  { s with
    ctl := { s.ctl with evtCursor := 0, cfgStarted := false, connected := false, speed := none }
    regs := { s.regs with evbufBase := s.cfg.evbufAddr, evbufSize := s.cfg.evtBufBytes, devAddr := 0 }
    ep0AcrossReset := false }

/-- init (R290). A misaligned ring is refused (R72). -/
def initController (s : State) : Out State :=
  if s.cfg.evbufAddr % s.cfg.evtBytes ≠ 0 then .refused .misalignedRing
  else
    andThen (activate 0 (initRegs (initEp0 1 (initEp0 0 (noteInit s))))) fun s1 =>
    andThen (activate 1 s1) fun s2 =>
    andThen (armSetup s2) fun s3 => .next (s3.setRunStop true)

/-- `EP_ENABLE <- 0` (R293). -/
def clearEnables (s : State) : State :=
  { s with regs := { s.regs with ports := s.regs.ports.map fun x => { x with enabled := false } } }

/-- teardown (R293). DESIGN CHOICE (log 38): the endpoints are killed in ascending order; R293 names none. -/
def teardown (s : State) : Out State :=
  andThen (eachInOrder (fun p t => killAll p .shutdown t) (List.range s.cfg.numPhysEp) (s.setRunStop false)) fun t =>
  .next ((clearEnables t).setPhase .unconnected)

/-- INIT (R290). -/
def execInit (s : State) : Out State := initController s

/-- TEARDOWN (R293). -/
def execTeardown (s : State) : Out State := teardown s

end Sys2Proof.Machine
end

