-- ==== Sys2Proof/Machine/Fetch.lean ====
section
/-! DEFINITION. How the next operation comes to run (R11, R85, R90, R91, R104, R110, R111, R271): the head of the trace with its
operands, draws and hardware writes; the port it arrives at; or the interrupt line. -/

namespace Sys2Proof.Machine

/-- `EVBUF_COUNT` grows by one record (R111). -/
def countRecord (s : State) : State :=
  { s with regs := { s.regs with evbufCount := s.regs.evbufCount + s.cfg.evtBytes } }

/-- The hardware writes one event record behind those waiting, then counts its bytes (R111, R82). It does not overwrite a record
until it is acknowledged (R82). DESIGN CHOICE: with no room left it counts the bytes and writes nothing, and the count beyond
the ring is the hardware fault of R232 (log 35). DESIGN CHOICE: a word of more than `EVT_BYTES` bytes is cut to them, and is then
the record of another event (log 27). -/
def deliverRecord (w : Nat) (s : State) : Out State :=
  if s.cfg.evtBufBytes < s.regs.evbufCount + s.cfg.evtBytes then .next (countRecord s)
  else
    andThen (writeMem (s.regs.evbufBase + (s.ctl.evtCursor + s.regs.evbufCount) % s.cfg.evtBufBytes)
      (toBytes s.cfg.evtBytes w) s) fun t => .next (countRecord t)

/-- One memory write from outside the engine (R46 hardware DMA). -/
def outsideWrite (x : Nat × List Byte) (s : State) : Out State := writeOutside x.1 x.2 s

/-- The outstanding commands of a list of endpoints land, in order (R47(a), R134). -/
def landAll (ps : List Nat) (s : State) : State := ps.foldl (fun t p => landLate p t) s

/-- Take a line: its operands and its own draws in place of any left over, then what the outside did before it: late commands,
memory writes, event records (R110, R111, R134). -/
def loadLine (ln : Line) (s : State) : Out State :=
  andThen (eachInOrder outsideWrite ln.dma (landAll ln.lands { s with args := ln.args, draws := ln.draws })) fun t =>
    eachInOrder deliverRecord ln.records t

/-- Accept an operation at a port. From inside the engine it runs. At an interface: a class 0x4, 0x5 or 0x6 word is refused
(R104); an event enters via the ring and its INTERRUPT follows (R91, R111); a call or lifecycle operation runs. -/
def accept (port : Port) (i : Instr) (s : State) : Out (Option Instr × State) :=
  match port with
  | .engine => .next (some i, s)
  | .external =>
    match i.cls with
    | .upperCall => .next (some i, s)
    | .lifecycle => .next (some i, s)
    | .event =>
      if i.wf s.cfg.numPhysEp then
        match i.event? s.args.linkState with
        | some e => andThen (deliverRecord (encodeEventBy s.cfg.eventTable e) s) fun t => .next (some .interrupt, t)
        | none => .next (some i, s)
      else .refused .illegalEndpoint
    | .command => .refused .notAnInput
    | .upcall => .refused .notAnInput
    | .internal => .refused .notAnInput

/-- The next operation and the state it runs in; none when nothing waits and the interrupt line is low (R271, R276).
DESIGN CHOICE (log 8): an INTERRUPT from the interrupt line alone uses the draws the last line left over, since R110 gives the
draws of a line only. -/
def fetch (s : State) : Out (Option Instr × State) :=
  match s.trace with
  | [] => .next (if irqAsserted s then some .interrupt else none, s)
  | ln :: rest =>
    match decode ln.word with
    | .error why => .refused (.illegalWord why)
    | .ok i => andThen (loadLine ln { s with trace := rest }) (accept ln.port i)

/-- The port at which a word is legal: class 0x4 to 0x6 words come from inside the engine (R91, R104). -/
def portOf (w : OpWord) : Port :=
  match decode w with
  | .ok i => (match i.cls with
    | .upperCall => .external
    | .event => .external
    | .lifecycle => .external
    | .command => .engine
    | .upcall => .engine
    | .internal => .engine)
  | .error _ => .external

/-- A line that holds a word alone: operands zero, no draw, nothing written from outside (log 7). -/
def bareLine (w : OpWord) : Line :=
  { port := portOf w, word := w, args := Args.zero, draws := Draws.none, lands := [], dma := [], records := [] }

/-- The state with a word placed where the next step takes its operation. -/
def placeWord (s : State) (w : OpWord) : State := { s with trace := bareLine w :: s.trace }

/-- `EVT e1; e2; …`: one INTERRUPT with the events' records, as the launch's `decodeEvent` reads them, delivered before it
(R111). -/
def evtLine (c : Config) (es : List Event) (draws : Draws) : Line :=
  { port := .external, word := encode .interrupt, args := Args.zero, draws := draws, lands := [], dma := [],
    records := es.map (encodeEventBy c.eventTable) }

end Sys2Proof.Machine
end

