-- ==== Sys2Proof/Machine/Dispatch.lean ====
section
/-! DEFINITION. One arm per constructor of Instr, each one direct call of its meaning. -/

namespace Sys2Proof.Machine

/-- The meaning of an operation (opcode_table.json). -/
def exec (i : Instr) (s : State) : Host.Outcome State Fault Refusal :=
  match i with
  | .enable p => Sys2Proof.Machine.execEnable p s
  | .disable p => Sys2Proof.Machine.execDisable p s
  | .queue p => Sys2Proof.Machine.execQueue p s
  | .dequeue p => Sys2Proof.Machine.execDequeue p s
  | .setHalt p => Sys2Proof.Machine.execSetHalt p s
  | .allocRequest => Sys2Proof.Machine.execAllocRequest s
  | .freeRequest => Sys2Proof.Machine.execFreeRequest s
  | .evXferComplete p => Sys2Proof.Machine.execEvXferComplete p s
  | .evXferNotReady p => Sys2Proof.Machine.execEvXferNotReady p s
  | .evEpCmdComplete p => Sys2Proof.Machine.execEvEpCmdComplete p s
  | .evEpOther p => Sys2Proof.Machine.execEvEpOther p s
  | .evUsbReset => Sys2Proof.Machine.execEvUsbReset s
  | .evConnectDone => Sys2Proof.Machine.execEvConnectDone s
  | .evLinkState => Sys2Proof.Machine.execEvLinkState s
  | .evDisconnect => Sys2Proof.Machine.execEvDisconnect s
  | .evOther => Sys2Proof.Machine.execEvOther s
  | .init => Sys2Proof.Machine.execInit s
  | .teardown => Sys2Proof.Machine.execTeardown s
  | .interrupt => Sys2Proof.Machine.execInterrupt s
  | .cmdStartNewConfig p => Sys2Proof.Machine.execCmdStartNewConfig p s
  | .cmdSetEpConfig p => Sys2Proof.Machine.execCmdSetEpConfig p s
  | .cmdSetXferResource p => Sys2Proof.Machine.execCmdSetXferResource p s
  | .cmdStartTransfer p => Sys2Proof.Machine.execCmdStartTransfer p s
  | .cmdEndTransfer p => Sys2Proof.Machine.execCmdEndTransfer p s
  | .cmdSetStall p => Sys2Proof.Machine.execCmdSetStall p s
  | .cmdClearStall p => Sys2Proof.Machine.execCmdClearStall p s
  | .upSetup => Sys2Proof.Machine.execUpSetup s
  | .upDisconnect => Sys2Proof.Machine.execUpDisconnect s
  | .upSuspend => Sys2Proof.Machine.execUpSuspend s
  | .upResume => Sys2Proof.Machine.execUpResume s
  | .upCompleteCb => Sys2Proof.Machine.execUpCompleteCb s
  | .procStartTransfer p => Sys2Proof.Machine.execProcStartTransfer p s
  | .procIssue p => Sys2Proof.Machine.execProcIssue p s
  | .procActivate p => Sys2Proof.Machine.execProcActivate p s
  | .procDeactivate p => Sys2Proof.Machine.execProcDeactivate p s
  | .procComplete p => Sys2Proof.Machine.execProcComplete p s
  | .procKillAll p => Sys2Proof.Machine.execProcKillAll p s
  | .procProcessControl => Sys2Proof.Machine.execProcProcessControl s
  | .procDrainDeferred p => Sys2Proof.Machine.execProcDrainDeferred p s
  | .procEp0Advance p => Sys2Proof.Machine.execProcEp0Advance p s
  | .procEp0Stall => Sys2Proof.Machine.execProcEp0Stall s

end Sys2Proof.Machine
end

