-- ==== Sys2Proof/Machine/Step.lean ====
section
/-! DEFINITION. One step: one top-level operation, whole (R10). -/

namespace Sys2Proof.Machine

/-- The step: fetch the next operation and run it; with none waiting the engine is idle (R276). -/
def step (s : State) : Host.Outcome State Fault Refusal :=
  andThen (fetch s) fun x =>
    match x.1 with
    | some i => exec i x.2
    | none => .next x.2

/-- `s` with a table word placed where step takes its next operation (log 7). The table's words have 16 bits (R106). -/
def State.withFetchWord (s : State) (_nbits w : Nat) : State := placeWord s (BitVec.ofNat 16 w)

end Sys2Proof.Machine
end

