-- ==== Sys2Proof/Safety.lean ====
section
/-! DEFINITION. What counts as a well-kept state and a safe run, in the terms the statements use: the invariants the spec gives
the records (R25, R26, R30, R32, R34, R140, R214), the canonical form of memory, the length bound of R238, and the absence of a
hazard mark (R305). -/

namespace Sys2Proof.Machine

/-- There is one endpoint record, one register port and one hardware record for each physical endpoint (R22). -/
def State.Shaped (s : State) : Prop :=
  s.eps.length = s.cfg.numPhysEp ∧ s.regs.ports.length = s.cfg.numPhysEp ∧ s.hw.eps.length = s.cfg.numPhysEp

/-- What the spec keeps of one endpoint record. -/
structure EpInv (cfg : Config) (p : Nat) (e : Endpoint) : Prop where
  /-- `active` is none or the queue's head (R25) -/
  activeIsHead : ∀ r, e.active = some r → e.queue.head? = some r
  /-- `resIdx` is held exactly while a request is active (R26, R124, R181) -/
  indexIffActive : e.resIdx.isSome = e.active.isSome
  /-- commands wait only on a not-ready endpoint (R130, R140) -/
  deferredOnlyNotReady : e.deferred ≠ [] → e.notReady = true
  /-- a deferred command is for its own endpoint (R130) -/
  deferredTarget : ∀ c ∈ e.deferred, c.target = p
  /-- the FIFO never exceeds `DEFER_CAP` (R30) -/
  deferredCap : ∀ n, cfg.deferCap = some n → e.deferred.length ≤ n
  /-- the TD's length fits `LEN_BITS` (R27, R122) -/
  tdFits : e.td.length < 2 ^ cfg.lenBits
  /-- EP0's halted flag is never set (R214) -/
  ep0NotHalted : isEp0 p = true → e.halted = false

/-- The invariant every step keeps. -/
structure State.Inv (s : State) : Prop where
  cfgWf : s.cfg.wf = true
  shaped : s.Shaped
  endpoints : ∀ p, p < s.cfg.numPhysEp → EpInv s.cfg p (s.ep p)
  /-- a request is on at most one queue, once (R32) -/
  queuedOnce : (s.eps.flatMap fun e => e.queue).Nodup
  /-- the cursor is a multiple of `EVT_BYTES` inside the ring (R34) -/
  cursorInRing : s.ctl.evtCursor % s.cfg.evtBytes = 0 ∧ s.ctl.evtCursor < s.cfg.evtBufBytes
  memCanonical : Memory.wf s.mem = true

/-- Every request's byte count is within its length (R238). -/
def State.ActualBounded (s : State) : Prop := ∀ x ∈ s.reqs, x.2.actual ≤ x.2.length

/-- No hazard was marked, the premise a claim takes of a run (R305). -/
def State.NoHazard (s : State) : Prop := s.marks = []

/-- The hardware answers the next command within the poll bound: draw `cmd=ok` (R131). -/
def State.CmdOk (s : State) : Prop := s.cmdDraw.stillActive < s.cfg.cmdTimeout

/-- The hardware answers each of the next `n` commands within the poll bound. -/
def State.CmdsOk (s : State) (n : Nat) : Prop :=
  ∀ k, k < n → (s.draws.cmds.getD k { stillActive := 0, idx := 0 }).stillActive < s.cfg.cmdTimeout

/-- The upper layer's callbacks make no nested call (R110: `cb=` not given). -/
def State.NoNested (s : State) : Prop := s.draws.cbs = []

/-- Nothing is halted, not-ready or active on `p`: a request at its head can start (R120, R121, R127). -/
def State.CanStart (s : State) (p : Nat) : Prop :=
  (s.ep p).halted = false ∧ (s.ep p).notReady = false ∧ (s.ep p).active = none

/-- The TD slot of `p` is aligned and inside the address space (R72, R76). -/
def State.TdPlaced (s : State) (p : Nat) : Prop :=
  s.tdAddr p % s.cfg.tdAlign = 0 ∧ s.tdAddr p + 16 ≤ 2 ^ s.cfg.addrBits

/-- The event ring lies inside the address space (R76). -/
def State.RingPlaced (s : State) : Prop := s.regs.evbufBase + s.cfg.evtBufBytes ≤ 2 ^ s.cfg.addrBits

/-- The commands among the outputs, in the order written. -/
def commandsOf : List Output → List Command
  | [] => []
  | .command c :: os => c :: commandsOf os
  | _ :: os => commandsOf os

/-- R95's table, read from the state: the command each class 0x4 operation but END_TRANSFER writes, with the `resIdx` 0 of log 36. -/
def tableCommand (s : State) : Instr → Option Command
  | .cmdStartNewConfig p => some
    { target := p.toNat, type := .startNewConfig, par0 := .word 0, par1 := .word 0, par2 := .word 0,
      force := false, ioc := false, resIdx := 0 }
  | .cmdSetEpConfig p => some
    { target := p.toNat, type := .setEpConfig,
      par0 := .epConfig (s.ep p.toNat).type (s.ep p.toNat).maxp,
      par1 := .burstFifo (s.ep p.toNat).burst (if p.toNat % 2 = 1 then p.toNat / 2 else 0),
      par2 := .notify true true, force := false, ioc := false, resIdx := 0 }
  | .cmdSetXferResource p => some
    { target := p.toNat, type := .setXferResource, par0 := .word 1, par1 := .word 0, par2 := .word 0,
      force := false, ioc := false, resIdx := 0 }
  | .cmdStartTransfer p => some
    { target := p.toNat, type := .startTransfer,
      par0 := .word (BitVec.ofNat 32 (s.tdAddr p.toNat / 2 ^ 32)), par1 := .word (BitVec.ofNat 32 (s.tdAddr p.toNat)),
      par2 := .word 0, force := false, ioc := false, resIdx := 0 }
  | .cmdSetStall p => some
    { target := p.toNat, type := .setStall, par0 := .word 0, par1 := .word 0, par2 := .word 0,
      force := false, ioc := false, resIdx := 0 }
  | .cmdClearStall p => some
    { target := p.toNat, type := .clearStall, par0 := .word 0, par1 := .word 0, par2 := .word 0,
      force := false, ioc := false, resIdx := 0 }
  | _ => none

/-- END_TRANSFER of transfer `idx` on `p` (R95: force = 1, ioc = 1, resIdx). -/
def endCommand (p idx : Nat) : Command :=
  { target := p, type := .endTransfer, par0 := .word 0, par1 := .word 0, par2 := .word 0,
    force := true, ioc := true, resIdx := idx }

/-- The command port of a target after a command was written (R131), with its `active` bit and `resIdx` as given. -/
def portAfter (c : Command) (active : Bool) (idx : Nat) (x : EpPort) : EpPort :=
  { x with par0 := c.par0, par1 := c.par1, par2 := c.par2,
           cmd := { type := c.type, active := active, force := c.force, ioc := c.ioc, resIdx := idx } }

/-- The register window with one endpoint's port replaced. -/
def State.regsWith (s : State) (p : Nat) (x : EpPort) : Regs := { s.regs with ports := s.regs.ports.set p x }

/-- One command draw used up. -/
def State.drawsAfterCmd (s : State) : Draws := { s.draws with cmds := s.draws.cmds.tail }

/-- The hardware agent's record with a command left outstanding on its target (R134). -/
def State.hwLate (s : State) (c : Command) (idx : Nat) : Hardware :=
  { s.hw with eps := s.hw.eps.set c.target { s.hwEp c.target with late := some { cmd := c, idx := idx } } }

/-- What the hardware's side of an endpoint holds, from what it held, once a command has completed there with index `idx` (R136):
nothing outstanding, the command's own effect, and nothing else. -/
structure HwAfter (c : Command) (idx : Nat) (before after : HwEndpoint) : Prop where
  newConfig : c.type = .startNewConfig → after = { before with late := none }
  config : c.type = .setEpConfig → ∀ ty mp b f x y,
    c.par0 = .epConfig ty mp → c.par1 = .burstFifo b f → c.par2 = .notify x y →
    after = { before with
      config := some { type := ty, maxp := mp, burst := b, fifo := f, notify := (x, y) }, late := none }
  slot : c.type = .setXferResource → after = { before with slots := before.slots + 1, late := none }
  /-- the TD at the address in par0 (high word) and par1 (low word) -/
  start : c.type = .startTransfer → ∀ hi lo, c.par0 = .word hi → c.par1 = .word lo →
    after = { before with running := some { idx := idx, td := some (hi.toNat * 2 ^ 32 + lo.toNat) }, late := none }
  /-- the transfer with the given index ends; another one runs on -/
  abort : c.type = .endTransfer → after.late = none ∧
    (∀ x, before.running = some x → x.idx = c.resIdx → after = { before with running := none, late := none }) ∧
    ((∀ x, before.running = some x → x.idx ≠ c.resIdx) → after = { before with late := none })
  stall : c.type = .setStall → after = { before with stalled := true, late := none }
  unstall : c.type = .clearStall → after = { before with stalled := false, late := none }

/-- The control type of an EP0 transfer by phase (R126). -/
def ep0CtlTypes : List (Phase × CtlType) :=
  [(.setup, .setup), (.data, .data), (.status2, .status2), (.status3, .status3)]

/-- A setup packet has arrived: the setup read transferred 8 bytes, which stand in `setup_buf` (R193), and no USB reset left an
EP0 request pending (I9). -/
def State.SetupArrived (s : State) (bs : List Byte) : Prop :=
  s.ep0AcrossReset = false ∧ (s.req .setupRead).actual = 8 ∧ s.cfg.setupBuf + 8 ≤ 2 ^ s.cfg.addrBits ∧
    bs.length = 8 ∧ Memory.getBytes s.mem s.cfg.setupBuf 8 = bs

/-- A request as its completion leaves it (R180): the result unless one is recorded already, and the mapping released. -/
def completed (res : Result) (q : Request) : Request :=
  { q with status := if q.status = .inProgress then resultStatus res else q.status, mapped := false }

/-- The COMPLETE_CB upcall a completion makes: none for an internal request (R33, R180). -/
def callbackOutput (r : ReqRef) (q : Request) : List Output :=
  if q.callback = .internal then [] else [.completeCb r q.status q.actual]

/-- The setup read as arm_setup submits it (R190, R191). -/
def setupReadRequest (setupBuf : Nat) : Request :=
  { buf := setupBuf, length := 8, callback := .internal, status := .inProgress, actual := 0, mapped := true }

/-- The state in which arm_setup has entered SETUP and put the setup read at the tail of endpoint 0's queue, nothing started
(R191, R172). -/
def State.armed (s : State) : State :=
  { s with
    ctl := { s.ctl with ep0Phase := .setup }
    reqs := putReq s.reqs .setupRead (setupReadRequest s.cfg.setupBuf)
    eps := s.eps.set 0 { s.ep 0 with queue := (s.ep 0).queue ++ [.setupRead] } }

/-- The effects of an EP0 stall on everything but endpoint 0 and the outputs (R214, R191): SETUP, endpoint 1's queue killed, every
EP0 request completed with ConnectionReset, the setup read submitted. -/
structure StallEffects (s u : State) : Prop where
  ctl : u.ctl = { s.ctl with ep0Phase := .setup }
  ep1 : u.ep 1 = { s.ep 1 with queue := [], active := none, resIdx := none }
  others : ∀ q, 2 ≤ q → u.ep q = s.ep q
  killed : ∀ r ∈ (s.ep 0).queue ++ (s.ep 1).queue, r ≠ .setupRead → u.req r = completed .connectionReset (s.req r)
  read : u.req .setupRead = setupReadRequest s.cfg.setupBuf
  mem : u.mem = s.mem

/-- SET_STALL or CLEAR_STALL of a target (R95, R212, log 36). -/
def stallCommand (target : Nat) (value : Bool) : Command :=
  { target := target, type := if value then .setStall else .clearStall, par0 := .word 0, par1 := .word 0, par2 := .word 0,
    force := false, ioc := false, resIdx := 0 }

/-- A decoded setup packet recorded; the phase is DATA already if the request has data (R193, R195). -/
def State.recorded (s : State) (c : Ep0Ctx) : State :=
  { s with ctl := { s.ctl with ep0Ctx := c, ep0Phase := if c.wLength = 0 then s.ctl.ep0Phase else .data } }

/-- The end of submit (R172): `u` is `s` with a request appended to `p`'s queue; if the queue was empty and the endpoint ready,
the rest is what start_transfer does there, otherwise nothing. -/
def startIfIdle (s u : State) (p : EpField) : Out State :=
  if (s.ep p.toNat).queue = [] ∧ (s.ep p.toNat).notReady = false then exec (.procStartTransfer p) u else .next u

/-- The kick at the end of complete (R180, R184): if no request is active, the rest is what start_transfer does. -/
def startIfInactive (t : State) (p : EpField) : Out State :=
  if (t.ep p.toNat).active = none then exec (.procStartTransfer p) t else .next t

/-- What the TD and the endpoint record of `p` hold once the request `r` is started with length `n`, type `ty` and resource
index `idx` (R123, R124). -/
def startedTd (q : Request) (n : Nat) (ty : CtlType) : Td :=
  { bufAddr := q.buf, length := n, remaining := n, owner := true, ctlType := ty }

end Sys2Proof.Machine
end

