-- ==== Sys2Proof/Certificates/Slice0/Obligations.lean ====
section
/-! DEFINITION. The statements: encodings, the step, reset and INIT, the invariants every step keeps, and what each family of
operations does, with its frame. Each docstring names the rule it formalises. -/

open Sys2Proof Sys2Proof.Machine

/-! ## Encodings -/

/-- Decoding the word of any operation gives it back, whatever its endpoint field (R90 to R97). -/
def Obligations.DecodeOfEncodeIsTheInstruction : Prop :=
  ∀ i : Instr, decode (encode i) = .ok i

/-- A word decodes to at most the operation whose word it is: no two words share a meaning (R90, R104). -/
def Obligations.EncodeOfDecodeIsTheWord : Prop :=
  ∀ (w : OpWord) (i : Instr), decode w = .ok i → encode i = w

/-- R112's three words, and one of each other class. -/
def Obligations.SpecWordsDecodeAsNamed : Prop :=
  decode 0x1202 = .ok (.queue 2) ∧ decode 0x2002 = .ok (.evXferComplete 2) ∧ decode 0x3000 = .ok .init ∧
  decode 0x4403 = .ok (.cmdEndTransfer 3) ∧ decode 0x5400 = .ok .upCompleteCb ∧ decode 0x6900 = .ok .procEp0Stall

/-- R104: a word that names no operation is refused, for the reason R104 gives; an operation of class 0x4, 0x5 or 0x6 is
refused at an interface; an endpoint `p >= NUM_PHYS_EP` is refused by every operation that has one. -/
def Obligations.IllegalWordsAreRefused : Prop :=
  (∀ w : OpWord, (w.toNat / 4096 = 0 ∨ 7 ≤ w.toNat / 4096) → decode w = .error .reservedClass) ∧
  (∀ w : OpWord, (∀ i, encode i ≠ w) → ∃ why, decode w = .error why) ∧
  (∀ (s : State) (ln : Line) (rest : List Line) (why : DecodeReject),
    s.trace = ln :: rest → decode ln.word = .error why → step s = .refused (.illegalWord why)) ∧
  (∀ (s s1 : State) (ln : Line) (rest : List Line) (i : Instr),
    s.trace = ln :: rest → ln.port = .external → decode ln.word = .ok i →
    (i.cls = .command ∨ i.cls = .upcall ∨ i.cls = .internal) →
    loadLine ln { s with trace := rest } = .next s1 → step s = .refused .notAnInput) ∧
  (∀ (s : State) (i : Instr) (p : EpField),
    i.endpoint? = some p → s.cfg.numPhysEp ≤ p.toNat → exec i s = .refused .illegalEndpoint) ∧
  (∀ (s s1 : State) (ln : Line) (rest : List Line) (i : Instr) (p : EpField),
    s.trace = ln :: rest → decode ln.word = .ok i → loadLine ln { s with trace := rest } = .next s1 →
    i.endpoint? = some p → s1.cfg.numPhysEp ≤ p.toNat →
    (ln.port = .engine ∨ i.cls = .upperCall ∨ i.cls = .event) → step s = .refused .illegalEndpoint)

/-- R100, field by field: a record value built from its fields decodes to the event R100 names. A launch's own `decodeEvent`
(R6) is a table of record words over it: a listed word has the meaning listed, every other word R100's (log 3). -/
def Obligations.EventRecordsDecodeAsTabled : Prop :=
  (∀ p kind hi : Nat, p < 32 → kind < 16 →
    decodeEvent (2 * p + 64 * kind + 1024 * hi) =
      (if kind = 1 then .xferComplete p else if kind = 3 then .xferNotReady p
       else if kind = 7 then .epCmdComplete p else .epOther p)) ∧
  (∀ ty mid st hi : Nat, ty < 16 → mid < 16 → st < 16 →
    decodeEvent (1 + 256 * ty + 4096 * mid + 65536 * st + 1048576 * hi) =
      (if ty = 0 then .disconnect else if ty = 1 then .usbReset else if ty = 2 then .connectDone
       else if ty = 3 then .linkState (BitVec.ofNat 4 st) else .other)) ∧
  (∀ x hi : Nat, 0 < x → x < 128 → decodeEvent (1 + 2 * x + 256 * hi) = .other) ∧
  (∀ (table : List (Nat × Event)) (w : Nat), (∀ x ∈ table, x.1 ≠ w) → decodeEventBy table w = decodeEvent w) ∧
  (∀ (before after : List (Nat × Event)) (w : Nat) (e : Event), (∀ x ∈ before, x.1 ≠ w) →
    decodeEventBy (before ++ (w, e) :: after) w = e)

/-- The default layouts of R99 and R101: a TD's four words, for a TD that fits them; the EPCMD word, for a 7-bit index, its bits
where R101 puts them and its fields read back. In every `TD_LAYOUT` that holds its fields (R6, R27), what start_transfer
writes and what the hardware writes back read back. R70, R38: the register window is little-endian in every `REG_MAP`: byte `i` of
a register no other readable one covers is byte `i` of its word, and a read of all its bytes is the word, where it fits them; what
a register's bytes are is the model's form of the parameter (log 5). -/
def Obligations.DefaultLayoutsAreAsTabled : Prop :=
  (∀ (c : Config) (t : Td), c.tdLayout = TdLayout.default → c.addrBits ≤ 64 → c.lenBits ≤ 32 →
    t.bufAddr < 2 ^ c.addrBits → t.length < 2 ^ c.lenBits → t.remaining = t.length →
    (encodeTd c t).length = 16 ∧
    ofBytes ((encodeTd c t).take 4) = t.bufAddr % 2 ^ 32 ∧
    ofBytes (((encodeTd c t).drop 4).take 4) = t.bufAddr / 2 ^ 32 ∧
    ofBytes (((encodeTd c t).drop 8).take 4) = t.length ∧
    ofBytes ((encodeTd c t).drop 12) = t.owner.toNat + 16 * ctlTypeCode t.ctlType) ∧
  (∀ (c : Config) (t : Td), c.tdLayout.wf c.addrBits c.lenBits = true → t.length < 2 ^ c.lenBits → t.remaining = t.length →
    tdOwner c (encodeTd c t) = t.owner ∧ tdRemaining c (encodeTd c t) = t.length) ∧
  (∀ (c : Config) (bs : List Byte) (n : Nat) (o : Bool), c.tdLayout.wf c.addrBits c.lenBits = true → bs.length = 16 →
    n < 2 ^ c.lenBits →
    tdOwner c (tdWriteBack c (some n) o bs) = o ∧ tdRemaining c (tdWriteBack c (some n) o bs) = n ∧
    tdOwner c (tdWriteBack c none o bs) = o ∧ tdRemaining c (tdWriteBack c none o bs) = tdRemaining c bs) ∧
  (∀ c : EpCmd, c.resIdx < 128 →
    decodeEpCmd RegMap.default (encodeEpCmd RegMap.default c) = some c ∧
    encodeEpCmd RegMap.default c = cmdCode c.type + 256 * c.force.toNat + 512 * c.ioc.toNat + 1024 * c.active.toNat
      + 65536 * c.resIdx) ∧
  (∀ (s : State) (r : RegName) (w : Nat), r ∈ readableRegs s.cfg.numPhysEp → s.regWord r = some w →
    (∀ q ∈ readableRegs s.cfg.numPhysEp, q ≠ r →
      regAddress s.cfg.regMap q + regBytes s.cfg q ≤ regAddress s.cfg.regMap r ∨
      regAddress s.cfg.regMap r + regBytes s.cfg r ≤ regAddress s.cfg.regMap q) →
    (∀ i, i < regBytes s.cfg r → s.windowByte (regAddress s.cfg.regMap r + i) = some (BitVec.ofNat 8 (w / 256 ^ i))) ∧
    (w < 256 ^ regBytes s.cfg r → s.readWindow (regAddress s.cfg.regMap r) (regBytes s.cfg r) = some w))

/-- R71, R193: the fields of the setup packet in memory, byte by byte, each 16-bit field little-endian; a data stage if wLength is
not 0, its direction by bmRequestType[7]. R103, R194: the five local requests are the standard ones with these codes. -/
def Obligations.SetupPacketFields : Prop :=
  ∀ b0 b1 b2 b3 b4 b5 b6 b7 : Byte,
    let c := decodeSetup (setupPacket [b0, b1, b2, b3, b4, b5, b6, b7])
    c.bmRequestType = b0 ∧ c.bRequest = b1 ∧ c.wValue = b3 ++ b2 ∧ c.wIndex = b5 ++ b4 ∧ c.wLength = b7 ++ b6 ∧
    (c.hasData = true ↔ b6 ≠ 0 ∨ b7 ≠ 0) ∧ c.dataDir = (if 128 ≤ b0.toNat then .IN else .OUT) ∧
    localReq c =
      if b0.toNat / 32 % 4 ≠ 0 then none
      else if b1 = 0 then some .getStatus else if b1 = 1 then some .clearFeature else if b1 = 3 then some .setFeature
      else if b1 = 5 then some .setAddress else if b1 = 48 then some .setSel else none

/-- R122: the transfer length is the request length for IN; for OUT it is the least multiple of max-packet that holds it;
a zero max-packet OUT and a length beyond `LEN_BITS` fault. -/
def Obligations.TransferLengthRule : Prop :=
  ∀ maxp len lenBits : Nat,
    (len < 2 ^ lenBits → xferLen .IN maxp len lenBits = .next len) ∧
    (2 ^ lenBits ≤ len → xferLen .IN maxp len lenBits = .fault .lengthOverflow) ∧
    xferLen .OUT 0 len lenBits = .fault .zeroMaxPacket ∧
    (0 < maxp → ∃ n, maxp ∣ n ∧ len ≤ n ∧ n < len + maxp ∧
      xferLen .OUT maxp len lenBits = if 2 ^ lenBits ≤ n then .fault .lengthOverflow else .next n)

/-! ## The step -/

/-- A step runs the operation its line's word decodes to, in the state with the line's operands, draws and outside writes in
place: from inside the engine and for calls and lifecycle operations, exec of it; for an event at the interface, the record
goes to the ring and INTERRUPT runs (R10, R85, R91, R111). With no line waiting the interrupt line decides: the dispatcher runs
while `EVBUF_COUNT > 0` and `run_stop = 1`, else nothing happens (the model's inference from R271, R273, R276: log 8). -/
def Obligations.StepRunsTheDecodedOperation : Prop :=
  (∀ (s s1 : State) (ln : Line) (rest : List Line) (i : Instr),
     s.trace = ln :: rest → decode ln.word = .ok i → loadLine ln { s with trace := rest } = .next s1 →
     (ln.port = .engine → step s = exec i s1) ∧
     (ln.port = .external → (i.cls = .upperCall ∨ i.cls = .lifecycle) → step s = exec i s1) ∧
     (∀ (e : Event) (u : State), ln.port = .external → i.wf s1.cfg.numPhysEp = true → i.event? s1.args.linkState = some e →
       deliverRecord (encodeEventBy s1.cfg.eventTable e) s1 = .next u → step s = exec .interrupt u)) ∧
  (∀ s : State, s.trace = [] →
    (0 < s.regs.evbufCount → s.regs.runStop = true → step s = exec .interrupt s) ∧
    (s.regs.evbufCount = 0 ∨ s.regs.runStop = false → step s = .next s))

/-- R230, R231, R248, R249: an INTERRUPT that finds `n + 1` records runs the handler of the first, the one at the cursor, with
`dispatching` set; then the cursor advances, its bytes are acknowledged, and the rest is what INTERRUPT does with the other `n`.
So an INTERRUPT over one record is that record's handler and its acknowledgement, and one over none changes nothing. R233: the
handler of each record is the operation of its own event word. -/
def Obligations.OneRecordInterruptRunsItsHandler : Prop :=
  (∀ (s : State) (n : Nat), s.ctl.dispatching = false → 0 < s.cfg.evtBytes →
    s.regs.evbufCount = (n + 1) * s.cfg.evtBytes → s.regs.evbufCount ≤ s.cfg.evtBufBytes →
    s.regs.evbufBase + s.ctl.evtCursor + s.cfg.evtBytes ≤ 2 ^ s.cfg.addrBits →
    let w := ofBytes (Memory.getBytes s.mem (s.regs.evbufBase + s.ctl.evtCursor) s.cfg.evtBytes)
    exec .interrupt s =
      andThen (handle (decodeEventBy s.cfg.eventTable w) (s.setDispatching true)) fun t => exec .interrupt { t with
        ctl := { t.ctl with evtCursor := (t.ctl.evtCursor + s.cfg.evtBytes) % s.cfg.evtBufBytes, dispatching := false }
        regs := { t.regs with evbufCount := n * s.cfg.evtBytes } }) ∧
  (∀ s : State, s.ctl.dispatching = false → 0 < s.cfg.evtBytes →
    s.regs.evbufCount = s.cfg.evtBytes → s.regs.evbufCount ≤ s.cfg.evtBufBytes →
    s.regs.evbufBase + s.ctl.evtCursor + s.cfg.evtBytes ≤ 2 ^ s.cfg.addrBits →
    let w := ofBytes (Memory.getBytes s.mem (s.regs.evbufBase + s.ctl.evtCursor) s.cfg.evtBytes)
    exec .interrupt s =
      andThen (handle (decodeEventBy s.cfg.eventTable w) (s.setDispatching true)) fun t => .next { t with
        ctl := { t.ctl with evtCursor := (t.ctl.evtCursor + s.cfg.evtBytes) % s.cfg.evtBufBytes, dispatching := false }
        regs := { t.regs with evbufCount := 0 } }) ∧
  (∀ s : State, s.ctl.dispatching = false → s.regs.evbufCount = 0 → exec .interrupt s = .next s) ∧
  (∀ s : State,
    (∀ p : EpField, p.toNat < s.cfg.numPhysEp →
      handle (.xferComplete p.toNat) s = exec (.evXferComplete p) s ∧
      handle (.xferNotReady p.toNat) s = exec (.evXferNotReady p) s ∧
      handle (.epCmdComplete p.toNat) s = exec (.evEpCmdComplete p) s ∧
      handle (.epOther p.toNat) s = exec (.evEpOther p) s) ∧
    handle .usbReset s = exec .evUsbReset s ∧ handle .connectDone s = exec .evConnectDone s ∧
    handle .disconnect s = exec .evDisconnect s ∧ handle .other s = exec .evOther s ∧
    handle (.linkState s.args.linkState) s = exec .evLinkState s ∧
    ∀ st : BitVec 4, handle (.linkState st) s = if st = 4 then exec .evDisconnect s else .next s)

/-- R105, R231, R247, R248: an INTERRUPT over any number of records that are all ignored ones completes: each is acknowledged,
the cursor advances past them modulo the ring, the count is 0, and nothing else changes. -/
def Obligations.IgnoredRecordsAreAcknowledged : Prop :=
  ∀ (s : State) (n : Nat), s.ctl.dispatching = false → 0 < s.cfg.evtBytes → s.RingPlaced →
    s.ctl.evtCursor + s.cfg.evtBytes ≤ s.cfg.evtBufBytes → s.cfg.evtBufBytes % s.cfg.evtBytes = 0 →
    s.ctl.evtCursor % s.cfg.evtBytes = 0 →
    s.regs.evbufCount = n * s.cfg.evtBytes → s.regs.evbufCount ≤ s.cfg.evtBufBytes →
    (∀ k, k < n →
      let e := decodeEventBy s.cfg.eventTable (ofBytes (Memory.getBytes s.mem
        (s.regs.evbufBase + (s.ctl.evtCursor + k * s.cfg.evtBytes) % s.cfg.evtBufBytes) s.cfg.evtBytes))
      e = .other ∨ ∃ p, p < s.cfg.numPhysEp ∧ e = .epOther p) →
    exec .interrupt s = .next { s with
      ctl := { s.ctl with evtCursor := (s.ctl.evtCursor + s.regs.evbufCount) % s.cfg.evtBufBytes }
      regs := { s.regs with evbufCount := 0 } }

/-- R250, R232, in R270's order: INTERRUPT during a dispatch faults; then a count that is no multiple of `EVT_BYTES` or beyond
the ring faults; a record for an endpoint that does not exist faults (R233). -/
def Obligations.DispatchFaultsInOrder : Prop :=
  ∀ s : State,
    (s.ctl.dispatching = true → exec .interrupt s = .fault .reentrantDispatch) ∧
    (s.ctl.dispatching = false →
      (s.regs.evbufCount % s.cfg.evtBytes ≠ 0 ∨ s.cfg.evtBufBytes < s.regs.evbufCount) →
      exec .interrupt s = .fault .badEventCount) ∧
    (∀ p, s.cfg.numPhysEp ≤ p →
      handle (.xferComplete p) s = .fault .badEventEndpoint ∧ handle (.xferNotReady p) s = .fault .badEventEndpoint ∧
      handle (.epCmdComplete p) s = .fault .badEventEndpoint ∧ handle (.epOther p) s = .fault .badEventEndpoint)

/-! ## Reset, INIT, TEARDOWN -/

/-- R48 with R24, R39, R40, R43, R44: the values the spec gives at creation, for any launch parameters; reset is that state for the
spec defaults. -/
def Obligations.ResetIsTheCreationState : Prop :=
  State.reset = State.creation Config.default ∧
  ∀ (cfg : Config) (p : Nat), p < cfg.numPhysEp →
    let s := State.creation cfg
    (s.ep p).halted = false ∧ (s.ep p).notReady = false ∧ (s.ep p).queue = [] ∧ (s.ep p).active = none ∧
    (s.ep p).resIdx = none ∧ (s.ep p).deferred = [] ∧ (s.ep p).maxp = 0 ∧ (s.ep p).burst = 0 ∧
    (s.ep p).td.owner = false ∧ (2 ≤ p → (s.ep p).type = .none) ∧
    s.ctl.ep0Phase = .unconnected ∧ s.ctl.connected = false ∧ s.ctl.cfgStarted = false ∧ s.ctl.speed = none ∧
    s.ctl.evtCursor = 0 ∧ s.ctl.dispatching = false ∧ s.ctl.selData = [] ∧
    s.regs.runStop = false ∧ s.regs.devAddr = 0 ∧ s.regs.evbufCount = 0 ∧ (s.port p).enabled = false ∧
    (s.port p).cmd.active = false ∧ s.Shaped

/-- R291: INIT in the creation state, with every command answered in time, leaves the INIT state; the commands are
SET_EP_CONFIG(0), SET_XFER_RESOURCE(0), SET_EP_CONFIG(1), SET_XFER_RESOURCE(1), START_TRANSFER(0), in that order. -/
def Obligations.InitLeavesTheInitState : Prop :=
  ∀ (s : State) (n : Nat), s.cfg.wf = true → s.Shaped →
    s.eps = List.replicate s.cfg.numPhysEp Endpoint.creation → s.ctl = Controller.creation →
    s.regs.evbufCount = 0 → s.regs.runStop = false → (∀ p, (s.port p).enabled = false) → (∀ p, (s.hwEp p).late = none) →
    s.CmdsOk 5 →
    xferLen .OUT s.cfg.maxpTable.ss.control 8 s.cfg.lenBits = .next n →
    ∃ t, exec .init s = .next t ∧
      t.ep 0 = { Endpoint.creation with
        type := .control, maxp := s.cfg.maxpTable.ss.control, queue := [.setupRead], active := some .setupRead
        resIdx := some (s.draws.cmds.getD 4 { stillActive := 0, idx := 0 }).idx
        td := startedTd (setupReadRequest s.cfg.setupBuf) n .setup } ∧
      t.ep 1 = { Endpoint.creation with type := .control, maxp := s.cfg.maxpTable.ss.control } ∧
      (∀ p, 2 ≤ p → t.ep p = Endpoint.creation) ∧
      t.ctl = { Controller.creation with ep0Phase := .setup } ∧
      t.regs.runStop = true ∧ t.regs.devAddr = 0 ∧ t.regs.evbufBase = s.cfg.evbufAddr ∧
      t.regs.evbufSize = s.cfg.evtBufBytes ∧ t.regs.evbufCount = 0 ∧
      (∀ p, p < s.cfg.numPhysEp → (t.port p).enabled = decide (p < 2)) ∧
      t.req .setupRead = setupReadRequest s.cfg.setupBuf ∧
      (commandsOf t.outs).map (fun c => (c.type, c.target)) =
        (commandsOf s.outs).map (fun c => (c.type, c.target)) ++
        [(.setEpConfig, 0), (.setXferResource, 0), (.setEpConfig, 1), (.setXferResource, 1), (.startTransfer, 0)] ∧
      t.marks = s.marks

/-- R293: TEARDOWN with callbacks that make no nested call stops the controller, completes every queued request, clears every
enable bit and disconnects EP0; it issues no command and touches no memory. -/
def Obligations.TeardownClosesTheController : Prop :=
  ∀ s : State, s.Inv → s.NoNested →
    ∃ t, exec .teardown s = .next t ∧
      (∀ p, p < s.cfg.numPhysEp →
        t.ep p = { s.ep p with queue := [], active := none, resIdx := none } ∧
        t.port p = { s.port p with enabled := false } ∧
        ∀ r ∈ (s.ep p).queue, t.req r = completed .shutdown (s.req r)) ∧
      t.ctl = { s.ctl with ep0Phase := .unconnected } ∧
      t.regs.runStop = false ∧ t.regs.devAddr = s.regs.devAddr ∧ t.regs.evbufCount = s.regs.evbufCount ∧
      commandsOf t.outs = commandsOf s.outs ∧ t.mem = s.mem ∧ t.hw = s.hw

/-! ## What every step keeps -/

/-- The reset state meets the invariant, and so does the creation state of any well-formed launch. -/
def Obligations.ResetMeetsTheInvariant : Prop :=
  State.reset.Inv ∧ ∀ cfg : Config, cfg.wf = true → (State.creation cfg).Inv

/-- Every step keeps the invariant: the active request is the queue's head, an index is held exactly with it, commands wait
only on a not-ready endpoint, a request is queued once, EP0 is never halted, the cursor stays in the ring, memory stays
canonical (R25, R26, R30, R32, R34, R130, R140, R214). -/
def Obligations.StepKeepsTheInvariant : Prop :=
  ∀ s t : State, s.Inv → step s = .next t → t.Inv

/-- R238: whatever happens, no request's byte count exceeds the length requested. -/
def Obligations.ActualNeverExceedsLength : Prop :=
  ∀ s t : State, s.ActualBounded → step s = .next t → t.ActualBounded

/-- R215: STALLED holds only inside a step: no operation, and no step, leaves EP0 in it unless it found it there. -/
def Obligations.StalledIsTransient : Prop :=
  (∀ (i : Instr) (s t : State), exec i s = .next t → s.ctl.ep0Phase ≠ .stalled → t.ctl.ep0Phase ≠ .stalled) ∧
  (∀ s t : State, s.ctl.ep0Phase ≠ .stalled → step s = .next t → t.ctl.ep0Phase ≠ .stalled)

/-- No step changes a launch parameter (R6, R76); only INIT and TEARDOWN write `run_stop` (R39), only INIT writes the ring
registers (R42), and the device address is written only through a setup packet, by USB reset and by INIT (R40, R206, R240,
R290): every other operation leaves it, whatever its callbacks call. -/
def Obligations.ControlRegistersHaveTheirWriters : Prop :=
  (∀ s t : State, step s = .next t → t.cfg = s.cfg) ∧
  (∀ (i : Instr) (s t : State), exec i s = .next t → i ≠ .init → i ≠ .teardown → t.regs.runStop = s.regs.runStop) ∧
  (∀ (i : Instr) (s t : State), exec i s = .next t → i ≠ .init →
    t.regs.evbufBase = s.regs.evbufBase ∧ t.regs.evbufSize = s.regs.evbufSize) ∧
  (∀ (i : Instr) (s t : State), exec i s = .next t →
    i ∉ [Instr.init, .evUsbReset, .interrupt, .procProcessControl] →
    (∀ p, i ≠ .evXferComplete p ∧ i ≠ .procComplete p ∧ i ≠ .procKillAll p ∧ i ≠ .procEp0Advance p) →
    t.regs.devAddr = s.regs.devAddr)

/-- R230, R273: a step that starts outside a dispatch ends outside one. R84: the event cursor is touched only by the dispatcher,
and set to 0 by INIT (R290). R82: taking a line, with whatever outside writes and records it holds, leaves every byte of an
event record not yet acknowledged as it was (what a full ring does with one more record is the model's choice, log 35). -/
def Obligations.DispatcherStateIsTheDispatchersAlone : Prop :=
  (∀ s t : State, s.ctl.dispatching = false → step s = .next t → t.ctl.dispatching = false) ∧
  (∀ (i : Instr) (s t : State), exec i s = .next t → i ≠ .interrupt → i ≠ .init → t.ctl.evtCursor = s.ctl.evtCursor) ∧
  (∀ (s t : State) (ln : Line), loadLine ln s = .next t → 0 < s.cfg.evtBytes → s.cfg.evtBufBytes % s.cfg.evtBytes = 0 →
    s.ctl.evtCursor % s.cfg.evtBytes = 0 → s.ctl.evtCursor < s.cfg.evtBufBytes →
    s.regs.evbufCount % s.cfg.evtBytes = 0 →
    ∀ a, s.pendingByte a = true → Memory.get t.mem a = Memory.get s.mem a)

/-! ## Hardware commands and the issuer -/

/-- R131 with R95 and R45: a command for a ready endpoint, answered in time, has its parameters and its word in the target's
registers, `active` cleared and the index to read back; it is the one output; nothing else of the engine changes. That the
command carries `resIdx` 0 is the model's choice, log 36. -/
def Obligations.ReadyCommandIsWrittenAndDone : Prop :=
  ∀ (s : State) (i : Instr) (c : Command), tableCommand s i = some c → c.target < s.cfg.numPhysEp → s.Shaped →
    (s.ep c.target).notReady = false → s.CmdOk →
    ∃ h, exec i s = .next { s with
      regs := s.regsWith c.target (portAfter c false (if c.type = .startTransfer then s.cmdDraw.idx else c.resIdx) (s.port c.target))
      hw := h
      draws := s.drawsAfterCmd
      outs := s.outs ++ [.command c] }

/-- R132, R261: a command not answered in time leaves `active` set, marks its endpoint not-ready, records the error locally, and
is not queued again. R134, R47(a): the hardware is still executing it. Until it lands `EPCMD.resIdx` reads what was written, and
the mark a START_TRANSFER leaves for R304 is the model's (log 18). That the command carries `resIdx` 0 is the model's choice,
log 36. -/
def Obligations.TimedOutCommandMarksNotReady : Prop :=
  ∀ (s : State) (i : Instr) (c : Command), tableCommand s i = some c → c.target < s.cfg.numPhysEp → s.Shaped →
    (s.ep c.target).notReady = false → ¬ s.CmdOk →
    exec i s = .next { s with
      eps := s.eps.set c.target { s.ep c.target with notReady := true }
      regs := s.regsWith c.target (portAfter c true c.resIdx (s.port c.target))
      hw := s.hwLate c s.cmdDraw.idx
      marks := s.marks ++ (if c.type = .startTransfer then [.lateStart c.target] else [])
      draws := s.drawsAfterCmd
      outs := s.outs ++ [.command c, .localError .hardwareCommandTimeout c.target] }

/-- R130, R30: a command for a not-ready endpoint is appended to its FIFO and nothing else happens, or the full FIFO faults.
That the START_TRANSFER word alone changes nothing there is the model's choice, log 20: R121 and D10 say so of start_transfer.
That the command carries `resIdx` 0 is the model's choice, log 36. -/
def Obligations.NotReadyDefersCommands : Prop :=
  ∀ (s : State) (i : Instr) (c : Command), tableCommand s i = some c → c.target < s.cfg.numPhysEp →
    (s.ep c.target).notReady = true →
    exec i s =
      if c.type = .startTransfer then .next s
      else if s.cfg.deferCap = some (s.ep c.target).deferred.length then .fault .deferOverflow
      else .next { s with
        eps := s.eps.set c.target { s.ep c.target with deferred := (s.ep c.target).deferred ++ [c] } }

/-- R136, as the hardware agent's record holds it: what a completed command does to its endpoint's side (`HwAfter`), and that no
other endpoint's side changes; START_TRANSFER takes ownership of the TD at the address it carries, END_TRANSFER ends the running
transfer whose index it names; and the same of any command `issue` is given. R134, R47(a): a command that timed out is outstanding,
with no effect yet; when it lands (`landLate`, run by a line of the trace and by EV_EP_CMD_COMPLETE) it has that effect, and `EPCMD`
shows it complete. The record itself is the model's (log 19), and so is when a late command lands (log 18). -/
def Obligations.HardwareCommandEffects : Prop :=
  (∀ (s t : State) (i : Instr) (c : Command), tableCommand s i = some c → c.target < s.cfg.numPhysEp → s.Shaped →
    (s.ep c.target).notReady = false → s.CmdOk → exec i s = .next t →
    (∀ q, q ≠ c.target → t.hwEp q = s.hwEp q) ∧
    HwAfter c (t.port c.target).cmd.resIdx (s.hwEp c.target) (t.hwEp c.target) ∧
    t.hw.configs = s.hw.configs + (if c.type = .startNewConfig then 1 else 0) ∧
    (c.type = .setEpConfig → (t.hwEp c.target).config = some
      { type := (s.ep c.target).type, maxp := (s.ep c.target).maxp, burst := (s.ep c.target).burst,
        fifo := if c.target % 2 = 1 then c.target / 2 else 0, notify := (true, true) }) ∧
    (c.type = .startTransfer → (t.hwEp c.target).running = some
      { idx := s.cmdDraw.idx, td := some (s.tdAddr c.target % 2 ^ 64) })) ∧
  (∀ (s t : State) (p : EpField) (k : Nat), p.toNat < s.cfg.numPhysEp → s.Shaped → (s.ep p.toNat).resIdx = some k →
    (s.ep p.toNat).notReady = false → s.CmdOk → exec (.cmdEndTransfer p) s = .next t →
    HwAfter (endCommand p.toNat k) k (s.hwEp p.toNat) (t.hwEp p.toNat) ∧ t.hw.configs = s.hw.configs ∧
    ∀ q, q ≠ p.toNat → t.hwEp q = s.hwEp q) ∧
  (∀ (s t : State) (p : EpField), p.toNat < s.cfg.numPhysEp → s.Shaped → (s.ep p.toNat).notReady = false →
    exec (.procIssue p) s = .next t →
    let c : Command := { s.args.cmd with target := p.toNat }
    (s.CmdOk → HwAfter c (t.port p.toNat).cmd.resIdx (s.hwEp p.toNat) (t.hwEp p.toNat) ∧
      t.hw.configs = s.hw.configs + (if c.type = .startNewConfig then 1 else 0)) ∧
    (¬ s.CmdOk → t.hwEp p.toNat = { s.hwEp p.toNat with late := some { cmd := c, idx := s.cmdDraw.idx } } ∧
      t.hw.configs = s.hw.configs) ∧
    ∀ q, q ≠ p.toNat → t.hwEp q = s.hwEp q) ∧
  (∀ (s : State) (p : Nat), (s.hwEp p).late = none → landLate p s = s) ∧
  (∀ (s : State) (p : Nat) (x : LateCommand), p < s.cfg.numPhysEp → s.Shaped → (s.hwEp p).late = some x →
    let idx := if x.cmd.type = .startTransfer then x.idx else x.cmd.resIdx
    ∃ h, landLate p s = { s with
        regs := s.regsWith p { s.port p with cmd := { (s.port p).cmd with active := false, resIdx := idx } }
        hw := { eps := s.hw.eps.set p h, configs := s.hw.configs + (if x.cmd.type = .startNewConfig then 1 else 0) } } ∧
      HwAfter x.cmd idx (s.hwEp p) h)

/-- R158, R159, of deactivate: with no index outstanding it only clears the enable bit; with one, on a ready endpoint, END_TRANSFER
is written with force and ioc and the endpoint is not ready, whether it is answered in time or not (R132); on a not-ready
endpoint it is deferred; then the enable bit is cleared. That the END_TRANSFER word alone does the same without the enable bit
(nothing without an index, not ready afterwards) is the model's choice, log 20. -/
def Obligations.EndTransferAndDeactivate : Prop :=
  ∀ (s : State) (p : EpField), p.toNat < s.cfg.numPhysEp → s.Shaped →
    ((s.ep p.toNat).resIdx = none → exec (.cmdEndTransfer p) s = .next s ∧
      exec (.procDeactivate p) s = .next (s.setEnable p.toNat false)) ∧
    (∀ k, (s.ep p.toNat).resIdx = some k → (s.ep p.toNat).notReady = false → s.CmdOk →
      ∃ h, let t := { s with
          eps := s.eps.set p.toNat { s.ep p.toNat with notReady := true }
          regs := s.regsWith p.toNat (portAfter (endCommand p.toNat k) false k (s.port p.toNat))
          hw := h
          draws := s.drawsAfterCmd
          outs := s.outs ++ [.command (endCommand p.toNat k)] }
        exec (.cmdEndTransfer p) s = .next t ∧ exec (.procDeactivate p) s = .next (t.setEnable p.toNat false)) ∧
    (∀ k, (s.ep p.toNat).resIdx = some k → (s.ep p.toNat).notReady = false → ¬ s.CmdOk →
      ∃ h, let t := { s with
          eps := s.eps.set p.toNat { s.ep p.toNat with notReady := true }
          regs := s.regsWith p.toNat (portAfter (endCommand p.toNat k) true k (s.port p.toNat))
          hw := h
          draws := s.drawsAfterCmd
          outs := s.outs ++ [.command (endCommand p.toNat k), .localError .hardwareCommandTimeout p.toNat] }
        exec (.cmdEndTransfer p) s = .next t ∧ exec (.procDeactivate p) s = .next (t.setEnable p.toNat false)) ∧
    (∀ k, (s.ep p.toNat).resIdx = some k → (s.ep p.toNat).notReady = true →
      s.cfg.deferCap ≠ some (s.ep p.toNat).deferred.length →
      let t := { s with
          eps := s.eps.set p.toNat { s.ep p.toNat with
            deferred := (s.ep p.toNat).deferred ++ [endCommand p.toNat k], notReady := true } }
      exec (.cmdEndTransfer p) s = .next t ∧ exec (.procDeactivate p) s = .next (t.setEnable p.toNat false))

/-- R130 to R133: issue of the Command beside the word returns Done with the index the register holds, Deferred, or Timeout; a
full FIFO faults (R30). After a timeout `EPCMD.resIdx` reads what was written until the command lands, and the mark a
START_TRANSFER leaves is the model's (log 18). That a START_TRANSFER given to issue itself is deferred like any other is its
pseudocode, which the model follows (log 23); start_transfer never gives it one there (R121). -/
def Obligations.IssueReturnsItsResult : Prop :=
  ∀ (s : State) (p : EpField), p.toNat < s.cfg.numPhysEp → s.Shaped →
    let c : Command := { s.args.cmd with target := p.toNat }
    ((s.ep p.toNat).notReady = false → s.CmdOk → ∃ h, let idx := if c.type = .startTransfer then s.cmdDraw.idx else c.resIdx
      exec (.procIssue p) s = .next { s with
        regs := s.regsWith p.toNat (portAfter c false idx (s.port p.toNat))
        hw := h
        draws := s.drawsAfterCmd
        outs := s.outs ++ [.command c, .returned (.cmd (.done idx))] }) ∧
    ((s.ep p.toNat).notReady = false → ¬ s.CmdOk → exec (.procIssue p) s = .next { s with
        eps := s.eps.set p.toNat { s.ep p.toNat with notReady := true }
        regs := s.regsWith p.toNat (portAfter c true c.resIdx (s.port p.toNat))
        hw := s.hwLate c s.cmdDraw.idx
        marks := s.marks ++ (if c.type = .startTransfer then [.lateStart p.toNat] else [])
        draws := s.drawsAfterCmd
        outs := s.outs ++ [.command c, .localError .hardwareCommandTimeout p.toNat, .returned (.cmd .timeout)] }) ∧
    ((s.ep p.toNat).notReady = true → s.cfg.deferCap = some (s.ep p.toNat).deferred.length →
      exec (.procIssue p) s = .fault .deferOverflow) ∧
    ((s.ep p.toNat).notReady = true → s.cfg.deferCap ≠ some (s.ep p.toNat).deferred.length →
      exec (.procIssue p) s = .next { s with
        eps := s.eps.set p.toNat { s.ep p.toNat with deferred := (s.ep p.toNat).deferred ++ [c] }
        outs := s.outs ++ [.returned (.cmd .deferred)] })

/-- R138, R139, R140, R135: a drain writes the FIFO's commands in order up to and with the first one that is an END_TRANSFER or
is not answered in time, where it stops, the endpoint not ready and the rest waiting in order; with no such command it writes
them all and the endpoint is ready. It starts nothing, queues nothing and touches no other endpoint. -/
def Obligations.DrainIssuesInOrder : Prop :=
  ∀ (s : State) (p : EpField), p.toNat < s.cfg.numPhysEp → s.Shaped →
    (∀ c ∈ (s.ep p.toNat).deferred, c.target = p.toNat) →
    let stops := fun i : Nat =>
      (∃ c, (s.ep p.toNat).deferred[i]? = some c ∧ c.type = .endTransfer) ∨
      s.cfg.cmdTimeout ≤ (s.draws.cmds.getD i { stillActive := 0, idx := 0 }).stillActive
    ∃ t k, exec (.procDrainDeferred p) s = .next t ∧ k ≤ (s.ep p.toNat).deferred.length ∧
      (∀ i, i + 1 < k → ¬ stops i) ∧
      (k < (s.ep p.toNat).deferred.length → 0 < k ∧ stops (k - 1)) ∧
      commandsOf t.outs = commandsOf s.outs ++ (s.ep p.toNat).deferred.take k ∧
      t.ep p.toNat = { s.ep p.toNat with
        deferred := (s.ep p.toNat).deferred.drop k, notReady := (t.ep p.toNat).notReady } ∧
      ((t.ep p.toNat).notReady = true ↔ 0 < k ∧ stops (k - 1)) ∧
      t.draws = { s.draws with cmds := s.draws.cmds.drop k } ∧
      (∀ q, q ≠ p.toNat → t.ep q = s.ep q ∧ t.port q = s.port q) ∧ t.mem = s.mem ∧ t.ctl = s.ctl ∧ t.reqs = s.reqs

/-- R237: the event drains the FIFO as drain_deferred does and then, with no request active and one queued, the head is started
as start_transfer starts it. With an empty FIFO it clears not-ready; with commands waiting, none of them END_TRANSFER and each
answered in time, all are written in order, the FIFO is empty and the endpoint ready (R141). That a command still outstanding has
landed by then is the model's choice, log 18 (`landLate`: what it leaves, `resIdx` with it, HardwareCommandEffects says), and that
`EPCMD[p].active` reads 0 from the event on its inference, log 24. -/
def Obligations.CommandCompleteRestartsTheQueue : Prop :=
  ∀ (s : State) (p : EpField), p.toNat < s.cfg.numPhysEp →
    let l := landLate p.toNat s
    let w := { l with
      regs := l.regsWith p.toNat { l.port p.toNat with cmd := { (l.port p.toNat).cmd with active := false } } }
    (exec (.evEpCmdComplete p) s = andThen (exec (.procDrainDeferred p) w) fun t =>
      if (t.ep p.toNat).active = none ∧ (t.ep p.toNat).queue ≠ [] then exec (.procStartTransfer p) t else .next t) ∧
    ((s.ep p.toNat).deferred = [] →
      let t := { w with eps := s.eps.set p.toNat { s.ep p.toNat with notReady := false } }
      ((s.ep p.toNat).active ≠ none ∨ (s.ep p.toNat).queue = [] → exec (.evEpCmdComplete p) s = .next t) ∧
      ((s.ep p.toNat).active = none → (s.ep p.toNat).queue ≠ [] →
        exec (.evEpCmdComplete p) s = exec (.procStartTransfer p) t)) ∧
    (s.Shaped → (∀ c ∈ (s.ep p.toNat).deferred, c.target = p.toNat ∧ c.type ≠ .endTransfer) →
      s.CmdsOk (s.ep p.toNat).deferred.length →
      ∃ t : State, commandsOf t.outs = commandsOf s.outs ++ (s.ep p.toNat).deferred ∧
        t.eps = s.eps.set p.toNat { s.ep p.toNat with deferred := [], notReady := false } ∧
        t.mem = s.mem ∧ t.ctl = s.ctl ∧ t.reqs = s.reqs ∧
        ((s.ep p.toNat).active ≠ none ∨ (s.ep p.toNat).queue = [] → exec (.evEpCmdComplete p) s = .next t) ∧
        ((s.ep p.toNat).active = none → (s.ep p.toNat).queue ≠ [] →
          exec (.evEpCmdComplete p) s = exec (.procStartTransfer p) t))

/-- R302, R130, R303: outside the drain of a command-complete event, no operation writes a command to an endpoint that was not
ready, and none makes it ready. -/
def Obligations.NotReadyEndpointGetsNoCommand : Prop :=
  ∀ (i : Instr) (s t : State), exec i s = .next t → i ≠ .interrupt →
    (∀ p, i ≠ .evEpCmdComplete p ∧ i ≠ .procDrainDeferred p) →
    ∃ new, commandsOf t.outs = commandsOf s.outs ++ new ∧
      ∀ p, (s.ep p).notReady = true → (t.ep p).notReady = true ∧ ∀ c ∈ new, c.target ≠ p

/-! ## start_transfer -/

/-- R120, R121, R127: on a halted or not-ready endpoint, with a request active, or with an empty queue, start_transfer changes
nothing. R122, R126, R72: where a startable head does not start: a length fault first, then a phase without a control type,
then a misaligned TD. That the misaligned TD is refused here, and after those faults, is the model's inference, log 26. -/
def Obligations.StartTransferGuardsAndFaults : Prop :=
  (∀ (s : State) (p : EpField), p.toNat < s.cfg.numPhysEp →
     ((s.ep p.toNat).halted = true ∨ (s.ep p.toNat).notReady = true ∨ (s.ep p.toNat).active ≠ none ∨
       (s.ep p.toNat).queue = []) →
     exec (.procStartTransfer p) s = .next s) ∧
  (∀ (s : State) (p : EpField) (r : ReqRef) (rest : List ReqRef),
     p.toNat < s.cfg.numPhysEp → s.CanStart p.toNat → (s.ep p.toNat).queue = r :: rest →
     let x := xferLen (if p.toNat % 2 = 0 then .OUT else .IN) (s.ep p.toNat).maxp (s.req r).length s.cfg.lenBits
     (∀ f, x = .fault f → exec (.procStartTransfer p) s = .fault f) ∧
     (∀ n, x = .next n → p.toNat < 2 →
       (s.ctl.ep0Phase = .unconnected ∨ s.ctl.ep0Phase = .waitNrdy ∨ s.ctl.ep0Phase = .stalled) →
       exec (.procStartTransfer p) s = .fault .ep0BadPhase) ∧
     (∀ n, x = .next n → 2 ≤ p.toNat → s.tdAddr p.toNat % s.cfg.tdAlign ≠ 0 →
       exec (.procStartTransfer p) s = .refused .misalignedTd))

/-- R123, R124, R126: the head of a startable queue has its TD in the record and, sixteen bytes, in memory; START_TRANSFER with
the TD's address is the one output; answered in time, the head is active with the returned index. Every byte outside the TD and
everything else of the engine is unchanged. That the command carries `resIdx` 0 is the model's choice, log 36. -/
def Obligations.StartTransferStartsTheHead : Prop :=
  ∀ (s : State) (p : EpField) (r : ReqRef) (rest : List ReqRef) (n : Nat) (ty : CtlType),
    p.toNat < s.cfg.numPhysEp → s.Shaped → Memory.wf s.mem = true →
    s.CanStart p.toNat → (s.ep p.toNat).queue = r :: rest → s.TdPlaced p.toNat → s.CmdOk →
    xferLen (if p.toNat % 2 = 0 then .OUT else .IN) (s.ep p.toNat).maxp (s.req r).length s.cfg.lenBits = .next n →
    (2 ≤ p.toNat ∧ ty = .normal ∨ p.toNat < 2 ∧ (s.ctl.ep0Phase, ty) ∈ ep0CtlTypes) →
    ∃ t h, exec (.procStartTransfer p) s = .next t ∧
      t = { s with
        eps := s.eps.set p.toNat { s.ep p.toNat with
          td := startedTd (s.req r) n ty, resIdx := some s.cmdDraw.idx, active := some r }
        regs := s.regsWith p.toNat (portAfter
          { target := p.toNat, type := .startTransfer, par0 := .word (BitVec.ofNat 32 (s.tdAddr p.toNat / 2 ^ 32)),
            par1 := .word (BitVec.ofNat 32 (s.tdAddr p.toNat)), par2 := .word 0, force := false, ioc := false, resIdx := 0 }
          false s.cmdDraw.idx (s.port p.toNat))
        mem := t.mem
        hw := h
        draws := s.drawsAfterCmd
        outs := s.outs ++ [.command
          { target := p.toNat, type := .startTransfer, par0 := .word (BitVec.ofNat 32 (s.tdAddr p.toNat / 2 ^ 32)),
            par1 := .word (BitVec.ofNat 32 (s.tdAddr p.toNat)), par2 := .word 0, force := false, ioc := false, resIdx := 0 }] } ∧
      Memory.getBytes t.mem (s.tdAddr p.toNat) 16 = encodeTd s.cfg (startedTd (s.req r) n ty) ∧
      ∀ a, a < s.tdAddr p.toNat ∨ s.tdAddr p.toNat + 16 ≤ a → Memory.get t.mem a = Memory.get s.mem a

/-- R125: when START_TRANSFER is not answered in time the request stays at the head, inactive and without an index; the TD
stands in memory with `owner = 1`; the endpoint is not ready and the hazard of R304 is marked. -/
def Obligations.StartTransferTimeoutKeepsTheRequest : Prop :=
  ∀ (s : State) (p : EpField) (r : ReqRef) (rest : List ReqRef) (n : Nat) (ty : CtlType),
    p.toNat < s.cfg.numPhysEp → s.Shaped → Memory.wf s.mem = true →
    s.CanStart p.toNat → (s.ep p.toNat).queue = r :: rest → s.TdPlaced p.toNat → ¬ s.CmdOk →
    xferLen (if p.toNat % 2 = 0 then .OUT else .IN) (s.ep p.toNat).maxp (s.req r).length s.cfg.lenBits = .next n →
    (2 ≤ p.toNat ∧ ty = .normal ∨ p.toNat < 2 ∧ (s.ctl.ep0Phase, ty) ∈ ep0CtlTypes) →
    ∃ t, exec (.procStartTransfer p) s = .next t ∧
      t.ep p.toNat = { s.ep p.toNat with td := startedTd (s.req r) n ty, notReady := true } ∧
      (∀ q, q ≠ p.toNat → t.ep q = s.ep q) ∧
      Memory.getBytes t.mem (s.tdAddr p.toNat) 16 = encodeTd s.cfg (startedTd (s.req r) n ty) ∧
      (∀ a, a < s.tdAddr p.toNat ∨ s.tdAddr p.toNat + 16 ≤ a → Memory.get t.mem a = Memory.get s.mem a) ∧
      t.marks = s.marks ++ [.lateStart p.toNat] ∧ t.ctl = s.ctl ∧ t.reqs = s.reqs

/-! ## Endpoint lifecycle -/

/-- R150, R162, R262, R263, R270: ENABLE of EP0 is refused; then a number or direction mismatch is returned; then isochronous;
an error changes nothing but the return. DISABLE of EP0 is refused. -/
def Obligations.EnableChecksInOrder : Prop :=
  ∀ (s : State) (p : EpField), p.toNat < s.cfg.numPhysEp → s.regs.runStop = true →
    let d := descOfArg s.args.desc
    (p.toNat < 2 → exec (.enable p) s = .refused .ep0NotForUpperLayer ∧
      exec (.disable p) s = .refused .ep0NotForUpperLayer) ∧
    (2 ≤ p.toNat → (d.num ≠ p.toNat / 2 ∨ d.dir ≠ (if p.toNat % 2 = 0 then .OUT else .IN)) →
      exec (.enable p) s = .next { s with outs := s.outs ++ [.returned (.err .mismatchedDescriptor)] }) ∧
    (2 ≤ p.toNat → d.num = p.toNat / 2 → d.dir = (if p.toNat % 2 = 0 then .OUT else .IN) → d.type = .isochronous →
      exec (.enable p) s = .next { s with outs := s.outs ++ [.returned (.err .unsupportedEndpointType)] })

/-- R150 to R155: ENABLE with a matching descriptor on a ready endpoint, the commands answered in time, records type, max-packet
and burst, issues START_NEW_CONFIG on 0 if it is the first non-control endpoint, then SET_EP_CONFIG and SET_XFER_RESOURCE on
`p`, sets the enable bit and returns 0. That the commands carry `resIdx` 0 is the model's choice, log 36. -/
def Obligations.EnableActivatesTheEndpoint : Prop :=
  ∀ (s : State) (p : EpField) (ty : EpType), p.toNat < s.cfg.numPhysEp → 2 ≤ p.toNat → s.Shaped → s.regs.runStop = true →
    let d := descOfArg s.args.desc
    d.num = p.toNat / 2 → d.dir = (if p.toNat % 2 = 0 then .OUT else .IN) →
    (d.type = .control ∧ ty = .control ∨ d.type = .bulk ∧ ty = .bulk ∨ d.type = .interrupt ∧ ty = .interrupt) →
    (s.ep 0).notReady = false → (s.ep p.toNat).notReady = false → s.CmdsOk 3 →
    ∃ t, exec (.enable p) s = .next t ∧
      t.eps = s.eps.set p.toNat { s.ep p.toNat with type := ty, maxp := d.maxp, burst := d.burst } ∧
      (t.port p.toNat).enabled = true ∧
      (∀ q, q ≠ p.toNat → (t.port q).enabled = (s.port q).enabled) ∧
      t.ctl = { s.ctl with cfgStarted := s.ctl.cfgStarted || decide (ty ≠ .control) } ∧
      t.outs = s.outs ++
        (if ty ≠ .control ∧ s.ctl.cfgStarted = false then
          [Output.command { target := 0, type := .startNewConfig, par0 := .word 0, par1 := .word 0, par2 := .word 0,
                            force := false, ioc := false, resIdx := 0 }] else []) ++
        [.command { target := p.toNat, type := .setEpConfig, par0 := .epConfig ty d.maxp,
                    par1 := .burstFifo d.burst (if p.toNat % 2 = 1 then p.toNat / 2 else 0), par2 := .notify true true,
                    force := false, ioc := false, resIdx := 0 },
         .command { target := p.toNat, type := .setXferResource, par0 := .word 1, par1 := .word 0, par2 := .word 0,
                    force := false, ioc := false, resIdx := 0 },
         .returned (.int 0)] ∧
      t.mem = s.mem ∧ t.reqs = s.reqs ∧ t.marks = s.marks

/-- R155, R156: whatever the commands return, an activate that answers leaves the enable bit set and the endpoints' types,
queues and transfers alone; on a ready endpoint, the commands answered in time, it answers. -/
def Obligations.ActivateAlwaysSetsTheEnableBit : Prop :=
  (∀ (s t : State) (p : EpField), s.Shaped → exec (.procActivate p) s = .next t →
    (t.port p.toNat).enabled = true ∧
    ∀ q, t.ep q = { s.ep q with notReady := (t.ep q).notReady, deferred := (t.ep q).deferred }) ∧
  (∀ (s : State) (p : EpField), p.toNat < s.cfg.numPhysEp → (s.ep 0).notReady = false →
    (s.ep p.toNat).notReady = false → s.CmdsOk 3 → ∃ t, exec (.procActivate p) s = .next t)

/-- R160: DISABLE of a ready endpoint with callbacks that make no nested call: END_TRANSFER if an index is outstanding and
then not ready, the enable bit cleared, every queued request completed with Shutdown in queue order, 0 returned. -/
def Obligations.DisableShutsTheEndpointDown : Prop :=
  ∀ (s : State) (p : EpField), p.toNat < s.cfg.numPhysEp → 2 ≤ p.toNat → s.Inv → s.NoNested → s.regs.runStop = true →
    (s.ep p.toNat).notReady = false → s.CmdOk →
    ∃ t, exec (.disable p) s = .next t ∧
      t.ep p.toNat = { s.ep p.toNat with
        queue := [], active := none, resIdx := none, notReady := (s.ep p.toNat).resIdx.isSome } ∧
      (∀ q, q ≠ p.toNat → t.ep q = s.ep q) ∧
      (t.port p.toNat).enabled = false ∧
      t.outs = s.outs ++
        (match (s.ep p.toNat).resIdx with | none => [] | some k => [Output.command (endCommand p.toNat k)]) ++
        ((s.ep p.toNat).queue.flatMap fun r => callbackOutput r (completed .shutdown (s.req r))) ++
        [.returned (.int 0)] ∧
      (∀ r, t.req r = if r ∈ (s.ep p.toNat).queue then completed .shutdown (s.req r) else s.req r) ∧
      t.mem = s.mem ∧ t.ctl = s.ctl

/-- R161: a second DISABLE makes no callback and issues no command: it returns 0 and changes nothing else. -/
def Obligations.SecondDisableDoesNothing : Prop :=
  ∀ (s t : State) (p : EpField), s.Inv → s.NoNested → s.regs.runStop = true → exec (.disable p) s = .next t →
    exec (.disable p) t = .next { t with outs := t.outs ++ [.returned (.int 0)] }

/-! ## Requests -/

/-- R170, R171: ALLOC_REQUEST returns a request no one holds, fresh and on no queue, and changes no engine record; its buffer
is not stated. FREE_REQUEST of an unqueued request makes it cease to exist; of a queued one is refused. -/
def Obligations.AllocAndFreeRequests : Prop :=
  (∀ s : State, s.regs.runStop = true → ∃ (t : State) (id b : Nat), exec .allocRequest s = .next t ∧
    t = { s with reqs := t.reqs, freeCtr := s.freeCtr + 1, outs := s.outs ++ [.returned (.request id)] } ∧
    findReq s.reqs (.user id) = none ∧ s.onAnyQueue (.user id) = false ∧
    findReq t.reqs (.user id) = some { buf := b, length := 0, callback := .unset, status := .inProgress, actual := 0, mapped := false } ∧
    ∀ r, r ≠ .user id → findReq t.reqs r = findReq s.reqs r) ∧
  (∀ s : State, s.regs.runStop = true →
    (s.onAnyQueue (.user s.args.req) = true → exec .freeRequest s = .refused .freeOfQueued) ∧
    (s.onAnyQueue (.user s.args.req) = false → ∃ t : State, exec .freeRequest s = .next t ∧
      t = { s with reqs := t.reqs } ∧ findReq t.reqs (.user s.args.req) = none ∧
      ∀ r, r ≠ .user s.args.req → findReq t.reqs r = findReq s.reqs r))

/-- R172: QUEUE of an unqueued request on an endpoint other than EP0, the mapping succeeding: status InProgress, byte count 0,
mapped, at the queue's tail. The buffer is taken modulo `2^ADDR_BITS` (the model's choice, log 14), and a buffer against R76's
premise leaves the model's mark (log 34). On a busy or not-ready endpoint nothing starts and 0 is returned; on an empty ready
one the rest is what start_transfer does there. A request already queued is refused (R32). -/
def Obligations.QueueAppendsAndStarts : Prop :=
  ∀ (s : State) (p : EpField), p.toNat < s.cfg.numPhysEp → s.regs.runStop = true →
    let r := ReqRef.user s.args.req
    let x : Request := { buf := s.args.buf % 2 ^ s.cfg.addrBits, length := s.args.len, callback := .upper,
                         status := .inProgress, actual := 0, mapped := true }
    let u : State := { s with
      reqs := putReq s.reqs r x
      draws := if (s.req r).mapped then s.draws else { s.draws with maps := s.draws.maps.tail }
      marks := s.marks ++ (if s.bufferClear r x then [] else [.bufferOverlap r])
      eps := s.eps.set p.toNat { s.ep p.toNat with queue := (s.ep p.toNat).queue ++ [r] } }
    (s.onAnyQueue r = true → exec (.queue p) s = .refused .alreadyQueued) ∧
    (s.onAnyQueue r = false → 2 ≤ p.toNat → ((s.req r).mapped = true ∨ s.mapDraw = true) →
      ((s.ep p.toNat).queue ≠ [] ∨ (s.ep p.toNat).notReady = true →
        exec (.queue p) s = .next { u with outs := u.outs ++ [.returned (.int 0)] }) ∧
      ((s.ep p.toNat).queue = [] → (s.ep p.toNat).notReady = false →
        exec (.queue p) s = andThen (exec (.procStartTransfer p) u) fun t =>
          .next { t with outs := t.outs ++ [.returned (.int 0)] }))

/-- R173, R264: when the mapping fails QUEUE returns BufferMapFailure; the request keeps InProgress and byte count 0; no queue,
TD or command changes. R174, R172: an upper-layer QUEUE on EP0 faults outside DATA; in DATA it goes on the data stage's
endpoint, and there it waits, or starts as start_transfer starts it. The buffer taken modulo `2^ADDR_BITS` and the mark of a
buffer against R76's premise are the model's (logs 14, 34). -/
def Obligations.QueueMapFailureAndEp0Target : Prop :=
  (∀ (s : State) (p : EpField), p.toNat < s.cfg.numPhysEp → (2 ≤ p.toNat ∨ s.ctl.ep0Phase = .data) →
     s.regs.runStop = true →
     let r := ReqRef.user s.args.req
     s.onAnyQueue r = false → (s.req r).mapped = false → s.mapDraw = false →
     ∃ t, exec (.queue p) s = .next t ∧
       t = { s with reqs := t.reqs, draws := { s.draws with maps := s.draws.maps.tail },
                    outs := s.outs ++ [.returned (.err .bufferMapFailure)] } ∧
       (t.req r).status = .inProgress ∧ (t.req r).actual = 0 ∧ (t.req r).mapped = false ∧
       ∀ r', r' ≠ r → t.req r' = s.req r') ∧
  (∀ (s : State) (p : EpField), p.toNat < s.cfg.numPhysEp → p.toNat < 2 → s.regs.runStop = true →
     let r := ReqRef.user s.args.req
     s.onAnyQueue r = false →
     (s.ctl.ep0Phase ≠ .data → exec (.queue p) s = .fault .ep0BadPhase) ∧
     (s.ctl.ep0Phase = .data → 2 ≤ s.cfg.numPhysEp → ((s.req r).mapped = true ∨ s.mapDraw = true) →
       let q := if s.ctl.ep0Ctx.dataDir = .IN then 1 else 0
       let x : Request := { buf := s.args.buf % 2 ^ s.cfg.addrBits, length := s.args.len, callback := .upper,
                            status := .inProgress, actual := 0, mapped := true }
       let u : State := { s with
         reqs := putReq s.reqs r x
         draws := if (s.req r).mapped then s.draws else { s.draws with maps := s.draws.maps.tail }
         marks := s.marks ++ (if s.bufferClear r x then [] else [.bufferOverlap r])
         eps := s.eps.set q { s.ep q with queue := (s.ep q).queue ++ [r] } }
       ((s.ep q).queue ≠ [] ∨ (s.ep q).notReady = true →
         exec (.queue p) s = .next { u with outs := u.outs ++ [.returned (.int 0)] }) ∧
       ((s.ep q).queue = [] → (s.ep q).notReady = false →
         exec (.queue p) s = andThen (exec (.procStartTransfer (BitVec.ofNat 8 q)) u) fun t =>
           .next { t with outs := t.outs ++ [.returned (.int 0)] })))

/-- R176, R177, R181: DEQUEUE of a request not on the queue returns RequestNotFound and changes nothing else. Of a queued one,
the callback making no nested call, it completes it with ConnectionReset and no command; the active marker and index are
cleared only if it was the active one; EP0 is searched on both its endpoints. The mark `bufferReleased` of a cancelled active
request is the model's record of R305's hazard, log 17. -/
def Obligations.DequeueCompletesWithConnectionReset : Prop :=
  (∀ (s : State) (p : EpField), p.toNat < s.cfg.numPhysEp → s.regs.runStop = true →
    let r := ReqRef.user s.args.req
    (2 ≤ p.toNat → r ∉ (s.ep p.toNat).queue) → (p.toNat < 2 → r ∉ (s.ep 0).queue ∧ r ∉ (s.ep 1).queue) →
      exec (.dequeue p) s = .next { s with outs := s.outs ++ [.returned (.err .requestNotFound)] }) ∧
  (∀ (s : State) (p : EpField) (q : Nat), p.toNat < s.cfg.numPhysEp → s.Shaped → 2 ≤ s.cfg.numPhysEp → s.NoNested →
    s.regs.runStop = true →
    let r := ReqRef.user s.args.req
    (2 ≤ p.toNat ∧ q = p.toNat ∨ p.toNat < 2 ∧ q = 0 ∨ p.toNat < 2 ∧ q = 1 ∧ r ∉ (s.ep 0).queue) →
    r ∈ (s.ep q).queue →
    let act := decide ((s.ep q).active = some r)
    exec (.dequeue p) s = .next { s with
      reqs := putReq s.reqs r (completed .connectionReset (s.req r))
      eps := s.eps.set q { s.ep q with
        queue := (s.ep q).queue.erase r
        active := if act then none else (s.ep q).active
        resIdx := if act then none else (s.ep q).resIdx }
      marks := s.marks ++ (if act then [.bufferReleased q r] else [])
      outs := s.outs ++ callbackOutput r (completed .connectionReset (s.req r)) ++ [.returned (.int 0)] })

/-- R180 to R182, R184, R185: complete without Success, the callback making no nested call: the status changes only from
InProgress, the marker and index go only with the active request, the mapping is released, the callback is made unless the
request is internal, the EP0 phase is left alone and no next request starts. The mark `bufferReleased` of the active request
is the model's, log 17. -/
def Obligations.CompletionWithoutSuccess : Prop :=
  ∀ (s : State) (p : EpField), p.toNat < s.cfg.numPhysEp → s.NoNested → s.args.result ≠ .success →
    let r := s.args.ref
    let act := decide ((s.ep p.toNat).active = some r)
    exec (.procComplete p) s = .next { s with
      reqs := putReq s.reqs r (completed s.args.result (s.req r))
      eps := s.eps.set p.toNat { s.ep p.toNat with
        queue := (s.ep p.toNat).queue.erase r
        active := if act then none else (s.ep p.toNat).active
        resIdx := if act then none else (s.ep p.toNat).resIdx }
      marks := s.marks ++ (if act then [.bufferReleased p.toNat r] else [])
      outs := s.outs ++ callbackOutput r (completed s.args.result (s.req r)) }

/-- R180, R184: complete with Success on an endpoint other than EP0, the callback making no nested call: the request is
released and its callback made; then, if no request is active, the rest is what start_transfer does there, and otherwise
nothing. -/
def Obligations.CompletionStartsTheNext : Prop :=
  ∀ (s : State) (p : EpField), p.toNat < s.cfg.numPhysEp → s.Shaped → 2 ≤ p.toNat → s.NoNested → s.args.result = .success →
    let r := s.args.ref
    let act := decide ((s.ep p.toNat).active = some r)
    let u : State := { s with
      reqs := putReq s.reqs r (completed .success (s.req r))
      eps := s.eps.set p.toNat { s.ep p.toNat with
        queue := (s.ep p.toNat).queue.erase r
        active := if act then none else (s.ep p.toNat).active
        resIdx := if act then none else (s.ep p.toNat).resIdx }
      outs := s.outs ++ callbackOutput r (completed .success (s.req r)) }
    (act = true ∨ (s.ep p.toNat).active = none → exec (.procComplete p) s = exec (.procStartTransfer p) u) ∧
    (act = false → (s.ep p.toNat).active ≠ none → exec (.procComplete p) s = .next u)

/-- R186: kill_all without Success, the callbacks making no nested call, completes every queued request in queue order and
leaves the queue empty and nothing active; it issues no command. -/
def Obligations.KillAllInQueueOrder : Prop :=
  ∀ (s : State) (p : EpField), p.toNat < s.cfg.numPhysEp → s.Inv → s.NoNested → s.args.result ≠ .success →
    ∃ t, exec (.procKillAll p) s = .next t ∧
      t.ep p.toNat = { s.ep p.toNat with queue := [], active := none, resIdx := none } ∧
      (∀ q, q ≠ p.toNat → t.ep q = s.ep q) ∧
      (∀ r, t.req r = if r ∈ (s.ep p.toNat).queue then completed s.args.result (s.req r) else s.req r) ∧
      t.outs = s.outs ++
        (s.ep p.toNat).queue.flatMap (fun r => callbackOutput r (completed s.args.result (s.req r))) ∧
      t.mem = s.mem ∧ t.regs = s.regs ∧ t.ctl = s.ctl ∧ t.hw = s.hw

/-- R183: UP_COMPLETE_CB makes its upcall, and then exactly the calls the upper layer scripted for it, in order, each with
callbacks of its own; with no script, none (that it does so for a request of the engine's own too is the model's choice, log 37).
Each nested call is the upper-layer operation of its own word over its own operands. A nested INTERRUPT faults during a dispatch
(R250); that it is refused elsewhere is the model's inference from R272 (log 22). -/
def Obligations.CallbackMakesItsNestedCalls : Prop :=
  ∀ s : State,
    let o := Output.completeCb s.args.ref (s.req s.args.ref).status (s.req s.args.ref).actual
    (s.draws.cbs = [] → exec .upCompleteCb s = .next { s with outs := s.outs ++ [o] }) ∧
    (∀ calls rest, s.draws.cbs = calls :: rest →
      exec .upCompleteCb s =
        eachInOrder (nestedCall callback) calls { s with draws := { s.draws with cbs := rest }, outs := s.outs ++ [o] }) ∧
    (∀ p : EpField, p.toNat < s.cfg.numPhysEp →
      (∀ d, nestedCall callback (.enable p.toNat d) s = callEnable p.toNat d (noteCall s)) ∧
      exec (.enable p) s = callEnable p.toNat s.args.desc (noteCall s) ∧
      nestedCall callback (.disable p.toNat) s = exec (.disable p) s ∧
      (∀ r b n, nestedCall callback (.queue p.toNat r b n) s = callQueue p.toNat r b n (noteCall s)) ∧
      exec (.queue p) s = callQueue p.toNat s.args.req s.args.buf s.args.len (noteCall s) ∧
      (∀ r, nestedCall callback (.dequeue p.toNat r) s = callDequeue callback p.toNat r (noteCall s)) ∧
      exec (.dequeue p) s = callDequeue callback p.toNat s.args.req (noteCall s) ∧
      (∀ v, nestedCall callback (.setHalt p.toNat v) s = callSetHalt callback p.toNat v (noteCall s)) ∧
      exec (.setHalt p) s = callSetHalt callback p.toNat s.args.value (noteCall s)) ∧
    nestedCall callback .allocRequest s = exec .allocRequest s ∧
    (∀ r, nestedCall callback (.freeRequest r) s = callFree r (noteCall s)) ∧
    exec .freeRequest s = callFree s.args.req (noteCall s) ∧
    (∀ n, s.cfg.numPhysEp ≤ n →
      (∀ d, nestedCall callback (.enable n d) s = .refused .illegalEndpoint) ∧
      nestedCall callback (.disable n) s = .refused .illegalEndpoint ∧
      (∀ r b len, nestedCall callback (.queue n r b len) s = .refused .illegalEndpoint) ∧
      (∀ r, nestedCall callback (.dequeue n r) s = .refused .illegalEndpoint) ∧
      ∀ v, nestedCall callback (.setHalt n v) s = .refused .illegalEndpoint) ∧
    (s.ctl.dispatching = true → nestedCall callback .interrupt s = .fault .reentrantDispatch) ∧
    (s.ctl.dispatching = false → nestedCall callback .interrupt s = .refused .interruptInsideOperation)

/-- R209, R246, R245, R12: the upcalls reach the upper layer: SETUP with its packet, the calls it makes inside in order, and its
return; the optional three if bound. -/
def Obligations.UpcallsReachTheUpperLayer : Prop :=
  ∀ s : State,
    (∀ (ret : Int) (calls : List NestedCall) (rest : List SetupDraw), s.draws.setups = { ret := ret, calls := calls } :: rest →
      let u : State := { s with
        draws := { s.draws with setups := rest }
        outs := s.outs ++ [.setup s.args.packet ret] }
      exec .upSetup s = andThen (eachInOrder (nestedCall callback) calls u) fun t =>
        .next { t with outs := t.outs ++ [.returned (.int ret)] }) ∧
    (∀ (ret : Int) (rest : List SetupDraw), s.draws.setups = { ret := ret, calls := [] } :: rest →
      exec .upSetup s = .next { s with
        draws := { s.draws with setups := rest }
        outs := s.outs ++ [.setup s.args.packet ret, .returned (.int ret)] }) ∧
    exec .upDisconnect s = .next { s with outs := s.outs ++ (if s.cfg.bound.disconnect then [.disconnect] else []) } ∧
    exec .upSuspend s = .next { s with outs := s.outs ++ (if s.cfg.bound.suspend then [.suspend] else []) } ∧
    exec .upResume s = .next { s with outs := s.outs ++ (if s.cfg.bound.resume then [.resume] else []) }

/-! ## EP0 -/

/-- R205, R206: SET_ADDRESS with no data and an address of 7 bits writes only the device-address register, and goes to
WAIT_NRDY: no upcall, no command, no memory. With data or a longer address it ends as ep0_stall does, the address kept. -/
def Obligations.SetAddressWritesOnlyTheAddress : Prop :=
  ∀ (s : State) (bs : List Byte), s.SetupArrived bs →
    let c := decodeSetup (setupPacket bs)
    c.bmRequestType.toNat / 32 % 4 = 0 → c.bRequest = 5 →
    (c.wLength = 0 → c.wValue.toNat ≤ 127 →
      exec .procProcessControl s = .next { s with
        ctl := { s.ctl with ep0Ctx := c, ep0Phase := .waitNrdy }
        regs := { s.regs with devAddr := BitVec.ofNat 7 c.wValue.toNat } }) ∧
    (c.wLength ≠ 0 ∨ 127 < c.wValue.toNat →
      exec .procProcessControl s = exec .procEp0Stall { s with
        ctl := { s.ctl with ep0Ctx := c, ep0Phase := if c.wLength = 0 then s.ctl.ep0Phase else .data } })

/-- R201, R202, R195: GET_STATUS of the device writes `DEVICE_STATUS`, of an endpoint its halted bit, of an interface and of EP0
0, to `status_buf`; the phase is DATA and a 2-byte internal request is submitted on physical endpoint 1: it waits there, or
starts as start_transfer starts it; no SETUP upcall. Another length, an OUT direction, an endpoint that does not exist or
another recipient ends as ep0_stall does (R204). -/
def Obligations.GetStatusQueuesItsReply : Prop :=
  ∀ (s : State) (bs : List Byte), s.SetupArrived bs → s.Shaped → 2 ≤ s.cfg.numPhysEp → Memory.wf s.mem = true →
    let c := decodeSetup (setupPacket bs)
    let q := c.wIndex.toNat % 16 * 2 + c.wIndex.toNat / 128 % 2
    c.bmRequestType.toNat / 32 % 4 = 0 → c.bRequest = 0 →
    (∀ v : BitVec 16, c.wLength = 2 → c.dataDir = .IN →
      (c.bmRequestType.toNat % 32 = 0 ∧ v = s.cfg.deviceStatus ∨
       c.bmRequestType.toNat % 32 = 1 ∧ v = 0 ∨
       c.bmRequestType.toNat % 32 = 2 ∧ q < 2 ∧ v = 0 ∨
       c.bmRequestType.toNat % 32 = 2 ∧ 2 ≤ q ∧ q < s.cfg.numPhysEp ∧ v = (if (s.ep q).halted then 1 else 0)) →
      s.cfg.statusBuf + 2 ≤ 2 ^ s.cfg.addrBits → s.onAnyQueue .statusReply = false →
      ∃ u : State,
        ((s.ep 1).queue ≠ [] ∨ (s.ep 1).notReady = true → exec .procProcessControl s = .next u) ∧
        ((s.ep 1).queue = [] → (s.ep 1).notReady = false →
          exec .procProcessControl s = exec (.procStartTransfer 1) u) ∧
        u.ctl = { s.ctl with ep0Ctx := c, ep0Phase := .data } ∧
        u.eps = s.eps.set 1 { s.ep 1 with queue := (s.ep 1).queue ++ [.statusReply] } ∧
        u.req .statusReply =
          { buf := s.cfg.statusBuf, length := 2, callback := .internal, status := .inProgress, actual := 0, mapped := true } ∧
        (∀ r, r ≠ .statusReply → u.req r = s.req r) ∧
        ofBytes (Memory.getBytes u.mem s.cfg.statusBuf 2) = v.toNat ∧
        (∀ a, a < s.cfg.statusBuf ∨ s.cfg.statusBuf + 2 ≤ a → Memory.get u.mem a = Memory.get s.mem a) ∧
        u.outs = s.outs ∧ u.regs = s.regs ∧ u.hw = s.hw ∧ u.draws = s.draws) ∧
    (c.wLength ≠ 2 ∨ c.dataDir ≠ .IN ∨ 3 ≤ c.bmRequestType.toNat % 32 ∨
      c.bmRequestType.toNat % 32 = 2 ∧ s.cfg.numPhysEp ≤ q →
      exec .procProcessControl s = exec .procEp0Stall (s.recorded c))

/-- R203, R210, R212, R213: CLEAR_FEATURE and SET_FEATURE without data: of a device or an interface, and of EP0's halt, no
effect and WAIT_NRDY. Of another endpoint's halt (a control endpoint addressed by its OUT index): answered in time, or deferred,
the stall command and the halted flag; clearing it on a non-control endpoint with a request queued and none active, the rest is
what start_transfer does there; not answered in time, no flag; always WAIT_NRDY. With data, another feature, an endpoint that
does not exist or another recipient it ends as ep0_stall does (R204). That the commands carry `resIdx` 0 is the model's choice,
log 36. -/
def Obligations.FeatureRequestsSetAndClearHalt : Prop :=
  ∀ (s : State) (bs : List Byte), s.SetupArrived bs → s.Shaped →
    let c := decodeSetup (setupPacket bs)
    let q := c.wIndex.toNat % 16 * 2 + c.wIndex.toNat / 128 % 2
    let v := decide (c.bRequest = 3)
    let rt := c.bmRequestType.toNat % 32
    c.bmRequestType.toNat / 32 % 4 = 0 → (c.bRequest = 3 ∨ c.bRequest = 1) →
    let u : State := { s with ctl := { s.ctl with ep0Ctx := c, ep0Phase := .waitNrdy } }
    (c.wLength = 0 → (rt = 0 ∨ rt = 1 ∨ rt = 2 ∧ c.wValue = 0 ∧ q < 2 ∧ q < s.cfg.numPhysEp) →
      exec .procProcessControl s = .next u) ∧
    (c.wLength = 0 → rt = 2 → c.wValue = 0 → 2 ≤ q → q < s.cfg.numPhysEp →
      let tgt := if (s.ep q).type = .control then q / 2 * 2 else q
      ((s.ep tgt).notReady = false → s.CmdOk →
        ∃ h, let w : State := { s with
            ctl := { s.ctl with ep0Ctx := c }
            eps := s.eps.set q { s.ep q with halted := v }
            regs := s.regsWith tgt (portAfter (stallCommand tgt v) false 0 (s.port tgt))
            hw := h
            draws := s.drawsAfterCmd
            outs := s.outs ++ [.command (stallCommand tgt v)] }
          (v = true ∨ (s.ep q).type = .control ∨ (s.ep q).queue = [] ∨ (s.ep q).active ≠ none →
            exec .procProcessControl s = .next { w with ctl := u.ctl }) ∧
          (v = false → (s.ep q).type ≠ .control → (s.ep q).queue ≠ [] → (s.ep q).active = none →
            exec .procProcessControl s = andThen (exec (.procStartTransfer (BitVec.ofNat 8 q)) w) fun t =>
              .next { t with ctl := { t.ctl with ep0Phase := .waitNrdy } })) ∧
      ((s.ep tgt).notReady = false → ¬ s.CmdOk →
        ∃ h, exec .procProcessControl s = .next { u with
            eps := s.eps.set tgt { s.ep tgt with notReady := true }
            regs := s.regsWith tgt (portAfter (stallCommand tgt v) true 0 (s.port tgt))
            hw := h
            draws := s.drawsAfterCmd
            outs := s.outs ++ [.command (stallCommand tgt v), .localError .hardwareCommandTimeout tgt] }) ∧
      ((s.ep tgt).notReady = true → s.cfg.deferCap ≠ some (s.ep tgt).deferred.length →
        exec .procProcessControl s = .next
          ((u.setEp tgt { s.ep tgt with deferred := (s.ep tgt).deferred ++ [stallCommand tgt v] }).setHalted q v))) ∧
    (c.wLength ≠ 0 ∨ 3 ≤ rt ∨ rt = 2 ∧ (c.wValue ≠ 0 ∨ s.cfg.numPhysEp ≤ q) →
      exec .procProcessControl s = exec .procEp0Stall (s.recorded c))

/-- R207, R208, R197: SET_SEL submits a 6-byte internal OUT request on physical endpoint 0 in phase DATA: it waits there, or
starts as start_transfer starts it; when it completes, its bytes are `sel_data` and the phase is WAIT_NRDY. Another length or
an IN direction ends as ep0_stall does (R204). -/
def Obligations.SetSelKeepsItsData : Prop :=
  (∀ (s : State) (bs : List Byte), s.SetupArrived bs → s.Shaped → 2 ≤ s.cfg.numPhysEp →
    let c := decodeSetup (setupPacket bs)
    c.bmRequestType.toNat / 32 % 4 = 0 → c.bRequest = 48 →
    (c.wLength = 6 → c.dataDir = .OUT → s.onAnyQueue .selRead = false →
      let u : State := { s with
        ctl := { s.ctl with ep0Ctx := c, ep0Phase := .data }
        reqs := putReq s.reqs .selRead
          { buf := s.cfg.selBuf, length := 6, callback := .internal, status := .inProgress, actual := 0, mapped := true }
        eps := s.eps.set 0 { s.ep 0 with queue := (s.ep 0).queue ++ [.selRead] } }
      ((s.ep 0).queue ≠ [] ∨ (s.ep 0).notReady = true → exec .procProcessControl s = .next u) ∧
      ((s.ep 0).queue = [] → (s.ep 0).notReady = false →
        exec .procProcessControl s = exec (.procStartTransfer 0) u)) ∧
    (c.wLength ≠ 6 ∨ c.dataDir ≠ .OUT → exec .procProcessControl s = exec .procEp0Stall (s.recorded c))) ∧
  (∀ (s : State) (p : EpField), p.toNat < s.cfg.numPhysEp → s.ctl.ep0Phase = .data → s.args.ref = .selRead →
    s.cfg.selBuf + 6 ≤ 2 ^ s.cfg.addrBits →
    exec (.procEp0Advance p) s = .next { s with
      ctl := { s.ctl with selData := Memory.getBytes s.mem s.cfg.selBuf 6, ep0Phase := .waitNrdy } })

/-- R193, R194, R195, R209, R210: a request that is not local is passed to SETUP with its packet, and the upper layer's calls
inside it run in order; with a non-negative return it stays in DATA if it has data and goes to WAIT_NRDY if not. R204, R214: a
short setup read, and a negative SETUP return, end as ep0_stall does. I9, R309: with an EP0 request pending across a USB reset
it is refused (the flag is the model's, log 21). -/
def Obligations.ForwardedRequestsReachSetup : Prop :=
  (∀ (s : State) (bs : List Byte) (ret : Int) (rest : List SetupDraw), s.SetupArrived bs →
     let c := decodeSetup (setupPacket bs)
     (c.bmRequestType.toNat / 32 % 4 ≠ 0 ∨ c.bRequest.toNat ∉ [0, 1, 3, 5, 48]) →
     s.draws.setups = { ret := ret, calls := [] } :: rest → 0 ≤ ret →
     exec .procProcessControl s = .next { s with
       ctl := { s.ctl with ep0Ctx := c, ep0Phase := if c.wLength = 0 then .waitNrdy else .data }
       draws := { s.draws with setups := rest }
       outs := s.outs ++ [.setup (setupPacket bs) ret] }) ∧
  (∀ s : State, s.ep0AcrossReset = false → (s.req .setupRead).actual ≠ 8 →
    exec .procProcessControl s = exec .procEp0Stall s) ∧
  (∀ s : State, s.ep0AcrossReset = true → exec .procProcessControl s = .refused .ep0PendingAcrossReset) ∧
  (∀ (s : State) (bs : List Byte) (ret : Int) (rest : List SetupDraw), s.SetupArrived bs →
    let c := decodeSetup (setupPacket bs)
    (c.bmRequestType.toNat / 32 % 4 ≠ 0 ∨ c.bRequest.toNat ∉ [0, 1, 3, 5, 48]) →
    s.draws.setups = { ret := ret, calls := [] } :: rest → ret < 0 →
    exec .procProcessControl s = exec .procEp0Stall { s with
      ctl := { s.ctl with ep0Ctx := c, ep0Phase := if c.wLength = 0 then s.ctl.ep0Phase else .data }
      draws := { s.draws with setups := rest }
      outs := s.outs ++ [.setup (setupPacket bs) ret] }) ∧
  (∀ (s : State) (bs : List Byte) (ret : Int) (calls : List NestedCall) (rest : List SetupDraw), s.SetupArrived bs →
    let c := decodeSetup (setupPacket bs)
    (c.bmRequestType.toNat / 32 % 4 ≠ 0 ∨ c.bRequest.toNat ∉ [0, 1, 3, 5, 48]) →
    s.draws.setups = { ret := ret, calls := calls } :: rest →
    let u : State := { s.recorded c with
      draws := { s.draws with setups := rest }
      outs := s.outs ++ [.setup (setupPacket bs) ret] }
    exec .procProcessControl s = andThen (eachInOrder (nestedCall callback) calls u) fun t =>
      if ret < 0 then exec .procEp0Stall t
      else if c.wLength = 0 then .next { t with ctl := { t.ctl with ep0Phase := .waitNrdy } } else .next t)

/-- R214, R215, R191: ep0_stall with callbacks that make no nested call: SET_STALL on 0; every EP0 request killed with
ConnectionReset, its callback made, first endpoint 0's, then endpoint 1's; then SETUP with the setup read queued on endpoint 0, and
started there with both commands answered in time. The effects happen whatever the command returned: answered in time, the
rest is what start_transfer does; not answered, or deferred, endpoint 0 is not ready and nothing starts; a full FIFO faults (R30).
The halted flags stay as they were. That the commands carry `resIdx` 0 is the model's choice, log 36. -/
def Obligations.Ep0StallRearmsSetup : Prop :=
  (∀ (s : State) (n : Nat), s.Inv → s.NoNested → (s.ep 0).notReady = false →
    (∀ q, 2 ≤ q → ReqRef.setupRead ∉ (s.ep q).queue) → s.TdPlaced 0 → s.CmdsOk 2 →
    xferLen .OUT (s.ep 0).maxp 8 s.cfg.lenBits = .next n →
    ∃ t, exec .procEp0Stall s = .next t ∧
      t.ctl = { s.ctl with ep0Phase := .setup } ∧
      t.ep 0 = { s.ep 0 with
        queue := [.setupRead], active := some .setupRead
        resIdx := some (s.draws.cmds.getD 1 { stillActive := 0, idx := 0 }).idx
        td := startedTd (setupReadRequest s.cfg.setupBuf) n .setup } ∧
      t.ep 1 = { s.ep 1 with queue := [], active := none, resIdx := none } ∧
      (∀ q, 2 ≤ q → t.ep q = s.ep q) ∧
      (∀ r ∈ (s.ep 0).queue ++ (s.ep 1).queue, r ≠ .setupRead → t.req r = completed .connectionReset (s.req r)) ∧
      t.outs = s.outs ++ [.command (stallCommand 0 true)] ++
        (((s.ep 0).queue ++ (s.ep 1).queue).flatMap fun r => callbackOutput r (completed .connectionReset (s.req r))) ++
        [.command { target := 0, type := .startTransfer, par0 := .word (BitVec.ofNat 32 (s.tdAddr 0 / 2 ^ 32)),
                    par1 := .word (BitVec.ofNat 32 (s.tdAddr 0)), par2 := .word 0, force := false, ioc := false, resIdx := 0 }]) ∧
  (∀ s : State, s.Inv → s.NoNested → (∀ q, 2 ≤ q → ReqRef.setupRead ∉ (s.ep q).queue) →
    let c := stallCommand 0 true
    let e : Endpoint := { s.ep 0 with queue := [.setupRead], active := none, resIdx := none }
    let killed := ((s.ep 0).queue ++ (s.ep 1).queue).flatMap fun r => callbackOutput r (completed .connectionReset (s.req r))
    ((s.ep 0).notReady = false → s.CmdOk → ∃ u, exec .procEp0Stall s = exec (.procStartTransfer 0) u ∧
      StallEffects s u ∧ u.ep 0 = e ∧ u.outs = s.outs ++ [.command c] ++ killed) ∧
    ((s.ep 0).notReady = false → ¬ s.CmdOk → ∃ u, exec .procEp0Stall s = .next u ∧
      StallEffects s u ∧ u.ep 0 = { e with notReady := true } ∧
      u.outs = s.outs ++ [.command c, .localError .hardwareCommandTimeout 0] ++ killed) ∧
    ((s.ep 0).notReady = true → s.cfg.deferCap ≠ some (s.ep 0).deferred.length → ∃ u, exec .procEp0Stall s = .next u ∧
      StallEffects s u ∧ u.ep 0 = { e with deferred := (s.ep 0).deferred ++ [c] } ∧ u.outs = s.outs ++ killed) ∧
    ((s.ep 0).notReady = true → s.cfg.deferCap = some (s.ep 0).deferred.length →
      exec .procEp0Stall s = .fault .deferOverflow))

/-- R196, R197, R200, R191: ep0_advance by phase: SETUP with the setup read is process_control; DATA ends in WAIT_NRDY; a status
phase arms the setup read, started if endpoint 0 is empty and ready; elsewhere nothing changes. -/
def Obligations.Ep0AdvanceByPhase : Prop :=
  ∀ (s : State) (p : EpField), p.toNat < s.cfg.numPhysEp →
    (s.ctl.ep0Phase = .setup → s.args.ref = .setupRead →
      exec (.procEp0Advance p) s = exec .procProcessControl s) ∧
    ((s.ctl.ep0Phase = .setup ∧ s.args.ref ≠ .setupRead ∨ s.ctl.ep0Phase = .unconnected ∨ s.ctl.ep0Phase = .waitNrdy ∨
      s.ctl.ep0Phase = .stalled) → exec (.procEp0Advance p) s = .next s) ∧
    (s.ctl.ep0Phase = .data → s.args.ref ≠ .selRead →
      exec (.procEp0Advance p) s = .next { s with ctl := { s.ctl with ep0Phase := .waitNrdy } }) ∧
    ((s.ctl.ep0Phase = .status2 ∨ s.ctl.ep0Phase = .status3) → s.onAnyQueue .setupRead = false →
      exec (.procEp0Advance p) s =
        if (s.ep 0).queue = [] ∧ (s.ep 0).notReady = false then startTransfer 0 s.armed else .next s.armed)

/-- R198, R199, R236: EV_XFER_NOT_READY is ignored on an endpoint other than EP0, in a phase other than WAIT_NRDY, or in the
direction that is not the status stage's; else the status phase is entered and a zero-length internal request submitted in
that direction: it waits there, or starts as start_transfer starts it. Its buffer address is a launch parameter (log 29). -/
def Obligations.NotReadyEntersTheStatusStage : Prop :=
  ∀ (s : State) (p : EpField), p.toNat < s.cfg.numPhysEp →
    let c := s.ctl.ep0Ctx
    let q := if c.hasData = true ∧ c.dataDir = .IN then 0 else 1
    ((2 ≤ p.toNat ∨ s.ctl.ep0Phase ≠ .waitNrdy ∨ p.toNat ≠ q) → exec (.evXferNotReady p) s = .next s) ∧
    (p.toNat = q → s.ctl.ep0Phase = .waitNrdy → s.onAnyQueue .zlp = false →
      let u : State := { s with
        ctl := { s.ctl with ep0Phase :=
          if c.hasData = true ∧ s.cfg.statusAfterData = .status3 then .status3 else .status2 }
        reqs := putReq s.reqs .zlp
          { buf := s.cfg.zlpBuf, length := 0, callback := .internal, status := .inProgress, actual := 0, mapped := true }
        eps := s.eps.set q { s.ep q with queue := (s.ep q).queue ++ [.zlp] } }
      ((s.ep q).queue ≠ [] ∨ (s.ep q).notReady = true → exec (.evXferNotReady p) s = .next u) ∧
      ((s.ep q).queue = [] → (s.ep q).notReady = false → exec (.evXferNotReady p) s = exec (.procStartTransfer p) u))

/-- R212, R213, R216: SET_HALT addresses a control endpoint by its OUT index. Answered in time, it records `halted` and returns
0; clearing the stall of a non-control endpoint with a request queued and none active, the rest is what start_transfer does
there. Deferred, it counts as success. Unanswered, it returns -1 and records nothing. On EP0 value 0 issues or defers
CLEAR_STALL on endpoint 0 and changes no phase and no flag, and value 1 does what ep0_stall does (R214). That the commands carry
`resIdx` 0 is the model's choice, log 36. -/
def Obligations.SetHaltRecordsTheStall : Prop :=
  ∀ (s : State) (p : EpField), p.toNat < s.cfg.numPhysEp → s.Shaped → s.regs.runStop = true →
    let ctl := decide ((s.ep p.toNat).type = .control)
    let tgt := if (s.ep p.toNat).type = .control then p.toNat / 2 * 2 else p.toNat
    let v := s.args.value
    let c := stallCommand tgt v
    (2 ≤ p.toNat → (s.ep tgt).notReady = false → s.CmdOk →
      ∃ h, let w : State := { s with
          eps := s.eps.set p.toNat { s.ep p.toNat with halted := v }
          regs := s.regsWith tgt (portAfter c false 0 (s.port tgt))
          hw := h
          draws := s.drawsAfterCmd
          outs := s.outs ++ [.command c] }
        (v = true ∨ ctl = true ∨ (s.ep p.toNat).queue = [] ∨ (s.ep p.toNat).active ≠ none →
          exec (.setHalt p) s = .next { w with outs := w.outs ++ [.returned (.int 0)] }) ∧
        (v = false → ctl = false → (s.ep p.toNat).queue ≠ [] → (s.ep p.toNat).active = none →
          exec (.setHalt p) s = andThen (exec (.procStartTransfer p) w) fun t =>
            .next { t with outs := t.outs ++ [.returned (.int 0)] })) ∧
    ((s.ep tgt).notReady = true → s.cfg.deferCap ≠ some (s.ep tgt).deferred.length →
      let w := s.setEp tgt { s.ep tgt with deferred := (s.ep tgt).deferred ++ [c] }
      (2 ≤ p.toNat → exec (.setHalt p) s = .next { w.setHalted p.toNat v with outs := s.outs ++ [.returned (.int 0)] }) ∧
      (p.toNat < 2 → v = false → exec (.setHalt p) s = .next { w with outs := s.outs ++ [.returned (.int 0)] })) ∧
    ((2 ≤ p.toNat ∨ v = false) → (s.ep tgt).notReady = false → ¬ s.CmdOk → ∃ h, exec (.setHalt p) s = .next { s with
        eps := s.eps.set tgt { s.ep tgt with notReady := true }
        regs := s.regsWith tgt (portAfter c true 0 (s.port tgt))
        hw := h
        draws := s.drawsAfterCmd
        outs := s.outs ++ [.command c, .localError .hardwareCommandTimeout tgt, .returned (.int (-1))] }) ∧
    (p.toNat < 2 → v = false → (s.ep tgt).notReady = false → s.CmdOk → ∃ h, exec (.setHalt p) s = .next { s with
        regs := s.regsWith tgt (portAfter c false 0 (s.port tgt))
        hw := h
        draws := s.drawsAfterCmd
        outs := s.outs ++ [.command c, .returned (.int 0)] }) ∧
    (p.toNat < 2 → ctl = true → v = true →
      exec (.setHalt p) s = andThen (exec .procEp0Stall s) fun t =>
        .next { t with outs := t.outs ++
          [.returned (.int (if (s.ep 0).notReady = false ∧ s.cfg.cmdTimeout ≤ s.cmdDraw.stillActive then -1 else 0))] })

/-! ## Events -/

/-- R234, R235, R238, with the hardware's write-back as the draw gives it, or as R110 does without one (owner 0, the remaining
length as memory holds it): EV_XFER_COMPLETE is ignored with nothing active; a TD the hardware still owns faults, and so does a
remaining length beyond the TD's; else the active request completes with Success and byte count
`min(length, xfer_len - remaining)`, the callback making no nested call: on an endpoint other than EP0 the rest is what
start_transfer does there (R184); on EP0, the advance of the phase (R196, R197, R200, R208), and then the same. R110: the bytes a
draw has for an OUT endpoint stand in the buffer the hardware's TD names before the handler reads anything, so the event is the
event without them in the memory that holds them; with nothing active they and the written-back TD stand in memory, and no
record of the engine changes. Where the hardware's TD is, and that an IN draw's bytes go nowhere, is log 25; a buffer over the TD
is against R76. In the active case the TD is the endpoint's own, as START_TRANSFER gave it (R123, R136), and no part of it lies
in an event record (R76). -/
def Obligations.TransferCompleteCountsTheBytes : Prop :=
  ∀ (s : State) (p : EpField), p.toNat < s.cfg.numPhysEp →
    (s.draws.xfers = [] → (s.ep p.toNat).active = none → exec (.evXferComplete p) s = .next s) ∧
    (∀ (d : XferDraw) (rest : List XferDraw), s.draws.xfers = d :: rest → Memory.wf s.mem = true →
      s.hwTdAddr p.toNat + 16 ≤ 2 ^ s.cfg.addrBits →
      let td := Memory.getBytes s.mem (s.hwTdAddr p.toNat) 16
      let buf := tdBufAddr s.cfg td
      let data := if p.toNat % 2 = 0 then d.data else []
      buf + data.length ≤ 2 ^ s.cfg.addrBits → (∀ i, i < data.length → s.pendingByte (buf + i) = false) →
      (∀ i, i < data.length → buf + i < s.hwTdAddr p.toNat ∨ s.hwTdAddr p.toNat + 16 ≤ buf + i) →
      ∃ m, Memory.getBytes m buf data.length = data ∧
        (∀ a, a < buf ∨ buf + data.length ≤ a → Memory.get m a = Memory.get s.mem a) ∧
        exec (.evXferComplete p) s = exec (.evXferComplete p) { s with
          mem := m, draws := { s.draws with xfers := { d with data := [] } :: rest } } ∧
        ((s.ep p.toNat).active = none → (∀ i, i < 16 → s.pendingByte (s.hwTdAddr p.toNat + i) = false) →
          ∃ m' h, exec (.evXferComplete p) s = .next { s with
              mem := m', hw := h, draws := { s.draws with xfers := rest } } ∧
            Memory.getBytes m' buf data.length = data ∧
            Memory.getBytes m' (s.hwTdAddr p.toNat) 16 = tdWriteBack s.cfg d.remaining d.owner td ∧
            ∀ a, (a < buf ∨ buf + data.length ≤ a) → (a < s.hwTdAddr p.toNat ∨ s.hwTdAddr p.toNat + 16 ≤ a) →
              Memory.get m' a = Memory.get s.mem a)) ∧
    (∀ r, (s.ep p.toNat).active = some r → s.tdAddr p.toNat + 16 ≤ 2 ^ s.cfg.addrBits → Memory.wf s.mem = true →
      s.cfg.tdLayout.wf s.cfg.addrBits s.cfg.lenBits = true → s.Shaped →
      let d := s.draws.xfers.headD { remaining := none, owner := false, data := [] }
      d.data = [] → s.hwTdAddr p.toNat = s.tdAddr p.toNat → (∀ i, i < 16 → s.pendingByte (s.tdAddr p.toNat + i) = false) →
      let rem := match d.remaining with
        | some n => n % 2 ^ s.cfg.lenBits
        | none => tdRemaining s.cfg (Memory.getBytes s.mem (s.tdAddr p.toNat) 16)
      let x : Request := completed .success { s.req r with
        actual := min (s.req r).length ((s.ep p.toNat).td.length - rem) }
      (d.owner = true → exec (.evXferComplete p) s = .fault .descriptorStillOwned) ∧
      (d.owner = false → (s.ep p.toNat).td.length < rem → exec (.evXferComplete p) s = .fault .remainingTooLarge) ∧
      (d.owner = false → rem ≤ (s.ep p.toNat).td.length → s.NoNested →
        ∃ m h, (∀ a, a < s.tdAddr p.toNat ∨ s.tdAddr p.toNat + 16 ≤ a → Memory.get m a = Memory.get s.mem a) ∧
          let w : State := { s with
            reqs := putReq s.reqs r x
            eps := s.eps.set p.toNat { s.ep p.toNat with
              queue := (s.ep p.toNat).queue.erase r, active := none, resIdx := none }
            draws := { s.draws with xfers := s.draws.xfers.tail }
            mem := m
            hw := h }
          let cb := callbackOutput r x
          (2 ≤ p.toNat ∨ s.ctl.ep0Phase = .setup ∧ r ≠ .setupRead ∨ s.ctl.ep0Phase ∈ [Phase.unconnected, .waitNrdy, .stalled] →
            exec (.evXferComplete p) s = exec (.procStartTransfer p) { w with outs := s.outs ++ cb }) ∧
          (2 ≤ p.toNat → (s.ep p.toNat).queue = [r] → exec (.evXferComplete p) s = .next { w with outs := s.outs ++ cb }) ∧
          (p.toNat < 2 → s.ctl.ep0Phase = .setup → r = .setupRead → (s.req r).callback = .internal →
            exec (.evXferComplete p) s = andThen (exec .procProcessControl w) fun t => startIfInactive t p) ∧
          (p.toNat < 2 → s.ctl.ep0Phase = .data → r ≠ .selRead →
            exec (.evXferComplete p) s = exec (.procStartTransfer p)
              { w with ctl := { s.ctl with ep0Phase := .waitNrdy }, outs := s.outs ++ cb }) ∧
          (p.toNat < 2 → s.ctl.ep0Phase = .data → r = .selRead → s.cfg.selBuf + 6 ≤ 2 ^ s.cfg.addrBits →
            exec (.evXferComplete p) s = exec (.procStartTransfer p)
              { w with ctl := { s.ctl with selData := Memory.getBytes m s.cfg.selBuf 6, ep0Phase := .waitNrdy }
                       outs := s.outs ++ cb }) ∧
          (p.toNat < 2 → (s.ctl.ep0Phase = .status2 ∨ s.ctl.ep0Phase = .status3) → (s.req r).callback = .internal →
            w.onAnyQueue .setupRead = false →
            exec (.evXferComplete p) s = andThen (startIfIdle w w.armed 0) fun t => startIfInactive t p)))

/-- R240, R241, I9: EV_USB_RESET with callbacks that make no nested call: every request on an endpoint other than EP0 is completed
with ConnectionReset, every halted flag, the device address and `cfg_started` are cleared; EP0's queues and phase, enable
bits, not-ready flags and deferred FIFOs stay; no command is issued. The flag of I9 and R309 (the model's, log 21) is set exactly
if it was set or an EP0 request other than the setup read is queued. -/
def Obligations.UsbResetKillsAndClears : Prop :=
  ∀ s : State, s.Inv → s.NoNested →
    ∃ t, exec .evUsbReset s = .next t ∧
      (∀ p, 2 ≤ p → p < s.cfg.numPhysEp →
        t.ep p = { s.ep p with queue := [], active := none, resIdx := none, halted := false } ∧
        ∀ r ∈ (s.ep p).queue, t.req r = completed .connectionReset (s.req r)) ∧
      (∀ p, p < 2 → t.ep p = { s.ep p with halted := false }) ∧
      t.ctl = { s.ctl with cfgStarted := false } ∧
      t.regs = { s.regs with devAddr := 0 } ∧
      commandsOf t.outs = commandsOf s.outs ∧ t.mem = s.mem ∧ t.hw = s.hw ∧
      (t.ep0AcrossReset = true ↔ s.ep0AcrossReset = true ∨ ∃ r ∈ (s.ep 0).queue ++ (s.ep 1).queue, r ≠ .setupRead)

/-- R243, R244: EV_CONNECT_DONE, EP0 ready and the commands answered in time: the speed the hardware shows is recorded,
max-packet resized on every endpoint with a type, SET_EP_CONFIG and SET_XFER_RESOURCE issued for 0 then 1 and no
START_NEW_CONFIG, both enabled, `connected` set; the phase and the queues stay. In UNCONNECTED the setup read is armed after
that (R191): SETUP, and started as start_transfer starts it if endpoint 0's queue was empty; refused if it is queued already
(R172). -/
def Obligations.ConnectDoneResizesAndActivates : Prop :=
  ∀ s : State, s.Shaped → 2 ≤ s.cfg.numPhysEp → (s.ep 0).type = .control → (s.ep 1).type = .control →
    (s.ep 0).notReady = false → (s.ep 1).notReady = false → s.CmdsOk 4 →
    let sp := s.draws.speeds.headD s.regs.stsSpeed
    ∃ t : State,
      (s.ctl.ep0Phase ≠ .unconnected → exec .evConnectDone s = .next t) ∧
      (s.ctl.ep0Phase = .unconnected → s.onAnyQueue .setupRead = false →
        exec .evConnectDone s =
          if (s.ep 0).queue = [] then exec (.procStartTransfer 0) t.armed else .next t.armed) ∧
      (s.ctl.ep0Phase = .unconnected → s.onAnyQueue .setupRead = true →
        exec .evConnectDone s = .refused .alreadyQueued) ∧
      (∀ p, p < s.cfg.numPhysEp → t.ep p = if (s.ep p).type = .none then s.ep p
        else { s.ep p with maxp := maxpLookup s.cfg.maxpTable sp (s.ep p).type }) ∧
      t.ctl = { s.ctl with speed := some sp, connected := true } ∧
      (t.port 0).enabled = true ∧ (t.port 1).enabled = true ∧
      (∀ q, 2 ≤ q → t.port q = s.port q) ∧
      (commandsOf t.outs).map (fun c => (c.type, c.target)) =
        (commandsOf s.outs).map (fun c => (c.type, c.target)) ++
        [(.setEpConfig, 0), (.setXferResource, 0), (.setEpConfig, 1), (.setXferResource, 1)] ∧
      t.mem = s.mem ∧ t.reqs = s.reqs

/-- R245, R246, R247, R239: EV_DISCONNECT, and EV_LINK_STATE to the disconnect state, notify the upper layer if it bound the
upcall and clear `connected`; any other link state, EV_OTHER and EV_EP_OTHER change nothing. -/
def Obligations.DisconnectNotifiesAndOthersAreIgnored : Prop :=
  ∀ s : State,
    let t : State := { s with
      ctl := { s.ctl with connected := false }
      outs := s.outs ++ (if s.cfg.bound.disconnect then [.disconnect] else []) }
    exec .evDisconnect s = .next t ∧
    (s.args.linkState = 4 → exec .evLinkState s = .next t) ∧
    (s.args.linkState ≠ 4 → exec .evLinkState s = .next s) ∧
    exec .evOther s = .next s ∧
    ∀ p : EpField, p.toNat < s.cfg.numPhysEp → exec (.evEpOther p) s = .next s
end

