-- ==== Sys2Proof/Laws/State.lean ====
section
/-! SUPPORT. One lemma per field per update of State, true by rfl, and the accessors over each update. Simp normal form: the
flag and register writes unfold to `setEp`, `setPort` and `emit`. -/

namespace Sys2Proof.Machine

variable (s : State)

/-! ## setEp -/

@[simp] theorem setEp_cfg (p : Nat) (e : Endpoint) : (s.setEp p e).cfg = s.cfg := rfl
@[simp] theorem setEp_eps (p : Nat) (e : Endpoint) : (s.setEp p e).eps = s.eps.set p e := rfl
@[simp] theorem setEp_ctl (p : Nat) (e : Endpoint) : (s.setEp p e).ctl = s.ctl := rfl
@[simp] theorem setEp_regs (p : Nat) (e : Endpoint) : (s.setEp p e).regs = s.regs := rfl
@[simp] theorem setEp_reqs (p : Nat) (e : Endpoint) : (s.setEp p e).reqs = s.reqs := rfl
@[simp] theorem setEp_mem (p : Nat) (e : Endpoint) : (s.setEp p e).mem = s.mem := rfl
@[simp] theorem setEp_hw (p : Nat) (e : Endpoint) : (s.setEp p e).hw = s.hw := rfl
@[simp] theorem setEp_marks (p : Nat) (e : Endpoint) : (s.setEp p e).marks = s.marks := rfl
@[simp] theorem setEp_ep0AcrossReset (p : Nat) (e : Endpoint) : (s.setEp p e).ep0AcrossReset = s.ep0AcrossReset := rfl
@[simp] theorem setEp_trace (p : Nat) (e : Endpoint) : (s.setEp p e).trace = s.trace := rfl
@[simp] theorem setEp_args (p : Nat) (e : Endpoint) : (s.setEp p e).args = s.args := rfl
@[simp] theorem setEp_draws (p : Nat) (e : Endpoint) : (s.setEp p e).draws = s.draws := rfl
@[simp] theorem setEp_outs (p : Nat) (e : Endpoint) : (s.setEp p e).outs = s.outs := rfl
@[simp] theorem setEp_freeCtr (p : Nat) (e : Endpoint) : (s.setEp p e).freeCtr = s.freeCtr := rfl
@[simp] theorem setEp_port (p : Nat) (e : Endpoint) (j : Nat) : (s.setEp p e).port j = s.port j := rfl
@[simp] theorem setEp_hwEp (p : Nat) (e : Endpoint) (j : Nat) : (s.setEp p e).hwEp j = s.hwEp j := rfl
@[simp] theorem setEp_req (p : Nat) (e : Endpoint) (r' : ReqRef) : (s.setEp p e).req r' = s.req r' := rfl
@[simp] theorem setEp_tdAddr (p : Nat) (e : Endpoint) (j : Nat) : (s.setEp p e).tdAddr j = s.tdAddr j := rfl
@[simp] theorem setEp_cmdDraw (p : Nat) (e : Endpoint) : (s.setEp p e).cmdDraw = s.cmdDraw := rfl

/-! ## setPort -/

@[simp] theorem setPort_cfg (p : Nat) (x : EpPort) : (s.setPort p x).cfg = s.cfg := rfl
@[simp] theorem setPort_eps (p : Nat) (x : EpPort) : (s.setPort p x).eps = s.eps := rfl
@[simp] theorem setPort_ctl (p : Nat) (x : EpPort) : (s.setPort p x).ctl = s.ctl := rfl
@[simp] theorem setPort_regs (p : Nat) (x : EpPort) : (s.setPort p x).regs = { s.regs with ports := s.regs.ports.set p x } := rfl
@[simp] theorem setPort_reqs (p : Nat) (x : EpPort) : (s.setPort p x).reqs = s.reqs := rfl
@[simp] theorem setPort_mem (p : Nat) (x : EpPort) : (s.setPort p x).mem = s.mem := rfl
@[simp] theorem setPort_hw (p : Nat) (x : EpPort) : (s.setPort p x).hw = s.hw := rfl
@[simp] theorem setPort_marks (p : Nat) (x : EpPort) : (s.setPort p x).marks = s.marks := rfl
@[simp] theorem setPort_ep0AcrossReset (p : Nat) (x : EpPort) : (s.setPort p x).ep0AcrossReset = s.ep0AcrossReset := rfl
@[simp] theorem setPort_trace (p : Nat) (x : EpPort) : (s.setPort p x).trace = s.trace := rfl
@[simp] theorem setPort_args (p : Nat) (x : EpPort) : (s.setPort p x).args = s.args := rfl
@[simp] theorem setPort_draws (p : Nat) (x : EpPort) : (s.setPort p x).draws = s.draws := rfl
@[simp] theorem setPort_outs (p : Nat) (x : EpPort) : (s.setPort p x).outs = s.outs := rfl
@[simp] theorem setPort_freeCtr (p : Nat) (x : EpPort) : (s.setPort p x).freeCtr = s.freeCtr := rfl
@[simp] theorem setPort_ep (p : Nat) (x : EpPort) (j : Nat) : (s.setPort p x).ep j = s.ep j := rfl
@[simp] theorem setPort_hwEp (p : Nat) (x : EpPort) (j : Nat) : (s.setPort p x).hwEp j = s.hwEp j := rfl
@[simp] theorem setPort_req (p : Nat) (x : EpPort) (r' : ReqRef) : (s.setPort p x).req r' = s.req r' := rfl
@[simp] theorem setPort_tdAddr (p : Nat) (x : EpPort) (j : Nat) : (s.setPort p x).tdAddr j = s.tdAddr j := rfl
@[simp] theorem setPort_cmdDraw (p : Nat) (x : EpPort) : (s.setPort p x).cmdDraw = s.cmdDraw := rfl

/-! ## setHwEp -/

@[simp] theorem setHwEp_cfg (p : Nat) (h : HwEndpoint) : (s.setHwEp p h).cfg = s.cfg := rfl
@[simp] theorem setHwEp_eps (p : Nat) (h : HwEndpoint) : (s.setHwEp p h).eps = s.eps := rfl
@[simp] theorem setHwEp_ctl (p : Nat) (h : HwEndpoint) : (s.setHwEp p h).ctl = s.ctl := rfl
@[simp] theorem setHwEp_regs (p : Nat) (h : HwEndpoint) : (s.setHwEp p h).regs = s.regs := rfl
@[simp] theorem setHwEp_reqs (p : Nat) (h : HwEndpoint) : (s.setHwEp p h).reqs = s.reqs := rfl
@[simp] theorem setHwEp_mem (p : Nat) (h : HwEndpoint) : (s.setHwEp p h).mem = s.mem := rfl
@[simp] theorem setHwEp_hw (p : Nat) (h : HwEndpoint) : (s.setHwEp p h).hw = { s.hw with eps := s.hw.eps.set p h } := rfl
@[simp] theorem setHwEp_marks (p : Nat) (h : HwEndpoint) : (s.setHwEp p h).marks = s.marks := rfl
@[simp] theorem setHwEp_ep0AcrossReset (p : Nat) (h : HwEndpoint) : (s.setHwEp p h).ep0AcrossReset = s.ep0AcrossReset := rfl
@[simp] theorem setHwEp_trace (p : Nat) (h : HwEndpoint) : (s.setHwEp p h).trace = s.trace := rfl
@[simp] theorem setHwEp_args (p : Nat) (h : HwEndpoint) : (s.setHwEp p h).args = s.args := rfl
@[simp] theorem setHwEp_draws (p : Nat) (h : HwEndpoint) : (s.setHwEp p h).draws = s.draws := rfl
@[simp] theorem setHwEp_outs (p : Nat) (h : HwEndpoint) : (s.setHwEp p h).outs = s.outs := rfl
@[simp] theorem setHwEp_freeCtr (p : Nat) (h : HwEndpoint) : (s.setHwEp p h).freeCtr = s.freeCtr := rfl
@[simp] theorem setHwEp_ep (p : Nat) (h : HwEndpoint) (j : Nat) : (s.setHwEp p h).ep j = s.ep j := rfl
@[simp] theorem setHwEp_port (p : Nat) (h : HwEndpoint) (j : Nat) : (s.setHwEp p h).port j = s.port j := rfl
@[simp] theorem setHwEp_req (p : Nat) (h : HwEndpoint) (r' : ReqRef) : (s.setHwEp p h).req r' = s.req r' := rfl
@[simp] theorem setHwEp_tdAddr (p : Nat) (h : HwEndpoint) (j : Nat) : (s.setHwEp p h).tdAddr j = s.tdAddr j := rfl
@[simp] theorem setHwEp_cmdDraw (p : Nat) (h : HwEndpoint) : (s.setHwEp p h).cmdDraw = s.cmdDraw := rfl

/-! ## setPhase -/

@[simp] theorem setPhase_cfg (ph : Phase) : (s.setPhase ph).cfg = s.cfg := rfl
@[simp] theorem setPhase_eps (ph : Phase) : (s.setPhase ph).eps = s.eps := rfl
@[simp] theorem setPhase_ctl (ph : Phase) : (s.setPhase ph).ctl = { s.ctl with ep0Phase := ph } := rfl
@[simp] theorem setPhase_regs (ph : Phase) : (s.setPhase ph).regs = s.regs := rfl
@[simp] theorem setPhase_reqs (ph : Phase) : (s.setPhase ph).reqs = s.reqs := rfl
@[simp] theorem setPhase_mem (ph : Phase) : (s.setPhase ph).mem = s.mem := rfl
@[simp] theorem setPhase_hw (ph : Phase) : (s.setPhase ph).hw = s.hw := rfl
@[simp] theorem setPhase_marks (ph : Phase) : (s.setPhase ph).marks = s.marks := rfl
@[simp] theorem setPhase_ep0AcrossReset (ph : Phase) : (s.setPhase ph).ep0AcrossReset = s.ep0AcrossReset := rfl
@[simp] theorem setPhase_trace (ph : Phase) : (s.setPhase ph).trace = s.trace := rfl
@[simp] theorem setPhase_args (ph : Phase) : (s.setPhase ph).args = s.args := rfl
@[simp] theorem setPhase_draws (ph : Phase) : (s.setPhase ph).draws = s.draws := rfl
@[simp] theorem setPhase_outs (ph : Phase) : (s.setPhase ph).outs = s.outs := rfl
@[simp] theorem setPhase_freeCtr (ph : Phase) : (s.setPhase ph).freeCtr = s.freeCtr := rfl
@[simp] theorem setPhase_ep (ph : Phase) (j : Nat) : (s.setPhase ph).ep j = s.ep j := rfl
@[simp] theorem setPhase_port (ph : Phase) (j : Nat) : (s.setPhase ph).port j = s.port j := rfl
@[simp] theorem setPhase_hwEp (ph : Phase) (j : Nat) : (s.setPhase ph).hwEp j = s.hwEp j := rfl
@[simp] theorem setPhase_req (ph : Phase) (r' : ReqRef) : (s.setPhase ph).req r' = s.req r' := rfl
@[simp] theorem setPhase_tdAddr (ph : Phase) (j : Nat) : (s.setPhase ph).tdAddr j = s.tdAddr j := rfl
@[simp] theorem setPhase_cmdDraw (ph : Phase) : (s.setPhase ph).cmdDraw = s.cmdDraw := rfl

/-! ## setDevAddr -/

@[simp] theorem setDevAddr_cfg (a : BitVec 7) : (s.setDevAddr a).cfg = s.cfg := rfl
@[simp] theorem setDevAddr_eps (a : BitVec 7) : (s.setDevAddr a).eps = s.eps := rfl
@[simp] theorem setDevAddr_ctl (a : BitVec 7) : (s.setDevAddr a).ctl = s.ctl := rfl
@[simp] theorem setDevAddr_regs (a : BitVec 7) : (s.setDevAddr a).regs = { s.regs with devAddr := a } := rfl
@[simp] theorem setDevAddr_reqs (a : BitVec 7) : (s.setDevAddr a).reqs = s.reqs := rfl
@[simp] theorem setDevAddr_mem (a : BitVec 7) : (s.setDevAddr a).mem = s.mem := rfl
@[simp] theorem setDevAddr_hw (a : BitVec 7) : (s.setDevAddr a).hw = s.hw := rfl
@[simp] theorem setDevAddr_marks (a : BitVec 7) : (s.setDevAddr a).marks = s.marks := rfl
@[simp] theorem setDevAddr_ep0AcrossReset (a : BitVec 7) : (s.setDevAddr a).ep0AcrossReset = s.ep0AcrossReset := rfl
@[simp] theorem setDevAddr_trace (a : BitVec 7) : (s.setDevAddr a).trace = s.trace := rfl
@[simp] theorem setDevAddr_args (a : BitVec 7) : (s.setDevAddr a).args = s.args := rfl
@[simp] theorem setDevAddr_draws (a : BitVec 7) : (s.setDevAddr a).draws = s.draws := rfl
@[simp] theorem setDevAddr_outs (a : BitVec 7) : (s.setDevAddr a).outs = s.outs := rfl
@[simp] theorem setDevAddr_freeCtr (a : BitVec 7) : (s.setDevAddr a).freeCtr = s.freeCtr := rfl
@[simp] theorem setDevAddr_ep (a : BitVec 7) (j : Nat) : (s.setDevAddr a).ep j = s.ep j := rfl
@[simp] theorem setDevAddr_port (a : BitVec 7) (j : Nat) : (s.setDevAddr a).port j = s.port j := rfl
@[simp] theorem setDevAddr_hwEp (a : BitVec 7) (j : Nat) : (s.setDevAddr a).hwEp j = s.hwEp j := rfl
@[simp] theorem setDevAddr_req (a : BitVec 7) (r' : ReqRef) : (s.setDevAddr a).req r' = s.req r' := rfl
@[simp] theorem setDevAddr_tdAddr (a : BitVec 7) (j : Nat) : (s.setDevAddr a).tdAddr j = s.tdAddr j := rfl
@[simp] theorem setDevAddr_cmdDraw (a : BitVec 7) : (s.setDevAddr a).cmdDraw = s.cmdDraw := rfl

/-! ## setRunStop -/

@[simp] theorem setRunStop_cfg (b : Bool) : (s.setRunStop b).cfg = s.cfg := rfl
@[simp] theorem setRunStop_eps (b : Bool) : (s.setRunStop b).eps = s.eps := rfl
@[simp] theorem setRunStop_ctl (b : Bool) : (s.setRunStop b).ctl = s.ctl := rfl
@[simp] theorem setRunStop_regs (b : Bool) : (s.setRunStop b).regs = { s.regs with runStop := b } := rfl
@[simp] theorem setRunStop_reqs (b : Bool) : (s.setRunStop b).reqs = s.reqs := rfl
@[simp] theorem setRunStop_mem (b : Bool) : (s.setRunStop b).mem = s.mem := rfl
@[simp] theorem setRunStop_hw (b : Bool) : (s.setRunStop b).hw = s.hw := rfl
@[simp] theorem setRunStop_marks (b : Bool) : (s.setRunStop b).marks = s.marks := rfl
@[simp] theorem setRunStop_ep0AcrossReset (b : Bool) : (s.setRunStop b).ep0AcrossReset = s.ep0AcrossReset := rfl
@[simp] theorem setRunStop_trace (b : Bool) : (s.setRunStop b).trace = s.trace := rfl
@[simp] theorem setRunStop_args (b : Bool) : (s.setRunStop b).args = s.args := rfl
@[simp] theorem setRunStop_draws (b : Bool) : (s.setRunStop b).draws = s.draws := rfl
@[simp] theorem setRunStop_outs (b : Bool) : (s.setRunStop b).outs = s.outs := rfl
@[simp] theorem setRunStop_freeCtr (b : Bool) : (s.setRunStop b).freeCtr = s.freeCtr := rfl
@[simp] theorem setRunStop_ep (b : Bool) (j : Nat) : (s.setRunStop b).ep j = s.ep j := rfl
@[simp] theorem setRunStop_port (b : Bool) (j : Nat) : (s.setRunStop b).port j = s.port j := rfl
@[simp] theorem setRunStop_hwEp (b : Bool) (j : Nat) : (s.setRunStop b).hwEp j = s.hwEp j := rfl
@[simp] theorem setRunStop_req (b : Bool) (r' : ReqRef) : (s.setRunStop b).req r' = s.req r' := rfl
@[simp] theorem setRunStop_tdAddr (b : Bool) (j : Nat) : (s.setRunStop b).tdAddr j = s.tdAddr j := rfl
@[simp] theorem setRunStop_cmdDraw (b : Bool) : (s.setRunStop b).cmdDraw = s.cmdDraw := rfl

/-! ## setConnected -/

@[simp] theorem setConnected_cfg (b : Bool) : (s.setConnected b).cfg = s.cfg := rfl
@[simp] theorem setConnected_eps (b : Bool) : (s.setConnected b).eps = s.eps := rfl
@[simp] theorem setConnected_ctl (b : Bool) : (s.setConnected b).ctl = { s.ctl with connected := b } := rfl
@[simp] theorem setConnected_regs (b : Bool) : (s.setConnected b).regs = s.regs := rfl
@[simp] theorem setConnected_reqs (b : Bool) : (s.setConnected b).reqs = s.reqs := rfl
@[simp] theorem setConnected_mem (b : Bool) : (s.setConnected b).mem = s.mem := rfl
@[simp] theorem setConnected_hw (b : Bool) : (s.setConnected b).hw = s.hw := rfl
@[simp] theorem setConnected_marks (b : Bool) : (s.setConnected b).marks = s.marks := rfl
@[simp] theorem setConnected_ep0AcrossReset (b : Bool) : (s.setConnected b).ep0AcrossReset = s.ep0AcrossReset := rfl
@[simp] theorem setConnected_trace (b : Bool) : (s.setConnected b).trace = s.trace := rfl
@[simp] theorem setConnected_args (b : Bool) : (s.setConnected b).args = s.args := rfl
@[simp] theorem setConnected_draws (b : Bool) : (s.setConnected b).draws = s.draws := rfl
@[simp] theorem setConnected_outs (b : Bool) : (s.setConnected b).outs = s.outs := rfl
@[simp] theorem setConnected_freeCtr (b : Bool) : (s.setConnected b).freeCtr = s.freeCtr := rfl
@[simp] theorem setConnected_ep (b : Bool) (j : Nat) : (s.setConnected b).ep j = s.ep j := rfl
@[simp] theorem setConnected_port (b : Bool) (j : Nat) : (s.setConnected b).port j = s.port j := rfl
@[simp] theorem setConnected_hwEp (b : Bool) (j : Nat) : (s.setConnected b).hwEp j = s.hwEp j := rfl
@[simp] theorem setConnected_req (b : Bool) (r' : ReqRef) : (s.setConnected b).req r' = s.req r' := rfl
@[simp] theorem setConnected_tdAddr (b : Bool) (j : Nat) : (s.setConnected b).tdAddr j = s.tdAddr j := rfl
@[simp] theorem setConnected_cmdDraw (b : Bool) : (s.setConnected b).cmdDraw = s.cmdDraw := rfl

/-! ## setCfgStarted -/

@[simp] theorem setCfgStarted_cfg (b : Bool) : (s.setCfgStarted b).cfg = s.cfg := rfl
@[simp] theorem setCfgStarted_eps (b : Bool) : (s.setCfgStarted b).eps = s.eps := rfl
@[simp] theorem setCfgStarted_ctl (b : Bool) : (s.setCfgStarted b).ctl = { s.ctl with cfgStarted := b } := rfl
@[simp] theorem setCfgStarted_regs (b : Bool) : (s.setCfgStarted b).regs = s.regs := rfl
@[simp] theorem setCfgStarted_reqs (b : Bool) : (s.setCfgStarted b).reqs = s.reqs := rfl
@[simp] theorem setCfgStarted_mem (b : Bool) : (s.setCfgStarted b).mem = s.mem := rfl
@[simp] theorem setCfgStarted_hw (b : Bool) : (s.setCfgStarted b).hw = s.hw := rfl
@[simp] theorem setCfgStarted_marks (b : Bool) : (s.setCfgStarted b).marks = s.marks := rfl
@[simp] theorem setCfgStarted_ep0AcrossReset (b : Bool) : (s.setCfgStarted b).ep0AcrossReset = s.ep0AcrossReset := rfl
@[simp] theorem setCfgStarted_trace (b : Bool) : (s.setCfgStarted b).trace = s.trace := rfl
@[simp] theorem setCfgStarted_args (b : Bool) : (s.setCfgStarted b).args = s.args := rfl
@[simp] theorem setCfgStarted_draws (b : Bool) : (s.setCfgStarted b).draws = s.draws := rfl
@[simp] theorem setCfgStarted_outs (b : Bool) : (s.setCfgStarted b).outs = s.outs := rfl
@[simp] theorem setCfgStarted_freeCtr (b : Bool) : (s.setCfgStarted b).freeCtr = s.freeCtr := rfl
@[simp] theorem setCfgStarted_ep (b : Bool) (j : Nat) : (s.setCfgStarted b).ep j = s.ep j := rfl
@[simp] theorem setCfgStarted_port (b : Bool) (j : Nat) : (s.setCfgStarted b).port j = s.port j := rfl
@[simp] theorem setCfgStarted_hwEp (b : Bool) (j : Nat) : (s.setCfgStarted b).hwEp j = s.hwEp j := rfl
@[simp] theorem setCfgStarted_req (b : Bool) (r' : ReqRef) : (s.setCfgStarted b).req r' = s.req r' := rfl
@[simp] theorem setCfgStarted_tdAddr (b : Bool) (j : Nat) : (s.setCfgStarted b).tdAddr j = s.tdAddr j := rfl
@[simp] theorem setCfgStarted_cmdDraw (b : Bool) : (s.setCfgStarted b).cmdDraw = s.cmdDraw := rfl

/-! ## setDispatching -/

@[simp] theorem setDispatching_cfg (b : Bool) : (s.setDispatching b).cfg = s.cfg := rfl
@[simp] theorem setDispatching_eps (b : Bool) : (s.setDispatching b).eps = s.eps := rfl
@[simp] theorem setDispatching_ctl (b : Bool) : (s.setDispatching b).ctl = { s.ctl with dispatching := b } := rfl
@[simp] theorem setDispatching_regs (b : Bool) : (s.setDispatching b).regs = s.regs := rfl
@[simp] theorem setDispatching_reqs (b : Bool) : (s.setDispatching b).reqs = s.reqs := rfl
@[simp] theorem setDispatching_mem (b : Bool) : (s.setDispatching b).mem = s.mem := rfl
@[simp] theorem setDispatching_hw (b : Bool) : (s.setDispatching b).hw = s.hw := rfl
@[simp] theorem setDispatching_marks (b : Bool) : (s.setDispatching b).marks = s.marks := rfl
@[simp] theorem setDispatching_ep0AcrossReset (b : Bool) : (s.setDispatching b).ep0AcrossReset = s.ep0AcrossReset := rfl
@[simp] theorem setDispatching_trace (b : Bool) : (s.setDispatching b).trace = s.trace := rfl
@[simp] theorem setDispatching_args (b : Bool) : (s.setDispatching b).args = s.args := rfl
@[simp] theorem setDispatching_draws (b : Bool) : (s.setDispatching b).draws = s.draws := rfl
@[simp] theorem setDispatching_outs (b : Bool) : (s.setDispatching b).outs = s.outs := rfl
@[simp] theorem setDispatching_freeCtr (b : Bool) : (s.setDispatching b).freeCtr = s.freeCtr := rfl
@[simp] theorem setDispatching_ep (b : Bool) (j : Nat) : (s.setDispatching b).ep j = s.ep j := rfl
@[simp] theorem setDispatching_port (b : Bool) (j : Nat) : (s.setDispatching b).port j = s.port j := rfl
@[simp] theorem setDispatching_hwEp (b : Bool) (j : Nat) : (s.setDispatching b).hwEp j = s.hwEp j := rfl
@[simp] theorem setDispatching_req (b : Bool) (r' : ReqRef) : (s.setDispatching b).req r' = s.req r' := rfl
@[simp] theorem setDispatching_tdAddr (b : Bool) (j : Nat) : (s.setDispatching b).tdAddr j = s.tdAddr j := rfl
@[simp] theorem setDispatching_cmdDraw (b : Bool) : (s.setDispatching b).cmdDraw = s.cmdDraw := rfl

/-! ## setReq -/

@[simp] theorem setReq_cfg (r : ReqRef) (q : Request) : (s.setReq r q).cfg = s.cfg := rfl
@[simp] theorem setReq_eps (r : ReqRef) (q : Request) : (s.setReq r q).eps = s.eps := rfl
@[simp] theorem setReq_ctl (r : ReqRef) (q : Request) : (s.setReq r q).ctl = s.ctl := rfl
@[simp] theorem setReq_regs (r : ReqRef) (q : Request) : (s.setReq r q).regs = s.regs := rfl
@[simp] theorem setReq_reqs (r : ReqRef) (q : Request) : (s.setReq r q).reqs = putReq s.reqs r q := rfl
@[simp] theorem setReq_mem (r : ReqRef) (q : Request) : (s.setReq r q).mem = s.mem := rfl
@[simp] theorem setReq_hw (r : ReqRef) (q : Request) : (s.setReq r q).hw = s.hw := rfl
@[simp] theorem setReq_marks (r : ReqRef) (q : Request) : (s.setReq r q).marks = s.marks := rfl
@[simp] theorem setReq_ep0AcrossReset (r : ReqRef) (q : Request) : (s.setReq r q).ep0AcrossReset = s.ep0AcrossReset := rfl
@[simp] theorem setReq_trace (r : ReqRef) (q : Request) : (s.setReq r q).trace = s.trace := rfl
@[simp] theorem setReq_args (r : ReqRef) (q : Request) : (s.setReq r q).args = s.args := rfl
@[simp] theorem setReq_draws (r : ReqRef) (q : Request) : (s.setReq r q).draws = s.draws := rfl
@[simp] theorem setReq_outs (r : ReqRef) (q : Request) : (s.setReq r q).outs = s.outs := rfl
@[simp] theorem setReq_freeCtr (r : ReqRef) (q : Request) : (s.setReq r q).freeCtr = s.freeCtr := rfl
@[simp] theorem setReq_ep (r : ReqRef) (q : Request) (j : Nat) : (s.setReq r q).ep j = s.ep j := rfl
@[simp] theorem setReq_port (r : ReqRef) (q : Request) (j : Nat) : (s.setReq r q).port j = s.port j := rfl
@[simp] theorem setReq_hwEp (r : ReqRef) (q : Request) (j : Nat) : (s.setReq r q).hwEp j = s.hwEp j := rfl
@[simp] theorem setReq_tdAddr (r : ReqRef) (q : Request) (j : Nat) : (s.setReq r q).tdAddr j = s.tdAddr j := rfl
@[simp] theorem setReq_cmdDraw (r : ReqRef) (q : Request) : (s.setReq r q).cmdDraw = s.cmdDraw := rfl

/-! ## dropReq -/

@[simp] theorem dropReq_cfg (r : ReqRef) : (s.dropReq r).cfg = s.cfg := rfl
@[simp] theorem dropReq_eps (r : ReqRef) : (s.dropReq r).eps = s.eps := rfl
@[simp] theorem dropReq_ctl (r : ReqRef) : (s.dropReq r).ctl = s.ctl := rfl
@[simp] theorem dropReq_regs (r : ReqRef) : (s.dropReq r).regs = s.regs := rfl
@[simp] theorem dropReq_reqs (r : ReqRef) : (s.dropReq r).reqs = s.reqs.filter fun x => decide (x.1 ≠ r) := rfl
@[simp] theorem dropReq_mem (r : ReqRef) : (s.dropReq r).mem = s.mem := rfl
@[simp] theorem dropReq_hw (r : ReqRef) : (s.dropReq r).hw = s.hw := rfl
@[simp] theorem dropReq_marks (r : ReqRef) : (s.dropReq r).marks = s.marks := rfl
@[simp] theorem dropReq_ep0AcrossReset (r : ReqRef) : (s.dropReq r).ep0AcrossReset = s.ep0AcrossReset := rfl
@[simp] theorem dropReq_trace (r : ReqRef) : (s.dropReq r).trace = s.trace := rfl
@[simp] theorem dropReq_args (r : ReqRef) : (s.dropReq r).args = s.args := rfl
@[simp] theorem dropReq_draws (r : ReqRef) : (s.dropReq r).draws = s.draws := rfl
@[simp] theorem dropReq_outs (r : ReqRef) : (s.dropReq r).outs = s.outs := rfl
@[simp] theorem dropReq_freeCtr (r : ReqRef) : (s.dropReq r).freeCtr = s.freeCtr := rfl
@[simp] theorem dropReq_ep (r : ReqRef) (j : Nat) : (s.dropReq r).ep j = s.ep j := rfl
@[simp] theorem dropReq_port (r : ReqRef) (j : Nat) : (s.dropReq r).port j = s.port j := rfl
@[simp] theorem dropReq_hwEp (r : ReqRef) (j : Nat) : (s.dropReq r).hwEp j = s.hwEp j := rfl
@[simp] theorem dropReq_tdAddr (r : ReqRef) (j : Nat) : (s.dropReq r).tdAddr j = s.tdAddr j := rfl
@[simp] theorem dropReq_cmdDraw (r : ReqRef) : (s.dropReq r).cmdDraw = s.cmdDraw := rfl

/-! ## emit -/

@[simp] theorem emit_cfg (o : Output) : (s.emit o).cfg = s.cfg := rfl
@[simp] theorem emit_eps (o : Output) : (s.emit o).eps = s.eps := rfl
@[simp] theorem emit_ctl (o : Output) : (s.emit o).ctl = s.ctl := rfl
@[simp] theorem emit_regs (o : Output) : (s.emit o).regs = s.regs := rfl
@[simp] theorem emit_reqs (o : Output) : (s.emit o).reqs = s.reqs := rfl
@[simp] theorem emit_mem (o : Output) : (s.emit o).mem = s.mem := rfl
@[simp] theorem emit_hw (o : Output) : (s.emit o).hw = s.hw := rfl
@[simp] theorem emit_marks (o : Output) : (s.emit o).marks = s.marks := rfl
@[simp] theorem emit_ep0AcrossReset (o : Output) : (s.emit o).ep0AcrossReset = s.ep0AcrossReset := rfl
@[simp] theorem emit_trace (o : Output) : (s.emit o).trace = s.trace := rfl
@[simp] theorem emit_args (o : Output) : (s.emit o).args = s.args := rfl
@[simp] theorem emit_draws (o : Output) : (s.emit o).draws = s.draws := rfl
@[simp] theorem emit_outs (o : Output) : (s.emit o).outs = s.outs ++ [o] := rfl
@[simp] theorem emit_freeCtr (o : Output) : (s.emit o).freeCtr = s.freeCtr := rfl
@[simp] theorem emit_ep (o : Output) (j : Nat) : (s.emit o).ep j = s.ep j := rfl
@[simp] theorem emit_port (o : Output) (j : Nat) : (s.emit o).port j = s.port j := rfl
@[simp] theorem emit_hwEp (o : Output) (j : Nat) : (s.emit o).hwEp j = s.hwEp j := rfl
@[simp] theorem emit_req (o : Output) (r' : ReqRef) : (s.emit o).req r' = s.req r' := rfl
@[simp] theorem emit_tdAddr (o : Output) (j : Nat) : (s.emit o).tdAddr j = s.tdAddr j := rfl
@[simp] theorem emit_cmdDraw (o : Output) : (s.emit o).cmdDraw = s.cmdDraw := rfl

/-! ## mark -/

@[simp] theorem mark_cfg (m : Mark) : (s.mark m).cfg = s.cfg := rfl
@[simp] theorem mark_eps (m : Mark) : (s.mark m).eps = s.eps := rfl
@[simp] theorem mark_ctl (m : Mark) : (s.mark m).ctl = s.ctl := rfl
@[simp] theorem mark_regs (m : Mark) : (s.mark m).regs = s.regs := rfl
@[simp] theorem mark_reqs (m : Mark) : (s.mark m).reqs = s.reqs := rfl
@[simp] theorem mark_mem (m : Mark) : (s.mark m).mem = s.mem := rfl
@[simp] theorem mark_hw (m : Mark) : (s.mark m).hw = s.hw := rfl
@[simp] theorem mark_marks (m : Mark) : (s.mark m).marks = s.marks ++ [m] := rfl
@[simp] theorem mark_ep0AcrossReset (m : Mark) : (s.mark m).ep0AcrossReset = s.ep0AcrossReset := rfl
@[simp] theorem mark_trace (m : Mark) : (s.mark m).trace = s.trace := rfl
@[simp] theorem mark_args (m : Mark) : (s.mark m).args = s.args := rfl
@[simp] theorem mark_draws (m : Mark) : (s.mark m).draws = s.draws := rfl
@[simp] theorem mark_outs (m : Mark) : (s.mark m).outs = s.outs := rfl
@[simp] theorem mark_freeCtr (m : Mark) : (s.mark m).freeCtr = s.freeCtr := rfl
@[simp] theorem mark_ep (m : Mark) (j : Nat) : (s.mark m).ep j = s.ep j := rfl
@[simp] theorem mark_port (m : Mark) (j : Nat) : (s.mark m).port j = s.port j := rfl
@[simp] theorem mark_hwEp (m : Mark) (j : Nat) : (s.mark m).hwEp j = s.hwEp j := rfl
@[simp] theorem mark_req (m : Mark) (r' : ReqRef) : (s.mark m).req r' = s.req r' := rfl
@[simp] theorem mark_tdAddr (m : Mark) (j : Nat) : (s.mark m).tdAddr j = s.tdAddr j := rfl
@[simp] theorem mark_cmdDraw (m : Mark) : (s.mark m).cmdDraw = s.cmdDraw := rfl

/-! ## popCmd -/

@[simp] theorem popCmd_cfg : (s.popCmd).cfg = s.cfg := rfl
@[simp] theorem popCmd_eps : (s.popCmd).eps = s.eps := rfl
@[simp] theorem popCmd_ctl : (s.popCmd).ctl = s.ctl := rfl
@[simp] theorem popCmd_regs : (s.popCmd).regs = s.regs := rfl
@[simp] theorem popCmd_reqs : (s.popCmd).reqs = s.reqs := rfl
@[simp] theorem popCmd_mem : (s.popCmd).mem = s.mem := rfl
@[simp] theorem popCmd_hw : (s.popCmd).hw = s.hw := rfl
@[simp] theorem popCmd_marks : (s.popCmd).marks = s.marks := rfl
@[simp] theorem popCmd_ep0AcrossReset : (s.popCmd).ep0AcrossReset = s.ep0AcrossReset := rfl
@[simp] theorem popCmd_trace : (s.popCmd).trace = s.trace := rfl
@[simp] theorem popCmd_args : (s.popCmd).args = s.args := rfl
@[simp] theorem popCmd_draws : (s.popCmd).draws = { s.draws with cmds := s.draws.cmds.tail } := rfl
@[simp] theorem popCmd_outs : (s.popCmd).outs = s.outs := rfl
@[simp] theorem popCmd_freeCtr : (s.popCmd).freeCtr = s.freeCtr := rfl
@[simp] theorem popCmd_ep (j : Nat) : (s.popCmd).ep j = s.ep j := rfl
@[simp] theorem popCmd_port (j : Nat) : (s.popCmd).port j = s.port j := rfl
@[simp] theorem popCmd_hwEp (j : Nat) : (s.popCmd).hwEp j = s.hwEp j := rfl
@[simp] theorem popCmd_req (r' : ReqRef) : (s.popCmd).req r' = s.req r' := rfl
@[simp] theorem popCmd_tdAddr (j : Nat) : (s.popCmd).tdAddr j = s.tdAddr j := rfl

/-! ## popMap -/

@[simp] theorem popMap_cfg : (s.popMap).cfg = s.cfg := rfl
@[simp] theorem popMap_eps : (s.popMap).eps = s.eps := rfl
@[simp] theorem popMap_ctl : (s.popMap).ctl = s.ctl := rfl
@[simp] theorem popMap_regs : (s.popMap).regs = s.regs := rfl
@[simp] theorem popMap_reqs : (s.popMap).reqs = s.reqs := rfl
@[simp] theorem popMap_mem : (s.popMap).mem = s.mem := rfl
@[simp] theorem popMap_hw : (s.popMap).hw = s.hw := rfl
@[simp] theorem popMap_marks : (s.popMap).marks = s.marks := rfl
@[simp] theorem popMap_ep0AcrossReset : (s.popMap).ep0AcrossReset = s.ep0AcrossReset := rfl
@[simp] theorem popMap_trace : (s.popMap).trace = s.trace := rfl
@[simp] theorem popMap_args : (s.popMap).args = s.args := rfl
@[simp] theorem popMap_draws : (s.popMap).draws = { s.draws with maps := s.draws.maps.tail } := rfl
@[simp] theorem popMap_outs : (s.popMap).outs = s.outs := rfl
@[simp] theorem popMap_freeCtr : (s.popMap).freeCtr = s.freeCtr := rfl
@[simp] theorem popMap_ep (j : Nat) : (s.popMap).ep j = s.ep j := rfl
@[simp] theorem popMap_port (j : Nat) : (s.popMap).port j = s.port j := rfl
@[simp] theorem popMap_hwEp (j : Nat) : (s.popMap).hwEp j = s.hwEp j := rfl
@[simp] theorem popMap_req (r' : ReqRef) : (s.popMap).req r' = s.req r' := rfl
@[simp] theorem popMap_tdAddr (j : Nat) : (s.popMap).tdAddr j = s.tdAddr j := rfl

/-! ## popSetup -/

@[simp] theorem popSetup_cfg : (s.popSetup).cfg = s.cfg := rfl
@[simp] theorem popSetup_eps : (s.popSetup).eps = s.eps := rfl
@[simp] theorem popSetup_ctl : (s.popSetup).ctl = s.ctl := rfl
@[simp] theorem popSetup_regs : (s.popSetup).regs = s.regs := rfl
@[simp] theorem popSetup_reqs : (s.popSetup).reqs = s.reqs := rfl
@[simp] theorem popSetup_mem : (s.popSetup).mem = s.mem := rfl
@[simp] theorem popSetup_hw : (s.popSetup).hw = s.hw := rfl
@[simp] theorem popSetup_marks : (s.popSetup).marks = s.marks := rfl
@[simp] theorem popSetup_ep0AcrossReset : (s.popSetup).ep0AcrossReset = s.ep0AcrossReset := rfl
@[simp] theorem popSetup_trace : (s.popSetup).trace = s.trace := rfl
@[simp] theorem popSetup_args : (s.popSetup).args = s.args := rfl
@[simp] theorem popSetup_draws : (s.popSetup).draws = { s.draws with setups := s.draws.setups.tail } := rfl
@[simp] theorem popSetup_outs : (s.popSetup).outs = s.outs := rfl
@[simp] theorem popSetup_freeCtr : (s.popSetup).freeCtr = s.freeCtr := rfl
@[simp] theorem popSetup_ep (j : Nat) : (s.popSetup).ep j = s.ep j := rfl
@[simp] theorem popSetup_port (j : Nat) : (s.popSetup).port j = s.port j := rfl
@[simp] theorem popSetup_hwEp (j : Nat) : (s.popSetup).hwEp j = s.hwEp j := rfl
@[simp] theorem popSetup_req (r' : ReqRef) : (s.popSetup).req r' = s.req r' := rfl
@[simp] theorem popSetup_tdAddr (j : Nat) : (s.popSetup).tdAddr j = s.tdAddr j := rfl

/-! ## latchSpeed -/

@[simp] theorem latchSpeed_cfg : (s.latchSpeed).cfg = s.cfg := rfl
@[simp] theorem latchSpeed_eps : (s.latchSpeed).eps = s.eps := rfl
@[simp] theorem latchSpeed_ctl : (s.latchSpeed).ctl = s.ctl := rfl
@[simp] theorem latchSpeed_regs : (s.latchSpeed).regs = { s.regs with stsSpeed := s.draws.speeds.headD s.regs.stsSpeed } := rfl
@[simp] theorem latchSpeed_reqs : (s.latchSpeed).reqs = s.reqs := rfl
@[simp] theorem latchSpeed_mem : (s.latchSpeed).mem = s.mem := rfl
@[simp] theorem latchSpeed_hw : (s.latchSpeed).hw = s.hw := rfl
@[simp] theorem latchSpeed_marks : (s.latchSpeed).marks = s.marks := rfl
@[simp] theorem latchSpeed_ep0AcrossReset : (s.latchSpeed).ep0AcrossReset = s.ep0AcrossReset := rfl
@[simp] theorem latchSpeed_trace : (s.latchSpeed).trace = s.trace := rfl
@[simp] theorem latchSpeed_args : (s.latchSpeed).args = s.args := rfl
@[simp] theorem latchSpeed_draws : (s.latchSpeed).draws = { s.draws with speeds := s.draws.speeds.tail } := rfl
@[simp] theorem latchSpeed_outs : (s.latchSpeed).outs = s.outs := rfl
@[simp] theorem latchSpeed_freeCtr : (s.latchSpeed).freeCtr = s.freeCtr := rfl
@[simp] theorem latchSpeed_ep (j : Nat) : (s.latchSpeed).ep j = s.ep j := rfl
@[simp] theorem latchSpeed_port (j : Nat) : (s.latchSpeed).port j = s.port j := rfl
@[simp] theorem latchSpeed_hwEp (j : Nat) : (s.latchSpeed).hwEp j = s.hwEp j := rfl
@[simp] theorem latchSpeed_req (r' : ReqRef) : (s.latchSpeed).req r' = s.req r' := rfl
@[simp] theorem latchSpeed_tdAddr (j : Nat) : (s.latchSpeed).tdAddr j = s.tdAddr j := rfl

/-! ## clearHalts -/

@[simp] theorem clearHalts_cfg : (s.clearHalts).cfg = s.cfg := rfl
@[simp] theorem clearHalts_eps : (s.clearHalts).eps = s.eps.map fun e => { e with halted := false } := rfl
@[simp] theorem clearHalts_ctl : (s.clearHalts).ctl = s.ctl := rfl
@[simp] theorem clearHalts_regs : (s.clearHalts).regs = s.regs := rfl
@[simp] theorem clearHalts_reqs : (s.clearHalts).reqs = s.reqs := rfl
@[simp] theorem clearHalts_mem : (s.clearHalts).mem = s.mem := rfl
@[simp] theorem clearHalts_hw : (s.clearHalts).hw = s.hw := rfl
@[simp] theorem clearHalts_marks : (s.clearHalts).marks = s.marks := rfl
@[simp] theorem clearHalts_ep0AcrossReset : (s.clearHalts).ep0AcrossReset = s.ep0AcrossReset := rfl
@[simp] theorem clearHalts_trace : (s.clearHalts).trace = s.trace := rfl
@[simp] theorem clearHalts_args : (s.clearHalts).args = s.args := rfl
@[simp] theorem clearHalts_draws : (s.clearHalts).draws = s.draws := rfl
@[simp] theorem clearHalts_outs : (s.clearHalts).outs = s.outs := rfl
@[simp] theorem clearHalts_freeCtr : (s.clearHalts).freeCtr = s.freeCtr := rfl
@[simp] theorem clearHalts_port (j : Nat) : (s.clearHalts).port j = s.port j := rfl
@[simp] theorem clearHalts_hwEp (j : Nat) : (s.clearHalts).hwEp j = s.hwEp j := rfl
@[simp] theorem clearHalts_req (r' : ReqRef) : (s.clearHalts).req r' = s.req r' := rfl
@[simp] theorem clearHalts_tdAddr (j : Nat) : (s.clearHalts).tdAddr j = s.tdAddr j := rfl
@[simp] theorem clearHalts_cmdDraw : (s.clearHalts).cmdDraw = s.cmdDraw := rfl

/-! ## Derived writes, in simp normal form -/

@[simp] theorem setNotReady_eq (p : Nat) (b : Bool) : s.setNotReady p b = s.setEp p { s.ep p with notReady := b } := rfl
@[simp] theorem setHalted_eq (p : Nat) (b : Bool) : s.setHalted p b = s.setEp p { s.ep p with halted := b } := rfl
@[simp] theorem setEnable_eq (p : Nat) (b : Bool) : s.setEnable p b = s.setPort p { s.port p with enabled := b } := rfl
@[simp] theorem returns_eq (r : Ret) : s.returns r = s.emit (.returned r) := rfl
@[simp] theorem syncBuffer_eq (a n : Nat) : syncBuffer a n s = s := rfl

/-! ## The accessors over their own writes -/

theorem setEp_ep_same {p : Nat} (h : p < s.eps.length) (e : Endpoint) : (s.setEp p e).ep p = e := by
  simp [State.ep, List.getD_eq_getElem?_getD, h]

theorem setEp_ep_ne {p q : Nat} (h : p ≠ q) (e : Endpoint) : (s.setEp p e).ep q = s.ep q := by
  simp [State.ep, List.getD_eq_getElem?_getD, List.getElem?_set_ne h]

/-- Writing past the endpoints changes nothing. -/
theorem setEp_beyond {p : Nat} (h : s.eps.length ≤ p) (e : Endpoint) : s.setEp p e = s := by
  simp [State.setEp, List.set_eq_of_length_le h]

theorem setEp_ep (p q : Nat) (e : Endpoint) :
    (s.setEp p e).ep q = if p = q ∧ p < s.eps.length then e else s.ep q := by
  by_cases hpq : p = q
  · subst hpq
    by_cases h : p < s.eps.length
    · simp [setEp_ep_same s h, h]
    · simp [setEp_beyond s (Nat.le_of_not_lt h), h]
  · simp [setEp_ep_ne s hpq, hpq]

theorem setPort_port (p q : Nat) (x : EpPort) :
    (s.setPort p x).port q = if p = q ∧ p < s.regs.ports.length then x else s.port q := by
  by_cases hpq : p = q
  · subst hpq
    by_cases h : p < s.regs.ports.length
    · simp [State.port, List.getD_eq_getElem?_getD, h]
    · simp [State.port, List.set_eq_of_length_le (Nat.le_of_not_lt h), h]
  · simp [State.port, List.getD_eq_getElem?_getD, List.getElem?_set_ne hpq, hpq]

theorem setHwEp_hwEp (p q : Nat) (x : HwEndpoint) :
    (s.setHwEp p x).hwEp q = if p = q ∧ p < s.hw.eps.length then x else s.hwEp q := by
  by_cases hpq : p = q
  · subst hpq
    by_cases h : p < s.hw.eps.length
    · simp [State.hwEp, List.getD_eq_getElem?_getD, h]
    · simp [State.hwEp, List.set_eq_of_length_le (Nat.le_of_not_lt h), h]
  · simp [State.hwEp, List.getD_eq_getElem?_getD, List.getElem?_set_ne hpq, hpq]

theorem setEp_setEp (p : Nat) (e e' : Endpoint) : (s.setEp p e).setEp p e' = s.setEp p e' := by
  simp [State.setEp]

theorem setPort_setPort (p : Nat) (x x' : EpPort) : (s.setPort p x).setPort p x' = s.setPort p x' := by
  simp [State.setPort]

/-- Writing back what an endpoint holds changes nothing. -/
theorem setEp_self (p : Nat) : s.setEp p (s.ep p) = s := by
  by_cases h : p < s.eps.length
  · simp [State.setEp, State.ep, List.getD_eq_getElem?_getD, h]
  · exact setEp_beyond s (Nat.le_of_not_lt h) _

theorem findReq_putReq_same (l : List (ReqRef × Request)) (r : ReqRef) (q : Request) :
    findReq (putReq l r q) r = some q := by
  induction l with
  | nil => simp [putReq, findReq]
  | cons x xs ih => by_cases h : x.1 = r <;> simp [putReq, findReq, h, ih]

theorem findReq_putReq_ne (l : List (ReqRef × Request)) {r r' : ReqRef} (h : r ≠ r') (q : Request) :
    findReq (putReq l r q) r' = findReq l r' := by
  induction l with
  | nil => simp [putReq, findReq, h]
  | cons x xs ih =>
    by_cases hx : x.1 = r
    · have hx' : ¬ x.1 = r' := fun e => h (hx.symm.trans e)
      simp [putReq, findReq, hx, h]
    · rw [putReq, if_neg hx, findReq, findReq, ih]

theorem setReq_req (r r' : ReqRef) (q : Request) : (s.setReq r q).req r' = if r = r' then q else s.req r' := by
  by_cases h : r = r'
  · subst h; simp [State.req, findReq_putReq_same]
  · simp [State.req, findReq_putReq_ne _ h, h]

theorem mem_putReq {l : List (ReqRef × Request)} {r : ReqRef} {q : Request} {x : ReqRef × Request}
    (h : x ∈ putReq l r q) : x = (r, q) ∨ x ∈ l := by
  induction l with
  | nil => exact .inl (by simpa [putReq] using h)
  | cons y ys ih =>
    by_cases hy : y.1 = r
    · simp only [putReq, hy, if_true, List.mem_cons] at h
      exact h.imp_right (List.mem_cons_of_mem y)
    · simp only [putReq, hy, if_false, List.mem_cons] at h
      rcases h with h | h
      · exact .inr (by simp [h])
      · exact (ih h).imp_right (List.mem_cons_of_mem y)

/-! ## noteBuffer -/

/-- noteBuffer changes the marks and nothing else (R76, log 34). -/
theorem noteBuffer_eq (r : ReqRef) (x : Request) :
    noteBuffer r x s = { s with marks := s.marks ++ (if s.bufferClear r x then [] else [.bufferOverlap r]) } := by
  unfold noteBuffer
  split <;> simp [State.mark]

@[simp] theorem noteBuffer_cfg (r : ReqRef) (x : Request) : (noteBuffer r x s).cfg = s.cfg := by rw [noteBuffer_eq]
@[simp] theorem noteBuffer_eps (r : ReqRef) (x : Request) : (noteBuffer r x s).eps = s.eps := by rw [noteBuffer_eq]
@[simp] theorem noteBuffer_ctl (r : ReqRef) (x : Request) : (noteBuffer r x s).ctl = s.ctl := by rw [noteBuffer_eq]
@[simp] theorem noteBuffer_regs (r : ReqRef) (x : Request) : (noteBuffer r x s).regs = s.regs := by rw [noteBuffer_eq]
@[simp] theorem noteBuffer_reqs (r : ReqRef) (x : Request) : (noteBuffer r x s).reqs = s.reqs := by rw [noteBuffer_eq]
@[simp] theorem noteBuffer_mem (r : ReqRef) (x : Request) : (noteBuffer r x s).mem = s.mem := by rw [noteBuffer_eq]
@[simp] theorem noteBuffer_hw (r : ReqRef) (x : Request) : (noteBuffer r x s).hw = s.hw := by rw [noteBuffer_eq]
@[simp] theorem noteBuffer_ep0AcrossReset (r : ReqRef) (x : Request) : (noteBuffer r x s).ep0AcrossReset = s.ep0AcrossReset := by rw [noteBuffer_eq]
@[simp] theorem noteBuffer_trace (r : ReqRef) (x : Request) : (noteBuffer r x s).trace = s.trace := by rw [noteBuffer_eq]
@[simp] theorem noteBuffer_args (r : ReqRef) (x : Request) : (noteBuffer r x s).args = s.args := by rw [noteBuffer_eq]
@[simp] theorem noteBuffer_draws (r : ReqRef) (x : Request) : (noteBuffer r x s).draws = s.draws := by rw [noteBuffer_eq]
@[simp] theorem noteBuffer_outs (r : ReqRef) (x : Request) : (noteBuffer r x s).outs = s.outs := by rw [noteBuffer_eq]
@[simp] theorem noteBuffer_freeCtr (r : ReqRef) (x : Request) : (noteBuffer r x s).freeCtr = s.freeCtr := by rw [noteBuffer_eq]
@[simp] theorem noteBuffer_marks (r : ReqRef) (x : Request) :
    (noteBuffer r x s).marks = s.marks ++ (if s.bufferClear r x then [] else [.bufferOverlap r]) := by rw [noteBuffer_eq]
@[simp] theorem noteBuffer_ep (r : ReqRef) (x : Request) (j : Nat) : (noteBuffer r x s).ep j = s.ep j := by rw [noteBuffer_eq]; rfl
@[simp] theorem noteBuffer_onAnyQueue (r : ReqRef) (x : Request) (r' : ReqRef) :
    (noteBuffer r x s).onAnyQueue r' = s.onAnyQueue r' := by rw [noteBuffer_eq]; rfl
@[simp] theorem popMap_onAnyQueue (r : ReqRef) : s.popMap.onAnyQueue r = s.onAnyQueue r := rfl
@[simp] theorem setReq_onAnyQueue (r : ReqRef) (x : Request) (r' : ReqRef) :
    (s.setReq r x).onAnyQueue r' = s.onAnyQueue r' := rfl

/-! ## countRecord -/

@[simp] theorem countRecord_eq :
    countRecord s = { s with regs := { s.regs with evbufCount := s.regs.evbufCount + s.cfg.evtBytes } } := rfl

/-! ## Outcome chaining -/

@[simp] theorem andThen_next {α β : Type} (a : α) (k : α → Out β) : andThen (.next a) k = k a := rfl
@[simp] theorem andThen_fault {α β : Type} (f : Fault) (k : α → Out β) : andThen (.fault f) k = .fault f := rfl
@[simp] theorem andThen_refused {α β : Type} (r : Refusal) (k : α → Out β) : andThen (.refused r) k = .refused r := rfl

/-- A chain answers next exactly when its first part does and the rest does after it. -/
theorem andThen_eq_next {α β : Type} {o : Out α} {k : α → Out β} {b : β} :
    andThen o k = .next b ↔ ∃ a, o = .next a ∧ k a = .next b := by
  cases o <;> simp

theorem andThen_assoc {α β γ : Type} (o : Out α) (k : α → Out β) (l : β → Out γ) :
    andThen (andThen o k) l = andThen o fun a => andThen (k a) l := by
  cases o <;> rfl

@[simp] theorem eachInOrder_nil {α : Type} (f : α → State → Out State) : eachInOrder f [] s = .next s := rfl
@[simp] theorem eachInOrder_cons {α : Type} (f : α → State → Out State) (x : α) (xs : List α) :
    eachInOrder f (x :: xs) s = andThen (f x s) (eachInOrder f xs) := rfl

/-- An operation with a legal endpoint goes on; with an illegal one it is refused (R104). -/
theorem withEp_legal {p : Nat} (h : p < s.cfg.numPhysEp) (k : Nat → Out State) : withEp p s k = k p := by
  simp [withEp, h]

theorem withEp_illegal {p : Nat} (h : s.cfg.numPhysEp ≤ p) (k : Nat → Out State) :
    withEp p s k = .refused .illegalEndpoint := by
  simp [withEp, Nat.not_lt.mpr h]

theorem withEp_eq_next {p : Nat} {k : Nat → Out State} {t : State} (h : withEp p s k = .next t) :
    p < s.cfg.numPhysEp ∧ k p = .next t := by
  unfold withEp at h
  split at h
  · exact ⟨‹_›, h⟩
  · cases h


end Sys2Proof.Machine
end

