-- ==== Sys2Proof/Laws/Memory.lean ====
section
/-! SUPPORT. Device-visible memory: the canonical form is kept by every operation, a read after a write, and a write's frame;
little-endian bytes. -/

namespace Sys2Proof.Machine

/-! ## One byte -/

/-- A write leaves every other address as it was. -/
theorem Memory.get_set_ne (m : Memory) {a b : Nat} (h : b ≠ a) (v : Byte) :
    Memory.get (Memory.set m a v) b = Memory.get m b := by
  induction m with
  | nil => by_cases hv : v = 0#8 <;> simp [Memory.set, Memory.get, hv, Ne.symm h]
  | cons c m ih =>
    rw [Memory.set]
    split
    · split
      · rfl
      · simp [Memory.get, Ne.symm h]
    · split
      · rename_i heq
        have hc : ¬ c.1 = b := fun e => h (by rw [← e, heq])
        split <;> simp [Memory.get, Ne.symm h, hc]
      · simp [Memory.get, ih]

theorem Memory.wfFrom_mono {lo lo' : Nat} (h : lo' ≤ lo) {m : Memory} (hm : Memory.wfFrom lo m = true) :
    Memory.wfFrom lo' m = true := by
  cases m with
  | nil => rfl
  | cons c m =>
    simp only [Memory.wfFrom, Bool.and_eq_true, decide_eq_true_eq] at hm ⊢
    exact ⟨⟨h.trans hm.1.1, hm.1.2⟩, hm.2⟩

/-- Below the first listed address memory reads 0. -/
theorem Memory.get_below {lo a : Nat} (h : a < lo) {m : Memory} (hm : Memory.wfFrom lo m = true) :
    Memory.get m a = 0#8 := by
  induction m generalizing lo with
  | nil => rfl
  | cons c m ih =>
    simp only [Memory.wfFrom, Bool.and_eq_true, decide_eq_true_eq] at hm
    have hne : ¬ c.1 = a := by omega
    rw [Memory.get, if_neg hne]
    exact ih (by omega) hm.2

theorem Memory.get_set_same_from {lo : Nat} {m : Memory} (hm : Memory.wfFrom lo m = true) (a : Nat) (v : Byte) :
    Memory.get (Memory.set m a v) a = v := by
  induction m generalizing lo with
  | nil => by_cases hv : v = 0#8 <;> simp [Memory.set, Memory.get, hv]
  | cons c m ih =>
    simp only [Memory.wfFrom, Bool.and_eq_true, decide_eq_true_eq] at hm
    rw [Memory.set]
    split
    · rename_i hlt
      split
      · rename_i hv
        have hne : ¬ c.1 = a := by omega
        rw [Memory.get, if_neg hne, hv]
        exact Memory.get_below (by omega) hm.2
      · simp [Memory.get]
    · split
      · rename_i heq
        split
        · rename_i hv
          rw [hv]
          exact Memory.get_below (by omega) hm.2
        · simp [Memory.get]
      · rename_i hne
        rw [Memory.get, if_neg (Ne.symm hne)]
        exact ih hm.2

/-- A read after a write of canonical memory gives the value written. -/
theorem Memory.get_set_same {m : Memory} (hm : Memory.wf m = true) (a : Nat) (v : Byte) :
    Memory.get (Memory.set m a v) a = v :=
  Memory.get_set_same_from hm a v

theorem Memory.set_wfFrom {lo a : Nat} (ha : lo ≤ a) {m : Memory} (hm : Memory.wfFrom lo m = true) (v : Byte) :
    Memory.wfFrom lo (Memory.set m a v) = true := by
  induction m generalizing lo with
  | nil => by_cases hv : v = 0#8 <;> simp [Memory.set, Memory.wfFrom, hv, ha]
  | cons c m ih =>
    have hm' := hm
    simp only [Memory.wfFrom, Bool.and_eq_true, decide_eq_true_eq] at hm
    rw [Memory.set]
    split
    · split
      · exact hm'
      · simp only [Memory.wfFrom, Bool.and_eq_true, decide_eq_true_eq]
        exact ⟨⟨ha, by assumption⟩, ⟨by omega, hm.1.2⟩, hm.2⟩
    · split
      · rename_i heq
        split
        · exact Memory.wfFrom_mono (by omega) hm.2
        · simp only [Memory.wfFrom, Bool.and_eq_true, decide_eq_true_eq]
          exact ⟨⟨ha, by assumption⟩, heq ▸ hm.2⟩
      · simp only [Memory.wfFrom, Bool.and_eq_true, decide_eq_true_eq]
        exact ⟨hm.1, ih (by omega) hm.2⟩

/-- A write keeps the canonical form. -/
theorem Memory.set_wf {m : Memory} (hm : Memory.wf m = true) (a : Nat) (v : Byte) :
    Memory.wf (Memory.set m a v) = true :=
  Memory.set_wfFrom (Nat.zero_le a) hm v

/-! ## Several bytes -/

/-- A write of several bytes keeps the canonical form. -/
theorem Memory.setBytes_wf {m : Memory} (hm : Memory.wf m = true) (a : Nat) (bs : List Byte) :
    Memory.wf (Memory.setBytes m a bs) = true := by
  induction bs generalizing m a with
  | nil => exact hm
  | cons b bs ih => exact ih (Memory.set_wf hm a b) (a + 1)

/-- Every byte outside the bytes written reads as before. -/
theorem Memory.get_setBytes_outside (m : Memory) (a : Nat) (bs : List Byte) {b : Nat}
    (h : b < a ∨ a + bs.length ≤ b) : Memory.get (Memory.setBytes m a bs) b = Memory.get m b := by
  induction bs generalizing m a with
  | nil => rfl
  | cons x bs ih =>
    simp only [List.length_cons] at h
    rw [Memory.setBytes, ih _ _ (by omega), Memory.get_set_ne _ (by omega)]

/-- The bytes written read back. -/
theorem Memory.get_setBytes_inside {m : Memory} (hm : Memory.wf m = true) (a : Nat) (bs : List Byte) {k : Nat}
    (h : k < bs.length) : Memory.get (Memory.setBytes m a bs) (a + k) = bs[k] := by
  induction bs generalizing m a k with
  | nil => simp at h
  | cons x bs ih =>
    cases k with
    | zero =>
      rw [Memory.setBytes, Memory.get_setBytes_outside _ _ _ (by omega)]
      simp [Memory.get_set_same hm]
    | succ k =>
      have := ih (Memory.set_wf hm a x) (a + 1) (k := k) (by simpa using h)
      simpa [Memory.setBytes, Nat.add_assoc, Nat.add_comm 1 k] using this

@[simp] theorem Memory.getBytes_length (m : Memory) (a n : Nat) : (Memory.getBytes m a n).length = n := by
  induction n generalizing a with
  | zero => rfl
  | succ n ih => simp [Memory.getBytes, ih]

theorem Memory.getBytes_congr {m m' : Memory} {a n : Nat}
    (h : ∀ k, k < n → Memory.get m (a + k) = Memory.get m' (a + k)) :
    Memory.getBytes m a n = Memory.getBytes m' a n := by
  induction n generalizing a with
  | zero => rfl
  | succ n ih =>
    rw [Memory.getBytes, Memory.getBytes, ih fun k hk => by
      have := h (k + 1) (by omega); simpa [Nat.add_assoc, Nat.add_comm 1 k] using this]
    have := h 0 (by omega)
    simpa using this

/-- Reading where a string of bytes was just written gives those bytes. -/
theorem Memory.getBytes_setBytes {m : Memory} (hm : Memory.wf m = true) (a : Nat) (bs : List Byte) :
    Memory.getBytes (Memory.setBytes m a bs) a bs.length = bs := by
  induction bs generalizing m a with
  | nil => rfl
  | cons x bs ih =>
    have hw := Memory.set_wf hm a x
    rw [List.length_cons, Memory.getBytes, Memory.setBytes, ih hw,
      Memory.get_setBytes_outside _ _ _ (by omega), Memory.get_set_same hm]

/-! ## Little-endian values -/

@[simp] theorem toBytes_length (n v : Nat) : (toBytes n v).length = n := by
  induction n generalizing v with
  | zero => rfl
  | succ n ih => simp [toBytes, ih]

/-- Reading back the low `n` bytes of a value gives it modulo `256^n`. -/
theorem ofBytes_toBytes (n v : Nat) : ofBytes (toBytes n v) = v % 256 ^ n := by
  induction n generalizing v with
  | zero => simp [toBytes, ofBytes, Nat.mod_one]
  | succ n ih =>
    rw [toBytes, ofBytes, ih, Nat.pow_succ, Nat.mul_comm (256 ^ n) 256, Nat.mod_mul]
    simp

/-! ## Memory accesses of the machine -/

theorem writeMem_eq_next {a : Nat} {bs : List Byte} {s t : State} (h : writeMem a bs s = .next t) :
    a + bs.length ≤ 2 ^ s.cfg.addrBits ∧ t = { s with mem := Memory.setBytes s.mem a bs } := by
  unfold writeMem State.inSpace at h
  split at h
  · rename_i hs
    cases h
    exact ⟨by simpa using hs, rfl⟩
  · cases h

theorem writeMem_inSpace {a : Nat} {bs : List Byte} {s : State} (h : a + bs.length ≤ 2 ^ s.cfg.addrBits) :
    writeMem a bs s = .next { s with mem := Memory.setBytes s.mem a bs } := by
  simp [writeMem, State.inSpace, h]

theorem readMem_inSpace {a n : Nat} {s : State} (h : a + n ≤ 2 ^ s.cfg.addrBits) :
    readMem a n s = .next (Memory.getBytes s.mem a n) := by
  simp [readMem, State.inSpace, h]

/-- A write from outside that is not refused is a write of memory (R82). -/
theorem writeOutside_eq_next {a : Nat} {bs : List Byte} {s t : State} (h : writeOutside a bs s = .next t) :
    writeMem a bs s = .next t := by
  unfold writeOutside at h
  split at h
  · cases h
  · exact h

/-- A write of no byte is refused nowhere. -/
@[simp] theorem writeOutside_nil (a : Nat) (s : State) : writeOutside a [] s = writeMem a [] s := rfl

@[simp] theorem tdWriteBack_length (c : Config) (rem : Option Nat) (o : Bool) (bs : List Byte) :
    (tdWriteBack c rem o bs).length = 16 := by simp [tdWriteBack]

/-- The TD write-back: the TD's sixteen bytes rewritten, and the hardware's record (R27, R47). -/
theorem writeBackTd_eq_next {p : Nat} {d : XferDraw} {s t : State} (h : writeBackTd p d s = .next t) :
    s.hwTdAddr p + 16 ≤ 2 ^ s.cfg.addrBits ∧ t = { s with
      mem := Memory.setBytes s.mem (s.hwTdAddr p)
        (tdWriteBack s.cfg d.remaining d.owner (Memory.getBytes s.mem (s.hwTdAddr p) 16))
      hw := { s.hw with eps := s.hw.eps.set p { s.hwEp p with running := if d.owner then (s.hwEp p).running else none } } } := by
  unfold writeBackTd at h
  by_cases hs : s.hwTdAddr p + 16 ≤ 2 ^ s.cfg.addrBits
  · rw [readMem_inSpace hs, andThen_next] at h
    obtain ⟨u, e1, e2⟩ := andThen_eq_next.mp h
    have eu := (writeMem_eq_next (writeOutside_eq_next e1)).2
    subst eu
    cases e2
    exact ⟨hs, rfl⟩
  · simp [readMem, State.inSpace, hs] at h

theorem writeBackTd_wf {p : Nat} {d : XferDraw} {s t : State} (h : writeBackTd p d s = .next t)
    (hm : Memory.wf s.mem = true) : Memory.wf t.mem = true := by
  rw [(writeBackTd_eq_next h).2]
  exact Memory.setBytes_wf hm (s.hwTdAddr p)
    (tdWriteBack s.cfg d.remaining d.owner (Memory.getBytes s.mem (s.hwTdAddr p) 16))

/-- The hardware's DMA for an OUT endpoint is a write of memory. -/
theorem hwDma_eq_next {p : Nat} {bs : List Byte} {s t : State} (h : hwDma p bs s = .next t) :
    ∃ a, t = { s with mem := Memory.setBytes s.mem a bs } := by
  obtain ⟨ws, -, e⟩ := andThen_eq_next.mp h
  exact ⟨_, (writeMem_eq_next (writeOutside_eq_next e)).2⟩

/-- The hardware's DMA of no byte changes nothing. -/
theorem hwDma_nil {p : Nat} {s : State} (h : s.hwTdAddr p + 16 ≤ 2 ^ s.cfg.addrBits) : hwDma p [] s = .next s := by
  have hb : tdBufAddr s.cfg (Memory.getBytes s.mem (s.hwTdAddr p) 16) + ([] : List Byte).length ≤ 2 ^ s.cfg.addrBits :=
    Nat.le_of_lt (Nat.mod_lt _ (Nat.two_pow_pos _))
  rw [hwDma, readMem_inSpace h, andThen_next, writeOutside_nil, writeMem_inSpace hb]
  rfl

/-- What the hardware did before an EV_XFER_COMPLETE touches draws, memory and the hardware's record alone, and it is at most
one outside write and one write-back. -/
theorem hwTransfer_eq_next {p : Nat} {s t : State} (h : hwTransfer p s = .next t) :
    t = { s with draws := t.draws, mem := t.mem, hw := t.hw } ∧ t.draws.cbs = s.draws.cbs ∧
      (Memory.wf s.mem = true → Memory.wf t.mem = true) := by
  have back : ∀ {d : XferDraw} {u : State}, writeBackTd p d u = .next t →
      t = { u with mem := t.mem, hw := t.hw } ∧ (Memory.wf u.mem = true → Memory.wf t.mem = true) := fun e =>
    ⟨by rw [(writeBackTd_eq_next e).2], writeBackTd_wf e⟩
  unfold hwTransfer at h
  split at h
  · split at h
    · cases h; exact ⟨rfl, rfl, id⟩
    · obtain ⟨e, hm⟩ := back h
      refine ⟨?_, ?_, hm⟩ <;> rw [e]
  · obtain ⟨u, e1, e2⟩ := andThen_eq_next.mp h
    obtain ⟨e, hm⟩ := back e2
    split at e1
    · obtain ⟨a, eu⟩ := hwDma_eq_next e1
      refine ⟨?_, ?_, fun hs => hm ?_⟩
      · rw [e, eu]
      · rw [e, eu]
      · rw [eu]; exact Memory.setBytes_wf hs _ _
    · cases e1
      refine ⟨?_, ?_, hm⟩ <;> rw [e]

/-- Memory at reset is canonical. -/
theorem reset_mem_wf : Memory.wf State.reset.mem = true := rfl

end Sys2Proof.Machine
end

