-- ==== Sys2Proof/Laws/Frame.lean ====
section
/-! SUPPORT. What an operation can do, said once: a relation between states that is reflexive and transitive and holds over
each primitive write holds over every operation. The structures are layered as the engine is (R3): the issuer and the request
queue, completion and the upper-layer calls, the EP0 sequencer, the dispatcher, boot and fetch. A whole-machine rule is proved
by giving one of them for its relation. -/

namespace Sys2Proof.Machine

/-- Every next state of `f` is related to the state it started from. -/
def Within (R : State → State → Prop) (f : State → Out State) : Prop := ∀ s t, f s = .next t → R s t

/-- The writes of issue, start_transfer, submit, activate and deactivate; a command is put out by issue alone. -/
structure OpFrame (R : State → State → Prop) : Prop where
  refl : ∀ s, R s s
  trans : ∀ {s t u}, R s t → R t u → R s u
  issue : ∀ c s x, issue c s = .next x → R s x.1
  notReady : ∀ p s, R s (s.setNotReady p true)
  start : ∀ p, Within R (startTransfer p)
  push : ∀ p r s, s.onAnyQueue r = false → R s (s.setEp p { s.ep p with queue := (s.ep p).queue ++ [r] })
  setReq : ∀ r q s, q.actual ≤ q.length → R s (s.setReq r q)
  enable : ∀ p b s, R s (s.setEnable p b)
  cfgStarted : ∀ s, R s (s.setCfgStarted true)
  emit : ∀ o s, (∀ c, o ≠ .command c) → R s (s.emit o)
  mark : ∀ m s, R s (s.mark m)

namespace OpFrame

variable {R : State → State → Prop} (h : OpFrame R)
include h

theorem each {α : Type} {f : α → State → Out State} (hf : ∀ a, Within R (f a)) (l : List α) :
    Within R (eachInOrder f l) := by
  induction l with
  | nil => intro s t e; cases e; exact h.refl s
  | cons a l ih =>
    intro s t e
    obtain ⟨u, e1, e2⟩ := andThen_eq_next.mp e
    exact h.trans (hf a s u e1) (ih u t e2)

theorem chain {f g : State → Out State} (hf : Within R f) (hg : Within R g) :
    Within R fun s => andThen (f s) g := by
  intro s t e
  obtain ⟨u, e1, e2⟩ := andThen_eq_next.mp e
  exact h.trans (hf s u e1) (hg u t e2)

theorem issueCommand (c : Command) : Within R (issueCommand c) := by
  intro s t e
  obtain ⟨x, e1, e2⟩ := andThen_eq_next.mp e
  cases e2
  exact h.issue c s x e1

theorem endTransfer (p : Nat) : Within R (endTransfer p) := by
  intro s t e
  unfold Sys2Proof.Machine.endTransfer at e
  split at e
  · cases e; exact h.refl s
  · obtain ⟨x, e1, e2⟩ := andThen_eq_next.mp e
    cases e2
    exact h.trans (h.issue _ s x e1) (h.notReady p x.1)

theorem deactivate (p : Nat) : Within R (deactivate p) := by
  intro s t e
  obtain ⟨u, e1, e2⟩ := andThen_eq_next.mp e
  cases e2
  exact h.trans (h.endTransfer p s u e1) (h.enable p false u)

theorem newConfig (p : Nat) : Within R (newConfig p) := by
  intro s t e
  unfold Sys2Proof.Machine.newConfig at e
  split at e
  · obtain ⟨x, e1, e2⟩ := andThen_eq_next.mp e
    cases e2
    exact h.trans (h.issue _ s x e1) (h.cfgStarted x.1)
  · cases e; exact h.refl s

theorem activate (p : Nat) : Within R (activate p) := by
  intro s t e
  obtain ⟨s1, e1, e⟩ := andThen_eq_next.mp e
  obtain ⟨s2, e2, e⟩ := andThen_eq_next.mp e
  obtain ⟨s3, e3, e⟩ := andThen_eq_next.mp e
  cases e
  exact h.trans (h.newConfig p s s1 e1) (h.trans (h.issueCommand _ s1 s2 e2)
    (h.trans (h.issueCommand _ s2 s3 e3) (h.enable p true s3)))

theorem enqueue {p : Nat} {r : ReqRef} {s t : State} (hq : s.onAnyQueue r = false)
    (e : enqueue p r s = .next t) : R s t := by
  unfold Sys2Proof.Machine.enqueue at e
  simp only at e
  split at e
  · exact h.trans (h.push p r s hq) (h.start p _ t e)
  · cases e; exact h.push p r s hq

theorem submitInternal (p : Nat) (r : ReqRef) (buf len : Nat) : Within R (submitInternal p r buf len) := by
  intro s t e
  unfold Sys2Proof.Machine.submitInternal at e
  split at e
  · cases e
  · rename_i hq
    refine h.trans (h.setReq r _ s ?_) (h.enqueue ?_ e)
    · simp
    · simpa [State.onAnyQueue] using hq

end OpFrame

/-- The writes of completion and of the upper-layer calls. -/
structure CallFrame (R : State → State → Prop) : Prop extends OpFrame R where
  release : ∀ p r res s, R s (release p r res s)
  stall : ∀ cb : CallbackAct, (∀ r, Within R (cb r)) → Within R (ep0StallEffectsWith cb)
  setType : ∀ p ty mp b s, R s (s.setEp p { s.ep p with type := ty, maxp := mp, burst := b })
  halted : ∀ p b s, isEp0 p = false → R s (s.setHalted p b)
  popCbs : ∀ calls rest s, s.draws.cbs = calls :: rest → R s { s with draws := { s.draws with cbs := rest } }
  popMap : ∀ s, R s s.popMap
  fresh : ∀ n s, R s { s with freeCtr := n }
  drop : ∀ r s, R s (s.dropReq r)

/-- complete over a callback and a phase advance that stay within the relation. -/
theorem OpFrame.completeWith {R : State → State → Prop} (h : OpFrame R)
    (hrel : ∀ p r res s, R s (release p r res s)) {cb : CallbackAct} (hcb : ∀ r, Within R (cb r))
    {adv : AdvanceAct} {res : Result} (hadv : res = .success → ∀ p r, Within R (adv p r)) (p : Nat) (r : ReqRef) :
    Within R (completeWith cb adv p r res) := by
  intro s t e
  obtain ⟨s2, e2, e⟩ := andThen_eq_next.mp e
  obtain ⟨s3, e3, e⟩ := andThen_eq_next.mp e
  have h1 : R s (Sys2Proof.Machine.release p r res s) := hrel p r res s
  have h2 : R s s2 := by
    split at e2
    · rename_i hc
      exact h.trans h1 (hadv hc.2 p r _ s2 e2)
    · cases e2; exact h1
  have h3 : R s s3 := by
    split at e3
    · exact h.trans h2 (hcb r _ s3 e3)
    · cases e3; exact h2
  split at e
  · exact h.trans h3 (h.start p s3 t e)
  · cases e; exact h3

theorem OpFrame.killAllWith {R : State → State → Prop} (h : OpFrame R)
    (hrel : ∀ p r res s, R s (release p r res s)) {cb : CallbackAct} (hcb : ∀ r, Within R (cb r))
    {adv : AdvanceAct} {res : Result} (hadv : res = .success → ∀ p r, Within R (adv p r)) (p : Nat) :
    Within R (killAllWith cb adv p res) := by
  intro s t e
  refine h.each (fun r => ?_) _ s t e
  intro u v e'
  simp only at e'
  split at e'
  · exact h.completeWith hrel hcb hadv p r u v e'
  · cases e'; exact h.refl u

/-- The stall effects stay within a relation that phase writes stay within (R214). -/
theorem OpFrame.stallOfPhase {R : State → State → Prop} (h : OpFrame R)
    (hrel : ∀ p r res s, R s (release p r res s)) (hph : ∀ ph s, R s (s.setPhase ph))
    (cb : CallbackAct) (hcb : ∀ r, Within R (cb r)) : Within R (ep0StallEffectsWith cb) := by
  intro s t e
  obtain ⟨s1, e1, e⟩ := andThen_eq_next.mp e
  obtain ⟨s2, e2, e⟩ := andThen_eq_next.mp e
  have hk := fun p => h.killAllWith hrel hcb (adv := noAdvance) (res := .connectionReset) (by simp) p
  exact h.trans (hph .stalled s) (h.trans (hk 0 _ s1 e1) (h.trans (hk 1 s1 s2 e2)
    (h.trans (hph .setup s2) (h.submitInternal _ _ _ _ _ t e))))

namespace CallFrame

variable {R : State → State → Prop} (h : CallFrame R)
include h

theorem killAllNoAdvance {cb : CallbackAct} (hcb : ∀ r, Within R (cb r)) {res : Result} (hres : res ≠ .success) (p : Nat) :
    Within R (killAllWith cb noAdvance p res) :=
  h.killAllWith h.release hcb (fun e => absurd e hres) p

theorem noteCall (s : State) : R s (noteCall s) := by
  unfold Sys2Proof.Machine.noteCall
  split
  · exact h.refl s
  · exact h.mark _ s

theorem noteBuffer (r : ReqRef) (x : Request) (s : State) : R s (noteBuffer r x s) := by
  unfold Sys2Proof.Machine.noteBuffer
  split
  · exact h.refl s
  · exact h.mark _ s

theorem raiseErr (e : Err) : Within R (raiseErr e) := by
  intro s t he
  cases he
  exact h.emit _ s (by intro c; simp)

theorem callEnable (p : Nat) (d : DescArg) : Within R (callEnable p d) := by
  intro s t e
  unfold Sys2Proof.Machine.callEnable at e
  simp only at e
  split at e
  · cases e
  · split at e
    · exact h.raiseErr _ s t e
    · split at e
      · exact h.raiseErr _ s t e
      · obtain ⟨u, e1, e2⟩ := andThen_eq_next.mp e
        cases e2
        exact h.trans (h.setType p _ _ _ s) (h.trans (h.activate p _ u e1) (h.emit _ u (by intro c; simp)))

theorem callDisable {cb : CallbackAct} (hcb : ∀ r, Within R (cb r)) (p : Nat) : Within R (callDisable cb p) := by
  intro s t e
  unfold Sys2Proof.Machine.callDisable at e
  split at e
  · cases e
  · obtain ⟨s1, e1, e⟩ := andThen_eq_next.mp e
    obtain ⟨s2, e2, e⟩ := andThen_eq_next.mp e
    cases e
    exact h.trans (h.deactivate p s s1 e1) (h.trans (h.killAllNoAdvance hcb (by simp) p s1 s2 e2) (h.emit _ s2 (by intro c; simp)))

theorem callQueue (p req buf len : Nat) : Within R (callQueue p req buf len) := by
  intro s t e
  unfold Sys2Proof.Machine.callQueue at e
  simp only at e
  split at e
  · cases e
  · rename_i hq
    obtain ⟨q, e1, e⟩ := andThen_eq_next.mp e
    split at e
    · obtain ⟨u, e2, e⟩ := andThen_eq_next.mp e
      cases e
      rw [syncBuffer] at e2
      refine h.trans (h.noteBuffer _ _ s) (h.trans (h.setReq (.user req) _ _ ?_)
        (h.trans (h.enqueue ?_ e2) (h.emit _ u (by intro c; simp))))
      · simp [submitted]
      · simpa using hq
    · split at e
      · obtain ⟨u, e2, e⟩ := andThen_eq_next.mp e
        cases e
        refine h.trans (h.popMap s) (h.trans (h.noteBuffer _ _ _) (h.trans (h.setReq (.user req) _ _ ?_)
          (h.trans (h.enqueue ?_ e2) (h.emit _ u (by intro c; simp)))))
        · simp [submitted]
        · simpa using hq
      · refine h.trans (h.popMap s) (h.trans (h.setReq (.user req) _ _ ?_) (h.raiseErr _ _ t e))
        simp [submitted]

theorem callDequeue {cb : CallbackAct} (hcb : ∀ r, Within R (cb r)) (p req : Nat) : Within R (callDequeue cb p req) := by
  intro s t e
  unfold Sys2Proof.Machine.callDequeue at e
  simp only at e
  split at e
  · obtain ⟨u, e1, e⟩ := andThen_eq_next.mp e
    cases e
    exact h.trans (h.completeWith h.release hcb (by simp) _ _ s u e1) (h.emit _ u (by intro c; simp))
  · exact h.raiseErr _ s t e

theorem callAlloc : Within R callAlloc := by
  intro s t e
  cases e
  exact h.trans (h.setReq _ _ s (by simp [Request.fresh])) (h.trans (h.fresh _ _) (h.emit _ _ (by intro c; simp)))

theorem callFree (req : Nat) : Within R (callFree req) := by
  intro s t e
  unfold Sys2Proof.Machine.callFree at e
  split at e
  · cases e
  · cases e; exact h.drop _ s

theorem haltOp {p : Nat} (hp : isEp0 p = false) {v : Bool} {s : State} {x : State × CmdRes}
    (e : haltOp p v s = .next x) : R s x.1 := by
  obtain ⟨y, e1, e⟩ := andThen_eq_next.mp e
  have h1 := h.issue _ s y e1
  split at e
  · cases e; exact h1
  · obtain ⟨u, e2, e⟩ := andThen_eq_next.mp e
    cases e
    have h2 := h.trans h1 (h.halted p v y.1 hp)
    unfold restartAfterClear at e2
    split at e2
    · exact h.trans h2 (h.start p _ u e2)
    · cases e2; exact h2

theorem callSetHalt {cb : CallbackAct} (hcb : ∀ r, Within R (cb r)) (p : Nat) (v : Bool) :
    Within R (callSetHalt cb p v) := by
  intro s t e
  unfold Sys2Proof.Machine.callSetHalt at e
  split at e
  · obtain ⟨x, e1, e⟩ := andThen_eq_next.mp e
    obtain ⟨u, e2, e⟩ := andThen_eq_next.mp e
    cases e
    have h1 := h.issue _ s x e1
    have h2 : R s u := by
      split at e2
      · exact h.trans h1 (h.stall cb hcb x.1 u e2)
      · cases e2; exact h1
    exact h.trans h2 (h.emit _ u (by intro c; simp))
  · rename_i hp
    obtain ⟨x, e1, e⟩ := andThen_eq_next.mp e
    cases e
    exact h.trans (h.haltOp (by simpa using hp) e1) (h.emit _ x.1 (by intro c; simp))

theorem nestedCall {cb : CallbackAct} (hcb : ∀ r, Within R (cb r)) (c : NestedCall) : Within R (nestedCall cb c) := by
  intro s t e
  have hn := h.noteCall s
  cases c <;> simp only [Sys2Proof.Machine.nestedCall] at e
  case interrupt => split at e <;> cases e
  case enable p d => exact h.trans hn (h.callEnable p d _ t (withEp_eq_next s e).2)
  case disable p => exact h.trans hn (h.callDisable hcb p _ t (withEp_eq_next s e).2)
  case queue p req buf len => exact h.trans hn (h.callQueue p req buf len _ t (withEp_eq_next s e).2)
  case dequeue p req => exact h.trans hn (h.callDequeue hcb p req _ t (withEp_eq_next s e).2)
  case setHalt p v => exact h.trans hn (h.callSetHalt hcb p v _ t (withEp_eq_next s e).2)
  case allocRequest => exact h.trans hn (h.callAlloc _ t e)
  case freeRequest req => exact h.trans hn (h.callFree req _ t e)

theorem callbackN (n : Nat) (r : ReqRef) : Within R (callbackN n r) := by
  induction n generalizing r with
  | zero => intro s t e; cases e; exact h.emit _ s (by intro c; simp)
  | succ n ih =>
    intro s t e
    rw [Sys2Proof.Machine.callbackN] at e
    split at e
    · cases e; exact h.emit _ s (by intro c; simp)
    · rename_i calls rest hc
      exact h.trans (h.popCbs calls rest s hc) (h.trans (h.emit _ _ (by intro c; simp)) (h.each (fun c => h.nestedCall (fun r => ih r) c) _ _ t e))

/-- Everything a completion callback does stays within the relation (R183). -/
theorem callback (r : ReqRef) : Within R (callback r) := fun s t e => h.callbackN _ r s t e

theorem execEnable (p : EpField) : Within R (execEnable p) := fun s t e =>
  h.trans (h.noteCall s) (h.callEnable _ _ _ t (withEp_eq_next s e).2)

theorem execDisable (p : EpField) : Within R (execDisable p) := fun s t e =>
  h.trans (h.noteCall s) (h.callDisable h.callback _ _ t (withEp_eq_next s e).2)

theorem execQueue (p : EpField) : Within R (execQueue p) := fun s t e =>
  h.trans (h.noteCall s) (h.callQueue _ _ _ _ _ t (withEp_eq_next s e).2)

theorem execDequeue (p : EpField) : Within R (execDequeue p) := fun s t e =>
  h.trans (h.noteCall s) (h.callDequeue h.callback _ _ _ t (withEp_eq_next s e).2)

theorem execSetHalt (p : EpField) : Within R (execSetHalt p) := fun s t e =>
  h.trans (h.noteCall s) (h.callSetHalt h.callback _ _ _ t (withEp_eq_next s e).2)

theorem execAllocRequest : Within R execAllocRequest := fun s t e => h.trans (h.noteCall s) (h.callAlloc _ t e)

theorem execFreeRequest : Within R execFreeRequest := fun s t e => h.trans (h.noteCall s) (h.callFree _ _ t e)

end CallFrame

/-- The writes of the EP0 sequencer. -/
structure AdvFrame (R : State → State → Prop) : Prop extends CallFrame R where
  phase : ∀ ph s, ph ≠ .stalled → R s (s.setPhase ph)
  context : ∀ c s, R s { s with ctl := { s.ctl with ep0Ctx := c } }
  selData : ∀ bs s, R s { s with ctl := { s.ctl with selData := bs } }
  devAddr : ∀ a s, R s (s.setDevAddr a)
  popSetup : ∀ s, R s s.popSetup
  writeMem : ∀ a bs, Within R (writeMem a bs)

namespace AdvFrame

variable {R : State → State → Prop} (h : AdvFrame R)
include h

theorem writeOutside (a : Nat) (bs : List Byte) : Within R (writeOutside a bs) := by
  intro s t e
  unfold Sys2Proof.Machine.writeOutside at e
  split at e
  · cases e
  · exact h.writeMem a bs s t e

theorem armSetup : Within R armSetup := fun s t e =>
  h.trans (h.phase .setup s (by simp)) (h.submitInternal _ _ _ _ _ t e)

theorem ep0Stall : Within R ep0Stall := by
  intro s t e
  obtain ⟨u, e1, e2⟩ := andThen_eq_next.mp e
  exact h.trans (h.issueCommand _ s u e1) (h.stall _ h.callback u t e2)

theorem upcallSetup {pkt : BitVec 64} {s : State} {x : State × Int} (e : upcallSetup pkt s = .next x) : R s x.1 := by
  obtain ⟨u, e1, e⟩ := andThen_eq_next.mp e
  cases e
  exact h.trans (h.popSetup s) (h.trans (h.emit _ _ (by intro c; simp)) (h.each (fun c => h.nestedCall h.callback c) _ _ u e1))

theorem localHandler {q : LocalReq} {c : Ep0Ctx} {s : State} {x : State × Int}
    (e : localHandler q c s = .next x) : R s x.1 := by
  have hfeature : ∀ v, localFeature v c s = .next x → R s x.1 := by
    intro v e
    unfold localFeature at e
    split at e
    · split at e
      · cases e; exact h.refl s
      · cases e; exact h.refl s
      · split at e
        · split at e
          · cases e; exact h.refl s
          · split at e
            · cases e; exact h.refl s
            · rename_i hp
              obtain ⟨y, e1, e⟩ := andThen_eq_next.mp e
              cases e
              exact h.haltOp (by simpa using hp) e1
        · cases e; exact h.refl s
      · cases e; exact h.refl s
    · cases e; exact h.refl s
  cases q with
  | getStatus =>
    simp only [Sys2Proof.Machine.localHandler, localGetStatus] at e
    split at e
    · split at e
      · cases e; exact h.refl s
      · obtain ⟨s1, e1, e⟩ := andThen_eq_next.mp e
        obtain ⟨s2, e2, e⟩ := andThen_eq_next.mp e
        cases e
        exact h.trans (h.writeMem _ _ s s1 e1) (h.submitInternal _ _ _ _ s1 s2 e2)
    · cases e; exact h.refl s
  | clearFeature => exact hfeature false e
  | setFeature => exact hfeature true e
  | setAddress =>
    simp only [Sys2Proof.Machine.localHandler, localSetAddress] at e
    split at e
    · cases e; exact h.trans (h.devAddr _ s) (h.phase _ _ (by simp))
    · cases e; exact h.refl s
  | setSel =>
    simp only [Sys2Proof.Machine.localHandler, localSetSel] at e
    split at e
    · obtain ⟨u, e1, e⟩ := andThen_eq_next.mp e
      cases e
      exact h.submitInternal _ _ _ _ s u e1
    · cases e; exact h.refl s

theorem processControl : Within R processControl := by
  intro s t e
  unfold Sys2Proof.Machine.processControl at e
  split at e
  · cases e
  · split at e
    · exact h.ep0Stall s t e
    · obtain ⟨bs, e1, e⟩ := andThen_eq_next.mp e
      obtain ⟨x, e2, e⟩ := andThen_eq_next.mp e
      have h1 : R s (recordSetup (decodeSetup (setupPacket bs)) s) := by
        unfold recordSetup
        split
        · exact h.trans (h.context _ s) (h.phase _ _ (by simp))
        · exact h.context _ s
      have h2 : R s x.1 := by
        unfold answerSetup at e2
        split at e2
        · exact h.trans h1 (h.localHandler e2)
        · exact h.trans h1 (h.upcallSetup e2)
      unfold settleSetup at e
      split at e
      · exact h.trans h2 (h.ep0Stall _ t e)
      · split at e
        · cases e; exact h2
        · cases e; exact h.trans h2 (h.phase _ _ (by simp))

theorem ep0Advance (p : Nat) (r : ReqRef) : Within R (ep0Advance p r) := by
  intro s t e
  unfold Sys2Proof.Machine.ep0Advance at e
  split at e
  · split at e
    · exact h.processControl s t e
    · cases e; exact h.refl s
  · unfold endDataStage at e
    split at e
    · obtain ⟨bs, e1, e⟩ := andThen_eq_next.mp e
      cases e
      exact h.trans (h.selData bs s) (h.phase _ _ (by simp))
    · cases e; exact h.phase _ s (by simp)
  · exact h.armSetup s t e
  · exact h.armSetup s t e
  all_goals cases e; exact h.refl s

theorem complete (p : Nat) (r : ReqRef) (res : Result) : Within R (complete p r res) :=
  h.completeWith h.release h.callback (fun _ => h.ep0Advance) p r

theorem killAll (p : Nat) (res : Result) : Within R (killAll p res) :=
  h.killAllWith h.release h.callback (fun _ => h.ep0Advance) p

theorem ep0NotReady (p : Nat) : Within R (ep0NotReady p) := by
  intro s t e
  unfold Sys2Proof.Machine.ep0NotReady at e
  simp only at e
  split at e
  · refine h.trans (h.phase _ s ?_) (h.submitInternal _ _ _ _ _ t e)
    unfold statusPhase
    split
    · split <;> simp
    · simp
  · cases e; exact h.refl s

end AdvFrame

/-- The writes of the event handlers other than the command-complete one. -/
structure HandlerFrame (R : State → State → Prop) : Prop extends AdvFrame R where
  hwTransfer : ∀ p, Within R (hwTransfer p)
  acrossReset : ∀ b s, R s { s with ep0AcrossReset := b }
  clearHalts : ∀ s, R s s.clearHalts
  cfgCleared : ∀ s, R s (s.setCfgStarted false)
  latchSpeed : ∀ s, R s s.latchSpeed
  speed : ∀ sp s, R s { s with ctl := { s.ctl with speed := sp } }
  resize : ∀ sp s, R s (resizeMaxp sp s)
  connected : ∀ b s, R s (s.setConnected b)

namespace HandlerFrame

variable {R : State → State → Prop} (h : HandlerFrame R)
include h

theorem onXferComplete (p : Nat) : Within R (onXferComplete p) := by
  intro s t e
  obtain ⟨s1, e1, e⟩ := andThen_eq_next.mp e
  have h1 := h.hwTransfer p s s1 e1
  split at e
  · cases e; exact h1
  · obtain ⟨bs, e2, e⟩ := andThen_eq_next.mp e
    split at e
    · cases e
    · split at e
      · cases e
      · refine h.trans h1 (h.trans (h.setReq _ _ s1 ?_) (h.complete _ _ _ _ t e))
        simp only [actualLen]
        exact Nat.min_le_left _ _

theorem onXferNotReady (p : Nat) : Within R (onXferNotReady p) := by
  intro s t e
  unfold Sys2Proof.Machine.onXferNotReady at e
  split at e
  · exact h.ep0NotReady p s t e
  · cases e; exact h.refl s

theorem onEpOther (p : Nat) : Within R (onEpOther p) := by
  intro s t e
  cases e
  exact h.refl s

theorem onOther : Within R onOther := by
  intro s t e
  cases e
  exact h.refl s

theorem onUsbReset : Within R onUsbReset := by
  intro s t e
  obtain ⟨u, e1, e⟩ := andThen_eq_next.mp e
  cases e
  exact h.trans (h.acrossReset _ s) (h.trans (h.each (fun p => h.killAll p _) _ _ u e1)
    (h.trans (h.clearHalts u) (h.trans (h.devAddr 0 _) (h.cfgCleared _))))

theorem onConnectDone : Within R onConnectDone := by
  intro s t e
  obtain ⟨s2, e2, e⟩ := andThen_eq_next.mp e
  obtain ⟨s3, e3, e⟩ := andThen_eq_next.mp e
  have h1 := h.trans (h.latchSpeed s) (h.trans (h.speed (some s.latchSpeed.regs.stsSpeed) s.latchSpeed)
    (h.resize s.latchSpeed.regs.stsSpeed _))
  have h2 := h.trans h1 (h.trans (h.activate 0 _ s2 e2) (h.trans (h.activate 1 s2 s3 e3) (h.connected true s3)))
  simp only at e
  split at e
  · exact h.trans h2 (h.armSetup _ t e)
  · cases e; exact h2

theorem onDisconnect : Within R onDisconnect := by
  intro s t e
  cases e
  refine h.trans ?_ (h.connected false _)
  unfold upcallDisconnect
  split
  · exact h.emit _ s (by intro c; simp)
  · exact h.refl s

theorem onLinkState (st : BitVec 4) : Within R (onLinkState st) := by
  intro s t e
  unfold Sys2Proof.Machine.onLinkState at e
  split at e
  · exact h.onDisconnect s t e
  · cases e; exact h.refl s

/-- Every operation but INTERRUPT, INIT, TEARDOWN and the two that drain stays within the relation. -/
theorem execNoDrain (i : Instr) (hi : i ≠ .interrupt ∧ i ≠ .init ∧ i ≠ .teardown)
    (hd : ∀ p, i ≠ .evEpCmdComplete p ∧ i ≠ .procDrainDeferred p) : Within R (exec i) := by
  intro s t e
  cases i with
  | enable p => exact h.execEnable p s t e
  | disable p => exact h.execDisable p s t e
  | queue p => exact h.execQueue p s t e
  | dequeue p => exact h.execDequeue p s t e
  | setHalt p => exact h.execSetHalt p s t e
  | allocRequest => exact h.execAllocRequest s t e
  | freeRequest => exact h.execFreeRequest s t e
  | evXferComplete p => exact h.onXferComplete _ s t (withEp_eq_next s (show Sys2Proof.Machine.execEvXferComplete p s = .next t from e)).2
  | evXferNotReady p => exact h.onXferNotReady _ s t (withEp_eq_next s (show Sys2Proof.Machine.execEvXferNotReady p s = .next t from e)).2
  | evEpCmdComplete p => exact absurd rfl (hd p).1
  | evEpOther p => exact h.onEpOther _ s t (withEp_eq_next s (show Sys2Proof.Machine.execEvEpOther p s = .next t from e)).2
  | evUsbReset => exact h.onUsbReset s t e
  | evConnectDone => exact h.onConnectDone s t e
  | evLinkState => exact h.onLinkState _ s t e
  | evDisconnect => exact h.onDisconnect s t e
  | evOther => exact h.onOther s t e
  | init => exact absurd rfl hi.2.1
  | teardown => exact absurd rfl hi.2.2
  | interrupt => exact absurd rfl hi.1
  | cmdStartNewConfig p => exact h.issueCommand _ s t (withEp_eq_next s (show Sys2Proof.Machine.execCmdStartNewConfig p s = .next t from e)).2
  | cmdSetEpConfig p => exact h.issueCommand _ s t (withEp_eq_next s (show Sys2Proof.Machine.execCmdSetEpConfig p s = .next t from e)).2
  | cmdSetXferResource p => exact h.issueCommand _ s t (withEp_eq_next s (show Sys2Proof.Machine.execCmdSetXferResource p s = .next t from e)).2
  | cmdStartTransfer p =>
    have e := (withEp_eq_next s (show Sys2Proof.Machine.execCmdStartTransfer p s = .next t from e)).2
    split at e
    · cases e; exact h.refl s
    · exact h.issueCommand _ s t e
  | cmdEndTransfer p => exact h.endTransfer _ s t (withEp_eq_next s (show Sys2Proof.Machine.execCmdEndTransfer p s = .next t from e)).2
  | cmdSetStall p => exact h.issueCommand _ s t (withEp_eq_next s (show Sys2Proof.Machine.execCmdSetStall p s = .next t from e)).2
  | cmdClearStall p => exact h.issueCommand _ s t (withEp_eq_next s (show Sys2Proof.Machine.execCmdClearStall p s = .next t from e)).2
  | upSetup =>
    obtain ⟨x, e1, e2⟩ := andThen_eq_next.mp e
    cases e2
    exact h.trans (h.upcallSetup e1) (h.emit _ _ (by intro c; simp))
  | upDisconnect =>
    cases e
    unfold upcallDisconnect
    split
    · exact h.emit _ s (by intro c; simp)
    · exact h.refl s
  | upSuspend =>
    cases e
    unfold upcallSuspend
    split
    · exact h.emit _ s (by intro c; simp)
    · exact h.refl s
  | upResume =>
    cases e
    unfold upcallResume
    split
    · exact h.emit _ s (by intro c; simp)
    · exact h.refl s
  | upCompleteCb => exact h.callback _ s t e
  | procStartTransfer p => exact h.start _ s t (withEp_eq_next s (show Sys2Proof.Machine.execProcStartTransfer p s = .next t from e)).2
  | procIssue p =>
    obtain ⟨x, e1, e2⟩ := andThen_eq_next.mp (withEp_eq_next s (show Sys2Proof.Machine.execProcIssue p s = .next t from e)).2
    cases e2
    exact h.trans (h.issue _ s x e1) (h.emit _ _ (by intro c; simp))
  | procActivate p => exact h.activate _ s t (withEp_eq_next s (show Sys2Proof.Machine.execProcActivate p s = .next t from e)).2
  | procDeactivate p => exact h.deactivate _ s t (withEp_eq_next s (show Sys2Proof.Machine.execProcDeactivate p s = .next t from e)).2
  | procComplete p => exact h.complete _ _ _ s t (withEp_eq_next s (show Sys2Proof.Machine.execProcComplete p s = .next t from e)).2
  | procKillAll p => exact h.killAll _ _ s t (withEp_eq_next s (show Sys2Proof.Machine.execProcKillAll p s = .next t from e)).2
  | procProcessControl => exact h.processControl s t e
  | procDrainDeferred p => exact absurd rfl (hd p).2
  | procEp0Advance p => exact h.ep0Advance _ _ s t (withEp_eq_next s (show Sys2Proof.Machine.execProcEp0Advance p s = .next t from e)).2
  | procEp0Stall => exact h.ep0Stall s t e

end HandlerFrame

/-- The writes of every event handler and of the drain. -/
structure EventFrame (R : State → State → Prop) : Prop extends HandlerFrame R where
  commandDone : ∀ p s, R s (hwCommandDone p s)
  drain : ∀ p s, R s (drainDeferred p s)

namespace EventFrame

variable {R : State → State → Prop} (h : EventFrame R)
include h

theorem onCmdComplete (p : Nat) : Within R (onCmdComplete p) := by
  intro s t e
  unfold Sys2Proof.Machine.onCmdComplete at e
  simp only at e
  have h1 := h.trans (h.commandDone p s) (h.drain p _)
  split at e
  · exact h.trans h1 (h.start p _ t e)
  · cases e; exact h1

/-- Whatever one record does stays within the relation (R233). -/
theorem handle (ev : Event) : Within R (handle ev) := by
  have legal : ∀ {p : Nat} {s t : State} {k : Nat → Out State}, eventEp p s k = .next t → k p = .next t := by
    intro p s t k e
    unfold eventEp at e
    split at e
    · exact e
    · cases e
  intro s t e
  cases ev with
  | xferComplete p => exact h.onXferComplete p s t (legal (by simpa only [Sys2Proof.Machine.handle] using e))
  | xferNotReady p => exact h.onXferNotReady p s t (legal (by simpa only [Sys2Proof.Machine.handle] using e))
  | epCmdComplete p => exact h.onCmdComplete p s t (legal (by simpa only [Sys2Proof.Machine.handle] using e))
  | epOther p => exact h.onEpOther p s t (legal (by simpa only [Sys2Proof.Machine.handle] using e))
  | usbReset => exact h.onUsbReset s t e
  | connectDone => exact h.onConnectDone s t e
  | linkState st => exact h.onLinkState st s t e
  | disconnect => exact h.onDisconnect s t e
  | other => exact h.onOther s t e

/-- Every operation but INTERRUPT, INIT and TEARDOWN stays within the relation. -/
theorem exec (i : Instr) (hi : i ≠ .interrupt ∧ i ≠ .init ∧ i ≠ .teardown) : Within R (exec i) := by
  intro s t e
  cases i with
  | evEpCmdComplete p =>
    exact h.onCmdComplete _ s t (withEp_eq_next s (show Sys2Proof.Machine.execEvEpCmdComplete p s = .next t from e)).2
  | procDrainDeferred p =>
    have e := (withEp_eq_next s (show Sys2Proof.Machine.execProcDrainDeferred p s = .next t from e)).2
    cases e
    exact h.drain _ s
  | _ => exact h.execNoDrain _ hi (fun p => by simp) s t e

end EventFrame

/-- The writes of the dispatch loop. -/
structure DispatchFrame (R : State → State → Prop) : Prop extends EventFrame R where
  acknowledge : ∀ s, R s (acknowledge s)
  dispatching : ∀ b s, R s (s.setDispatching b)

namespace DispatchFrame

variable {R : State → State → Prop} (h : DispatchFrame R)
include h

theorem oneRecord : Within R oneRecord := by
  intro s t e
  obtain ⟨bs, e1, e⟩ := andThen_eq_next.mp e
  obtain ⟨u, e2, e⟩ := andThen_eq_next.mp e
  cases e
  exact h.trans (h.handle _ s u e2) (h.acknowledge u)

theorem dispatchLoop (n : Nat) : Within R (dispatchLoop n) := by
  induction n with
  | zero => intro s t e; cases e; exact h.refl s
  | succ n ih => exact h.chain h.oneRecord ih

theorem dispatch : Within R dispatch := by
  intro s t e
  unfold Sys2Proof.Machine.dispatch at e
  split at e
  · cases e
  · split at e
    · cases e
    · obtain ⟨u, e1, e⟩ := andThen_eq_next.mp e
      cases e
      exact h.trans (h.dispatching true s) (h.trans (h.dispatchLoop _ _ u e1) (h.dispatching false u))

/-- Every operation but INIT and TEARDOWN stays within the relation. -/
theorem execRun (i : Instr) (hi : i ≠ .init ∧ i ≠ .teardown) : Within R (Sys2Proof.Machine.exec i) := by
  intro s t e
  by_cases h1 : i = .interrupt
  · subst h1; exact h.dispatch s t e
  · exact h.exec i ⟨h1, hi.1, hi.2⟩ s t e

end DispatchFrame

/-- The writes of INIT and TEARDOWN, and of taking a line of the trace. -/
structure MachineFrame (R : State → State → Prop) : Prop extends DispatchFrame R where
  initEp0 : ∀ p s, R s (initEp0 p s)
  initRegs : ∀ s, R s (initRegs s)
  runStop : ∀ b s, R s (s.setRunStop b)
  clearEnables : ∀ s, R s (clearEnables s)
  landLate : ∀ p s, R s (landLate p s)
  takeLine : ∀ (rest : List Line) (a : Args) (d : Draws) s, R s { s with trace := rest, args := a, draws := d }
  deliver : ∀ w, Within R (deliverRecord w)

namespace MachineFrame

variable {R : State → State → Prop} (h : MachineFrame R)
include h

theorem initController : Within R initController := by
  intro s t e
  unfold Sys2Proof.Machine.initController at e
  split at e
  · cases e
  · obtain ⟨s1, e1, e⟩ := andThen_eq_next.mp e
    obtain ⟨s2, e2, e⟩ := andThen_eq_next.mp e
    obtain ⟨s3, e3, e⟩ := andThen_eq_next.mp e
    cases e
    have hn : R s (noteInit s) := by
      unfold noteInit
      split
      · exact h.refl s
      · exact h.mark _ s
    exact h.trans hn (h.trans (h.initEp0 0 _) (h.trans (h.initEp0 1 _) (h.trans (h.initRegs _)
      (h.trans (h.activate 0 _ s1 e1) (h.trans (h.activate 1 s1 s2 e2) (h.trans (h.armSetup s2 s3 e3)
        (h.runStop true s3)))))))

theorem teardown : Within R teardown := by
  intro s t e
  obtain ⟨u, e1, e⟩ := andThen_eq_next.mp e
  cases e
  exact h.trans (h.runStop false s) (h.trans (h.each (fun p => h.killAll p _) _ _ u e1)
    (h.trans (h.clearEnables u) (h.phase _ _ (by simp))))

/-- Every operation stays within the relation. -/
theorem execAll (i : Instr) : Within R (Sys2Proof.Machine.exec i) := by
  intro s t e
  by_cases h2 : i = .init
  · subst h2; exact h.initController s t e
  · by_cases h3 : i = .teardown
    · subst h3; exact h.teardown s t e
    · exact h.execRun i ⟨h2, h3⟩ s t e

theorem landAll (ps : List Nat) (s : State) : R s (landAll ps s) := by
  induction ps generalizing s with
  | nil => exact h.refl s
  | cons p ps ih => exact h.trans (h.landLate p s) (ih _)

theorem loadLine (ln : Line) (s : State) {t : State} (rest : List Line)
    (e : loadLine ln { s with trace := rest } = .next t) : R s t := by
  obtain ⟨u, e1, e2⟩ := andThen_eq_next.mp e
  exact h.trans (h.takeLine rest ln.args ln.draws s) (h.trans (h.landAll ln.lands _)
    (h.trans (h.each (f := outsideWrite) (fun x => h.writeOutside x.1 x.2) _ _ u e1) (h.each h.deliver _ u t e2)))

theorem fetch {s : State} {x : Option Instr × State} (e : fetch s = .next x) : R s x.2 := by
  unfold Sys2Proof.Machine.fetch at e
  split at e
  · cases e; exact h.refl s
  · split at e
    · cases e
    · obtain ⟨t, e1, e2⟩ := andThen_eq_next.mp e
      refine h.trans (h.loadLine _ s _ e1) ?_
      unfold accept at e2
      split at e2
      · cases e2; exact h.refl t
      · split at e2
        · cases e2; exact h.refl t
        · cases e2; exact h.refl t
        · split at e2
          · split at e2
            · obtain ⟨u, e3, e4⟩ := andThen_eq_next.mp e2
              cases e4
              exact h.deliver _ t u e3
            · cases e2; exact h.refl t
          · cases e2
        all_goals cases e2

/-- Every step stays within the relation. -/
theorem step : Within R step := by
  intro s t e
  obtain ⟨x, e1, e2⟩ := andThen_eq_next.mp e
  have h1 := h.fetch e1
  split at e2
  · exact h.trans h1 (h.execAll _ _ t e2)
  · cases e2; exact h1

end MachineFrame

end Sys2Proof.Machine
end

