-- ==== Sys2Proof/Laws/Issue.lean ====
section
/-! SUPPORT. The command issuer in closed form: what issue_now, issue and the END_TRANSFER of R158 leave, for a command
answered in time, one that times out and one that is deferred (R130 to R133, R138, R158); and what every issue keeps. -/

namespace Sys2Proof.Machine

variable {s : State}

theorem State.Shaped.eps {p : Nat} (hs : s.Shaped) (hp : p < s.cfg.numPhysEp) : p < s.eps.length := hs.1 ▸ hp

theorem State.Shaped.ports {p : Nat} (hs : s.Shaped) (hp : p < s.cfg.numPhysEp) : p < s.regs.ports.length := hs.2.1 ▸ hp

theorem State.Shaped.hw {p : Nat} (hs : s.Shaped) (hp : p < s.cfg.numPhysEp) : p < s.hw.eps.length := hs.2.2 ▸ hp

@[simp] theorem commandsOf_append (l l' : List Output) : commandsOf (l ++ l') = commandsOf l ++ commandsOf l' := by
  induction l with
  | nil => rfl
  | cons o l ih => cases o <;> simp [commandsOf, ih]

/-- The hardware's side of a command touches only the hardware agent's record. -/
theorem hwPerform_eq (c : Command) (idx : Nat) (s : State) :
    hwPerform c idx s = { s with hw := (hwPerform c idx s).hw } := by
  unfold hwPerform
  split <;> rfl

/-- What the hardware's side does depends on its own record alone. -/
theorem hwPerform_hw_congr (c : Command) (idx : Nat) {s t : State} (h : s.hw = t.hw) :
    (hwPerform c idx s).hw = (hwPerform c idx t).hw := by
  unfold hwPerform State.setHwEp State.hwEp
  rw [h]
  split <;> rfl

/-- The hardware's completion of a command touches its own record and the target's `EPCMD`. -/
theorem completeCommand_eq (c : Command) (idx : Nat) (s : State) :
    completeCommand c idx s = { s with
      regs := s.regsWith c.target { s.port c.target with cmd := { (s.port c.target).cmd with active := false, resIdx := idx } }
      hw := (hwPerform c idx s).hw } := by
  unfold completeCommand
  rw [hwPerform_eq]
  rfl

/-- A late command that lands touches the hardware's record and the endpoint ports (R134). -/
theorem landLate_eq (p : Nat) (s : State) :
    landLate p s = { s with
      regs := { s.regs with ports := (landLate p s).regs.ports }
      hw := (landLate p s).hw } := by
  unfold landLate
  split
  · rfl
  · rw [completeCommand_eq]; rfl

/-- With no command outstanding nothing lands. -/
theorem landLate_none {p : Nat} (h : (s.hwEp p).late = none) : landLate p s = s := by
  unfold landLate
  rw [h]

/-- What lands, and where it shows (R45, R134). -/
theorem landLate_some {p : Nat} {x : LateCommand} (h : (s.hwEp p).late = some x) :
    landLate p s = { s with
      regs := s.regsWith p { s.port p with
        cmd := { (s.port p).cmd with active := false, resIdx := doneIdx x.cmd x.idx } }
      hw := (hwPerform { x.cmd with target := p } (doneIdx x.cmd x.idx) s).hw } := by
  unfold landLate
  rw [h]
  exact completeCommand_eq _ _ _

/-- A command answered in time (R131): registers, hardware record, one draw, one output; the index read back. -/
theorem issueNow_ok {c : Command} (hp : c.target < s.regs.ports.length) (hok : s.CmdOk) :
    issueNow c s =
      ({ s with
          regs := s.regsWith c.target (portAfter c false (doneIdx c s.cmdDraw.idx) (s.port c.target))
          hw := (hwPerform c (doneIdx c s.cmdDraw.idx) s).hw
          draws := s.drawsAfterCmd
          outs := s.outs ++ [.command c] }, .done (doneIdx c s.cmdDraw.idx)) := by
  unfold issueNow
  have hok' : s.cmdDraw.stillActive < s.cfg.cmdTimeout := hok
  simp only [hok', if_true, completeCommand]
  rw [hwPerform_eq]
  simp [finishCommand, writeCommand, State.setPort, State.port, State.emit, State.popCmd, State.regsWith, portAfter,
    State.drawsAfterCmd, List.getD_eq_getElem?_getD, hp]
  exact hwPerform_hw_congr _ _ rfl

/-- A command that times out (R132, R134): `active` stays set, the endpoint is not ready, the error is recorded locally, and the
hardware goes on with the command; a START_TRANSFER leaves the mark of R304. -/
theorem issueNow_timeout {c : Command} (hok : ¬ s.CmdOk) :
    issueNow c s =
      ({ s with
          eps := s.eps.set c.target { s.ep c.target with notReady := true }
          regs := s.regsWith c.target (portAfter c true c.resIdx (s.port c.target))
          hw := s.hwLate c s.cmdDraw.idx
          marks := s.marks ++ lateMarks c
          draws := s.drawsAfterCmd
          outs := s.outs ++ [.command c, .localError .hardwareCommandTimeout c.target] }, .timeout) := by
  unfold issueNow
  have hok' : ¬ s.cmdDraw.stillActive < s.cfg.cmdTimeout := hok
  simp only [hok', if_false]
  simp [leaveLate, writeCommand, State.setPort, State.port, State.emit, State.popCmd, State.regsWith, portAfter,
    State.drawsAfterCmd, State.setNotReady, State.setEp, State.ep, State.setHwEp, State.hwEp, State.hwLate]

/-- issue on a ready endpoint is issue_now (R130). -/
theorem issue_ready {c : Command} (hr : (s.ep c.target).notReady = false) : issue c s = .next (issueNow c s) := by
  simp [issue, hr]

/-- issue on a not-ready endpoint with room appends to its FIFO (R130). -/
theorem issue_deferred {c : Command} (hr : (s.ep c.target).notReady = true)
    (hc : s.cfg.deferCap ≠ some (s.ep c.target).deferred.length) :
    issue c s = .next
      (s.setEp c.target { s.ep c.target with deferred := (s.ep c.target).deferred ++ [c] }, .deferred) := by
  simp [issue, defer, hr, hc, andThen]

/-- issue on a not-ready endpoint whose FIFO is full faults (R30, R130). -/
theorem issue_overflow {c : Command} (hr : (s.ep c.target).notReady = true)
    (hc : s.cfg.deferCap = some (s.ep c.target).deferred.length) : issue c s = .fault .deferOverflow := by
  simp [issue, defer, hr, hc, andThen]

/-- A command whose result nothing records, answered in time. -/
theorem issueCommand_ok {c : Command} (hr : (s.ep c.target).notReady = false) (hp : c.target < s.regs.ports.length)
    (hok : s.CmdOk) :
    issueCommand c s = .next { s with
      regs := s.regsWith c.target (portAfter c false (doneIdx c s.cmdDraw.idx) (s.port c.target))
      hw := (hwPerform c (doneIdx c s.cmdDraw.idx) s).hw
      draws := s.drawsAfterCmd
      outs := s.outs ++ [.command c] } := by
  simp [issueCommand, issue_ready hr, issueNow_ok hp hok, andThen]

/-- What every issue_now keeps: among the endpoint records only the target's not-ready flag can change, one draw is used and
one command written. -/
theorem issueNow_keeps (c : Command) (s : State) :
    (issueNow c s).1.cfg = s.cfg ∧ (issueNow c s).1.ctl = s.ctl ∧ (issueNow c s).1.mem = s.mem ∧
    (issueNow c s).1.reqs = s.reqs ∧
    (issueNow c s).1.marks = s.marks ++ (if s.cmdDraw.stillActive < s.cfg.cmdTimeout then [] else lateMarks c) ∧
    (issueNow c s).1.eps = (if s.cmdDraw.stillActive < s.cfg.cmdTimeout then s.eps
      else s.eps.set c.target { s.ep c.target with notReady := true }) ∧
    (issueNow c s).1.draws = s.drawsAfterCmd ∧
    commandsOf (issueNow c s).1.outs = commandsOf s.outs ++ [c] := by
  by_cases hok : s.CmdOk
  · have hok' : s.cmdDraw.stillActive < s.cfg.cmdTimeout := hok
    unfold issueNow
    simp only [hok', if_true]
    rw [completeCommand_eq]
    simp [writeCommand, State.drawsAfterCmd, State.setPort, State.emit, State.popCmd, commandsOf]
  · have hok' : ¬ s.cmdDraw.stillActive < s.cfg.cmdTimeout := hok
    rw [issueNow_timeout (c := c) hok]
    simp [hok', State.drawsAfterCmd, commandsOf]

end Sys2Proof.Machine
end

