-- ==== Sys2Proof/Laws/Start.lean ====
section
/-! SUPPORT. start_transfer in closed form (R120 to R127): when it changes nothing, where it stops, what it leaves when it
starts the head; and the queue operations above it (R172). -/

namespace Sys2Proof.Machine

variable {s : State} {p : Nat}

/-- A TD has sixteen bytes (R123). -/
@[simp] theorem encodeTd_length (c : Config) (td : Td) : (encodeTd c td).length = 16 := by simp [encodeTd]

/-- The state with endpoint `p`'s TD written, in its record and in memory (R123). -/
def State.withTd (s : State) (p : Nat) (td : Td) : State :=
  { s with eps := s.eps.set p { s.ep p with td := td }, mem := Memory.setBytes s.mem (s.tdAddr p) (encodeTd s.cfg td) }

/-- placeTd writes the record and the sixteen bytes, exactly where the TD slot is aligned and inside the space. -/
theorem placeTd_eq_next {td : Td} {t : State} :
    placeTd p td s = .next t ↔ s.TdPlaced p ∧ t = s.withTd p td := by
  unfold placeTd writeMem State.TdPlaced State.inSpace State.withTd
  by_cases h1 : s.tdAddr p % s.cfg.tdAlign = 0
  · by_cases h2 : s.tdAddr p + 16 ≤ 2 ^ s.cfg.addrBits
    · simp [h1, h2, State.setEp]
      exact eq_comm
    · simp [h1, h2, State.setEp]
  · simp [h1]

/-- The guards: nothing happens on a halted or not-ready endpoint, with an active request, or with an empty queue (R120, R121,
R127). -/
theorem startTransfer_idle (h : (s.ep p).halted = true ∨ (s.ep p).notReady = true ∨ (s.ep p).active ≠ none ∨
    (s.ep p).queue = []) : startTransfer p s = .next s := by
  unfold startTransfer
  by_cases hg : (s.ep p).halted = true ∨ (s.ep p).notReady = true ∨ (s.ep p).active.isSome = true
  · simp only [hg, if_true]
  · have hq : (s.ep p).queue = [] := by
      rcases h with h | h | h | h
      · exact absurd (.inl h) hg
      · exact absurd (.inr (.inl h)) hg
      · exact absurd (.inr (.inr (Option.isSome_iff_ne_none.mpr h))) hg
      · exact h
    simp only [hg, if_false, hq]

/-- A startable head is started (R121, R127). -/
theorem startTransfer_head {r : ReqRef} {rest : List ReqRef} (hc : s.CanStart p) (hq : (s.ep p).queue = r :: rest) :
    startTransfer p s = startHead p r s := by
  obtain ⟨h1, h2, h3⟩ := hc
  simp [startTransfer, h1, h2, h3, hq]

/-- Everything start_transfer can answer: nothing changed, or the head started or timed out over its written TD (R120 to
R127). -/
theorem startTransfer_cases {t : State} (e : startTransfer p s = .next t) :
    t = s ∨ ∃ r rest n ty, s.CanStart p ∧ (s.ep p).queue = r :: rest ∧
      xferLen (epDir p) (s.ep p).maxp (s.req r).length s.cfg.lenBits = .next n ∧
      ctlTypeFor p s.ctl.ep0Phase = .next ty ∧ s.TdPlaced p ∧
      t = recordStart p r (issueNow (startTransferCmd p (s.tdAddr p)) (s.withTd p (startedTd (s.req r) n ty))) := by
  by_cases hg : (s.ep p).halted = true ∨ (s.ep p).notReady = true ∨ (s.ep p).active ≠ none ∨ (s.ep p).queue = []
  · rw [startTransfer_idle hg] at e
    cases e
    exact .inl rfl
  · simp only [not_or] at hg
    obtain ⟨h1, h2, h3, h4⟩ := hg
    obtain ⟨r, rest, hq⟩ := List.exists_cons_of_ne_nil h4
    have hc : s.CanStart p := ⟨by simpa using h1, by simpa using h2, by simpa using h3⟩
    rw [startTransfer_head hc hq] at e
    obtain ⟨n, e1, e⟩ := andThen_eq_next.mp e
    obtain ⟨ty, e2, e⟩ := andThen_eq_next.mp e
    obtain ⟨s1, e3, e⟩ := andThen_eq_next.mp e
    obtain ⟨x, e4, e⟩ := andThen_eq_next.mp e
    obtain ⟨hp, rfl⟩ := placeTd_eq_next.mp e3
    have hr : ((s.withTd p (startedTd (s.req r) n ty)).ep p).notReady = false := by
      have : (s.withTd p (startedTd (s.req r) n ty)).ep p =
          (s.setEp p { s.ep p with td := startedTd (s.req r) n ty }).ep p := rfl
      rw [this, setEp_ep]
      split <;> simp [hc.2.1]
    have e5 : issue (startTransferCmd p (s.tdAddr p)) (s.withTd p (startedTd (s.req r) n ty)) = .next x := e4
    rw [issue_ready hr] at e5
    cases e5
    cases e
    exact .inr ⟨r, rest, n, ty, hc, hq, e1, e2, hp, rfl⟩

/-- A startable head whose length and type are known starts over its written TD (R122 to R126). -/
theorem startTransfer_starts {r : ReqRef} {rest : List ReqRef} {n : Nat} {ty : CtlType} (hc : s.CanStart p)
    (hq : (s.ep p).queue = r :: rest) (hn : xferLen (epDir p) (s.ep p).maxp (s.req r).length s.cfg.lenBits = .next n)
    (ht : ctlTypeFor p s.ctl.ep0Phase = .next ty) (hp : s.TdPlaced p) :
    startTransfer p s = .next
      (recordStart p r (issueNow (startTransferCmd p (s.tdAddr p)) (s.withTd p (startedTd (s.req r) n ty)))) := by
  have hr : ((s.withTd p (startedTd (s.req r) n ty)).ep (startTransferCmd p (s.tdAddr p)).target).notReady = false := by
    have : (s.withTd p (startedTd (s.req r) n ty)).ep p =
        (s.setEp p { s.ep p with td := startedTd (s.req r) n ty }).ep p := rfl
    show ((s.withTd p (startedTd (s.req r) n ty)).ep p).notReady = false
    rw [this, setEp_ep]
    split <;> simp [hc.2.1]
  have h3 : placeTd p (startedTd (s.req r) n ty) s = .next (s.withTd p (startedTd (s.req r) n ty)) :=
    placeTd_eq_next.mpr ⟨hp, rfl⟩
  rw [startTransfer_head hc hq, startHead, hn, andThen_next, ht, andThen_next]
  show andThen (placeTd p (startedTd (s.req r) n ty) s) _ = _
  rw [h3, andThen_next, issue_ready hr, andThen_next]

/-- What recording the command's result keeps (R124, R125). -/
theorem recordStart_keeps (p : Nat) (r : ReqRef) (x : State × CmdRes) :
    (recordStart p r x).cfg = x.1.cfg ∧ (recordStart p r x).ctl = x.1.ctl ∧ (recordStart p r x).regs = x.1.regs ∧
    (recordStart p r x).reqs = x.1.reqs ∧ (recordStart p r x).mem = x.1.mem ∧ (recordStart p r x).hw = x.1.hw ∧
    (recordStart p r x).draws = x.1.draws ∧ (recordStart p r x).outs = x.1.outs := by
  unfold recordStart
  split <;> exact ⟨rfl, rfl, rfl, rfl, rfl, rfl, rfl, rfl⟩

end Sys2Proof.Machine
end

