-- ==== Sys2Proof/Laws/Keeps.lean ====
section
/-! SUPPORT. What issue, start_transfer and the drain keep, for any reading of the state that looks only at the launch
parameters, the controller record, the request objects and the registers other than the endpoint ports; and the frame of every
event handler for a reading that looks only at the launch parameters, the cursor, `dispatching`, `run_stop`, the ring
registers and the count (R39, R42, R43, R84, R230). -/

namespace Sys2Proof.Machine

/-- `f` reads only what the issuer never writes. -/
def IssuerBlind {α : Type} (f : State → α) : Prop :=
  ∀ s t : State, t.cfg = s.cfg → t.ctl = s.ctl → t.reqs = s.reqs → t.regs = { s.regs with ports := t.regs.ports } →
    f t = f s

theorem issueNow_regs (c : Command) (s : State) :
    (issueNow c s).1.regs = { s.regs with ports := (issueNow c s).1.regs.ports } := by
  by_cases hok : s.CmdOk
  · have hok' : s.cmdDraw.stillActive < s.cfg.cmdTimeout := hok
    simp only [issueNow, hok', if_true, completeCommand_eq]
    rfl
  · rw [issueNow_timeout hok]; rfl

namespace IssuerBlind

variable {α : Type} {f : State → α} (hf : IssuerBlind f)
include hf

theorem issueNow (c : Command) (s : State) : f (issueNow c s).1 = f s := by
  have h := issueNow_keeps c s
  exact hf s _ h.1 h.2.1 h.2.2.2.1 (issueNow_regs c s)

theorem issue (c : Command) (s : State) (x : State × CmdRes) (e : issue c s = .next x) : f x.1 = f s := by
  by_cases hr : (s.ep c.target).notReady = true
  · by_cases hc : s.cfg.deferCap = some (s.ep c.target).deferred.length
    · rw [issue_overflow hr hc] at e; cases e
    · rw [issue_deferred hr hc] at e; cases e
      exact hf s _ rfl rfl rfl rfl
  · rw [issue_ready (by simpa using hr)] at e; cases e
    exact hf.issueNow c s

theorem start (p : Nat) (s t : State) (e : startTransfer p s = .next t) : f t = f s := by
  rcases startTransfer_cases e with rfl | ⟨r, rest, n, ty, -, -, -, -, -, rfl⟩
  · rfl
  · have h := recordStart_keeps p r
      (Sys2Proof.Machine.issueNow (startTransferCmd p (s.tdAddr p)) (s.withTd p (startedTd (s.req r) n ty)))
    rw [hf _ _ h.1 h.2.1 h.2.2.2.1 (by rw [h.2.2.1]), hf.issueNow]
    exact hf s _ rfl rfl rfl rfl

theorem drainLoop (n p : Nat) (s : State) : f (drainLoop n p s) = f s := by
  induction n generalizing s with
  | zero => rfl
  | succ n ih =>
    unfold Sys2Proof.Machine.drainLoop
    split
    · rfl
    · split
      · rfl
      · rename_i c rest _
        rw [ih]
        unfold drainOne
        simp only
        split
        · rw [hf (Sys2Proof.Machine.issueNow c _).1 (State.setNotReady _ p true) rfl rfl rfl rfl, hf.issueNow]
          exact hf s _ rfl rfl rfl rfl
        · rw [hf.issueNow]
          exact hf s _ rfl rfl rfl rfl

theorem drain (p : Nat) (s : State) : f (drainDeferred p s) = f s := by
  unfold drainDeferred
  rw [hf.drainLoop]
  exact hf s _ rfl rfl rfl rfl

end IssuerBlind

/-- `f` reads only what no event handler and no upper-layer call writes. -/
def HandlerBlind {α : Type} (f : State → α) : Prop :=
  ∀ s t : State, t.cfg = s.cfg → t.ctl.evtCursor = s.ctl.evtCursor → t.ctl.dispatching = s.ctl.dispatching →
    t.regs.runStop = s.regs.runStop → t.regs.evbufBase = s.regs.evbufBase → t.regs.evbufSize = s.regs.evbufSize →
    t.regs.evbufCount = s.regs.evbufCount →
    f t = f s

namespace HandlerBlind

variable {α : Type} {f : State → α} (hf : HandlerBlind f)
include hf

theorem issuer : IssuerBlind f := fun s t h1 h2 _ h4 =>
  hf s t h1 (by rw [h2]) (by rw [h2]) (by rw [h4]) (by rw [h4]) (by rw [h4]) (by rw [h4])

theorem opFrame : OpFrame (fun s t => f t = f s) where
  refl := fun _ => rfl
  trans := fun a b => b.trans a
  issue := hf.issuer.issue
  notReady := fun _ _ => hf _ _ rfl rfl rfl rfl rfl rfl rfl
  start := hf.issuer.start
  push := fun _ _ _ _ => hf _ _ rfl rfl rfl rfl rfl rfl rfl
  setReq := fun _ _ _ _ => hf _ _ rfl rfl rfl rfl rfl rfl rfl
  enable := fun _ _ _ => hf _ _ rfl rfl rfl rfl rfl rfl rfl
  cfgStarted := fun _ => hf _ _ rfl rfl rfl rfl rfl rfl rfl
  emit := fun _ _ _ => hf _ _ rfl rfl rfl rfl rfl rfl rfl
  mark := fun _ _ => hf _ _ rfl rfl rfl rfl rfl rfl rfl

theorem writeMem (a : Nat) (bs : List Byte) : Within (fun s t => f t = f s) (writeMem a bs) := by
  intro s t e
  obtain ⟨_, rfl⟩ := writeMem_eq_next e
  exact hf _ _ rfl rfl rfl rfl rfl rfl rfl

theorem release (p : Nat) (r : ReqRef) (res : Result) (s : State) : f (release p r res s) = f s := by
  unfold Sys2Proof.Machine.release
  simp only
  split <;> exact hf _ _ rfl rfl rfl rfl rfl rfl rfl

theorem hwTransfer (p : Nat) : Within (fun s t => f t = f s) (hwTransfer p) := by
  intro s t e
  rw [(hwTransfer_eq_next e).1]
  exact hf _ _ rfl rfl rfl rfl rfl rfl rfl

/-- Every event handler and every upper-layer call keeps such a reading. -/
theorem eventFrame : EventFrame (fun s t => f t = f s) where
  toOpFrame := hf.opFrame
  release := hf.release
  stall := fun cb hcb => hf.opFrame.stallOfPhase hf.release (fun _ _ => hf _ _ rfl rfl rfl rfl rfl rfl rfl) cb hcb
  setType := fun _ _ _ _ _ => hf _ _ rfl rfl rfl rfl rfl rfl rfl
  halted := fun _ _ _ _ => hf _ _ rfl rfl rfl rfl rfl rfl rfl
  popCbs := fun _ _ _ _ => hf _ _ rfl rfl rfl rfl rfl rfl rfl
  popMap := fun _ => hf _ _ rfl rfl rfl rfl rfl rfl rfl
  fresh := fun _ _ => hf _ _ rfl rfl rfl rfl rfl rfl rfl
  drop := fun _ _ => hf _ _ rfl rfl rfl rfl rfl rfl rfl
  phase := fun _ _ _ => hf _ _ rfl rfl rfl rfl rfl rfl rfl
  context := fun _ _ => hf _ _ rfl rfl rfl rfl rfl rfl rfl
  selData := fun _ _ => hf _ _ rfl rfl rfl rfl rfl rfl rfl
  devAddr := fun _ _ => hf _ _ rfl rfl rfl rfl rfl rfl rfl
  popSetup := fun _ => hf _ _ rfl rfl rfl rfl rfl rfl rfl
  writeMem := hf.writeMem
  hwTransfer := hf.hwTransfer
  commandDone := fun p s => by
    have e : hwCommandDone p s = clearActive p (landLate p s) := rfl
    rw [e, landLate_eq]
    exact hf _ _ rfl rfl rfl rfl rfl rfl rfl
  drain := hf.issuer.drain
  acrossReset := fun _ _ => hf _ _ rfl rfl rfl rfl rfl rfl rfl
  clearHalts := fun _ => hf _ _ rfl rfl rfl rfl rfl rfl rfl
  cfgCleared := fun _ => hf _ _ rfl rfl rfl rfl rfl rfl rfl
  latchSpeed := fun _ => hf _ _ rfl rfl rfl rfl rfl rfl rfl
  speed := fun _ _ => hf _ _ rfl rfl rfl rfl rfl rfl rfl
  resize := fun _ _ => hf _ _ rfl rfl rfl rfl rfl rfl rfl
  connected := fun _ _ => hf _ _ rfl rfl rfl rfl rfl rfl rfl

end HandlerBlind

end Sys2Proof.Machine
end

