-- ==== Sys2Proof/Laws/Complete.lean ====
section
/-! SUPPORT. Completion in closed form, the callbacks making no nested call: release, complete without Success, kill_all
(R180 to R186). -/

namespace Sys2Proof.Machine

variable {s : State} {p : Nat} {r : ReqRef} {res : Result}

/-- release in closed form (R180 to R182, R78, R305). -/
theorem release_eq (p : Nat) (r : ReqRef) (res : Result) (s : State) :
    release p r res s = { s with
      reqs := putReq s.reqs r (completed res (s.req r))
      eps := s.eps.set p { s.ep p with
        queue := (s.ep p).queue.erase r
        active := if decide ((s.ep p).active = some r) then none else (s.ep p).active
        resIdx := if decide ((s.ep p).active = some r) then none else (s.ep p).resIdx }
      marks := s.marks ++ (if decide ((s.ep p).active = some r) ∧ res ≠ .success then [.bufferReleased p r] else []) } := by
  unfold release
  simp only
  split <;> simp_all [State.mark, State.setReq, State.setEp, completed, settleStatus]

/-- The output of a callback is the one the statements name. -/
theorem emitCb_eq (hc : (s.req r).callback ≠ .internal) :
    emitCb r s = { s with outs := s.outs ++ callbackOutput r (s.req r) } := by
  simp [emitCb, State.emit, callbackOutput, hc]

theorem callbackN_quiet (n : Nat) (h : s.draws.cbs = []) : callbackN n r s = .next (emitCb r s) := by
  cases n with
  | zero => rfl
  | succ n => rw [callbackN, h]

/-- A callback that makes no nested call is its upcall (R183). -/
theorem callback_quiet (h : s.NoNested) : callback r s = .next (emitCb r s) := callbackN_quiet _ h

/-- complete without Success, the callback quiet (R180 to R185). -/
theorem completeWith_failure {cb : CallbackAct} {adv : AdvanceAct} (hcb : ∀ r s, s.draws.cbs = [] → cb r s = .next (emitCb r s))
    (hres : res ≠ .success) (h : s.draws.cbs = []) :
    completeWith cb adv p r res s = .next { release p r res s with
      outs := s.outs ++ callbackOutput r (completed res (s.req r)) } := by
  have hreq : (release p r res s).req r = completed res (s.req r) := by
    rw [release_eq]
    simp [State.req, findReq_putReq_same]
  have hcbs : (release p r res s).draws.cbs = [] := by rw [release_eq]; exact h
  have houts : (release p r res s).outs = s.outs := by rw [release_eq]
  unfold completeWith
  simp only [hres, and_false, if_false, andThen_next, hreq]
  have hcc : (completed res (s.req r)).callback = (s.req r).callback := rfl
  by_cases hc : (s.req r).callback = .internal
  · simp [hcc, hc, callbackOutput, ← houts]
  · rw [if_pos (by simpa [hcc] using hc), hcb _ _ hcbs, andThen_next, emitCb_eq (by rw [hreq]; simpa [hcc] using hc), hreq, houts]

/-- kill_all over a queue, the callbacks quiet (R186): every request of it is completed in order; the queue ends empty, nothing
active; nothing is issued. -/
theorem killAllWith_failure {cb : CallbackAct} {adv : AdvanceAct}
    (hcb : ∀ r s, s.draws.cbs = [] → cb r s = .next (emitCb r s)) (hres : res ≠ .success) (h : s.draws.cbs = [])
    (hp : p < s.eps.length) (hn : (s.ep p).queue.Nodup)
    (ha : ∀ r, (s.ep p).active = some r → (s.ep p).queue.head? = some r)
    (hi : (s.ep p).resIdx.isSome = (s.ep p).active.isSome) :
    ∃ t, killAllWith cb adv p res s = .next t ∧
      t = { s with
        eps := s.eps.set p { s.ep p with queue := [], active := none, resIdx := none }
        reqs := t.reqs, marks := t.marks
        outs := s.outs ++ (s.ep p).queue.flatMap fun r => callbackOutput r (completed res (s.req r)) } ∧
      ∀ r, t.req r = if r ∈ (s.ep p).queue then completed res (s.req r) else s.req r := by
  have key : ∀ (l : List ReqRef) (s : State), s.draws.cbs = [] → p < s.eps.length → (s.ep p).queue = l → l.Nodup →
      (∀ r, (s.ep p).active = some r → (s.ep p).queue.head? = some r) →
      (s.ep p).resIdx.isSome = (s.ep p).active.isSome →
      ∃ t, eachInOrder (fun r t => if r ∈ (t.ep p).queue then completeWith cb adv p r res t else .next t) l s = .next t ∧
        t = { s with
          eps := s.eps.set p { s.ep p with queue := [], active := none, resIdx := none }
          reqs := t.reqs, marks := t.marks
          outs := s.outs ++ l.flatMap fun r => callbackOutput r (completed res (s.req r)) } ∧
        ∀ r, t.req r = if r ∈ l then completed res (s.req r) else s.req r := by
    intro l
    induction l with
    | nil =>
      intro s _ hp hq _ ha hi
      have ha' : (s.ep p).active = none := by
        cases e : (s.ep p).active with
        | none => rfl
        | some r => have := ha r e; simp [hq] at this
      have hi' : (s.ep p).resIdx = none := by simpa [ha'] using hi
      have hself : { s.ep p with queue := [], active := none, resIdx := none } = s.ep p := by rw [← hq, ← ha', ← hi']
      have hset : s.eps.set p (s.ep p) = s.eps := congrArg State.eps (setEp_self s p)
      refine ⟨s, rfl, ?_, by simp⟩
      rw [hself, hset]
      simp
    | cons a l ih =>
      intro s h hp hq hn ha hi
      have hl := List.nodup_cons.mp hn
      rw [eachInOrder, if_pos (by simp [hq]), completeWith_failure hcb hres h, andThen_next]
      generalize hu : ({ release p a res s with
        outs := s.outs ++ callbackOutput a (completed res (s.req a)) } : State) = u
      have hact : (if decide ((s.ep p).active = some a) then none else (s.ep p).active) = none := by
        cases e : (s.ep p).active with
        | none => simp
        | some b => have := ha b e; simp [hq] at this; simp [this]
      have hidx : (if decide ((s.ep p).active = some a) then none else (s.ep p).resIdx) = none := by
        cases e : (s.ep p).active with
        | none => simpa [e] using hi
        | some b => have := ha b e; simp [hq] at this; simp [this]
      have hue : u = { s with
          reqs := putReq s.reqs a (completed res (s.req a))
          eps := s.eps.set p { s.ep p with queue := l, active := none, resIdx := none }
          marks := u.marks
          outs := s.outs ++ callbackOutput a (completed res (s.req a)) } := by
        rw [← hu, release_eq, hact, hidx, hq, List.erase_cons_head]
      have huep : u.ep p = { s.ep p with queue := l, active := none, resIdx := none } := by
        rw [hue]
        simp [State.ep, List.getD_eq_getElem?_getD, hp]
      have hureq : ∀ r, u.req r = if a = r then completed res (s.req a) else s.req r := by
        intro r
        have h1 : u.req r = (s.setReq a (completed res (s.req a))).req r := by rw [hue]; rfl
        rw [h1, setReq_req]
      obtain ⟨t, h1, h2, h3⟩ := ih u (by rw [hue]; exact h) (by rw [hue]; simpa using hp) (by rw [huep]) hl.2
        (by rw [huep]; simp) (by rw [huep]; rfl)
      refine ⟨t, h1, ?_, ?_⟩
      · have hfl : (l.flatMap fun r => callbackOutput r (completed res (u.req r))) =
            l.flatMap fun r => callbackOutput r (completed res (s.req r)) := by
          refine List.flatMap_congr fun r hr => ?_
          rw [hureq, if_neg (by rintro rfl; exact hl.1 hr)]
        rw [h2, huep, hfl, hue]
        simp
      · intro r
        rw [h3, hureq]
        by_cases e : a = r
        · subst e; simp [hl.1]
        · have e' : r ≠ a := fun h => e h.symm
          simp [e, e']
  exact key _ s h hp rfl hn ha hi

end Sys2Proof.Machine
end

