-- ==== Sys2Proof/Laws/Activate.lean ====
section
/-! SUPPORT. activate in closed form, its commands answered in time (R151 to R155): which commands it writes, one draw each,
and the enable bit. -/

namespace Sys2Proof.Machine

variable {s : State} {p : Nat}

/-- The hardware answers `n` commands in time after the draws of the first `k` are used. -/
theorem State.CmdsOk.drop {n k : Nat} {t : State} (h : s.CmdsOk n) (hc : t.cfg = s.cfg)
    (hd : t.draws.cmds = s.draws.cmds.drop k) : t.CmdsOk (n - k) := by
  intro j hj
  have := h (k + j) (by omega)
  rw [hc, hd]
  simpa [List.getD_eq_getElem?_getD, List.getElem?_drop] using this

theorem State.CmdsOk.cmdOk {n : Nat} (h : s.CmdsOk n) (hn : 0 < n) : s.CmdOk := by
  have := h 0 hn
  unfold State.CmdOk State.cmdDraw
  cases e : s.draws.cmds with
  | nil => simpa [e] using this
  | cons d ds => simpa [e] using this

/-- configure endpoint and transfer resource, answered in time: the tail of activate (R153 to R155). -/
theorem configure_ok (hr : (s.ep p).notReady = false) (hp : p < s.regs.ports.length) (hok : s.CmdsOk 2) :
    ∃ x h, x.enabled = true ∧
      (andThen (issueCommand (setEpConfigCmd p (s.ep p)) s) fun s2 =>
        andThen (issueCommand (setXferResourceCmd p) s2) fun s3 => .next (s3.setEnable p true)) =
      .next { s with
        regs := s.regsWith p x
        hw := h
        draws := { s.draws with cmds := s.draws.cmds.drop 2 }
        outs := s.outs ++ [.command (setEpConfigCmd p (s.ep p)), .command (setXferResourceCmd p)] } := by
  have h1 := issueCommand_ok (c := setEpConfigCmd p (s.ep p)) hr hp (hok.cmdOk (by omega))
  rw [h1, andThen_next]
  generalize hu : ({ s with
      regs := s.regsWith (setEpConfigCmd p (s.ep p)).target (portAfter (setEpConfigCmd p (s.ep p)) false
        (doneIdx (setEpConfigCmd p (s.ep p)) s.cmdDraw.idx) (s.port (setEpConfigCmd p (s.ep p)).target))
      hw := (hwPerform (setEpConfigCmd p (s.ep p)) (doneIdx (setEpConfigCmd p (s.ep p)) s.cmdDraw.idx) s).hw
      draws := s.drawsAfterCmd
      outs := s.outs ++ [.command (setEpConfigCmd p (s.ep p))] } : State) = u
  have hur : (u.ep (setXferResourceCmd p).target).notReady = false := by rw [← hu]; exact hr
  have hup : (setXferResourceCmd p).target < u.regs.ports.length := by
    rw [← hu]
    simpa [State.regsWith, setXferResourceCmd, Command.plain, setEpConfigCmd] using hp
  have huk : u.CmdsOk 1 := State.CmdsOk.drop (n := 2) (k := 1) (s := s) hok (by rw [← hu]) (by rw [← hu]; simp [State.drawsAfterCmd])
  rw [issueCommand_ok hur hup (huk.cmdOk (by omega)), andThen_next]
  generalize (hwPerform (setXferResourceCmd p) (doneIdx (setXferResourceCmd p) u.cmdDraw.idx) u).hw = h2
  subst hu
  refine ⟨{ portAfter (setXferResourceCmd p) false (doneIdx (setXferResourceCmd p) 0)
    (portAfter (setEpConfigCmd p (s.ep p)) false (doneIdx (setEpConfigCmd p (s.ep p)) s.cmdDraw.idx) (s.port p)) with
      enabled := true }, h2, rfl, ?_⟩
  simp [State.setEnable, State.setPort, State.regsWith, State.drawsAfterCmd, State.port, List.getD_eq_getElem?_getD,
    setEpConfigCmd, setXferResourceCmd, Command.plain, hp, portAfter, doneIdx, ← List.drop_one, List.drop_drop]

/-- activate of a control endpoint, or with a configuration already begun: no START_NEW_CONFIG (R152, R244). -/
theorem activate_ok (hn : (s.ep p).type = .control ∨ s.ctl.cfgStarted = true) (hr : (s.ep p).notReady = false)
    (hp : p < s.regs.ports.length) (hok : s.CmdsOk 2) :
    ∃ x h, x.enabled = true ∧ activate p s = .next { s with
      regs := s.regsWith p x
      hw := h
      draws := { s.draws with cmds := s.draws.cmds.drop 2 }
      outs := s.outs ++ [.command (setEpConfigCmd p (s.ep p)), .command (setXferResourceCmd p)] } := by
  obtain ⟨x, h, hx, e⟩ := configure_ok hr hp hok
  refine ⟨x, h, hx, ?_⟩
  have hg : ¬ ((s.ep p).type ≠ .control ∧ s.ctl.cfgStarted = false) := by
    rintro ⟨h1, h2⟩
    rcases hn with hn | hn
    · exact h1 hn
    · simp [h2] at hn
  rw [activate, newConfig, if_neg hg, andThen_next, e]

/-- activate of the first non-control endpoint since the last reset: START_NEW_CONFIG on physical endpoint 0 first (R152). -/
theorem activate_first (ht : (s.ep p).type ≠ .control) (hc : s.ctl.cfgStarted = false) (h0 : (s.ep 0).notReady = false)
    (hr : (s.ep p).notReady = false) (hp : p < s.regs.ports.length) (hok : s.CmdsOk 3) :
    ∃ x y h, x.enabled = true ∧ y.enabled = (s.port 0).enabled ∧ activate p s = .next { s with
      ctl := { s.ctl with cfgStarted := true }
      regs := { s.regs with ports := (s.regs.ports.set 0 y).set p x }
      hw := h
      draws := { s.draws with cmds := s.draws.cmds.drop 3 }
      outs := s.outs ++ [.command (Command.plain 0 .startNewConfig), .command (setEpConfigCmd p (s.ep p)),
        .command (setXferResourceCmd p)] } := by
  have hl0 : 0 < s.regs.ports.length := by omega
  have hi := issue_ready (s := s) (c := Command.plain 0 .startNewConfig) h0
  rw [issueNow_ok (c := Command.plain 0 .startNewConfig) hl0 (hok.cmdOk (by omega))] at hi
  rw [activate, newConfig, if_pos ⟨ht, hc⟩, hi, andThen_next, andThen_next]
  generalize hu : State.setCfgStarted _ true = u
  have huep : ∀ q, u.ep q = s.ep q := by intro q; rw [← hu]; rfl
  have hup : p < u.regs.ports.length := by rw [← hu]; simpa [State.regsWith, Command.plain, State.setCfgStarted] using hp
  have huk : u.CmdsOk 2 := State.CmdsOk.drop (n := 3) (k := 1) (s := s) hok (by rw [← hu]; rfl)
    (by rw [← hu]; simp [State.drawsAfterCmd, State.setCfgStarted])
  obtain ⟨x, h, hx, e⟩ := configure_ok (s := u) (p := p) (by rw [huep]; exact hr) hup huk
  refine ⟨x, portAfter (Command.plain 0 .startNewConfig) false 0 (s.port 0), h, hx, rfl, ?_⟩
  rw [huep] at e
  rw [huep, e, ← hu]
  simp [State.regsWith, State.setCfgStarted, State.drawsAfterCmd, Command.plain, doneIdx]

end Sys2Proof.Machine
end

