-- ==== Sys2Proof/Laws/Encoding.lean ====
section
/-! SUPPORT. The operation word by its two bytes: what the decoder reads from `{cls, code}` and `p` (R90). -/

namespace Sys2Proof

theorem opWord_toNat (c p : BitVec 8) : (opWord c p).toNat = c.toNat * 256 + p.toNat := by
  simp only [opWord, BitVec.toNat_append, Nat.shiftLeft_eq]
  rw [← Nat.shiftLeft_eq, Nat.shiftLeft_add_eq_or_of_lt p.isLt]

/-- Every word is the word of its two bytes. -/
theorem eq_opWord (w : OpWord) : w = opWord (w.extractLsb' 8 8) (w.extractLsb' 0 8) := by
  apply BitVec.eq_of_toNat_eq
  rw [opWord_toNat]
  have := w.isLt
  simp [BitVec.extractLsb'_toNat, Nat.shiftRight_eq_div_pow]
  omega

/-- Decoding by the high byte: its upper nibble is the class, its lower nibble the code (R90, R91). -/
theorem decode_opWord (c p : BitVec 8) :
    decode (opWord c p) = (match c.toNat / 16 with
      | 1 => decodeUpperCall (c.toNat % 16) p
      | 2 => decodeEventOp (c.toNat % 16) p
      | 3 => decodeLifecycle (c.toNat % 16) p
      | 4 => decodeCommandOp (c.toNat % 16) p
      | 5 => decodeUpcall (c.toNat % 16) p
      | 6 => decodeInternal (c.toNat % 16) p
      | _ => .error .reservedClass) := by
  have hc := c.isLt
  have hp := p.isLt
  have h1 : bits (opWord c p).toNat 15 12 = c.toNat / 16 := by
    simp only [bits, opWord_toNat]
    norm_num
    omega
  have h2 : bits (opWord c p).toNat 11 8 = c.toNat % 16 := by
    simp only [bits, opWord_toNat]
    norm_num
    omega
  have h3 : BitVec.ofNat 8 (opWord c p).toNat = p := by
    apply BitVec.eq_of_toNat_eq
    simp only [opWord_toNat, BitVec.toNat_ofNat]
    omega
  unfold decode
  simp only [h1, h2, h3]
  all_goals rfl

/-- An operation without an endpoint is accepted only with a zero low byte (R90). -/
theorem noOperand_eq_ok {p : EpField} {i j : Instr} (h : noOperand p i = .ok j) : p = 0 ∧ i = j := by
  unfold noOperand at h
  split at h
  · exact ⟨by assumption, by cases h; rfl⟩
  · cases h

end Sys2Proof
end

