-- ==== Sys2Proof/Laws/Fields.lean ====
section
/-! SUPPORT. Bit fields of a number: a field reads back what was put there and leaves the others; and so the TD layout: what is
written, and written back, reads back (R27, R99). -/

namespace Sys2Proof.Machine

/-- A number cut at a field: what is above it, the field, what is below it. -/
theorem cut_field (x lo w : Nat) :
    x = x / 2 ^ (lo + w) * 2 ^ (lo + w) + getField x lo w * 2 ^ lo + x % 2 ^ lo := by
  have h1 := Nat.div_add_mod x (2 ^ lo)
  have h2 := Nat.div_add_mod (x / 2 ^ lo) (2 ^ w)
  rw [Nat.div_div_eq_div_mul, ← Nat.pow_add] at h2
  have h3 : x / 2 ^ (lo + w) * 2 ^ (lo + w) = 2 ^ lo * (2 ^ w * (x / 2 ^ (lo + w))) := by rw [Nat.pow_add]; ring
  have h4 : 2 ^ lo * (x / 2 ^ lo) = 2 ^ lo * (2 ^ w * (x / 2 ^ (lo + w))) + getField x lo w * 2 ^ lo := by
    rw [getField]; conv_lhs => rw [← h2]
    ring
  omega

/-- putField replaces the field and nothing else. -/
theorem putField_eq (x lo w v : Nat) :
    putField x lo w v = x / 2 ^ (lo + w) * 2 ^ (lo + w) + v % 2 ^ w * 2 ^ lo + x % 2 ^ lo := by
  have h := cut_field x lo w
  unfold putField
  unfold getField at h
  omega

/-- The three parts of a number put together from them. -/
theorem field_parts {a f b lo w : Nat} (hf : f < 2 ^ w) (hb : b < 2 ^ lo) :
    getField (a * 2 ^ (lo + w) + f * 2 ^ lo + b) lo w = f ∧ (a * 2 ^ (lo + w) + f * 2 ^ lo + b) % 2 ^ lo = b ∧
    (a * 2 ^ (lo + w) + f * 2 ^ lo + b) / 2 ^ (lo + w) = a := by
  have e : a * 2 ^ (lo + w) + f * 2 ^ lo + b = b + 2 ^ lo * (f + 2 ^ w * a) := by rw [Nat.pow_add]; ring
  have hp : 0 < 2 ^ lo := Nat.two_pow_pos lo
  have hd : (b + 2 ^ lo * (f + 2 ^ w * a)) / 2 ^ lo = f + 2 ^ w * a := by
    rw [Nat.add_mul_div_left _ _ hp, Nat.div_eq_of_lt hb, Nat.zero_add]
  refine ⟨?_, ?_, ?_⟩
  · rw [getField, e, hd, Nat.add_mul_mod_self_left, Nat.mod_eq_of_lt hf]
  · rw [e, Nat.add_mul_mod_self_left, Nat.mod_eq_of_lt hb]
  · rw [e, Nat.pow_add, ← Nat.div_div_eq_div_mul, hd, Nat.add_mul_div_left _ _ (Nat.two_pow_pos w), Nat.div_eq_of_lt hf,
      Nat.zero_add]

/-- A field reads back what was put there. -/
theorem getField_putField_same (x lo w v : Nat) : getField (putField x lo w v) lo w = v % 2 ^ w := by
  rw [putField_eq]
  exact (field_parts (Nat.mod_lt _ (Nat.two_pow_pos w)) (Nat.mod_lt _ (Nat.two_pow_pos lo))).1

/-- A field disjoint from the one written reads as before. -/
theorem getField_putField_disjoint {lo w lo' w' : Nat} (h : lo + w ≤ lo' ∨ lo' + w' ≤ lo) (x v : Nat) :
    getField (putField x lo w v) lo' w' = getField x lo' w' := by
  have hv := Nat.mod_lt v (Nat.two_pow_pos w)
  have hx := Nat.mod_lt x (Nat.two_pow_pos lo)
  obtain ⟨-, h2, h3⟩ := field_parts (a := x / 2 ^ (lo + w)) hv hx
  rw [putField_eq]
  rcases h with h | h
  · obtain ⟨k, rfl⟩ := Nat.exists_eq_add_of_le h
    rw [getField, getField, Nat.pow_add 2 (lo + w) k, ← Nat.div_div_eq_div_mul, h3, Nat.div_div_eq_div_mul]
  · obtain ⟨k, rfl⟩ := Nat.exists_eq_add_of_le h
    have e : ∀ y : Nat, getField y lo' w' = getField (y % 2 ^ (lo' + w' + k)) lo' w' := by
      intro y
      rw [getField, getField, Nat.add_assoc, Nat.pow_add 2 lo', Nat.mod_mul_right_div_self,
        Nat.mod_mod_of_dvd _ (Nat.pow_dvd_pow 2 (Nat.le_add_right w' k))]
    rw [e, h2, ← e]

/-- Putting a field keeps a number below a bound the field lies under. -/
theorem putField_lt {x lo w v n : Nat} (hx : x < 2 ^ n) (h : lo + w ≤ n) : putField x lo w v < 2 ^ n := by
  obtain ⟨k, rfl⟩ := Nat.exists_eq_add_of_le h
  have hv := Nat.mod_lt v (Nat.two_pow_pos w)
  have hb := Nat.mod_lt x (Nat.two_pow_pos lo)
  obtain ⟨-, -, h3⟩ := field_parts (a := x / 2 ^ (lo + w)) hv hb
  rw [putField_eq]
  have : x / 2 ^ (lo + w) < 2 ^ k := by
    rw [Nat.div_lt_iff_lt_mul (Nat.two_pow_pos _), Nat.mul_comm, ← Nat.pow_add]; exact hx
  rw [← h3, Nat.div_lt_iff_lt_mul (Nat.two_pow_pos _)] at this
  rw [Nat.pow_add 2 (lo + w) k, Nat.mul_comm (2 ^ (lo + w)) (2 ^ k)]
  exact this

/-! ## The TD layout -/

/-- What a well-formed layout gives: each field inside the sixteen bytes, no two sharing a bit but length and remaining. -/
theorem TdLayout.wf_iff {k : TdLayout} {a n : Nat} : k.wf a n = true ↔
    (k.remBit + n ≤ 128 ∧ k.bufBit + a ≤ 128 ∧ k.lenBit + n ≤ 128 ∧ k.ownerBit + 1 ≤ 128 ∧ k.ctlBit + 3 ≤ 128) ∧
    ((k.bufBit + a ≤ k.lenBit ∨ k.lenBit + n ≤ k.bufBit) ∧ (k.bufBit + a ≤ k.ownerBit ∨ k.ownerBit + 1 ≤ k.bufBit) ∧
      (k.bufBit + a ≤ k.ctlBit ∨ k.ctlBit + 3 ≤ k.bufBit) ∧ (k.lenBit + n ≤ k.ownerBit ∨ k.ownerBit + 1 ≤ k.lenBit) ∧
      (k.lenBit + n ≤ k.ctlBit ∨ k.ctlBit + 3 ≤ k.lenBit) ∧ (k.ownerBit + 1 ≤ k.ctlBit ∨ k.ctlBit + 3 ≤ k.ownerBit)) ∧
    ((k.remBit + n ≤ k.bufBit ∨ k.bufBit + a ≤ k.remBit) ∧ (k.remBit + n ≤ k.ownerBit ∨ k.ownerBit + 1 ≤ k.remBit) ∧
      (k.remBit + n ≤ k.ctlBit ∨ k.ctlBit + 3 ≤ k.remBit)) ∧
    (k.remBit = k.lenBit ∨ k.remBit + n ≤ k.lenBit ∨ k.lenBit + n ≤ k.remBit) := by
  simp [TdLayout.wf, TdLayout.fields, pairwiseDisjoint, regionsDisjoint, and_assoc]

theorem encodeTd_value {c : Config} (h : c.tdLayout.wf c.addrBits c.lenBits = true) (t : Td) :
    ofBytes (encodeTd c t) =
      putField (putField (putField (putField (putField 0 c.tdLayout.bufBit c.addrBits t.bufAddr)
        c.tdLayout.remBit c.lenBits t.remaining) c.tdLayout.lenBit c.lenBits t.length)
        c.tdLayout.ownerBit 1 t.owner.toNat) c.tdLayout.ctlBit 3 (ctlTypeCode t.ctlType) := by
  obtain ⟨⟨h1, h2, h3, h4, h5⟩, -⟩ := TdLayout.wf_iff.mp h
  rw [encodeTd, ofBytes_toBytes, Nat.mod_eq_of_lt]
  exact putField_lt (putField_lt (putField_lt (putField_lt (putField_lt (Nat.two_pow_pos 128) h2) h1) h3) h4) h5

/-- The owner bit of a written TD reads back (R27, R123). -/
theorem tdOwner_encodeTd {c : Config} (h : c.tdLayout.wf c.addrBits c.lenBits = true) (t : Td) :
    tdOwner c (encodeTd c t) = t.owner := by
  obtain ⟨-, ⟨-, -, -, -, -, h6⟩, -, -⟩ := TdLayout.wf_iff.mp h
  rw [tdOwner, encodeTd_value h, getField_putField_disjoint (by omega), getField_putField_same]
  cases t.owner <;> rfl

/-- The remaining length of a written TD reads back, where it is the length as start_transfer writes it (R123). -/
theorem tdRemaining_encodeTd {c : Config} (h : c.tdLayout.wf c.addrBits c.lenBits = true) {t : Td}
    (hr : t.remaining = t.length) : tdRemaining c (encodeTd c t) = t.length % 2 ^ c.lenBits := by
  obtain ⟨-, -, ⟨-, h2, h3⟩, h4⟩ := TdLayout.wf_iff.mp h
  rw [tdRemaining, encodeTd_value h, getField_putField_disjoint (by omega), getField_putField_disjoint (by omega)]
  rcases h4 with h4 | h4
  · rw [h4, getField_putField_same]
  · rw [getField_putField_disjoint (by omega), getField_putField_same, hr]

theorem ofBytes_lt (bs : List Byte) : ofBytes bs < 256 ^ bs.length := by
  induction bs with
  | nil => simp [ofBytes]
  | cons b bs ih =>
    have := b.isLt
    simp only [ofBytes, List.length_cons, pow_succ]
    omega

/-- The hardware's write-back reads back: the owner bit, and the remaining length if one is given, else the one that stood
(R27, R47). -/
theorem tdWriteBack_reads {c : Config} (h : c.tdLayout.wf c.addrBits c.lenBits = true) {bs : List Byte}
    (hl : bs.length = 16) (rem : Option Nat) (o : Bool) :
    tdOwner c (tdWriteBack c rem o bs) = o ∧
    tdRemaining c (tdWriteBack c rem o bs) =
      (match rem with | some n => n % 2 ^ c.lenBits | none => tdRemaining c bs) := by
  obtain ⟨⟨h1, -, -, h4, -⟩, -, ⟨-, h2, -⟩, -⟩ := TdLayout.wf_iff.mp h
  have hb : ofBytes bs < 2 ^ 128 := by
    have := ofBytes_lt bs
    rw [hl] at this
    exact this
  have hv : ofBytes (tdWriteBack c rem o bs) = putField
      (match rem with | some n => putField (ofBytes bs) c.tdLayout.remBit c.lenBits n | none => ofBytes bs)
      c.tdLayout.ownerBit 1 o.toNat := by
    refine (ofBytes_toBytes 16 _).trans (Nat.mod_eq_of_lt (putField_lt ?_ h4))
    cases rem with
    | none => exact hb
    | some n => exact putField_lt hb h1
  refine ⟨?_, ?_⟩
  · rw [tdOwner, hv, getField_putField_same]
    cases o <;> rfl
  · rw [tdRemaining, hv, getField_putField_disjoint (by omega)]
    cases rem with
    | none => rfl
    | some n => exact getField_putField_same _ _ _ _

end Sys2Proof.Machine
end

