-- ==== Sys2Proof/Laws/Nesting.lean ====
section
/-! SUPPORT. The nesting of upcalls (R183): no upper-layer call ever adds to the scripted callbacks, so two callbacks that agree
while few are left give the same completions and the same nested calls, and the bound callbackN carries is never met. -/

namespace Sys2Proof.Machine

/-- No more callbacks are scripted after than before. -/
def CbsNoMore (s t : State) : Prop := t.draws.cbs.length ≤ s.draws.cbs.length

theorem issueNow_cbs (c : Command) (s : State) : (issueNow c s).1.draws.cbs = s.draws.cbs := by
  rw [(issueNow_keeps c s).2.2.2.2.2.2.1]
  rfl

theorem startTransfer_cbs {p : Nat} {s t : State} (e : startTransfer p s = .next t) : t.draws.cbs = s.draws.cbs := by
  rcases startTransfer_cases e with rfl | ⟨r, rest, n, ty, -, -, -, -, -, rfl⟩
  · rfl
  · rw [(recordStart_keeps _ _ _).2.2.2.2.2.2.1, issueNow_cbs]
    rfl

theorem issue_cbs {c : Command} {s : State} {x : State × CmdRes} (e : issue c s = .next x) :
    x.1.draws.cbs = s.draws.cbs := by
  by_cases hr : (s.ep c.target).notReady = true
  · by_cases hc : s.cfg.deferCap = some (s.ep c.target).deferred.length
    · rw [issue_overflow hr hc] at e; cases e
    · rw [issue_deferred hr hc] at e; cases e; rfl
  · rw [issue_ready (by simpa using hr)] at e
    cases e
    exact issueNow_cbs c s

theorem cbsOpFrame : OpFrame CbsNoMore where
  refl := fun _ => Nat.le_refl _
  trans := fun h1 h2 => Nat.le_trans h2 h1
  issue := fun c s x e => by rw [CbsNoMore, issue_cbs e]
  notReady := fun _ _ => Nat.le_refl _
  start := fun p s t e => by rw [CbsNoMore, startTransfer_cbs e]
  push := fun _ _ _ _ => Nat.le_refl _
  setReq := fun _ _ _ _ => Nat.le_refl _
  enable := fun _ _ _ => Nat.le_refl _
  cfgStarted := fun _ => Nat.le_refl _
  emit := fun _ _ _ => Nat.le_refl _
  mark := fun _ _ => Nat.le_refl _

theorem release_cbs (p : Nat) (r : ReqRef) (res : Result) (s : State) : (release p r res s).draws.cbs = s.draws.cbs := by
  rw [release_eq]

/-- No upper-layer call adds to the scripted callbacks. -/
theorem cbsFrame : CallFrame CbsNoMore where
  toOpFrame := cbsOpFrame
  release := fun p r res s => by rw [CbsNoMore, release_cbs]
  stall := cbsOpFrame.stallOfPhase (fun p r res s => by rw [CbsNoMore, release_cbs]) (fun _ _ => Nat.le_refl _)
  setType := fun _ _ _ _ _ => Nat.le_refl _
  halted := fun _ _ _ _ => Nat.le_refl _
  popCbs := fun calls rest s hc => by simp [CbsNoMore, hc]
  popMap := fun _ => Nat.le_refl _
  fresh := fun _ _ => Nat.le_refl _
  drop := fun _ _ => Nat.le_refl _

/-- Two callbacks agree in every state with at most `n` callbacks scripted. -/
def AgreeBelow (n : Nat) (cb cb' : CallbackAct) : Prop := ∀ r s, s.draws.cbs.length ≤ n → cb r s = cb' r s

variable {n : Nat} {cb cb' : CallbackAct}

/-- Runs of two operations that agree below `n`, over a list, the first never adding a callback, agree. -/
theorem eachInOrder_agree {α : Type} {f g : α → State → Out State} (hf : ∀ a, Within CbsNoMore (f a))
    (hfg : ∀ a s, s.draws.cbs.length ≤ n → f a s = g a s) (l : List α) (s : State) (hs : s.draws.cbs.length ≤ n) :
    eachInOrder f l s = eachInOrder g l s := by
  induction l generalizing s with
  | nil => rfl
  | cons a l ih =>
    rw [eachInOrder_cons, eachInOrder_cons, ← hfg a s hs]
    cases e : f a s with
    | next t => exact ih t (Nat.le_trans (hf a s t e) hs)
    | fault _ => rfl
    | refused _ => rfl

theorem completeWith_agree (ha : AgreeBelow n cb cb') (p : Nat) (r : ReqRef) (res : Result) (s : State) (hs : s.draws.cbs.length ≤ n) :
    completeWith cb noAdvance p r res s = completeWith cb' noAdvance p r res s := by
  have h1 : cb r (release p r res s) = cb' r (release p r res s) := ha r _ (by rwa [release_cbs])
  unfold completeWith noAdvance
  simp only [ite_self, andThen_next, h1]

section
variable (hw : ∀ r, Within CbsNoMore (cb r)) (ha : AgreeBelow n cb cb')
include hw ha

theorem killAll_agree (p : Nat) {res : Result} (hres : res ≠ .success) (s : State) (hs : s.draws.cbs.length ≤ n) :
    killAllWith cb noAdvance p res s = killAllWith cb' noAdvance p res s := by
  refine eachInOrder_agree (fun r u v e => ?_) (fun r u hu => ?_) _ s hs
  · split at e
    · exact cbsFrame.toOpFrame.completeWith cbsFrame.release hw (fun h => absurd h hres) p r u v e
    · cases e; exact Nat.le_refl _
  · split
    · exact completeWith_agree ha p r res u hu
    · rfl

theorem stallEffects_agree (s : State) (hs : s.draws.cbs.length ≤ n) :
    ep0StallEffectsWith cb s = ep0StallEffectsWith cb' s := by
  have h0 := killAll_agree hw ha 0 (res := .connectionReset) (by simp) (s.setPhase .stalled) hs
  unfold ep0StallEffectsWith
  rw [← h0]
  cases e : killAllWith cb noAdvance 0 .connectionReset (s.setPhase .stalled) with
  | next t =>
    have ht : t.draws.cbs.length ≤ n :=
      Nat.le_trans (cbsFrame.killAllNoAdvance hw (res := .connectionReset) (by simp) 0 _ t e) hs
    rw [andThen_next, andThen_next, killAll_agree hw ha 1 (by simp) t ht]
  | fault _ => rfl
  | refused _ => rfl

/-- One nested call depends on the callback only as far as it can reach (R183). -/
theorem nestedCall_agree (c : NestedCall) (s : State) (hs : s.draws.cbs.length ≤ n) :
    nestedCall cb c s = nestedCall cb' c s := by
  have hn : (noteCall s).draws.cbs.length ≤ n := by
    unfold noteCall
    split <;> exact hs
  cases c with
  | disable p =>
    simp only [nestedCall, withEp]
    split
    · unfold callDisable
      split
      · rfl
      · cases e : deactivate p (noteCall s) with
        | next t =>
          have ht : t.draws.cbs.length ≤ n := Nat.le_trans (cbsFrame.toOpFrame.deactivate p _ t e) hn
          rw [andThen_next, andThen_next, killAll_agree hw ha p (by simp) t ht]
        | fault _ => rfl
        | refused _ => rfl
    · rfl
  | dequeue p req =>
    simp only [nestedCall, withEp]
    split
    · unfold callDequeue
      simp only
      rw [completeWith_agree ha _ _ _ _ hn]
    · rfl
  | setHalt p v =>
    simp only [nestedCall, withEp]
    split
    · unfold callSetHalt
      split
      · cases e : issue (stallCmd p v (noteCall s)) (noteCall s) with
        | next x =>
          rw [andThen_next, andThen_next, stallEffects_agree hw ha x.1 (by rw [issue_cbs e]; exact hn)]
        | fault _ => rfl
        | refused _ => rfl
      · rfl
    · rfl
  | enable p d => rfl
  | queue p req buf len => rfl
  | allocRequest => rfl
  | freeRequest req => rfl
  | interrupt => rfl

end

/-- The bound on nesting is never met: any bound that covers the script gives the same callback (R183). -/
theorem callbackN_agree (n m k : Nat) (hn : k ≤ n) (hm : k ≤ m) : AgreeBelow k (callbackN n) (callbackN m) := by
  induction k generalizing n m with
  | zero =>
    intro r s hs
    have hc : s.draws.cbs = [] := List.length_eq_zero_iff.mp (Nat.le_zero.mp hs)
    rw [callbackN_quiet n hc, callbackN_quiet m hc]
  | succ k ih =>
    obtain ⟨n, rfl⟩ : ∃ j, n = j + 1 := ⟨n - 1, by omega⟩
    obtain ⟨m, rfl⟩ : ∃ j, m = j + 1 := ⟨m - 1, by omega⟩
    intro r s hs
    rw [callbackN, callbackN]
    split
    · rfl
    · rename_i calls rest hc
      refine eachInOrder_agree (n := k) (fun c => cbsFrame.nestedCall (fun r => cbsFrame.callbackN n r) c)
        (nestedCall_agree (fun r => cbsFrame.callbackN n r) (ih n m (by omega) (by omega))) calls _ ?_
      rw [hc] at hs
      exact Nat.le_of_succ_le_succ hs

end Sys2Proof.Machine
end

