-- ==== Sys2Proof/Laws/PerInstr.lean ====
section
/-! SUPPORT. The word of every operation against its row of opcode_table.json: the high byte is the row's `{cls, code}`, the low
byte is the endpoint field or zero, and the row's mask keeps the row's match (R90). -/

namespace Sys2Proof.Laws.WordShape

/-- The row of opcode_table.json of an operation: its mask and its match value. -/
def row : Instr → OpWord × OpWord
  | .enable _ => (0xFF00, 0x1000)
  | .disable _ => (0xFF00, 0x1100)
  | .queue _ => (0xFF00, 0x1200)
  | .dequeue _ => (0xFF00, 0x1300)
  | .setHalt _ => (0xFF00, 0x1400)
  | .allocRequest => (0xFFFF, 0x1500)
  | .freeRequest => (0xFFFF, 0x1600)
  | .evXferComplete _ => (0xFF00, 0x2000)
  | .evXferNotReady _ => (0xFF00, 0x2100)
  | .evEpCmdComplete _ => (0xFF00, 0x2200)
  | .evEpOther _ => (0xFF00, 0x2300)
  | .evUsbReset => (0xFFFF, 0x2800)
  | .evConnectDone => (0xFFFF, 0x2900)
  | .evLinkState => (0xFFFF, 0x2A00)
  | .evDisconnect => (0xFFFF, 0x2B00)
  | .evOther => (0xFFFF, 0x2F00)
  | .init => (0xFFFF, 0x3000)
  | .teardown => (0xFFFF, 0x3100)
  | .interrupt => (0xFFFF, 0x3200)
  | .cmdStartNewConfig _ => (0xFF00, 0x4000)
  | .cmdSetEpConfig _ => (0xFF00, 0x4100)
  | .cmdSetXferResource _ => (0xFF00, 0x4200)
  | .cmdStartTransfer _ => (0xFF00, 0x4300)
  | .cmdEndTransfer _ => (0xFF00, 0x4400)
  | .cmdSetStall _ => (0xFF00, 0x4500)
  | .cmdClearStall _ => (0xFF00, 0x4600)
  | .upSetup => (0xFFFF, 0x5000)
  | .upDisconnect => (0xFFFF, 0x5100)
  | .upSuspend => (0xFFFF, 0x5200)
  | .upResume => (0xFFFF, 0x5300)
  | .upCompleteCb => (0xFFFF, 0x5400)
  | .procStartTransfer _ => (0xFF00, 0x6000)
  | .procIssue _ => (0xFF00, 0x6100)
  | .procActivate _ => (0xFF00, 0x6200)
  | .procDeactivate _ => (0xFF00, 0x6300)
  | .procComplete _ => (0xFF00, 0x6400)
  | .procKillAll _ => (0xFF00, 0x6500)
  | .procProcessControl => (0xFFFF, 0x6600)
  | .procDrainDeferred _ => (0xFF00, 0x6700)
  | .procEp0Advance _ => (0xFF00, 0x6800)
  | .procEp0Stall => (0xFFFF, 0x6900)

/-- The word keeps its row's match under its row's mask, and its low byte is the operation's endpoint field, or zero. -/
def Statement (i : Instr) : Prop :=
  encode i &&& (row i).1 = (row i).2 ∧ (encode i).extractLsb' 0 8 = i.endpoint?.getD 0

theorem opWord_low (c p : BitVec 8) : (opWord c p).extractLsb' 0 8 = p := by
  apply BitVec.eq_of_toNat_eq
  have := p.isLt
  rw [BitVec.extractLsb'_toNat, opWord_toNat]
  simp
  omega

theorem opWord_high (c p : BitVec 8) : opWord c p &&& 0xFF00 = opWord c 0 := by
  have h : (0xFF00 : OpWord) = (0xFF : BitVec 8) ++ (0 : BitVec 8) := by decide
  have hc : c &&& 0xFF = c := by simpa using BitVec.and_allOnes (x := c)
  rw [h]
  unfold opWord
  rw [BitVec.and_append, hc]
  simp

theorem enable (p : EpField) : Statement (.enable p) := ⟨opWord_high _ p, opWord_low _ p⟩

theorem disable (p : EpField) : Statement (.disable p) := ⟨opWord_high _ p, opWord_low _ p⟩

theorem queue (p : EpField) : Statement (.queue p) := ⟨opWord_high _ p, opWord_low _ p⟩

theorem dequeue (p : EpField) : Statement (.dequeue p) := ⟨opWord_high _ p, opWord_low _ p⟩

theorem setHalt (p : EpField) : Statement (.setHalt p) := ⟨opWord_high _ p, opWord_low _ p⟩

theorem allocRequest : Statement .allocRequest := ⟨rfl, rfl⟩

theorem freeRequest : Statement .freeRequest := ⟨rfl, rfl⟩

theorem evXferComplete (p : EpField) : Statement (.evXferComplete p) := ⟨opWord_high _ p, opWord_low _ p⟩

theorem evXferNotReady (p : EpField) : Statement (.evXferNotReady p) := ⟨opWord_high _ p, opWord_low _ p⟩

theorem evEpCmdComplete (p : EpField) : Statement (.evEpCmdComplete p) := ⟨opWord_high _ p, opWord_low _ p⟩

theorem evEpOther (p : EpField) : Statement (.evEpOther p) := ⟨opWord_high _ p, opWord_low _ p⟩

theorem evUsbReset : Statement .evUsbReset := ⟨rfl, rfl⟩

theorem evConnectDone : Statement .evConnectDone := ⟨rfl, rfl⟩

theorem evLinkState : Statement .evLinkState := ⟨rfl, rfl⟩

theorem evDisconnect : Statement .evDisconnect := ⟨rfl, rfl⟩

theorem evOther : Statement .evOther := ⟨rfl, rfl⟩

theorem init : Statement .init := ⟨rfl, rfl⟩

theorem teardown : Statement .teardown := ⟨rfl, rfl⟩

theorem interrupt : Statement .interrupt := ⟨rfl, rfl⟩

theorem cmdStartNewConfig (p : EpField) : Statement (.cmdStartNewConfig p) := ⟨opWord_high _ p, opWord_low _ p⟩

theorem cmdSetEpConfig (p : EpField) : Statement (.cmdSetEpConfig p) := ⟨opWord_high _ p, opWord_low _ p⟩

theorem cmdSetXferResource (p : EpField) : Statement (.cmdSetXferResource p) := ⟨opWord_high _ p, opWord_low _ p⟩

theorem cmdStartTransfer (p : EpField) : Statement (.cmdStartTransfer p) := ⟨opWord_high _ p, opWord_low _ p⟩

theorem cmdEndTransfer (p : EpField) : Statement (.cmdEndTransfer p) := ⟨opWord_high _ p, opWord_low _ p⟩

theorem cmdSetStall (p : EpField) : Statement (.cmdSetStall p) := ⟨opWord_high _ p, opWord_low _ p⟩

theorem cmdClearStall (p : EpField) : Statement (.cmdClearStall p) := ⟨opWord_high _ p, opWord_low _ p⟩

theorem upSetup : Statement .upSetup := ⟨rfl, rfl⟩

theorem upDisconnect : Statement .upDisconnect := ⟨rfl, rfl⟩

theorem upSuspend : Statement .upSuspend := ⟨rfl, rfl⟩

theorem upResume : Statement .upResume := ⟨rfl, rfl⟩

theorem upCompleteCb : Statement .upCompleteCb := ⟨rfl, rfl⟩

theorem procStartTransfer (p : EpField) : Statement (.procStartTransfer p) := ⟨opWord_high _ p, opWord_low _ p⟩

theorem procIssue (p : EpField) : Statement (.procIssue p) := ⟨opWord_high _ p, opWord_low _ p⟩

theorem procActivate (p : EpField) : Statement (.procActivate p) := ⟨opWord_high _ p, opWord_low _ p⟩

theorem procDeactivate (p : EpField) : Statement (.procDeactivate p) := ⟨opWord_high _ p, opWord_low _ p⟩

theorem procComplete (p : EpField) : Statement (.procComplete p) := ⟨opWord_high _ p, opWord_low _ p⟩

theorem procKillAll (p : EpField) : Statement (.procKillAll p) := ⟨opWord_high _ p, opWord_low _ p⟩

theorem procProcessControl : Statement .procProcessControl := ⟨rfl, rfl⟩

theorem procDrainDeferred (p : EpField) : Statement (.procDrainDeferred p) := ⟨opWord_high _ p, opWord_low _ p⟩

theorem procEp0Advance (p : EpField) : Statement (.procEp0Advance p) := ⟨opWord_high _ p, opWord_low _ p⟩

theorem procEp0Stall : Statement .procEp0Stall := ⟨rfl, rfl⟩

end Sys2Proof.Laws.WordShape
end

