-- ==== Sys2Proof/Laws/Window.lean ====
section
/-! SUPPORT. The register window as bytes (R38, R70): what a byte of a register reads as, and a run of bytes as a little-endian
value. -/

namespace Sys2Proof.Machine

variable {s : State}

/-- A byte of a register that no other readable register covers is that byte of its word, the least significant first (R70). -/
theorem windowByte_register {r : RegName} {w i : Nat} (hr : r ∈ readableRegs s.cfg.numPhysEp) (hi : i < regBytes s.cfg r)
    (halone : ∀ q ∈ readableRegs s.cfg.numPhysEp, inRegister s.cfg (regAddress s.cfg.regMap r + i) q = true → q = r)
    (hw : s.regWord r = some w) :
    s.windowByte (regAddress s.cfg.regMap r + i) = some (BitVec.ofNat 8 (w / 256 ^ i)) := by
  have hin : inRegister s.cfg (regAddress s.cfg.regMap r + i) r = true := by simp [inRegister, hi]
  unfold State.windowByte
  cases e : (readableRegs s.cfg.numPhysEp).find? (inRegister s.cfg (regAddress s.cfg.regMap r + i)) with
  | none => simp [List.find?_eq_none.mp e r hr] at hin
  | some q =>
    obtain rfl := halone q (List.mem_of_find?_eq_some e) (List.find?_some e)
    simp [hw]

/-- An address at which no readable register lies has no byte. -/
theorem windowByte_none {a : Nat} (h : ∀ r ∈ readableRegs s.cfg.numPhysEp, inRegister s.cfg a r = false) :
    s.windowByte a = none := by
  have : (readableRegs s.cfg.numPhysEp).find? (inRegister s.cfg a) = none := by
    simpa [List.find?_eq_none] using h
  simp [State.windowByte, this]

/-- A run of bytes that are those of a value, the least significant first, is its little-endian bytes (R70). -/
theorem windowBytes_toBytes {a n v : Nat} (h : ∀ i, i < n → s.windowByte (a + i) = some (BitVec.ofNat 8 (v / 256 ^ i))) :
    s.windowBytes a n = some (toBytes n v) := by
  induction n generalizing a v with
  | zero => rfl
  | succ n ih =>
    have h0 := h 0 (by omega)
    have hs : s.windowBytes (a + 1) n = some (toBytes n (v / 256)) := ih fun i hi => by
      have := h (i + 1) (by omega)
      rwa [Nat.pow_succ, Nat.mul_comm, ← Nat.div_div_eq_div_mul, Nat.add_comm i 1, ← Nat.add_assoc] at this
    simp only [Nat.add_zero, pow_zero, Nat.div_one] at h0
    simp [State.windowBytes, h0, hs, toBytes]

end Sys2Proof.Machine
end

