-- ==== Sys2Proof/Tests/Slice0.lean ====
section
/-! SUPPORT. The tests of this sitting: well-formedness, the words of the spec's encoding, one step per operation against the
vectors of 95_test_vectors.md, and a witness for every statement that has hypotheses. Expected results are the spec's. -/

namespace Sys2Proof.Tests

open Sys2Proof Sys2Proof.Machine

/-! ## Well-formed terms (R104, R6, R72, R76) -/

theorem test_wf_operation : (Instr.queue 2).wf 8 = true ∧ Instr.init.wf 8 = true := by decide

theorem test_wf_refuses_endpoint : (Instr.queue 8).wf 8 = false ∧ (Instr.procIssue 255).wf 8 = false := by decide

theorem test_wf_default : Config.default.wf = true ∧ Config.default.recordsFit = true := by decide

theorem test_wf_refuses_counts :
    ({ Config.default with numPhysEp := 7 }).wf = false ∧
    ({ Config.default with numPhysEp := 0, tdAddrs := [] }).wf = false ∧
    ({ Config.default with evtBytes := 0 }).wf = false ∧
    ({ Config.default with evtBufBytes := 66 }).wf = false ∧
    ({ Config.default with evtBufBytes := 0 }).wf = false ∧
    ({ Config.default with cmdTimeout := 0 }).wf = false ∧
    ({ Config.default with deferCap := some 0 }).wf = false := by decide

theorem test_wf_refuses_widths :
    ({ Config.default with lenBits := 0 }).wf = false ∧
    ({ Config.default with addrBits := 0 }).wf = false ∧
    ({ Config.default with tdAlign := 12 }).wf = false ∧
    ({ Config.default with tdAlign := 0 }).wf = false := by decide

theorem test_wf_refuses_maxp_table :
    ({ Config.default with maxpTable := { MaxpTable.default with ss := ⟨0, 1024, 1024⟩ } }).wf = false ∧
    ({ Config.default with maxpTable := { MaxpTable.default with hs := ⟨64, 0, 1024⟩ } }).wf = false ∧
    ({ Config.default with maxpTable := { MaxpTable.default with fs := ⟨64, 64, 0⟩ } }).wf = false ∧
    ({ Config.default with maxpTable := { MaxpTable.default with ls := ⟨0, 8, 8⟩ } }).wf = false := by decide

theorem test_wf_refuses_addresses :
    ({ Config.default with tdAddrs := [0x2000] }).wf = false ∧
    ({ Config.default with tdAddrs := [0x2008, 0x2020, 0x2030, 0x2040, 0x2050, 0x2060, 0x2070, 0x2080] }).wf = false ∧
    ({ Config.default with evbufAddr := 0x1002 }).wf = false ∧
    ({ Config.default with setupBuf := 2 ^ 64 - 4 }).wf = false ∧
    ({ Config.default with statusBuf := 0x3007 }).wf = false := by decide

/-- R6, R27: a `TD_LAYOUT` without room for its fields, and a buffer address wider than `ADDR_BITS`. -/
theorem test_wf_refuses_layout :
    ({ Config.default with lenBits := 33 }).wf = false ∧ ({ Config.default with addrBits := 65 }).wf = false ∧
    ({ Config.default with tdLayout := { TdLayout.default with ctlBit := 95 } }).wf = false ∧
    ({ Config.default with tdLayout := { TdLayout.default with remBit := 105, ctlBit := 97 } }).wf = false ∧
    ({ Config.default with zlpBuf := 2 ^ 64 }).wf = false := by decide

/-- R100, log 27: records have room for 32 endpoints and for the device events (link state 15 is the word 0xF0301), in `EVT_BYTES`
bytes; a table that gives USB reset's word another meaning leaves it none. -/
theorem test_records_fit :
    ({ Config.default with numPhysEp := 34 }).recordsFit = false ∧
    ({ Config.default with evtBytes := 3 }).recordsFit = true ∧
    ({ Config.default with evtBytes := 2 }).recordsFit = false ∧
    ({ Config.default with eventTable := [(0x101, .disconnect)] }).recordsFit = false := by decide

/-- R70: the register window by bytes, the least significant first: EVBUF_BASE 0x0102030405060708, its highest byte, the enable bits,
and EPCMD of endpoint 1; the write-only EPPAR0 has none. -/
theorem test_window_bytes :
    let s : State := { State.reset with regs := { State.reset.regs with evbufBase := 0x0102030405060708 } }
    s.windowBytes 0x08 8 = some [8, 7, 6, 5, 4, 3, 2, 1] ∧ s.readWindow 0x0C 4 = some 0x01020304 ∧
    s.readWindow 0x08 8 = some 0x0102030405060708 ∧ (s.setEnable 1 true).windowByte 0x18 = some 2 ∧
    (s.setPort 1 { s.port 1 with cmd := { type := .setStall, active := true, force := false, ioc := false, resIdx := 9 } }).windowBytes
      0x11C 4 = some [5, 4, 9, 0] ∧ s.windowByte 0x100 = none := by decide

/-! ## Words: every operation, its word written out from R90 to R97 as `{cls, code, p}` -/

theorem test_decode_upper_calls :
    decode 0b0001_0000_00000010 = .ok (.enable 2) ∧ decode 0b0001_0001_00000011 = .ok (.disable 3) ∧
    decode 0b0001_0010_00000010 = .ok (.queue 2) ∧ decode 0b0001_0011_00000101 = .ok (.dequeue 5) ∧
    decode 0b0001_0100_00000100 = .ok (.setHalt 4) ∧ decode 0b0001_0101_00000000 = .ok .allocRequest ∧
    decode 0b0001_0110_00000000 = .ok .freeRequest := by decide

theorem test_decode_events :
    decode 0b0010_0000_00000010 = .ok (.evXferComplete 2) ∧ decode 0b0010_0001_00000001 = .ok (.evXferNotReady 1) ∧
    decode 0b0010_0010_00000100 = .ok (.evEpCmdComplete 4) ∧ decode 0b0010_0011_00000111 = .ok (.evEpOther 7) ∧
    decode 0b0010_1000_00000000 = .ok .evUsbReset ∧ decode 0b0010_1001_00000000 = .ok .evConnectDone ∧
    decode 0b0010_1010_00000000 = .ok .evLinkState ∧ decode 0b0010_1011_00000000 = .ok .evDisconnect ∧
    decode 0b0010_1111_00000000 = .ok .evOther := by decide

theorem test_decode_lifecycle :
    decode 0b0011_0000_00000000 = .ok .init ∧ decode 0b0011_0001_00000000 = .ok .teardown ∧
    decode 0b0011_0010_00000000 = .ok .interrupt := by decide

theorem test_decode_commands :
    decode 0b0100_0000_00000000 = .ok (.cmdStartNewConfig 0) ∧ decode 0b0100_0001_00000010 = .ok (.cmdSetEpConfig 2) ∧
    decode 0b0100_0010_00000110 = .ok (.cmdSetXferResource 6) ∧ decode 0b0100_0011_00000001 = .ok (.cmdStartTransfer 1) ∧
    decode 0b0100_0100_00000011 = .ok (.cmdEndTransfer 3) ∧ decode 0b0100_0101_00000100 = .ok (.cmdSetStall 4) ∧
    decode 0b0100_0110_00000101 = .ok (.cmdClearStall 5) := by decide

theorem test_decode_upcalls :
    decode 0b0101_0000_00000000 = .ok .upSetup ∧ decode 0b0101_0001_00000000 = .ok .upDisconnect ∧
    decode 0b0101_0010_00000000 = .ok .upSuspend ∧ decode 0b0101_0011_00000000 = .ok .upResume ∧
    decode 0b0101_0100_00000000 = .ok .upCompleteCb := by decide

theorem test_decode_internal :
    decode 0b0110_0000_00000111 = .ok (.procStartTransfer 7) ∧ decode 0b0110_0001_00000010 = .ok (.procIssue 2) ∧
    decode 0b0110_0010_00000001 = .ok (.procActivate 1) ∧ decode 0b0110_0011_00000010 = .ok (.procDeactivate 2) ∧
    decode 0b0110_0100_00000011 = .ok (.procComplete 3) ∧ decode 0b0110_0101_00000100 = .ok (.procKillAll 4) ∧
    decode 0b0110_0110_00000000 = .ok .procProcessControl ∧ decode 0b0110_0111_00000101 = .ok (.procDrainDeferred 5) ∧
    decode 0b0110_1000_00000000 = .ok (.procEp0Advance 0) ∧ decode 0b0110_1001_00000000 = .ok .procEp0Stall := by decide

/-- R91, R104: class 0, classes 7 and 15, an unlisted code, a low byte where there is no endpoint. -/
theorem test_decode_rejects :
    decode 0x0000 = .error .reservedClass ∧ decode 0x7000 = .error .reservedClass ∧ decode 0xF123 = .error .reservedClass ∧
    decode 0x1700 = .error .unlistedCode ∧ decode 0x2400 = .error .unlistedCode ∧ decode 0x3300 = .error .unlistedCode ∧
    decode 0x4700 = .error .unlistedCode ∧ decode 0x5500 = .error .unlistedCode ∧ decode 0x6A00 = .error .unlistedCode ∧
    decode 0x3001 = .error .operandNotZero ∧ decode 0x1580 = .error .operandNotZero := by decide

theorem test_table_word : decodeTableWord 16 0x3200 = some .interrupt ∧ decodeTableWord 16 0x0001 = none := by decide

/-- Vectors L2-I1 to L2-I9. -/
theorem test_event_records :
    decodeEvent 0x00000044 = .xferComplete 2 ∧ decodeEvent 0x000000C2 = .xferNotReady 1 ∧
    decodeEvent 0x000001C8 = .epCmdComplete 4 ∧ decodeEvent 0x00000101 = .usbReset ∧
    decodeEvent 0x00000201 = .connectDone ∧ decodeEvent 0x00000001 = .disconnect ∧
    decodeEvent 0x00040301 = .linkState 4 ∧ decodeEvent 0x00010301 = .linkState 1 ∧
    decodeEvent 0x00000080 = .epOther 0 ∧ decodeEvent 0x00000003 = .other ∧
    decodeEvent 0x00000050 = .xferComplete 8 := by decide

/-- R6, R111: a record word the launch gives a meaning of its own, for an endpoint the 5-bit field of R100 cannot hold. -/
theorem test_event_table :
    decodeEventBy [(0x55, .xferComplete 40)] 0x55 = .xferComplete 40 ∧
    decodeEventBy [(0x55, .xferComplete 40)] 0x44 = .xferComplete 2 ∧
    encodeEventBy [(0x55, .xferComplete 40)] (.xferComplete 40) = 0x55 ∧ encodeEventBy [] (.xferComplete 2) = 0x44 := by decide

/-- R101: END_TRANSFER, force, ioc, active, index 9. -/
theorem test_epcmd_word :
    encodeEpCmd RegMap.default { type := .endTransfer, active := true, force := true, ioc := true, resIdx := 9 } = 0x00090704 := by
  decide

/-- Vectors L2-A1 to L2-A9. -/
theorem test_transfer_lengths :
    xferLen .OUT 512 1500 24 = .next 1536 ∧ xferLen .IN 512 1500 24 = .next 1500 ∧ xferLen .OUT 512 512 24 = .next 512 ∧
    xferLen .OUT 512 0 24 = .next 0 ∧ xferLen .OUT 512 1 24 = .next 512 ∧ xferLen .OUT 0 10 24 = .fault .zeroMaxPacket ∧
    xferLen .IN 0 10 24 = .next 10 ∧ xferLen .OUT 1024 16777000 24 = .fault .lengthOverflow ∧
    xferLen .IN 1024 16777215 24 = .next 16777215 := ⟨rfl, rfl, rfl, rfl, rfl, rfl, rfl, rfl, rfl⟩

/-! ## Small states -/

/-- An operation ends in a next state that passes a check. -/
def nextIs (o : Out State) (f : State → Bool) : Bool :=
  match o with
  | .next t => f t
  | .fault _ => false
  | .refused _ => false

def faultIs (o : Out State) (x : Fault) : Bool :=
  match o with
  | .next _ => false
  | .fault f => decide (f = x)
  | .refused _ => false

def refusedIs (o : Out State) (x : Refusal) : Bool :=
  match o with
  | .next _ => false
  | .fault _ => false
  | .refused r => decide (r = x)

/-- Creation with the run bit set and the event ring placed, as INIT leaves them. -/
def run0 : State :=
  { State.reset with
    regs := { State.reset.regs with runStop := true, evbufBase := State.reset.cfg.evbufAddr, evbufSize := 64 } }

abbrev A : ReqRef := .user 1
abbrev B : ReqRef := .user 2
abbrev C : ReqRef := .user 3

/-- A queued upper-layer request of a given length. -/
def queued (len : Nat) : Request :=
  { buf := 0x8000, length := len, callback := .upper, status := .inProgress, actual := 0, mapped := true }

/-- A bulk endpoint of max-packet 512 with a queue and perhaps a transfer, resource index 0. -/
def bulk (q : List ReqRef) (a : Option ReqRef) : Endpoint :=
  { Endpoint.creation with
    type := .bulk, maxp := 512, queue := q, active := a, resIdx := a.map fun _ => 0
    td := { bufAddr := 0x8000, length := 1536, remaining := 1536, owner := true, ctlType := .normal } }

/-- Endpoint `p` set, over the running state with requests A, B and C of 1500, 512 and 64 bytes. -/
def withBulk (p : Nat) (e : Endpoint) : State :=
  { run0.setEp p e with reqs := [(A, queued 1500), (B, queued 512), (C, queued 64)] }

def notReady (e : Endpoint) : Endpoint := { e with notReady := true }

/-- A command the hardware does not answer in time. -/
def late : CmdDraw := { stillActive := 500, idx := 0 }

def answers (idx : Nat) : CmdDraw := { stillActive := 0, idx := idx }

def withCmds (l : List CmdDraw) (s : State) : State := { s with draws := { s.draws with cmds := l } }

/-- The commands written, as type and target. -/
def wrote (s : State) : List (CmdType × Nat) := (commandsOf s.outs).map fun c => (c.type, c.target)

/-- EP0 as INIT leaves it but for what is queued, in a phase, with a setup packet in the setup buffer. -/
def ep0In (ph : Phase) (setup : List Byte) : State :=
  let e : Endpoint := { Endpoint.creation with type := .control, maxp := 512 }
  { ((run0.setEp 0 e).setEp 1 e).setPhase ph with
    reqs := [(.setupRead, { setupReadRequest run0.cfg.setupBuf with actual := 8, status := .success, mapped := false })]
    mem := Memory.setBytes [] run0.cfg.setupBuf setup }

def withArgs (f : Args → Args) (s : State) : State := { s with args := f s.args }

def bulkOut (num maxp : Nat) : DescArg := .record { num := num, dir := .OUT, type := .bulk, maxp := maxp, burst := 0 }

/-! ## One step per operation -/

/-- L2-A16: the TD stands with owner 1, nothing is active, the endpoint is not ready, the hazard is marked. -/
theorem test_start_timeout :
    nextIs (exec (.procStartTransfer 2) (withCmds [late] (withBulk 2 (bulk [A] none)))) (fun t =>
      decide ((t.ep 2).active = none ∧ (t.ep 2).resIdx = none ∧ (t.ep 2).notReady = true ∧ (t.ep 2).queue = [A] ∧
        (t.ep 2).td.length = 1536 ∧ Memory.getBytes t.mem 0x202C 1 = [1] ∧ t.marks = [.lateStart 2])) = true := by
  decide

/-- L2-A17. -/
theorem test_start_index :
    nextIs (exec (.procStartTransfer 2) (withCmds [answers 5] (withBulk 2 (bulk [A] none)))) (fun t =>
      decide ((t.ep 2).active = some A ∧ (t.ep 2).resIdx = some 5 ∧ (t.ep 2).td.owner = true)) = true := by decide

/-- R134, R47(a): a START_TRANSFER that timed out lands with the next line, or with its EV_EP_CMD_COMPLETE; until then the transfer
does not run. -/
theorem test_late_start_lands :
    nextIs (exec (.procStartTransfer 2) (withCmds [{ late with idx := 7 }] (withBulk 2 (bulk [A] none)))) (fun t =>
      decide ((t.hwEp 2).running = none ∧ (t.port 2).cmd.active = true) &&
      nextIs (loadLine { bareLine 0x3200 with lands := [2] } t) (fun u =>
        decide ((u.hwEp 2).running = some { idx := 7, td := some 0x2020 } ∧ (u.hwEp 2).late = none ∧
          (u.port 2).cmd.active = false ∧ (u.port 2).cmd.resIdx = 7 ∧ (u.ep 2).active = none)) &&
      nextIs (exec (.evEpCmdComplete 2) t) (fun u =>
        decide ((u.hwEp 2).late = none ∧ (u.ep 2).active = some A ∧ (u.ep 2).resIdx = some 0))) = true := by decide

/-- R304: so is the START_TRANSFER word's own, and one that issue is given. -/
theorem test_late_start_marked :
    nextIs (exec (.cmdStartTransfer 2) (withCmds [late] run0)) (fun t => decide (t.marks = [.lateStart 2])) = true ∧
    nextIs (exec (.procIssue 2) (withArgs (fun a => { a with cmd := startTransferCmd 2 0x2020 }) (withCmds [late] run0)))
      (fun t => decide (t.marks = [.lateStart 2])) = true := by decide

/-- R136: the hardware owns the TD at the address START_TRANSFER carried, so endpoint 2's own TD, still owned, is not written back. -/
theorem test_running_td :
    nextIs (exec (.procIssue 2) (withArgs (fun a => { a with cmd := startTransferCmd 2 0x8000 }) (withBulk 2 (bulk [A] (some A)))))
      (fun t => decide ((t.hwEp 2).running = some { idx := 0, td := some 0x8000 }) &&
        faultIs (exec (.evXferComplete 2) { t with mem := Memory.setBytes [] 0x202C [1] }) .descriptorStillOwned) = true := by
  decide

/-- L2-B2: the command is dropped, the endpoint not ready. -/
theorem test_issue_timeout :
    nextIs (exec (.procIssue 4) (withArgs (fun a => { a with cmd := Command.plain 4 .setStall })
      (withCmds [late] (withBulk 4 (bulk [] none))))) (fun t =>
      decide ((t.ep 4).notReady = true ∧ (t.ep 4).deferred = [] ∧
        t.outs.getLast? = some (.returned (.cmd .timeout)))) = true := by decide

/-- L2-B4. -/
theorem test_issue_overflow :
    faultIs (exec (.procIssue 4) { withBulk 4 { notReady (bulk [] none) with deferred := [Command.plain 4 .setStall] } with
      cfg := { Config.default with deferCap := some 1 } }) .deferOverflow = true := by decide

/-- L2-B1: the command word stands in `EPCMD[4]` with `active` cleared. -/
theorem test_set_stall :
    nextIs (exec (.cmdSetStall 4) (withBulk 4 (bulk [] none))) (fun t =>
      decide (wrote t = [(.setStall, 4)] ∧ (t.port 4).cmd.type = .setStall ∧ (t.port 4).cmd.active = false)) = true := by
  decide

/-- L2-B3 for CLEAR_STALL. -/
theorem test_clear_stall_deferred :
    nextIs (exec (.cmdClearStall 4) (withBulk 4 (notReady (bulk [] none)))) (fun t =>
      decide ((t.ep 4).deferred = [Command.plain 4 .clearStall] ∧ wrote t = [] ∧ t.regs = run0.regs)) = true := by
  decide

/-- R95, R152. -/
theorem test_start_new_config :
    nextIs (exec (.cmdStartNewConfig 0) run0) (fun t => decide (wrote t = [(.startNewConfig, 0)] ∧ t.hw.configs = 1)) = true := by
  decide

/-- L2-D5: an IN endpoint's FIFO number is its logical number. -/
theorem test_set_ep_config :
    nextIs (exec (.cmdSetEpConfig 3) (withBulk 3 { bulk [] none with type := .interrupt, maxp := 64 })) (fun t =>
      decide ((t.port 3).par0 = .epConfig .interrupt 64 ∧ (t.port 3).par1 = .burstFifo 0 1)) = true := by decide

/-- R154: one slot. -/
theorem test_set_xfer_resource :
    nextIs (exec (.cmdSetXferResource 2) run0) (fun t => decide ((t.port 2).par0 = .word 1)) = true := by decide

/-- R95, R123: the TD address, low word in par1. -/
theorem test_cmd_start_transfer :
    nextIs (exec (.cmdStartTransfer 2) (withCmds [answers 3] run0)) (fun t =>
      decide ((t.port 2).par1 = .word 0x2020 ∧ (t.port 2).cmd.resIdx = 3 ∧ t.eps = run0.eps)) = true := by decide

/-- R158: force, ioc and the index; the endpoint is not ready. -/
theorem test_end_transfer :
    nextIs (exec (.cmdEndTransfer 2) (withBulk 2 { bulk [A] (some A) with resIdx := some 9 })) (fun t =>
      decide (commandsOf t.outs = [endCommand 2 9] ∧ (t.ep 2).notReady = true ∧ (t.ep 2).active = some A)) = true := by
  decide

/-- L2-C4. -/
theorem test_drain_stops_at_end_transfer :
    nextIs (exec (.procDrainDeferred 2) (withBulk 2 { notReady (bulk [] none) with
      deferred := [endCommand 2 0, setEpConfigCmd 2 (bulk [] none)] })) (fun t =>
      decide (commandsOf t.outs = [endCommand 2 0] ∧ (t.ep 2).notReady = true ∧ (t.ep 2).deferred.length = 1)) = true := by
  decide

/-- L2-C2: the first command times out; the second waits; nothing starts. -/
theorem test_cmd_complete_timeout :
    nextIs (exec (.evEpCmdComplete 2) (withCmds [late] (withBulk 2 { notReady (bulk [A] none) with
      deferred := [setEpConfigCmd 2 (bulk [] none), setXferResourceCmd 2] }))) (fun t =>
      decide (wrote t = [(.setEpConfig, 2)] ∧ (t.ep 2).deferred = [setXferResourceCmd 2] ∧ (t.ep 2).notReady = true ∧
        (t.ep 2).active = none)) = true := by decide

/-- L2-C5. -/
theorem test_cmd_complete_starts :
    nextIs (exec (.evEpCmdComplete 2) (withBulk 2 (notReady (bulk [A] none)))) (fun t =>
      decide ((t.ep 2).notReady = false ∧ (t.ep 2).active = some A ∧ wrote t = [(.startTransfer, 2)])) = true := by
  decide

/-- L2-D6: the second command times out and the third waits; the enable bit is set whatever happened. -/
theorem test_enable_timeout :
    nextIs (exec (.enable 2) (withArgs (fun a => { a with desc := bulkOut 1 512 }) (withCmds [answers 0, late] run0)))
      (fun t => decide ((t.port 2).enabled = true ∧ (t.ep 2).notReady = true ∧
        (t.ep 2).deferred = [setXferResourceCmd 2] ∧ wrote t = [(.startNewConfig, 0), (.setEpConfig, 2)])) = true := by
  decide

/-- L2-D1, L2-D2, L2-D7. -/
theorem test_enable_errors :
    nextIs (exec (.enable 2) (withArgs (fun a => { a with desc := bulkOut 2 512 }) run0)) (fun t =>
      decide (t.outs = [.returned (.err .mismatchedDescriptor)] ∧ t.eps = run0.eps)) = true ∧
    nextIs (exec (.enable 3) (withArgs (fun a => { a with desc := .usb 0x81 0x01 0x0040 }) run0)) (fun t =>
      decide (t.outs = [.returned (.err .unsupportedEndpointType)] ∧ t.eps = run0.eps)) = true ∧
    refusedIs (exec (.enable 0) run0) .ep0NotForUpperLayer = true := by decide

/-- L2-D3, first call. -/
theorem test_disable :
    nextIs (exec (.disable 2) (withBulk 2 (bulk [A] (some A)))) (fun t =>
      decide (commandsOf t.outs = [endCommand 2 0] ∧ (t.ep 2).notReady = true ∧ (t.port 2).enabled = false ∧
        (t.req A).status = .shutdown ∧ (t.ep 2).queue = [])) = true := by decide

/-- R76: a buffer over TD slot 0 is mapped and marked; one beside the engine's memory is not. -/
theorem test_queue_overlap :
    nextIs (exec (.queue 4) (withArgs (fun a => { a with req := 7, buf := 0x200F, len := 1 }) (run0.setEp 4 (notReady (bulk [] none)))))
      (fun t => decide (t.marks = [.bufferOverlap (.user 7)])) = true ∧
    nextIs (exec (.queue 4) (withArgs (fun a => { a with req := 7, buf := 0x2080, len := 1 }) (run0.setEp 4 (notReady (bulk [] none)))))
      (fun t => decide (t.marks = [])) = true := by decide

/-- L2-E1, and L2-E10. -/
theorem test_queue_fails :
    nextIs (exec (.queue 2) (withArgs (fun a => { a with req := 7, len := 10 })
      { run0 with draws := { Draws.none with maps := [false] } })) (fun t =>
      decide (t.outs = [.returned (.err .bufferMapFailure)] ∧ t.eps = run0.eps ∧ (t.req (.user 7)).status = .inProgress ∧
        (t.req (.user 7)).actual = 0)) = true ∧
    faultIs (exec (.queue 0) (ep0In .setup [])) .ep0BadPhase = true := by decide

/-- P1 line 2. -/
theorem test_queue_starts :
    nextIs (exec (.queue 2) (withArgs (fun a => { a with req := 1, buf := 0x8000, len := 1500 })
      (withCmds [answers 1] (run0.setEp 2 (bulk [] none))))) (fun t =>
      decide ((t.ep 2).active = some A ∧ (t.ep 2).resIdx = some 1 ∧ wrote t = [(.startTransfer, 2)] ∧
        Memory.getBytes t.mem 0x2020 16 = [0, 0x80, 0, 0, 0, 0, 0, 0, 0, 6, 0, 0, 1, 0, 0, 0])) = true := by decide

/-- L1-3: a request behind the active one. -/
theorem test_dequeue_waiting :
    nextIs (exec (.dequeue 2) (withArgs (fun a => { a with req := 2 }) (withBulk 2 (bulk [A, B] (some A))))) (fun t =>
      decide (t.ep 2 = bulk [A] (some A) ∧ (t.req B).status = .connectionReset ∧ wrote t = [] ∧ t.marks = [])) = true := by
  decide

/-- L2-E6: the active one; the next is not started. -/
theorem test_dequeue_active :
    nextIs (exec (.dequeue 2) (withArgs (fun a => { a with req := 1 }) (withBulk 2 (bulk [A, B] (some A))))) (fun t =>
      decide ((t.ep 2).queue = [B] ∧ (t.ep 2).active = none ∧ (t.ep 2).resIdx = none ∧ wrote t = [] ∧
        t.marks = [.bufferReleased 2 A])) = true := by decide

/-- L2-H4. -/
theorem test_set_halt_deferred :
    nextIs (exec (.setHalt 4) (withArgs (fun a => { a with value := true }) (withBulk 4 (notReady (bulk [] none)))))
      (fun t => decide ((t.ep 4).deferred = [Command.plain 4 .setStall] ∧ (t.ep 4).halted = true ∧
        t.outs = [.returned (.int 0)])) = true := by decide

/-- L2-H5. -/
theorem test_set_halt_ep0 :
    nextIs (exec (.setHalt 1) (withArgs (fun a => { a with value := true }) (ep0In .data []))) (fun t =>
      decide (wrote t = [(.setStall, 0), (.startTransfer, 0)] ∧ t.ctl.ep0Phase = .setup ∧ (t.ep 0).active = some .setupRead ∧
        (t.ep 0).halted = false)) = true := by decide

/-- R171. -/
theorem test_free :
    nextIs (exec .freeRequest (withArgs (fun a => { a with req := 1 }) (withBulk 2 (bulk [] none)))) (fun t =>
      decide (findReq t.reqs A = none ∧ findReq t.reqs B = some (queued 512))) = true ∧
    refusedIs (exec .freeRequest (withArgs (fun a => { a with req := 1 }) (withBulk 2 (bulk [A] none)))) .freeOfQueued
      = true := by decide

/-- R170: with requests 1 to 3 in use. -/
theorem test_alloc :
    nextIs (exec .allocRequest (withBulk 2 (bulk [A] none))) (fun t =>
      decide (t.outs = [.returned (.request 4)] ∧ (t.req (.user 4)).status = .inProgress ∧
        (t.req (.user 4)).callback = .unset)) = true := by decide

/-- L2-F3. -/
theorem test_xfer_complete :
    nextIs (exec (.evXferComplete 2) { withBulk 2 (bulk [A] (some A)) with
      draws := { Draws.none with xfers := [{ remaining := some 536, owner := false, data := [] }] } }) (fun t =>
      decide ((t.req A).actual = 1000 ∧ (t.req A).status = .success ∧ (t.ep 2).queue = [] ∧
        t.outs = [.completeCb A .success 1000])) = true := by decide

/-- R110: with no draw the owner bit is written back 0 and the remaining length stays as memory holds it, here 36. -/
theorem test_xfer_complete_default :
    nextIs (exec (.evXferComplete 2) { withBulk 2 (bulk [A] (some A)) with
      mem := Memory.setBytes [] 0x2028 (toBytes 4 36 ++ [1]) }) (fun t =>
      decide ((t.req A).actual = 1500 ∧ Memory.getBytes t.mem 0x2028 5 = [36, 0, 0, 0, 0])) = true := by decide

/-- L2-F5, L2-F6. -/
theorem test_xfer_complete_faults :
    faultIs (exec (.evXferComplete 2) { withBulk 2 (bulk [A] (some A)) with
      draws := { Draws.none with xfers := [{ remaining := some 1537, owner := false, data := [] }] } }) .remainingTooLarge = true ∧
    faultIs (exec (.evXferComplete 2) { withBulk 2 (bulk [A] (some A)) with
      draws := { Draws.none with xfers := [{ remaining := some 0, owner := true, data := [] }] } }) .descriptorStillOwned
      = true := by decide

/-- L2-G11: after a no-data request the status direction is IN. -/
theorem test_not_ready_ignored :
    nextIs (exec (.evXferNotReady 0) (ep0In .waitNrdy [])) (fun t => decide (t = ep0In .waitNrdy [])) = true := by
  decide

/-- P2 record 3. -/
theorem test_not_ready_status :
    nextIs (exec (.evXferNotReady 1) (ep0In .waitNrdy [])) (fun t =>
      decide (t.ctl.ep0Phase = .status2 ∧ (t.ep 1).active = some .zlp ∧ (t.ep 1).td.length = 0 ∧
        (t.ep 1).td.ctlType = .status2 ∧ wrote t = [(.startTransfer, 1)])) = true := by decide

/-- R239, R247: ignored. -/
theorem test_ignored_events :
    nextIs (exec (.evEpOther 2) run0) (fun t => decide (t = run0)) = true ∧
    nextIs (exec .evOther run0) (fun t => decide (t = run0)) = true := by decide

/-- L2-I14. -/
theorem test_usb_reset :
    nextIs (exec .evUsbReset ((withBulk 2 (bulk [A, B] (some A))).setEp 4 { bulk [] none with halted := true })) (fun t =>
      decide ((t.req A).status = .connectionReset ∧ (t.req B).status = .connectionReset ∧ (t.ep 4).halted = false ∧
        t.regs.devAddr = 0 ∧ t.ctl.cfgStarted = false ∧ wrote t = [])) = true := by decide

/-- L2-I15. -/
theorem test_connect_done :
    nextIs (exec .evConnectDone { (ep0In .setup []).setEp 2 { bulk [] none with maxp := 1024 } with
      draws := { Draws.none with speeds := [.HS] } }) (fun t =>
      decide (t.ctl.speed = some .HS ∧ (t.ep 0).maxp = 64 ∧ (t.ep 1).maxp = 64 ∧ (t.ep 2).maxp = 512 ∧
        wrote t = [(.setEpConfig, 0), (.setXferResource, 0), (.setEpConfig, 1), (.setXferResource, 1)] ∧
        t.ctl.connected = true)) = true := by decide

/-- L2-I5, L2-I6. -/
theorem test_link_state :
    nextIs (exec .evLinkState (withArgs (fun a => { a with linkState := 4 }) (run0.setConnected true))) (fun t =>
      decide (t.outs = [.disconnect] ∧ t.ctl.connected = false)) = true ∧
    nextIs (exec .evLinkState (withArgs (fun a => { a with linkState := 1 }) (run0.setConnected true))) (fun t =>
      decide (t.outs = [] ∧ t.ctl.connected = true)) = true := by decide

/-- R246. -/
theorem test_disconnect :
    nextIs (exec .evDisconnect (run0.setConnected true)) (fun t =>
      decide (t.outs = [.disconnect] ∧ t.ctl.connected = false)) = true := by decide

/-- R291: INIT from reset. -/
theorem test_init :
    nextIs (step (State.reset.withFetchWord 16 0x3000)) (fun t =>
      decide ((t.ep 0).active = some .setupRead ∧ (t.ep 0).td.length = 512 ∧ t.ctl.ep0Phase = .setup ∧
        t.epEnable = 3 ∧ t.regs.runStop = true ∧
        wrote t = [(.setEpConfig, 0), (.setXferResource, 0), (.setEpConfig, 1), (.setXferResource, 1), (.startTransfer, 0)]))
      = true := by decide

/-- R293. -/
theorem test_teardown :
    nextIs (exec .teardown (withBulk 2 (bulk [A] (some A)))) (fun t =>
      decide (t.regs.runStop = false ∧ t.epEnable = 0 ∧ t.ctl.ep0Phase = .unconnected ∧ (t.req A).status = .shutdown ∧
        wrote t = [])) = true := by decide

/-- L2-I10: records at 60 and 0 of the ring. -/
theorem test_interrupt_wraps :
    nextIs (exec .interrupt { run0 with
      ctl := { run0.ctl with evtCursor := 60 }, regs := { run0.regs with evbufCount := 8 }
      mem := Memory.setBytes (Memory.setBytes [] 0x103C [3, 0, 0, 0]) 0x1000 [1, 0, 0, 0] }) (fun t =>
      decide (t.ctl.evtCursor = 4 ∧ t.regs.evbufCount = 0 ∧ t.outs = [.disconnect] ∧ t.ctl.dispatching = false))
      = true := by decide

/-- L2-I9, L2-I11, L2-I12, R250. -/
theorem test_interrupt_faults :
    faultIs (exec .interrupt { run0 with regs := { run0.regs with evbufCount := 6 } }) .badEventCount = true ∧
    faultIs (exec .interrupt { run0 with regs := { run0.regs with evbufCount := 68 } }) .badEventCount = true ∧
    faultIs (exec .interrupt { run0 with
      regs := { run0.regs with evbufCount := 4 }, mem := Memory.setBytes [] 0x1000 [0x50, 0, 0, 0] }) .badEventEndpoint = true ∧
    faultIs (exec .interrupt (run0.setDispatching true)) .reentrantDispatch = true := by decide

/-- Endpoint 2's record at the ring's start, one record waiting. -/
def pending1 : State :=
  { run0 with regs := { run0.regs with evbufCount := 4 }, mem := Memory.setBytes [] 0x1000 [0x44, 0, 0, 0] }

/-- R82: a write from outside over a waiting record is refused, one beside it is not; a full ring counts one record more and
overwrites nothing, which R232 faults. -/
theorem test_records_are_kept :
    refusedIs (outsideWrite (0x0FFE, [1, 1, 1]) pending1) .overwritesRecord = true ∧
    nextIs (outsideWrite (0x1004, [7]) pending1) (fun t => decide (Memory.get t.mem 0x1004 = 7)) = true ∧
    nextIs (deliverRecord 3 { pending1 with regs := { pending1.regs with evbufCount := 64 } }) (fun t =>
      decide (t.regs.evbufCount = 68 ∧ t.mem = pending1.mem) && faultIs (exec .interrupt t) .badEventCount) = true := by decide

/-- R209: the packet and the value the upper layer returns. -/
theorem test_up_setup :
    nextIs (exec .upSetup { withArgs (fun a => { a with packet := 0x0012000001000680 }) run0 with
      draws := { Draws.none with setups := [{ ret := -1, calls := [] }] } }) (fun t =>
      decide (t.outs = [.setup 0x0012000001000680 (-1), .returned (.int (-1))])) = true := by decide

/-- R12, R96: bound and not bound. -/
theorem test_up_optional :
    nextIs (exec .upSuspend run0) (fun t => decide (t.outs = [.suspend])) = true ∧
    nextIs (exec .upResume run0) (fun t => decide (t.outs = [.resume])) = true ∧
    nextIs (exec .upDisconnect { run0 with cfg := { run0.cfg with bound := ⟨false, true, true⟩ } }) (fun t =>
      decide (t.outs = [])) = true := by decide

/-- R183: a callback that submits. -/
theorem test_up_complete_cb :
    nextIs (exec .upCompleteCb { withArgs (fun a => { a with ref := A }) (withBulk 2 (bulk [B] (some B))) with
      draws := { Draws.none with cbs := [[.queue 2 3 0x8000 64]] } }) (fun t =>
      decide (t.outs = [.completeCb A .inProgress 0, .returned (.int 0)] ∧ (t.ep 2).queue = [B, C])) = true := by
  decide

/-- L2-D4: the first non-control endpoint begins a new configuration. -/
theorem test_activate :
    nextIs (exec (.procActivate 2) (withBulk 2 (bulk [] none))) (fun t =>
      decide (wrote t = [(.startNewConfig, 0), (.setEpConfig, 2), (.setXferResource, 2)] ∧ t.ctl.cfgStarted = true ∧
        t.epEnable = 4)) = true := by decide

/-- L2-D8. -/
theorem test_deactivate :
    nextIs (exec (.procDeactivate 4) ((withBulk 4 (bulk [] none)).setEnable 4 true)) (fun t =>
      decide (t.epEnable = 0 ∧ t.outs = [])) = true := by decide

/-- L2-E7: the callback's request goes behind B, and B is started. -/
theorem test_complete_callback_order :
    nextIs (exec (.procComplete 2) { withArgs (fun a => { a with ref := A }) (withBulk 2 (bulk [A, B] (some A))) with
      draws := { Draws.none with cbs := [[.queue 2 3 0x8000 64]] } }) (fun t =>
      decide ((t.ep 2).queue = [B, C] ∧ (t.ep 2).active = some B)) = true := by decide

/-- L2-E8: the callback's request is started by its submit, once. -/
theorem test_complete_callback_starts :
    nextIs (exec (.procComplete 2) { withArgs (fun a => { a with ref := A }) (withBulk 2 (bulk [A] (some A))) with
      draws := { Draws.none with cbs := [[.queue 2 3 0x8000 64]] } }) (fun t =>
      decide ((t.ep 2).queue = [C] ∧ (t.ep 2).active = some C ∧ wrote t = [(.startTransfer, 2)])) = true := by decide

/-- L2-E9: a request submitted by a callback of kill_all survives it. -/
theorem test_kill_all :
    nextIs (exec (.procKillAll 2) { withArgs (fun a => { a with result := .shutdown })
        (withBulk 2 (notReady (bulk [A, B, C] none))) with
      draws := { Draws.none with cbs := [[.queue 2 4 0x8000 64]] } }) (fun t =>
      decide ((t.ep 2).queue = [.user 4] ∧
        t.outs = [.completeCb A .shutdown 0, .returned (.int 0), .completeCb B .shutdown 0, .completeCb C .shutdown 0]))
      = true := by decide

/-- L2-G7: the reply bytes and the data stage. -/
theorem test_get_status :
    nextIs (exec .procProcessControl ((ep0In .setup [0x82, 0, 0, 0, 1, 0, 2, 0]).setEp 2 { bulk [] none with halted := true }))
      (fun t => decide (Memory.getBytes t.mem 0x3010 2 = [1, 0] ∧ t.ctl.ep0Phase = .data ∧
        (t.ep 1).active = some .statusReply ∧ (t.ep 1).td.ctlType = .data)) = true := by decide

/-- L2-G2: an address of eight bits stalls. -/
theorem test_set_address_out_of_range :
    nextIs (exec .procProcessControl (ep0In .setup [0, 5, 0x80, 0, 0, 0, 0, 0])) (fun t =>
      decide (wrote t = [(.setStall, 0), (.startTransfer, 0)] ∧ t.ctl.ep0Phase = .setup ∧ t.regs.devAddr = 0)) = true := by
  decide

/-- L2-G10, its second half: the SET_SEL data is kept. -/
theorem test_ep0_advance_set_sel :
    nextIs (exec (.procEp0Advance 0) (withArgs (fun a => { a with ref := .selRead })
      { ep0In .data [] with mem := Memory.setBytes [] 0x3020 [1, 2, 3, 4, 5, 6] })) (fun t =>
      decide (t.ctl.selData = [1, 2, 3, 4, 5, 6] ∧ t.ctl.ep0Phase = .waitNrdy)) = true := by decide

/-- R200: a status stage ends in a new setup read. -/
theorem test_ep0_advance_status :
    nextIs (exec (.procEp0Advance 0) (ep0In .status3 [])) (fun t =>
      decide (t.ctl.ep0Phase = .setup ∧ (t.ep 0).active = some .setupRead ∧ (t.ep 0).td.length = 512)) = true := by
  decide

/-- R214: both EP0 queues are killed. -/
theorem test_ep0_stall :
    nextIs (exec .procEp0Stall { (ep0In .data []).setEp 1 { Endpoint.creation with
        type := .control, maxp := 512, queue := [A], active := some A, resIdx := some 0 } with reqs := [(A, queued 64)] })
      (fun t => decide ((t.req A).status = .connectionReset ∧ (t.ep 1).queue = [] ∧ t.ctl.ep0Phase = .setup ∧
        wrote t = [(.setStall, 0), (.startTransfer, 0)])) = true := by decide

/-- R104, R91: a command word and an internal word are refused at an interface. -/
theorem test_step_refuses :
    refusedIs (step { State.reset with trace := [{ bareLine 0x4502 with port := .external }] }) .notAnInput = true ∧
    refusedIs (step (State.reset.withFetchWord 16 0x7000)) (.illegalWord .reservedClass) = true ∧
    refusedIs (step (State.reset.withFetchWord 16 0x4508)) .illegalEndpoint = true := by decide

/-- P1 line 4: one INTERRUPT with one record completes A and starts B. -/
theorem test_step_interrupt :
    nextIs (step { withBulk 2 (bulk [A, B] (some A)) with
      trace := [evtLine run0.cfg [.xferComplete 2] { Draws.none with xfers := [{ remaining := some 36, owner := false, data := [] }] }] })
      (fun t => decide ((t.req A).actual = 1500 ∧ (t.ep 2).active = some B ∧ t.regs.evbufCount = 0 ∧ t.ctl.evtCursor = 4))
      = true := by decide

/-! ## Witnesses: for every statement with hypotheses, concrete values that meet them together -/

/-- EpInv as a check. -/
def epCheck (cfg : Config) (p : Nat) (e : Endpoint) : Bool :=
  (match e.active with | none => true | some r => decide (e.queue.head? = some r)) &&
  decide (e.resIdx.isSome = e.active.isSome) && (decide (e.deferred = []) || e.notReady) &&
  e.deferred.all (fun c => decide (c.target = p)) &&
  (match cfg.deferCap with | none => true | some n => decide (e.deferred.length ≤ n)) &&
  decide (e.td.length < 2 ^ cfg.lenBits) && (!isEp0 p || !e.halted)

theorem epCheck_sound {cfg : Config} {p : Nat} {e : Endpoint} (h : epCheck cfg p e = true) : EpInv cfg p e := by
  simp only [epCheck, Bool.and_eq_true, decide_eq_true_eq] at h
  obtain ⟨⟨⟨⟨⟨⟨h1, h2⟩, h3⟩, h4⟩, h5⟩, h6⟩, h7⟩ := h
  refine ⟨fun r hr => ?_, h2, fun hd => ?_, fun c hc => ?_, fun n hn => ?_, h6, fun hp => ?_⟩
  · simpa [hr] using h1
  · simpa [hd] using h3
  · exact of_decide_eq_true (List.all_eq_true.mp h4 c hc)
  · simpa [hn] using h5
  · simpa [hp] using h7

/-- State.Inv as a check. -/
def invCheck (s : State) : Bool :=
  s.cfg.wf && decide (s.eps.length = s.cfg.numPhysEp) && decide (s.regs.ports.length = s.cfg.numPhysEp) &&
  decide (s.hw.eps.length = s.cfg.numPhysEp) && (List.range s.cfg.numPhysEp).all (fun p => epCheck s.cfg p (s.ep p)) &&
  decide (s.eps.flatMap fun e => e.queue).Nodup &&
  decide (s.ctl.evtCursor % s.cfg.evtBytes = 0 ∧ s.ctl.evtCursor < s.cfg.evtBufBytes) && Memory.wf s.mem

theorem invCheck_sound {s : State} (h : invCheck s = true) : s.Inv := by
  simp only [invCheck, Bool.and_eq_true, decide_eq_true_eq] at h
  obtain ⟨⟨⟨⟨⟨⟨⟨h1, h2⟩, h3⟩, h4⟩, h5⟩, h6⟩, h7⟩, h8⟩ := h
  exact ⟨h1, ⟨h2, h3, h4⟩, fun p hp => epCheck_sound (List.all_eq_true.mp h5 p (List.mem_range.mpr hp)), h6, h7, h8⟩

/-- Bulk OUT endpoint 2 with A in transfer and B behind it. -/
def live : State := withBulk 2 (bulk [A, B] (some A))

theorem live_inv : live.Inv := invCheck_sound (by decide)

theorem live_shaped : live.Shaped := ⟨rfl, rfl, rfl⟩

/-- Endpoint 4 ready, typed and empty. -/
def ready4 : State := withBulk 4 (bulk [] none)

theorem ready4_shaped : ready4.Shaped := ⟨rfl, rfl, rfl⟩

theorem ready4_cmdOk : ready4.CmdOk := (by decide : (0 : Nat) < 500)

/-- Endpoint 4 ready, its next command not answered in time. -/
def slow4 : State := withCmds [late] ready4

theorem slow4_notOk : ¬ slow4.CmdOk := (by decide : ¬ (500 : Nat) < 500)

/-- Endpoint 4 not ready, with one command waiting. -/
def waiting4 : State := withBulk 4 { notReady (bulk [] none) with deferred := [setXferResourceCmd 4] }

/-- A at the head of endpoint 2's queue, nothing active. -/
def head2 : State := withBulk 2 (bulk [A] none)

theorem witness_EncodeOfDecodeIsTheWord : decode 0x1202 = .ok (.queue 2) := by decide

/-- 0x1700 names no operation, endpoint 8 does not exist, and SET_STALL is no input. -/
theorem witness_IllegalWordsAreRefused :
    ((0x0FFF : OpWord).toNat / 4096 = 0 ∧ 7 ≤ (0x7000 : OpWord).toNat / 4096) ∧
    (∀ i, encode i ≠ 0x1700) ∧
    ((placeWord run0 0x1700).trace = [bareLine 0x1700] ∧ decode 0x1700 = .error .unlistedCode) ∧
    (∃ ln : Line, ln.port = .external ∧ decode ln.word = .ok (.cmdSetStall 2) ∧ Instr.cls (.cmdSetStall 2) = .command ∧
      loadLine ln { run0 with trace := [] } = .next run0) ∧
    ((Instr.queue 8).endpoint? = some 8 ∧ run0.cfg.numPhysEp ≤ (8 : EpField).toNat) ∧
    (decode (bareLine 0x2008).word = .ok (.evXferComplete 8) ∧ (Instr.evXferComplete 8).cls = .event ∧
      loadLine (bareLine 0x2008) { placeWord run0 0x2008 with trace := [] } = .next run0) := by
  refine ⟨by decide, fun i h => ?_, by decide, ⟨{ bareLine 0x4502 with port := .external }, rfl, rfl, rfl, rfl⟩, by decide,
    rfl, rfl, rfl⟩
  have h1 := congrArg BitVec.toNat h
  cases i <;> simp only [encode, opWord_toNat, BitVec.ofNat_eq_ofNat, BitVec.toNat_ofNat] at h1 <;> omega

theorem witness_EventRecordsDecodeAsTabled :
    ((31 : Nat) < 32 ∧ (15 : Nat) < 16) ∧ ((15 : Nat) < 16 ∧ (3 : Nat) < 16 ∧ (4 : Nat) < 16) ∧ ((0 : Nat) < 127 ∧ 127 < 128) ∧
    (∀ x ∈ [(0x55, Event.xferComplete 40)], x.1 ≠ 0x44) := by decide

/-- The default launch with the longest TD, a write-back, and the largest index. -/
theorem witness_DefaultLayoutsAreAsTabled :
    (∃ t : Td, Config.default.tdLayout = TdLayout.default ∧ Config.default.addrBits ≤ 64 ∧ Config.default.lenBits ≤ 32 ∧
      t.bufAddr < 2 ^ Config.default.addrBits ∧ t.length < 2 ^ Config.default.lenBits ∧ t.remaining = t.length ∧
      Config.default.tdLayout.wf Config.default.addrBits Config.default.lenBits = true) ∧
    ((List.replicate 16 (0xFF : Byte)).length = 16 ∧ 2 ^ 24 - 1 < 2 ^ Config.default.lenBits) ∧
    (∃ c : EpCmd, c.resIdx < 128) ∧
    (∀ r ∈ readableRegs run0.cfg.numPhysEp, (∃ w, run0.regWord r = some w ∧ w < 256 ^ regBytes run0.cfg r) ∧
      ∀ q ∈ readableRegs run0.cfg.numPhysEp, q ≠ r →
        regAddress run0.cfg.regMap q + regBytes run0.cfg q ≤ regAddress run0.cfg.regMap r ∨
        regAddress run0.cfg.regMap r + regBytes run0.cfg r ≤ regAddress run0.cfg.regMap q) :=
  ⟨⟨{ (bulk [] none).td with length := 2 ^ 24 - 1, remaining := 2 ^ 24 - 1 }, by decide⟩, by decide,
    ⟨{ type := .endTransfer, active := false, force := true, ioc := true, resIdx := 127 }, by decide⟩, fun r hr =>
    ⟨by fin_cases hr <;> exact ⟨_, rfl, by decide⟩,
      (by decide : ∀ r ∈ readableRegs run0.cfg.numPhysEp, ∀ q ∈ readableRegs run0.cfg.numPhysEp, q ≠ r →
        regAddress run0.cfg.regMap q + regBytes run0.cfg q ≤ regAddress run0.cfg.regMap r ∨
        regAddress run0.cfg.regMap r + regBytes run0.cfg r ≤ regAddress run0.cfg.regMap q) r hr⟩⟩

theorem witness_TransferLengthRule :
    (1500 < 2 ^ 24) ∧ (2 ^ 24 ≤ 16777216) ∧ (0 < 512) := by decide

/-- One line for the engine, one call, one event, and the two cases of an empty trace. -/
theorem witness_StepRunsTheDecodedOperation :
    (∃ ln, (placeWord run0 0x6900).trace = [ln] ∧ decode ln.word = .ok .procEp0Stall ∧ ln.port = .engine ∧
      loadLine ln { run0 with trace := [] } = .next run0) ∧
    (∃ ln, (placeWord run0 0x1202).trace = [ln] ∧ decode ln.word = .ok (.queue 2) ∧ ln.port = .external ∧
      (Instr.queue 2).cls = .upperCall ∧ loadLine ln { run0 with trace := [] } = .next run0) ∧
    (∃ ln u, (placeWord run0 0x2002).trace = [ln] ∧ decode ln.word = .ok (.evXferComplete 2) ∧ ln.port = .external ∧
      loadLine ln { run0 with trace := [] } = .next run0 ∧ (Instr.evXferComplete 2).wf run0.cfg.numPhysEp = true ∧
      (Instr.evXferComplete 2).event? run0.args.linkState = some (.xferComplete 2) ∧
      deliverRecord (encodeEventBy run0.cfg.eventTable (.xferComplete 2)) run0 = .next u) ∧
    (∃ s : State, s.trace = [] ∧ 0 < s.regs.evbufCount ∧ s.regs.runStop = true) ∧
    (run0.trace = [] ∧ run0.regs.evbufCount = 0) :=
  ⟨⟨_, rfl, rfl, rfl, rfl⟩, ⟨_, rfl, rfl, rfl, rfl, rfl⟩, ⟨_, _, rfl, rfl, rfl, rfl, rfl, rfl, rfl⟩,
    ⟨{ run0 with regs := { run0.regs with evbufCount := 4 } }, rfl, by decide, rfl⟩, rfl, rfl⟩

/-- At the ring's last place: one record, and three of eight bytes each. No record at all. -/
theorem witness_OneRecordInterruptRunsItsHandler :
    (let s : State := { live with ctl := { live.ctl with evtCursor := 60 }, regs := { live.regs with evbufCount := 4 } };
      s.ctl.dispatching = false ∧ 0 < s.cfg.evtBytes ∧ s.regs.evbufCount = s.cfg.evtBytes ∧
      s.regs.evbufCount ≤ s.cfg.evtBufBytes ∧
      s.regs.evbufBase + s.ctl.evtCursor + s.cfg.evtBytes ≤ 2 ^ s.cfg.addrBits) ∧
    (let s : State := { live with
       cfg := { live.cfg with evtBytes := 8 }, ctl := { live.ctl with evtCursor := 56 }
       regs := { live.regs with evbufCount := 24 } };
      s.ctl.dispatching = false ∧ 0 < s.cfg.evtBytes ∧ s.regs.evbufCount = (2 + 1) * s.cfg.evtBytes ∧
      s.regs.evbufCount ≤ s.cfg.evtBufBytes ∧
      s.regs.evbufBase + s.ctl.evtCursor + s.cfg.evtBytes ≤ 2 ^ s.cfg.addrBits) ∧
    (run0.ctl.dispatching = false ∧ run0.regs.evbufCount = 0) ∧ (7 : EpField).toNat < live.cfg.numPhysEp := by decide

/-- Two ignored records across the ring's end. -/
theorem witness_IgnoredRecordsAreAcknowledged :
    let s : State := { run0 with
      ctl := { run0.ctl with evtCursor := 60 }, regs := { run0.regs with evbufCount := 8 }
      mem := Memory.setBytes (Memory.setBytes [] 0x103C [3, 0, 0, 0]) 0x1000 [0x8E, 0, 0, 0] }
    s.ctl.dispatching = false ∧ 0 < s.cfg.evtBytes ∧ s.RingPlaced ∧
    s.ctl.evtCursor + s.cfg.evtBytes ≤ s.cfg.evtBufBytes ∧ s.cfg.evtBufBytes % s.cfg.evtBytes = 0 ∧
    s.ctl.evtCursor % s.cfg.evtBytes = 0 ∧ s.regs.evbufCount = 2 * s.cfg.evtBytes ∧ s.regs.evbufCount ≤ s.cfg.evtBufBytes ∧
    decodeEventBy s.cfg.eventTable (ofBytes (Memory.getBytes s.mem 0x103C 4)) = .other ∧
    (7 < s.cfg.numPhysEp ∧ decodeEventBy s.cfg.eventTable (ofBytes (Memory.getBytes s.mem 0x1000 4)) = .epOther 7) :=
  ⟨rfl, by decide, (by decide : 0x1000 + 64 ≤ 2 ^ 64), by decide⟩

theorem witness_DispatchFaultsInOrder :
    (run0.setDispatching true).ctl.dispatching = true ∧
    (run0.ctl.dispatching = false ∧ ({ run0.regs with evbufCount := 6 } : Regs).evbufCount % run0.cfg.evtBytes ≠ 0 ∧
      run0.cfg.evtBufBytes < ({ run0.regs with evbufCount := 68 } : Regs).evbufCount) ∧
    run0.cfg.numPhysEp ≤ 8 := by decide

theorem witness_ResetIsTheCreationState : 7 < Config.default.numPhysEp := by decide

theorem witness_InitLeavesTheInitState :
    State.reset.cfg.wf = true ∧ State.reset.Shaped ∧
    State.reset.eps = List.replicate State.reset.cfg.numPhysEp Endpoint.creation ∧ State.reset.ctl = Controller.creation ∧
    State.reset.regs.evbufCount = 0 ∧ State.reset.regs.runStop = false ∧ (∀ p, (State.reset.port p).enabled = false) ∧
    (∀ p, (State.reset.hwEp p).late = none) ∧ State.reset.CmdsOk 5 ∧
    xferLen .OUT State.reset.cfg.maxpTable.ss.control 8 State.reset.cfg.lenBits = .next 512 := by
  refine ⟨by decide, ⟨rfl, rfl, rfl⟩, rfl, rfl, rfl, rfl, fun p => ?_, fun p => ?_, fun k _ => ?_, rfl⟩
  · simp only [State.port, State.reset, State.creation, Regs.creation, List.getD_eq_getElem?_getD, List.getElem?_replicate]
    split <;> rfl
  · simp only [State.hwEp, State.reset, State.creation, HwEndpoint.creation, List.getD_eq_getElem?_getD, List.getElem?_replicate]
    split <;> rfl
  · exact (by decide : (0 : Nat) < 500)

theorem witness_TeardownClosesTheController : live.Inv ∧ live.NoNested := ⟨live_inv, rfl⟩

theorem witness_ResetMeetsTheInvariant : Config.default.wf = true := by decide

theorem witness_StepKeepsTheInvariant : live.Inv ∧ ∃ t, step live = .next t := ⟨live_inv, _, rfl⟩

theorem witness_ActualNeverExceedsLength : live.ActualBounded ∧ ∃ t, step live = .next t := by
  refine ⟨fun x hx => ?_, _, rfl⟩
  have : x ∈ [(A, queued 1500), (B, queued 512), (C, queued 64)] := hx
  fin_cases this <;> decide

theorem witness_StalledIsTransient :
    (∃ t, exec .procEp0Stall (ep0In .data []) = .next t) ∧ (ep0In .data []).ctl.ep0Phase ≠ .stalled ∧
    ∃ t, step (ep0In .data []) = .next t := ⟨⟨_, rfl⟩, by decide, _, rfl⟩

theorem witness_ControlRegistersHaveTheirWriters :
    (∃ t, step live = .next t) ∧
    ∃ t, exec (.disable 2) live = .next t ∧ Instr.disable 2 ≠ .init ∧ Instr.disable 2 ≠ .teardown ∧
      Instr.disable 2 ∉ [Instr.init, .evUsbReset, .interrupt, .procProcessControl] ∧
      ∀ p, Instr.disable 2 ≠ .evXferComplete p ∧ Instr.disable 2 ≠ .procComplete p ∧ Instr.disable 2 ≠ .procKillAll p ∧
        Instr.disable 2 ≠ .procEp0Advance p :=
  ⟨⟨_, rfl⟩, _, rfl, by decide, by decide, by decide, fun p => by simp⟩

/-- The last byte of a waiting record, a write behind it and one more record. -/
theorem witness_DispatcherStateIsTheDispatchersAlone :
    ((live.ctl.dispatching = false ∧ ∃ t, step live = .next t) ∧
      ∃ t, exec (.queue 2) head2 = .next t ∧ Instr.queue 2 ≠ .interrupt ∧ Instr.queue 2 ≠ .init) ∧
    ((∃ t, loadLine { bareLine 0x3200 with dma := [(0x1004, [7])], records := [3] } pending1 = .next t) ∧
      0 < pending1.cfg.evtBytes ∧ pending1.cfg.evtBufBytes % pending1.cfg.evtBytes = 0 ∧
      pending1.ctl.evtCursor % pending1.cfg.evtBytes = 0 ∧ pending1.ctl.evtCursor < pending1.cfg.evtBufBytes ∧
      pending1.regs.evbufCount % pending1.cfg.evtBytes = 0 ∧ pending1.pendingByte 0x1003 = true) :=
  ⟨⟨⟨rfl, _, rfl⟩, _, rfl, by decide, by decide⟩, ⟨_, rfl⟩, by decide⟩

theorem witness_ReadyCommandIsWrittenAndDone :
    tableCommand ready4 (.cmdSetStall 4) = some (Command.plain 4 .setStall) ∧ 4 < ready4.cfg.numPhysEp ∧ ready4.Shaped ∧
    (ready4.ep 4).notReady = false ∧ ready4.CmdOk := ⟨rfl, by decide, ready4_shaped, rfl, ready4_cmdOk⟩

theorem witness_TimedOutCommandMarksNotReady :
    tableCommand slow4 (.cmdSetStall 4) = some (Command.plain 4 .setStall) ∧ 4 < slow4.cfg.numPhysEp ∧ slow4.Shaped ∧
    (slow4.ep 4).notReady = false ∧ ¬ slow4.CmdOk := ⟨rfl, by decide, ⟨rfl, rfl, rfl⟩, rfl, slow4_notOk⟩

theorem witness_NotReadyDefersCommands :
    tableCommand waiting4 (.cmdSetStall 4) = some (Command.plain 4 .setStall) ∧ 4 < waiting4.cfg.numPhysEp ∧
    (waiting4.ep 4).notReady = true := by decide

/-- A START_TRANSFER with index 5 still executing on endpoint 4. -/
def outstanding4 : State := leaveLate (startTransferCmd 4 0x2040) 5 ready4

/-- One command of each kind that R136 gives an effect; issue of one, answered and not; nothing outstanding, and something. -/
theorem witness_HardwareCommandEffects :
    ready4.Shaped ∧ ready4.CmdOk ∧ 4 < ready4.cfg.numPhysEp ∧ (ready4.ep 4).notReady = false ∧
    ((tableCommand ready4 (.cmdStartNewConfig 4)).map fun c => (c.target, c.type)) = some (4, .startNewConfig) ∧
    ((tableCommand ready4 (.cmdSetEpConfig 4)).map fun c => (c.target, c.type)) = some (4, .setEpConfig) ∧
    ((tableCommand ready4 (.cmdSetXferResource 4)).map fun c => (c.target, c.type)) = some (4, .setXferResource) ∧
    ((tableCommand ready4 (.cmdStartTransfer 4)).map fun c => (c.target, c.type)) = some (4, .startTransfer) ∧
    ((tableCommand ready4 (.cmdSetStall 4)).map fun c => (c.target, c.type)) = some (4, .setStall) ∧
    ((tableCommand ready4 (.cmdClearStall 4)).map fun c => (c.target, c.type)) = some (4, .clearStall) ∧
    (∃ t, exec (.cmdSetEpConfig 4) ready4 = .next t) ∧
    (live.Shaped ∧ live.CmdOk ∧ (live.ep 2).resIdx = some 0 ∧ (live.ep 2).notReady = false ∧
      ∃ t, exec (.cmdEndTransfer 2) live = .next t) ∧
    ((∃ t, exec (.procIssue 4) ready4 = .next t) ∧ ¬ slow4.CmdOk ∧ slow4.Shaped ∧ ∃ t, exec (.procIssue 4) slow4 = .next t) ∧
    ((ready4.hwEp 4).late = none ∧ outstanding4.Shaped ∧
      (outstanding4.hwEp 4).late = some { cmd := startTransferCmd 4 0x2040, idx := 5 }) :=
  ⟨ready4_shaped, ready4_cmdOk, by decide, rfl, rfl, rfl, rfl, rfl, rfl, rfl, ⟨_, rfl⟩, ⟨live_shaped,
    (by decide : (0 : Nat) < 500), rfl, rfl, _, rfl⟩, ⟨⟨_, rfl⟩, slow4_notOk, ⟨rfl, rfl, rfl⟩, _, rfl⟩, rfl, ⟨rfl, rfl, rfl⟩, rfl⟩

theorem witness_EndTransferAndDeactivate :
    (2 < live.cfg.numPhysEp ∧ live.Shaped ∧ (live.ep 2).resIdx = some 0 ∧ (live.ep 2).notReady = false ∧ live.CmdOk) ∧
    (ready4.Shaped ∧ (ready4.ep 4).resIdx = none) ∧
    (let s := withCmds [late] live; s.Shaped ∧ (s.ep 2).resIdx = some 0 ∧ (s.ep 2).notReady = false ∧ ¬ s.CmdOk) ∧
    ∃ s : State, s.Shaped ∧ (s.ep 2).resIdx = some 0 ∧ (s.ep 2).notReady = true ∧
      s.cfg.deferCap ≠ some (s.ep 2).deferred.length :=
  ⟨⟨by decide, live_shaped, rfl, rfl, (by decide : (0 : Nat) < 500)⟩, ⟨ready4_shaped, rfl⟩,
    ⟨live_shaped, rfl, rfl, (by decide : ¬ (500 : Nat) < 500)⟩,
    withBulk 2 (notReady (bulk [A] (some A))), ⟨rfl, rfl, rfl⟩, rfl, rfl, by decide⟩

theorem witness_IssueReturnsItsResult :
    (4 < ready4.cfg.numPhysEp ∧ ready4.Shaped ∧ (ready4.ep 4).notReady = false ∧ ready4.CmdOk) ∧
    (slow4.Shaped ∧ (slow4.ep 4).notReady = false ∧ ¬ slow4.CmdOk) ∧
    (waiting4.Shaped ∧ (waiting4.ep 4).notReady = true ∧ waiting4.cfg.deferCap ≠ some (waiting4.ep 4).deferred.length) ∧
    (let s : State := { waiting4 with cfg := { waiting4.cfg with deferCap := some 1 } };
      s.Shaped ∧ (s.ep 4).notReady = true ∧ s.cfg.deferCap = some (s.ep 4).deferred.length) :=
  ⟨⟨by decide, ready4_shaped, rfl, ready4_cmdOk⟩, ⟨⟨rfl, rfl, rfl⟩, rfl, slow4_notOk⟩, ⟨⟨rfl, rfl, rfl⟩, rfl, by decide⟩,
    ⟨rfl, rfl, rfl⟩, rfl, rfl⟩

/-- A FIFO the drain empties, one it leaves at an END_TRANSFER, and one it leaves at a timeout. -/
theorem witness_DrainIssuesInOrder :
    ∀ s ∈ [waiting4, withBulk 4 { notReady (bulk [] none) with deferred := [endCommand 4 0, setXferResourceCmd 4] },
        withCmds [late] (withBulk 4 { notReady (bulk [] none) with deferred := [setXferResourceCmd 4, setXferResourceCmd 4] })],
      4 < s.cfg.numPhysEp ∧ s.Shaped ∧ ∀ c ∈ (s.ep 4).deferred, c.target = 4 := by
  intro s hs
  fin_cases hs <;> exact ⟨by decide, ⟨rfl, rfl, rfl⟩, by decide⟩

/-- An empty FIFO, and one command waiting with nothing queued and with A queued (L2-C1). -/
theorem witness_CommandCompleteRestartsTheQueue :
    (2 < live.cfg.numPhysEp ∧ (live.ep 2).deferred = [] ∧ (live.ep 2).active ≠ none) ∧
    (2 < head2.cfg.numPhysEp ∧ (head2.ep 2).deferred = [] ∧ (head2.ep 2).active = none ∧ (head2.ep 2).queue ≠ []) ∧
    (4 < waiting4.cfg.numPhysEp ∧ waiting4.Shaped ∧
      (∀ c ∈ (waiting4.ep 4).deferred, c.target = 4 ∧ c.type ≠ .endTransfer) ∧
      waiting4.CmdsOk (waiting4.ep 4).deferred.length ∧ (waiting4.ep 4).queue = []) ∧
    (let s := withBulk 4 { notReady (bulk [A] none) with deferred := [setXferResourceCmd 4] };
      s.Shaped ∧ (∀ c ∈ (s.ep 4).deferred, c.target = 4 ∧ c.type ≠ .endTransfer) ∧ s.CmdsOk (s.ep 4).deferred.length ∧
      (s.ep 4).active = none ∧ (s.ep 4).queue ≠ []) :=
  ⟨by decide, by decide, ⟨by decide, ⟨rfl, rfl, rfl⟩, by decide, fun _ _ => (by decide : (0 : Nat) < 500), rfl⟩,
    ⟨rfl, rfl, rfl⟩, by decide, fun _ _ => (by decide : (0 : Nat) < 500), rfl, by decide⟩

theorem witness_NotReadyEndpointGetsNoCommand :
    (∃ t, exec (.setHalt 4) waiting4 = .next t) ∧ Instr.setHalt 4 ≠ .interrupt ∧
    (∀ p, Instr.setHalt 4 ≠ .evEpCmdComplete p ∧ Instr.setHalt 4 ≠ .procDrainDeferred p) ∧ (waiting4.ep 4).notReady = true :=
  ⟨⟨_, rfl⟩, by decide, fun p => by simp, rfl⟩

theorem witness_StartTransferGuardsAndFaults :
    ((live.ep 2).active ≠ none ∧ (waiting4.ep 4).notReady = true ∧ (ready4.ep 4).queue = [] ∧
      ((withBulk 2 { bulk [A] none with halted := true }).ep 2).halted = true) ∧
    (head2.CanStart 2 ∧ (head2.ep 2).queue = [A]) ∧
    (∃ s : State, s.CanStart 2 ∧ (s.ep 2).queue = [A] ∧
      xferLen .OUT (s.ep 2).maxp (s.req A).length s.cfg.lenBits = .fault .zeroMaxPacket) ∧
    (∃ s : State, s.CanStart 0 ∧ (s.ep 0).queue = [A] ∧ s.ctl.ep0Phase = .waitNrdy ∧
      xferLen .OUT (s.ep 0).maxp (s.req A).length s.cfg.lenBits = .next 512) ∧
    (∃ s : State, s.CanStart 2 ∧ (s.ep 2).queue = [A] ∧ s.tdAddr 2 % s.cfg.tdAlign ≠ 0 ∧
      xferLen .OUT (s.ep 2).maxp (s.req A).length s.cfg.lenBits = .next 1536) :=
  ⟨by decide, ⟨⟨rfl, rfl, rfl⟩, rfl⟩,
    ⟨withBulk 2 { bulk [A] none with maxp := 0 }, ⟨rfl, rfl, rfl⟩, rfl, rfl⟩,
    ⟨{ (ep0In .waitNrdy []).setEp 0 (bulk [A] none) with reqs := [(A, queued 64)] }, ⟨rfl, rfl, rfl⟩, rfl, rfl, rfl⟩,
    ⟨{ head2 with cfg := { head2.cfg with tdAlign := 64 } }, ⟨rfl, rfl, rfl⟩, rfl, by decide, rfl⟩⟩

/-- The head of a bulk endpoint, and the setup read of EP0 in SETUP. -/
theorem witness_StartTransferStartsTheHead :
    (2 < head2.cfg.numPhysEp ∧ head2.Shaped ∧ Memory.wf head2.mem = true ∧ head2.CanStart 2 ∧ (head2.ep 2).queue = [A] ∧
      head2.TdPlaced 2 ∧ head2.CmdOk ∧ xferLen .OUT (head2.ep 2).maxp (head2.req A).length head2.cfg.lenBits = .next 1536) ∧
    (∃ s : State, s.Shaped ∧ Memory.wf s.mem = true ∧ s.CanStart 0 ∧ (s.ep 0).queue = [.setupRead] ∧ s.TdPlaced 0 ∧ s.CmdOk ∧
      xferLen .OUT (s.ep 0).maxp (s.req .setupRead).length s.cfg.lenBits = .next 512 ∧
      (s.ctl.ep0Phase, CtlType.setup) ∈ ep0CtlTypes) :=
  ⟨⟨by decide, ⟨rfl, rfl, rfl⟩, rfl, ⟨rfl, rfl, rfl⟩, rfl, (by decide : 0x2020 % 16 = 0 ∧ 0x2020 + 16 ≤ 2 ^ 64),
      (by decide : (0 : Nat) < 500), rfl⟩,
    ⟨(ep0In .setup []).setEp 0 (bulk [.setupRead] none), ⟨rfl, rfl, rfl⟩, rfl, ⟨rfl, rfl, rfl⟩, rfl,
      (by decide : 0x2000 % 16 = 0 ∧ 0x2000 + 16 ≤ 2 ^ 64), (by decide : (0 : Nat) < 500), rfl, by decide⟩⟩

theorem witness_StartTransferTimeoutKeepsTheRequest :
    let s := withCmds [late] head2
    2 < s.cfg.numPhysEp ∧ s.Shaped ∧ Memory.wf s.mem = true ∧ s.CanStart 2 ∧ (s.ep 2).queue = [A] ∧ s.TdPlaced 2 ∧
    ¬ s.CmdOk ∧ xferLen .OUT (s.ep 2).maxp (s.req A).length s.cfg.lenBits = .next 1536 :=
  ⟨by decide, ⟨rfl, rfl, rfl⟩, rfl, ⟨rfl, rfl, rfl⟩, rfl, (by decide : 0x2020 % 16 = 0 ∧ 0x2020 + 16 ≤ 2 ^ 64),
    (by decide : ¬ (500 : Nat) < 500), rfl⟩

theorem witness_EnableChecksInOrder :
    (run0.regs.runStop = true ∧ (1 : EpField).toNat < run0.cfg.numPhysEp ∧ (1 : EpField).toNat < 2) ∧
    ((descOfArg (bulkOut 2 512)).num ≠ 2 / 2) ∧
    ((descOfArg (.usb 0x81 0x01 0x40)).num = 3 / 2 ∧ (descOfArg (.usb 0x81 0x01 0x40)).dir = .IN ∧
      (descOfArg (.usb 0x81 0x01 0x40)).type = .isochronous) := by decide

/-- ENABLE 2 bulk OUT, with a configuration still to begin and with one begun. -/
theorem witness_EnableActivatesTheEndpoint :
    let s := withArgs (fun a => { a with desc := bulkOut 1 512 }) run0
    let d := descOfArg s.args.desc
    2 < s.cfg.numPhysEp ∧ s.Shaped ∧ s.regs.runStop = true ∧ d.num = 2 / 2 ∧ d.dir = .OUT ∧ d.type = .bulk ∧
    (s.ep 0).notReady = false ∧ (s.ep 2).notReady = false ∧ s.CmdsOk 3 ∧ s.ctl.cfgStarted = false ∧
    (s.setCfgStarted true).ctl.cfgStarted = true :=
  ⟨by decide, ⟨rfl, rfl, rfl⟩, rfl, rfl, rfl, rfl, rfl, rfl, fun _ _ => (by decide : (0 : Nat) < 500), rfl, rfl⟩

theorem witness_ActivateAlwaysSetsTheEnableBit :
    ((withCmds [late] run0).Shaped ∧ ∃ t, exec (.procActivate 1) (withCmds [late] run0) = .next t) ∧
    (2 < live.cfg.numPhysEp ∧ (live.ep 0).notReady = false ∧ (live.ep 2).notReady = false ∧ live.CmdsOk 3) :=
  ⟨⟨⟨rfl, rfl, rfl⟩, _, rfl⟩, by decide, rfl, rfl, fun _ _ => (by decide : (0 : Nat) < 500)⟩

theorem witness_DisableShutsTheEndpointDown :
    2 < live.cfg.numPhysEp ∧ live.Inv ∧ live.NoNested ∧ live.regs.runStop = true ∧ (live.ep 2).notReady = false ∧ live.CmdOk :=
  ⟨by decide, live_inv, rfl, rfl, rfl, (by decide : (0 : Nat) < 500)⟩

theorem witness_SecondDisableDoesNothing :
    live.Inv ∧ live.NoNested ∧ live.regs.runStop = true ∧ ∃ t, exec (.disable 2) live = .next t :=
  ⟨live_inv, rfl, rfl, _, rfl⟩

theorem witness_AllocAndFreeRequests :
    live.regs.runStop = true ∧ live.onAnyQueue (.user (withArgs (fun a => { a with req := 1 }) live).args.req) = true ∧
    live.onAnyQueue (.user (withArgs (fun a => { a with req := 3 }) live).args.req) = false := by decide

/-- C on busy endpoint 2, on empty endpoint 4, and A which is queued already. -/
theorem witness_QueueAppendsAndStarts :
    let s := withArgs (fun a => { a with req := 3, len := 64 }) (live.setEp 4 (bulk [] none))
    2 < s.cfg.numPhysEp ∧ 4 < s.cfg.numPhysEp ∧ s.regs.runStop = true ∧ s.onAnyQueue A = true ∧ s.onAnyQueue C = false ∧
    (s.req C).mapped = true ∧ s.mapDraw = true ∧ (s.ep 2).queue ≠ [] ∧ (s.ep 4).queue = [] ∧ (s.ep 4).notReady = false := by
  decide

/-- On EP0 in DATA: its endpoint busy, not ready and idle; a request mapped already. -/
theorem witness_QueueMapFailureAndEp0Target :
    (let s : State := { run0 with draws := { Draws.none with maps := [false] } };
      s.regs.runStop = true ∧ s.onAnyQueue (.user s.args.req) = false ∧ (s.req (.user s.args.req)).mapped = false ∧
      s.mapDraw = false) ∧
    (∀ e ∈ [bulk [B] none, notReady (bulk [] none), bulk [] none],
      let s := (ep0In .data []).setEp 0 e
      s.regs.runStop = true ∧ s.onAnyQueue (.user s.args.req) = false ∧ s.ctl.ep0Phase = .data ∧ 2 ≤ s.cfg.numPhysEp ∧
      s.mapDraw = true ∧ (s.req (.user s.args.req)).mapped = false ∧ s.ctl.ep0Ctx.dataDir = .OUT ∧ s.ep 0 = e) ∧
    (let s : State := { ep0In .data [] with reqs := [(.user 0, queued 64)] };
      s.regs.runStop = true ∧ s.onAnyQueue (.user s.args.req) = false ∧ s.ctl.ep0Phase = .data ∧
      (s.req (.user s.args.req)).mapped = true) ∧
    (ep0In .setup []).ctl.ep0Phase ≠ .data := by decide

/-- A absent from endpoint 4; B waiting on 2; a request on each of EP0's endpoints. -/
theorem witness_DequeueCompletesWithConnectionReset :
    live.Shaped ∧ 2 ≤ live.cfg.numPhysEp ∧ live.NoNested ∧ live.regs.runStop = true ∧ A ∉ (live.ep 4).queue ∧
    (A ∉ (live.ep 0).queue ∧ A ∉ (live.ep 1).queue) ∧ B ∈ (live.ep 2).queue ∧ (live.ep 2).active = some A ∧
    A ∈ ((withBulk 0 (bulk [A] none)).ep 0).queue ∧
    (A ∈ ((withBulk 1 (bulk [A] none)).ep 1).queue ∧ A ∉ ((withBulk 1 (bulk [A] none)).ep 0).queue) :=
  ⟨live_shaped, by decide, rfl, rfl, by decide, by decide, by decide, rfl, by decide, by decide⟩

theorem witness_CompletionWithoutSuccess :
    let s := withArgs (fun a => { a with ref := A, result := .shutdown }) live
    2 < s.cfg.numPhysEp ∧ s.NoNested ∧ s.args.result ≠ .success ∧ (s.ep 2).active = some s.args.ref :=
  ⟨by decide, rfl, by decide, rfl⟩

/-- The active request, and one behind it. -/
theorem witness_CompletionStartsTheNext :
    let s := withArgs (fun a => { a with ref := A }) live
    let u := withArgs (fun a => { a with ref := B }) live
    2 < s.cfg.numPhysEp ∧ s.Shaped ∧ s.NoNested ∧ s.args.result = .success ∧ (s.ep 2).active = some s.args.ref ∧
    u.Shaped ∧ u.NoNested ∧ u.args.result = .success ∧ (u.ep 2).active ≠ some u.args.ref ∧ (u.ep 2).active ≠ none :=
  ⟨by decide, ⟨rfl, rfl, rfl⟩, rfl, rfl, rfl, ⟨rfl, rfl, rfl⟩, rfl, rfl, by decide, by decide⟩

theorem witness_KillAllInQueueOrder :
    let s := withArgs (fun a => { a with result := .shutdown }) live
    2 < s.cfg.numPhysEp ∧ s.Inv ∧ s.NoNested ∧ s.args.result ≠ .success :=
  ⟨by decide, invCheck_sound (by decide), rfl, by decide⟩

theorem witness_CallbackMakesItsNestedCalls :
    run0.draws.cbs = [] ∧ (∃ s : State, s.draws.cbs = [[.queue 2 3 0x8000 64], [.disable 4]]) ∧
    (7 : EpField).toNat < run0.cfg.numPhysEp ∧ run0.cfg.numPhysEp ≤ 8 ∧ run0.ctl.dispatching = false ∧
    (run0.setDispatching true).ctl.dispatching = true :=
  ⟨rfl, ⟨{ run0 with draws := { Draws.none with cbs := [[.queue 2 3 0x8000 64], [.disable 4]] } }, rfl⟩, by decide, by decide,
    rfl, rfl⟩

/-- An answer without a call, and one that queues the data stage. -/
theorem witness_UpcallsReachTheUpperLayer :
    (∃ s : State, s.draws.setups = [{ ret := -1, calls := [] }]) ∧
    ∃ s : State, s.draws.setups = [{ ret := 0, calls := [.queue 0 1 0x8000 64] }] :=
  ⟨⟨{ run0 with draws := { Draws.none with setups := [{ ret := -1, calls := [] }] } }, rfl⟩,
    { run0 with draws := { Draws.none with setups := [{ ret := 0, calls := [.queue 0 1 0x8000 64] }] } }, rfl⟩

theorem arrived (bs : List Byte) (h : bs.length = 8)
    (hm : Memory.getBytes (Memory.setBytes [] 0x3000 bs) 0x3000 8 = bs) (ph : Phase) : (ep0In ph bs).SetupArrived bs :=
  ⟨rfl, rfl, (by decide : 0x3000 + 8 ≤ 2 ^ 64), h, hm⟩

/-- A standard request with a code, as the statements' hypotheses have it. -/
def standard (c : Ep0Ctx) (code : BitVec 8) : Bool := decide (c.bmRequestType.toNat / 32 % 4 = 0 ∧ c.bRequest = code)

/-- SET_ADDRESS 5 (L2-G1), the last address, 127, and the first that stalls, 128. -/
theorem witness_SetAddressWritesOnlyTheAddress :
    (ep0In .setup [0, 5, 5, 0, 0, 0, 0, 0]).SetupArrived [0, 5, 5, 0, 0, 0, 0, 0] ∧
    (ep0In .setup [0, 5, 0x7F, 0, 0, 0, 0, 0]).SetupArrived [0, 5, 0x7F, 0, 0, 0, 0, 0] ∧
    (let c := decodeSetup (setupPacket [0, 5, 0x7F, 0, 0, 0, 0, 0]);
      standard c 5 = true ∧ c.wLength = 0 ∧ c.wValue.toNat ≤ 127) ∧
    (ep0In .setup [0, 5, 0x80, 0, 0, 0, 0, 0]).SetupArrived [0, 5, 0x80, 0, 0, 0, 0, 0] ∧
    (let c := decodeSetup (setupPacket [0, 5, 0x80, 0, 0, 0, 0, 0]);
      standard c 5 = true ∧ 127 < c.wValue.toNat) :=
  ⟨arrived _ rfl (by decide) _, arrived _ rfl (by decide) _, by decide, arrived _ rfl (by decide) _, by decide⟩

/-- GET_STATUS of the device, of an interface, of EP0, of endpoint 1 OUT and of the last endpoint (L1-2, L2-G7), with endpoint 1
ready and not; then the four refusals (L2-G8, L2-G9). -/
theorem witness_GetStatusQueuesItsReply :
    (let s := ep0In .setup [0x82, 0, 0, 0, 1, 0, 2, 0];
      s.SetupArrived [0x82, 0, 0, 0, 1, 0, 2, 0] ∧ s.Shaped ∧ 2 ≤ s.cfg.numPhysEp ∧ Memory.wf s.mem = true ∧
      s.cfg.statusBuf + 2 ≤ 2 ^ s.cfg.addrBits ∧ s.onAnyQueue .statusReply = false ∧ (s.ep 1).queue = [] ∧
      (s.ep 1).notReady = false) ∧
    ((ep0In .setup [0x82, 0, 0, 0, 1, 0, 2, 0]).setEp 1 (notReady (bulk [] none))).SetupArrived [0x82, 0, 0, 0, 1, 0, 2, 0] ∧
    (∀ rt ∈ [(0x80 : Byte), 0x81, 0x82], ∀ ep ∈ [(0 : Byte), 0x80, 1, 0x83],
      let c := decodeSetup (setupPacket [rt, 0, 0, 0, ep, 0, 2, 0])
      let q := c.wIndex.toNat % 16 * 2 + c.wIndex.toNat / 128 % 2
      standard c 0 = true ∧ c.wLength = 2 ∧ c.dataDir = .IN ∧ q < 8 ∧ (q < 2 ∨ 2 ≤ q)) ∧
    (let c := decodeSetup (setupPacket [0x80, 0, 0, 0, 0, 0, 3, 0]); standard c 0 = true ∧ c.wLength ≠ 2) ∧
    (let c := decodeSetup (setupPacket [0, 0, 0, 0, 0, 0, 2, 0]); standard c 0 = true ∧ c.dataDir ≠ .IN) ∧
    (let c := decodeSetup (setupPacket [0x83, 0, 0, 0, 0, 0, 2, 0]);
      standard c 0 = true ∧ 3 ≤ c.bmRequestType.toNat % 32) ∧
    (let c := decodeSetup (setupPacket [0x82, 0, 0, 0, 4, 0, 2, 0]);
      standard c 0 = true ∧ c.bmRequestType.toNat % 32 = 2 ∧
      8 ≤ c.wIndex.toNat % 16 * 2 + c.wIndex.toNat / 128 % 2) :=
  ⟨⟨arrived [0x82, 0, 0, 0, 1, 0, 2, 0] rfl (by decide) .setup, ⟨rfl, rfl, rfl⟩, by decide, by decide, by decide, by decide, rfl,
    rfl⟩, arrived [0x82, 0, 0, 0, 1, 0, 2, 0] rfl (by decide) .setup, by decide, by decide, by decide, by decide, by decide⟩

/-- SET_FEATURE and CLEAR_FEATURE of endpoint 1 OUT, its endpoint in each of the states the clauses tell apart (L2-G5, L2-G6);
of the device, of an interface and of EP0's halt (L2-G14); and the refusals (L2-G16). -/
theorem witness_FeatureRequestsSetAndClearHalt :
    (∀ q ∈ [(1 : Byte), 3], ∀ e ∈ [bulk [] none, bulk [A] none, bulk [A] (some A), { bulk [] none with type := .control },
        notReady (bulk [] none)],
      let s := (ep0In .setup [2, q, 0, 0, 1, 0, 0, 0]).setEp 2 e
      let c := decodeSetup (setupPacket [2, q, 0, 0, 1, 0, 0, 0])
      s.SetupArrived [2, q, 0, 0, 1, 0, 0, 0] ∧ s.Shaped ∧ s.CmdOk ∧ ¬ (withCmds [late] s).CmdOk ∧ s.ep 2 = e ∧
      s.cfg.deferCap ≠ some (s.ep 2).deferred.length ∧
      (standard c 3 || standard c 1) = true ∧
      c.wLength = 0 ∧ c.bmRequestType.toNat % 32 = 2 ∧ c.wValue = 0 ∧
      c.wIndex.toNat % 16 * 2 + c.wIndex.toNat / 128 % 2 = 2) ∧
    (∀ rt ∈ [(0 : Byte), 1, 2],
      let c := decodeSetup (setupPacket [rt, 1, 0, 0, 0x80, 0, 0, 0])
      standard c 1 = true ∧ c.wLength = 0 ∧ c.wValue = 0 ∧ c.bmRequestType.toNat % 32 ≤ 2 ∧
      c.wIndex.toNat % 16 * 2 + c.wIndex.toNat / 128 % 2 = 1) ∧
    (∀ bs ∈ [([0, 1, 0, 0, 0, 0, 1, 0] : List Byte), [3, 1, 0, 0, 0, 0, 0, 0], [2, 3, 1, 0, 1, 0, 0, 0], [2, 3, 0, 0, 4, 0, 0, 0]],
      let c := decodeSetup (setupPacket bs)
      (standard c 3 || standard c 1) = true ∧
      (c.wLength ≠ 0 ∨ 3 ≤ c.bmRequestType.toNat % 32 ∨ c.bmRequestType.toNat % 32 = 2 ∧
        (c.wValue ≠ 0 ∨ 8 ≤ c.wIndex.toNat % 16 * 2 + c.wIndex.toNat / 128 % 2))) := by
  refine ⟨fun q hq e he => ?_, by decide, by decide⟩
  fin_cases hq <;> fin_cases he <;>
    exact ⟨⟨rfl, rfl, (by decide : 0x3000 + 8 ≤ 2 ^ 64), rfl, by decide⟩, ⟨rfl, rfl, rfl⟩, (by decide : (0 : Nat) < 500),
      (by decide : ¬ (500 : Nat) < 500), rfl, by decide, by decide, by decide, by decide, by decide, by decide⟩

/-- SET_SEL (L2-G10), endpoint 0 ready and not; a wrong length and an IN direction. -/
theorem witness_SetSelKeepsItsData :
    (∀ e ∈ [bulk [] none, notReady (bulk [] none)],
      let s := (ep0In .setup [0, 0x30, 0, 0, 0, 0, 6, 0]).setEp 0 e
      s.SetupArrived [0, 0x30, 0, 0, 0, 0, 6, 0] ∧ s.Shaped ∧ 2 ≤ s.cfg.numPhysEp ∧ s.onAnyQueue .selRead = false ∧
      s.ep 0 = e ∧
      (let c := decodeSetup (setupPacket [0, 0x30, 0, 0, 0, 0, 6, 0]);
        standard c 48 = true ∧ c.wLength = 6 ∧ c.dataDir = .OUT)) ∧
    (let c := decodeSetup (setupPacket [0, 0x30, 0, 0, 0, 0, 7, 0]); standard c 48 = true ∧ c.wLength ≠ 6) ∧
    (let c := decodeSetup (setupPacket [0x80, 0x30, 0, 0, 0, 0, 6, 0]); standard c 48 = true ∧ c.dataDir ≠ .OUT) ∧
    (let s := withArgs (fun a => { a with ref := .selRead }) (ep0In .data []);
      0 < s.cfg.numPhysEp ∧ s.ctl.ep0Phase = .data ∧ s.args.ref = .selRead ∧ s.cfg.selBuf + 6 ≤ 2 ^ s.cfg.addrBits) := by
  refine ⟨fun e he => ?_, by decide, by decide, by decide⟩
  fin_cases he <;>
    exact ⟨⟨rfl, rfl, (by decide : 0x3000 + 8 ≤ 2 ^ 64), rfl, by decide⟩, ⟨rfl, rfl, rfl⟩, by decide, by decide, rfl, by decide⟩

/-- GET_DESCRIPTOR accepted and refused (L2-G3, L2-G4), and accepted with its data stage queued inside; a setup read of 7 bytes (L2-G13); a request pending across a reset. -/
theorem witness_ForwardedRequestsReachSetup :
    (∀ x ∈ [({ ret := 0, calls := [] } : SetupDraw), { ret := -1, calls := [] }, { ret := 0, calls := [.queue 0 1 0x8000 18] }],
      let s : State := { ep0In .setup [0x80, 6, 0, 1, 0, 0, 0x12, 0] with draws := { Draws.none with setups := [x] } }
      s.SetupArrived [0x80, 6, 0, 1, 0, 0, 0x12, 0] ∧ s.draws.setups = [{ ret := x.ret, calls := x.calls }] ∧
      (0 ≤ x.ret ∨ x.ret < 0) ∧
      (decodeSetup (setupPacket [0x80, 6, 0, 1, 0, 0, 0x12, 0])).bRequest.toNat ∉ [0, 1, 3, 5, 48]) ∧
    (let c := decodeSetup (setupPacket [0x21, 9, 0, 2, 0, 0, 0, 0]);
      c.bmRequestType.toNat / 32 % 4 ≠ 0) ∧
    (∃ s : State, s.ep0AcrossReset = false ∧ (s.req .setupRead).actual ≠ 8) ∧
    (∃ s : State, s.ep0AcrossReset = true) := by
  refine ⟨fun x h => ?_, by decide,
    ⟨{ run0 with reqs := [(.setupRead, { setupReadRequest 0x3000 with actual := 7 })] }, rfl, by decide⟩,
    { run0 with ep0AcrossReset := true }, rfl⟩
  fin_cases h <;> exact ⟨⟨rfl, rfl, (by decide : 0x3000 + 8 ≤ 2 ^ 64), rfl, by decide⟩, rfl, by decide, by decide⟩

/-- Endpoint 0 not ready with one command waiting, the FIFO's room as given. -/
def stalled0 (cap : Option Nat) (s : State) : State :=
  { s.setEp 0 { s.ep 0 with notReady := true, deferred := [Command.plain 0 .clearStall] } with
    cfg := { s.cfg with deferCap := cap } }

/-- Nothing queued; and A in transfer on endpoint 0 with B on endpoint 1; SET_STALL answered, not answered, deferred, and the FIFO
full. -/
theorem witness_Ep0StallRearmsSetup :
    ∀ s ∈ [ep0In .data [], { ((ep0In .data []).setEp 0 (bulk [A] (some A))).setEp 1 (bulk [B] none) with
        reqs := [(A, queued 1500), (B, queued 512)] }],
      s.Inv ∧ s.NoNested ∧ (s.ep 0).notReady = false ∧ (∀ q, 2 ≤ q → ReqRef.setupRead ∉ (s.ep q).queue) ∧ s.TdPlaced 0 ∧
      s.CmdsOk 2 ∧ xferLen .OUT (s.ep 0).maxp 8 s.cfg.lenBits = .next 512 ∧
      (¬ (withCmds [late] s).CmdOk ∧ (withCmds [late] s).Inv) ∧
      (∀ cap ∈ [none, some 1],
        let u := stalled0 cap s
        u.Inv ∧ u.NoNested ∧ (u.ep 0).notReady = true ∧
        (∀ q, 2 ≤ q → ReqRef.setupRead ∉ (u.ep q).queue) ∧
        decide (u.cfg.deferCap = some (u.ep 0).deferred.length) = cap.isSome) := by
  have none : ∀ (s : State), (∀ e ∈ s.eps, ReqRef.setupRead ∉ e.queue) → ∀ q, ReqRef.setupRead ∉ (s.ep q).queue := by
    intro s h q
    rw [State.ep, List.getD_eq_getElem?_getD]
    cases e : s.eps[q]? with
    | none => simp [Endpoint.creation]
    | some x => exact h x (List.mem_of_getElem? e)
  intro s hs
  fin_cases hs <;>
    exact ⟨invCheck_sound (by decide), rfl, rfl, fun q _ => none _ (by decide) q,
      (by decide : 0x2000 % 16 = 0 ∧ 0x2000 + 16 ≤ 2 ^ 64), fun _ _ => (by decide : (0 : Nat) < 500), rfl,
      ⟨(by decide : ¬ (500 : Nat) < 500), invCheck_sound (by decide)⟩, fun cap hc => by
        fin_cases hc <;> exact ⟨invCheck_sound (by decide), rfl, rfl, fun q _ => none _ (by decide) q, by decide⟩⟩

/-- One state for each phase and request. -/
theorem witness_Ep0AdvanceByPhase :
    0 < run0.cfg.numPhysEp ∧ ((ep0In .setup []).ctl.ep0Phase = .setup ∧ (ep0In .setup []).args.ref = .setupRead) ∧
    ((withArgs (fun a => { a with ref := A }) (ep0In .setup [])).args.ref ≠ .setupRead) ∧
    ((ep0In .waitNrdy []).ctl.ep0Phase = .waitNrdy) ∧
    ((ep0In .data []).ctl.ep0Phase = .data ∧ (withArgs (fun a => { a with ref := A }) (ep0In .data [])).args.ref ≠ .selRead) ∧
    ((ep0In .status2 []).ctl.ep0Phase = .status2 ∧ (ep0In .status3 []).ctl.ep0Phase = .status3 ∧
      (ep0In .status3 []).onAnyQueue .setupRead = false) := by decide

/-- After a no-data request the status stage is IN, endpoint 1 ready and not; after an IN data stage it is OUT. -/
theorem witness_NotReadyEntersTheStatusStage :
    (∀ e ∈ [bulk [] none, bulk [A] none, notReady (bulk [] none)],
      let s := (ep0In .waitNrdy []).setEp 1 e
      1 < s.cfg.numPhysEp ∧ s.ctl.ep0Ctx.hasData = false ∧ s.ctl.ep0Phase = .waitNrdy ∧ s.onAnyQueue .zlp = false ∧
      s.ep 1 = e) ∧
    (let c := decodeSetup (setupPacket [0x80, 0, 0, 0, 0, 0, 2, 0]); c.hasData = true ∧ c.dataDir = .IN) ∧
    (ep0In .data []).ctl.ep0Phase ≠ .waitNrdy := by decide

/-- Endpoint 4, of each kind the clauses tell apart, answered and not (L2-H2, L2-H4); endpoint 5 control, addressed by 4; EP0 with
value 0 and 1 (L2-H5). -/
theorem witness_SetHaltRecordsTheStall :
    (∀ e ∈ [bulk [] none, bulk [A] none, bulk [A] (some A), { bulk [A] none with type := .control }, notReady (bulk [] none)],
      let s := withBulk 4 e
      4 < s.cfg.numPhysEp ∧ s.Shaped ∧ s.regs.runStop = true ∧ s.ep 4 = e ∧ s.CmdOk ∧ ¬ (withCmds [late] s).CmdOk ∧
      s.cfg.deferCap ≠ some (s.ep 4).deferred.length) ∧
    (let s := withBulk 5 { bulk [] none with type := .control };
      s.Shaped ∧ (s.ep 5).type = .control ∧ (s.ep 4).notReady = false ∧ s.CmdOk) ∧
    (∀ v ∈ [true, false],
      let s := withArgs (fun a => { a with value := v }) (ep0In .setup [])
      1 < s.cfg.numPhysEp ∧ s.Shaped ∧ s.regs.runStop = true ∧ (s.ep 1).type = .control ∧ (s.ep 0).notReady = false ∧
      s.args.value = v ∧ s.CmdOk) := by
  refine ⟨fun e he => ?_, ⟨⟨rfl, rfl, rfl⟩, rfl, rfl, (by decide : (0 : Nat) < 500)⟩, fun v hv => ?_⟩
  · fin_cases he <;>
      exact ⟨by decide, ⟨rfl, rfl, rfl⟩, rfl, rfl, (by decide : (0 : Nat) < 500), (by decide : ¬ (500 : Nat) < 500), by decide⟩
  · fin_cases hv <;> exact ⟨by decide, ⟨rfl, rfl, rfl⟩, rfl, rfl, rfl, rfl, (by decide : (0 : Nat) < 500)⟩

/-- A in transfer on an endpoint in an EP0 phase, the hardware's write-back to come as drawn. -/
def back (p : Nat) (ph : Phase) (r : ReqRef) (q : Request) (draws : List XferDraw) : State :=
  { ((withBulk p (bulk [r] (some r))).setPhase ph) with reqs := [(r, q)], draws := { Draws.none with xfers := draws } }

/-- Endpoint `p`, its TD naming the buffer 0x8000, with one draw of three bytes. -/
def dma (p : Nat) (e : Endpoint) : State :=
  let s := withBulk p e
  { s with mem := Memory.setBytes [] (s.tdAddr p) (encodeTd s.cfg (bulk [] none).td)
           draws := { Draws.none with xfers := [{ remaining := some 36, owner := false, data := [1, 2, 3] }] } }

/-- R110, R234: after a cancel the event finds no active request, and the bytes and the write-back land all the same. -/
theorem test_dma_lands :
    nextIs (exec (.evXferComplete 2) (dma 2 (bulk [A] none))) (fun t =>
      decide (Memory.getBytes t.mem 0x8000 3 = [1, 2, 3] ∧ tdRemaining t.cfg (Memory.getBytes t.mem 0x2020 16) = 36 ∧
        tdOwner t.cfg (Memory.getBytes t.mem 0x2020 16) = false ∧ t.eps = (dma 2 (bulk [A] none)).eps ∧ t.outs = [])) = true := by
  decide

/-- Nothing active; a draw with bytes on an OUT and an IN endpoint, nothing active and A; then, on endpoint 2, the trace's default write-back, an owned TD, and a remaining length at and beyond the
TD's; a request behind; and on EP0 each phase with its own request. -/
theorem witness_TransferCompleteCountsTheBytes :
    (2 < ready4.cfg.numPhysEp ∧ ready4.draws.xfers = [] ∧ (ready4.ep 2).active = none) ∧
    (∀ p ∈ [2, 3], ∀ a ∈ [none, some A],
      let s := dma p (bulk [A] a)
      let buf := tdBufAddr s.cfg (Memory.getBytes s.mem (s.hwTdAddr p) 16)
      p < s.cfg.numPhysEp ∧ s.draws.xfers = [{ remaining := some 36, owner := false, data := [1, 2, 3] }] ∧
      Memory.wf s.mem = true ∧ s.hwTdAddr p + 16 ≤ 2 ^ s.cfg.addrBits ∧ buf + 3 ≤ 2 ^ s.cfg.addrBits ∧
      (∀ i, i < 3 → s.pendingByte (buf + i) = false) ∧
      (∀ i, i < 3 → buf + i < s.hwTdAddr p ∨ s.hwTdAddr p + 16 ≤ buf + i) ∧ (s.ep p).active = a ∧
      ∀ i, i < 16 → s.pendingByte (s.hwTdAddr p + i) = false) ∧
    (∀ x ∈ [(2, Phase.setup, A, queued 1500), (0, .setup, .setupRead, setupReadRequest 0x3000), (1, .data, A, queued 64),
        (0, .data, .selRead, setupReadRequest 0x3020), (1, .status2, .zlp, setupReadRequest 0), (0, .status3, .zlp, setupReadRequest 0),
        (0, .waitNrdy, A, queued 64)],
      ∀ d ∈ [[], [{ remaining := some 1536, owner := false, data := [] }], [{ remaining := some 1537, owner := false, data := [] }],
          [{ remaining := none, owner := true, data := [] }]],
      let s := back x.1 x.2.1 x.2.2.1 x.2.2.2 d
      x.1 < s.cfg.numPhysEp ∧ (s.ep x.1).active = some x.2.2.1 ∧ (s.ep x.1).queue = [x.2.2.1] ∧
      s.tdAddr x.1 + 16 ≤ 2 ^ s.cfg.addrBits ∧ Memory.wf s.mem = true ∧
      s.cfg.tdLayout.wf s.cfg.addrBits s.cfg.lenBits = true ∧ s.eps.length = s.cfg.numPhysEp ∧
      (s.draws.xfers.headD { remaining := none, owner := false, data := [] }).data = [] ∧
      s.hwTdAddr x.1 = s.tdAddr x.1 ∧ (∀ i, i < 16 → s.pendingByte (s.tdAddr x.1 + i) = false) ∧
      (s.ep x.1).td.length = 1536 ∧ s.draws.cbs = [] ∧
      s.ctl.ep0Phase = x.2.1 ∧ (s.req x.2.2.1) = x.2.2.2 ∧ s.onAnyQueue .statusReply = false) ∧
    tdRemaining Config.default (Memory.getBytes (back 2 .setup A (queued 1500) []).mem 0x2020 16) ≤ 1536 ∧
    (live.Shaped ∧ (live.ep 2).active = some A ∧ (live.ep 2).queue = [A, B]) ∧
    (let s := back 1 .status2 .zlp (setupReadRequest 0) [];
      ({ s with eps := s.eps.set 1 { s.ep 1 with queue := (s.ep 1).queue.erase .zlp } } : State).onAnyQueue .setupRead = false) :=
  ⟨by decide, by decide, by decide, by decide, ⟨live_shaped, rfl, rfl⟩, by decide⟩

/-- No EP0 request, and B on endpoint 1. -/
theorem witness_UsbResetKillsAndClears :
    live.Inv ∧ live.NoNested ∧
    (let s := { (ep0In .data []).setEp 1 (bulk [B] none) with reqs := [(B, queued 512)] };
      s.Inv ∧ s.NoNested ∧ ∃ r ∈ (s.ep 0).queue ++ (s.ep 1).queue, r ≠ .setupRead) :=
  ⟨live_inv, rfl, invCheck_sound (by decide), rfl, B, by decide, by decide⟩

/-- In SETUP; and in UNCONNECTED, the setup read absent and endpoint 0 empty, then busy, and the setup read queued. -/
theorem witness_ConnectDoneResizesAndActivates :
    ∀ x ∈ [(Phase.setup, ([] : List ReqRef)), (.unconnected, []), (.unconnected, [A]), (.unconnected, [.setupRead])],
      let s := (ep0In x.1 []).setEp 0 { (ep0In x.1 []).ep 0 with queue := x.2 }
      s.Shaped ∧ 2 ≤ s.cfg.numPhysEp ∧ (s.ep 0).type = .control ∧ (s.ep 1).type = .control ∧ (s.ep 0).notReady = false ∧
      (s.ep 1).notReady = false ∧ s.CmdsOk 4 ∧ s.ctl.ep0Phase = x.1 ∧ (s.ep 0).queue = x.2 ∧
      s.onAnyQueue .setupRead = decide (ReqRef.setupRead ∈ x.2) := by
  intro x hx
  fin_cases hx <;>
    exact ⟨⟨rfl, rfl, rfl⟩, by decide, rfl, rfl, rfl, rfl, fun _ _ => (by decide : (0 : Nat) < 500), rfl, rfl, by decide⟩

theorem witness_DisconnectNotifiesAndOthersAreIgnored :
    (withArgs (fun a => { a with linkState := 4 }) run0).args.linkState = 4 ∧ run0.args.linkState ≠ 4 ∧
    (7 : EpField).toNat < run0.cfg.numPhysEp := by decide

end Sys2Proof.Tests
end

section
/-! The step rules: what `accept` and `fetch` answer in each case, and what `step` does with the answer (R10, R91, R111, R271). -/

namespace Sys2Proof.Machine

/-- Only class 0x2 operations name an event (R93). -/
theorem cls_of_event? {i : Instr} {st : BitVec 4} {e : Event} (h : i.event? st = some e) : i.cls = .event := by
  cases i <;> simp only [Instr.event?, reduceCtorEq] at h <;> rfl

theorem irqAsserted_iff {s : State} : irqAsserted s = true ↔ 0 < s.regs.evbufCount ∧ s.regs.runStop = true := by
  simp [irqAsserted]

@[simp] theorem accept_engine (i : Instr) (s : State) : accept .engine i s = .next (some i, s) := rfl

theorem accept_external_call {i : Instr} (h : i.cls = .upperCall ∨ i.cls = .lifecycle) (s : State) :
    accept .external i s = .next (some i, s) := by
  obtain h | h := h <;> simp only [accept, h]

theorem accept_external_event {i : Instr} {s u : State} {e : Event} (hwf : i.wf s.cfg.numPhysEp = true)
    (he : i.event? s.args.linkState = some e)
    (hu : deliverRecord (encodeEventBy s.cfg.eventTable e) s = .next u) :
    accept .external i s = .next (some .interrupt, u) := by
  simp only [accept, cls_of_event? he, hwf, he, hu, if_true, andThen_next]

theorem fetch_of_line {s s1 : State} {ln : Line} {rest : List Line} {i : Instr} (ht : s.trace = ln :: rest)
    (hd : decode ln.word = .ok i) (hl : loadLine ln { s with trace := rest } = .next s1) :
    fetch s = accept ln.port i s1 := by
  simp only [fetch, ht, hd, hl, andThen_next]

theorem fetch_of_no_line {s : State} (ht : s.trace = []) :
    fetch s = .next (if irqAsserted s then some .interrupt else none, s) := by
  simp only [fetch, ht]

theorem step_of_fetch_some {s t : State} {i : Instr} (h : fetch s = .next (some i, t)) : step s = exec i t := by
  simp only [step, h, andThen_next]

theorem step_of_fetch_none {s t : State} (h : fetch s = .next (none, t)) : step s = .next t := by
  simp only [step, h, andThen_next]

/-- Log 8, the interrupt line asserted. -/
theorem step_of_no_line_irq {s : State} (ht : s.trace = []) (hirq : irqAsserted s = true) :
    step s = exec .interrupt s :=
  step_of_fetch_some (by rw [fetch_of_no_line ht, if_pos hirq])

/-- Log 8, the interrupt line low: the engine is idle (R276). -/
theorem step_of_no_line_idle {s : State} (ht : s.trace = []) (hirq : ¬ irqAsserted s = true) : step s = .next s :=
  step_of_fetch_none (by rw [fetch_of_no_line ht, if_neg hirq])

/-- Settles O9: with a line waiting, `fetch` is `accept` of its decoded word in the loaded state; with none, it is the interrupt
line's. `step` runs what `fetch` answers. -/
theorem stepRunsTheDecodedOperation : Obligations.StepRunsTheDecodedOperation := by
  refine ⟨fun s s1 ln rest i ht hd hl => ?_, fun s ht => ⟨fun hcount hrun => ?_, fun hlow => ?_⟩⟩
  · have hfetch : fetch s = accept ln.port i s1 := fetch_of_line ht hd hl
    refine ⟨fun hp => ?_, fun hp hcall => ?_, fun e u hp hwf he hu => ?_⟩ <;> rw [hp] at hfetch
    · exact step_of_fetch_some (hfetch.trans (accept_engine i s1))
    · exact step_of_fetch_some (hfetch.trans (accept_external_call hcall s1))
    · exact step_of_fetch_some (hfetch.trans (accept_external_event hwf he hu))
  · exact step_of_no_line_irq ht (irqAsserted_iff.mpr ⟨hcount, hrun⟩)
  · refine step_of_no_line_idle ht fun hirq => ?_
    obtain ⟨hcount, hrun⟩ := irqAsserted_iff.mp hirq
    obtain hzero | hoff := hlow
    · omega
    · exact Bool.noConfusion (hoff.symm.trans hrun)

end Sys2Proof.Machine
end

section
/-! What the machine's invariant reads of a state, and the rules by which it carries over one write: nothing read changes, one
endpoint record is written, every endpoint record is rewritten alike (R22, R25, R26, R30, R32, R34). -/

namespace Sys2Proof.Machine

/-! ## What the invariant reads -/

/-- A well-formed launch has a ring of whole records with room for one (R6). -/
theorem Config.wf_ring {c : Config} (h : c.wf = true) : c.evtBufBytes % c.evtBytes = 0 ∧ 0 < c.evtBufBytes := by
  simp only [Config.wf, Bool.and_eq_true, beq_iff_eq, decide_eq_true_eq] at h
  tauto

/-- What `State.Inv` reads besides the endpoint records is as it was, and memory is still canonical. -/
structure KeepsBesideEps (s t : State) : Prop where
  cfg : t.cfg = s.cfg
  ports : t.regs.ports.length = s.regs.ports.length
  hw : t.hw.eps.length = s.hw.eps.length
  cursor : t.ctl.evtCursor = s.ctl.evtCursor
  mem : Memory.wf s.mem = true → Memory.wf t.mem = true

theorem KeepsBesideEps.trans {s t u : State} (h : KeepsBesideEps s t) (k : KeepsBesideEps t u) : KeepsBesideEps s u :=
  ⟨k.cfg.trans h.cfg, k.ports.trans h.ports, k.hw.trans h.hw, k.cursor.trans h.cursor, k.mem ∘ h.mem⟩

/-! ## One request on one queue (R32) -/

/-- The queued references of a list of endpoint records, in order. -/
def queuedRefs (eps : List Endpoint) : List ReqRef := eps.flatMap fun e => e.queue

theorem queuedRefs_set {l : List Endpoint} {p : Nat} (hp : p < l.length) (e : Endpoint) :
    queuedRefs (l.set p e) = queuedRefs (l.take p) ++ (e.queue ++ queuedRefs (l.drop (p + 1))) := by
  simp [queuedRefs, List.set_eq_take_append_cons_drop, hp]

theorem queuedRefs_split {l : List Endpoint} {p : Nat} (hp : p < l.length) :
    queuedRefs l = queuedRefs (l.take p) ++ (l[p].queue ++ queuedRefs (l.drop (p + 1))) := by
  rw [← queuedRefs_set hp, List.set_getElem_self]

theorem State.ep_eq_getElem {s : State} {p : Nat} (hp : p < s.eps.length) : s.ep p = s.eps[p] := by
  simp [State.ep, hp]

/-- Taking requests off one queue leaves every request queued at most once. -/
theorem queuedOnce_set_of_sublist {s : State} {p : Nat} {e : Endpoint} (hs : (queuedRefs s.eps).Nodup)
    (he : e.queue.Sublist (s.ep p).queue) : (queuedRefs (s.eps.set p e)).Nodup := by
  by_cases hp : p < s.eps.length
  · rw [queuedRefs_split hp, ← State.ep_eq_getElem hp] at hs
    rw [queuedRefs_set hp]
    exact hs.sublist ((List.Sublist.refl _).append (he.append (List.Sublist.refl _)))
  · rwa [List.set_eq_of_length_le (Nat.le_of_not_lt hp)]

/-- Putting a request that is on no queue at the end of one leaves every request queued at most once. -/
theorem queuedOnce_set_push {s : State} {p : Nat} {r : ReqRef} {e : Endpoint} (hs : (queuedRefs s.eps).Nodup)
    (hr : s.onAnyQueue r = false) (he : e.queue = (s.ep p).queue ++ [r]) : (queuedRefs (s.eps.set p e)).Nodup := by
  have hr' : r ∉ queuedRefs s.eps := by simpa [State.onAnyQueue, queuedRefs] using hr
  by_cases hp : p < s.eps.length
  · have hsplit := queuedRefs_split hp
    rw [← State.ep_eq_getElem hp] at hsplit
    have hperm : (queuedRefs (s.eps.set p e)).Perm (r :: queuedRefs s.eps) := by
      rw [queuedRefs_set hp, he, hsplit]
      simpa using List.perm_middle (a := r) (l₁ := queuedRefs (s.eps.take p) ++ (s.ep p).queue)
        (l₂ := queuedRefs (s.eps.drop (p + 1)))
    exact hperm.nodup_iff.mpr (List.nodup_cons.mpr ⟨hr', hs⟩)
  · rwa [List.set_eq_of_length_le (Nat.le_of_not_lt hp)]

/-! ## The rules -/

section
variable {s t : State}

/-- The invariant over new endpoint records, everything else it reads kept. -/
theorem State.Inv.ofEps (h : s.Inv) (k : KeepsBesideEps s t) (hl : t.eps.length = s.eps.length)
    (he : ∀ p, p < s.cfg.numPhysEp → EpInv s.cfg p (t.ep p)) (hq : (queuedRefs t.eps).Nodup) : t.Inv where
  cfgWf := by rw [k.cfg]; exact h.cfgWf
  shaped := by
    obtain ⟨heps, hports, hhw⟩ := h.shaped
    exact ⟨by rw [k.cfg, hl, heps], by rw [k.cfg, k.ports, hports], by rw [k.cfg, k.hw, hhw]⟩
  endpoints := by rw [k.cfg]; exact he
  queuedOnce := hq
  cursorInRing := by rw [k.cfg, k.cursor]; exact h.cursorInRing
  memCanonical := k.mem h.memCanonical

/-- A write of nothing the invariant reads keeps it. -/
theorem State.Inv.congr (h : s.Inv) (k : KeepsBesideEps s t) (he : t.eps = s.eps) : t.Inv :=
  h.ofEps k (by rw [he]) (fun p hp => by rw [State.ep, he]; exact h.endpoints p hp) (by rw [he]; exact h.queuedOnce)

/-- A write of one endpoint record that meets its own invariant. -/
theorem State.Inv.setEp (h : s.Inv) {p : Nat} {e : Endpoint} (he : p < s.cfg.numPhysEp → EpInv s.cfg p e)
    (hq : (queuedRefs (s.eps.set p e)).Nodup) : (s.setEp p e).Inv := by
  refine h.ofEps ⟨rfl, rfl, rfl, rfl, id⟩ (by simp) (fun q hqp => ?_) hq
  rw [setEp_ep]
  split
  · next hpq => rw [← hpq.1]; exact he (hpq.1 ▸ hqp)
  · exact h.endpoints q hqp

/-- A write of one endpoint record that queues nothing new. -/
theorem State.Inv.setEp_of_sublist (h : s.Inv) {p : Nat} {e : Endpoint}
    (he : p < s.cfg.numPhysEp → EpInv s.cfg p e) (hq : e.queue.Sublist (s.ep p).queue) : (s.setEp p e).Inv :=
  h.setEp he (queuedOnce_set_of_sublist h.queuedOnce hq)

/-- Every endpoint record rewritten in one way that keeps its queue. -/
theorem State.Inv.mapEps (h : s.Inv) (k : KeepsBesideEps s t) {f : Endpoint → Endpoint} (ht : t.eps = s.eps.map f)
    (hq : ∀ e, (f e).queue = e.queue) (he : ∀ p e, EpInv s.cfg p e → EpInv s.cfg p (f e)) : t.Inv := by
  refine h.ofEps k (by simp [ht]) (fun p hp => ?_) ?_
  · have hps := h.shaped.eps hp
    have htp : t.ep p = f (s.ep p) := by simp [State.ep, ht, hps]
    rw [htp]
    exact he p _ (h.endpoints p hp)
  · have hqs : queuedRefs t.eps = queuedRefs s.eps := by simp [queuedRefs, ht, List.flatMap_map, hq]
    rw [hqs]
    exact h.queuedOnce

end

end Sys2Proof.Machine
end

section
/-! The invariant over the issuer, start_transfer, the drain and release (R25, R26, R30, R122, R124, R130, R138, R180). -/

namespace Sys2Proof.Machine

variable {s : State}

/-! ## The issuer (R130 to R132) -/

theorem completeCommand_keeps (c : Command) (idx : Nat) (s : State) :
    KeepsBesideEps s (completeCommand c idx s) ∧ (completeCommand c idx s).eps = s.eps := by
  have hhw : (hwPerform c idx s).hw.eps.length = s.hw.eps.length := by
    unfold hwPerform
    split <;> simp
  rw [completeCommand_eq]
  exact ⟨⟨rfl, by simp [State.regsWith], hhw, rfl, id⟩, rfl⟩

theorem landLate_keeps (p : Nat) (s : State) : KeepsBesideEps s (landLate p s) ∧ (landLate p s).eps = s.eps := by
  unfold landLate
  split
  · exact ⟨⟨rfl, rfl, rfl, rfl, id⟩, rfl⟩
  · exact completeCommand_keeps _ _ _

theorem issueNow_keepsBesideEps (c : Command) (s : State) : KeepsBesideEps s (issueNow c s).1 := by
  by_cases hok : s.CmdOk
  · have hanswered : (issueNow c s).1 = completeCommand c (doneIdx c s.cmdDraw.idx) (writeCommand c s).popCmd := by
      have hpolls : s.cmdDraw.stillActive < s.cfg.cmdTimeout := hok
      simp only [issueNow, hpolls, if_true]
    have hwritten : KeepsBesideEps s (writeCommand c s).popCmd := ⟨rfl, by simp [writeCommand], rfl, rfl, id⟩
    rw [hanswered]
    exact hwritten.trans (completeCommand_keeps _ _ _).1
  · rw [issueNow_timeout hok]
    exact ⟨rfl, by simp [State.regsWith], by simp [State.hwLate], rfl, id⟩

/-- issue_now leaves the endpoint records, or sets the target's not-ready flag (R132). -/
theorem issueNow_eps (c : Command) (s : State) :
    (issueNow c s).1.eps = s.eps ∨ (issueNow c s).1.eps = (s.setNotReady c.target true).eps := by
  obtain ⟨-, -, -, -, -, heps, -, -⟩ := issueNow_keeps c s
  rw [heps]
  split
  · exact .inl rfl
  · exact .inr rfl

/-- A record with its not-ready flag set still meets its invariant: its FIFO may then hold anything (R140). -/
theorem EpInv.setNotReady {cfg : Config} {p : Nat} {e : Endpoint} (h : EpInv cfg p e) :
    EpInv cfg p { e with notReady := true } :=
  { h with deferredOnlyNotReady := fun _ => rfl }

theorem State.Inv.setNotReady (h : s.Inv) (p : Nat) : (s.setNotReady p true).Inv :=
  h.setEp_of_sublist (fun hp => (h.endpoints p hp).setNotReady) (.refl _)

theorem State.Inv.issueNow (h : s.Inv) (c : Command) : (issueNow c s).1.Inv := by
  obtain heps | heps := issueNow_eps c s
  · exact h.congr (issueNow_keepsBesideEps c s) heps
  · obtain ⟨hcfg, hports, hhw, hcursor, hmem⟩ := issueNow_keepsBesideEps c s
    exact (h.setNotReady c.target).congr ⟨hcfg, hports, hhw, hcursor, hmem⟩ heps

/-- A command appended to the FIFO of its own not-ready endpoint, where the FIFO has room (R30, R130). -/
theorem EpInv.defer {cfg : Config} {p : Nat} {e : Endpoint} (h : EpInv cfg p e) {c : Command} (hc : c.target = p)
    (hr : e.notReady = true) (hroom : cfg.deferCap ≠ some e.deferred.length) :
    EpInv cfg p { e with deferred := e.deferred ++ [c] } :=
  { h with
    deferredOnlyNotReady := fun _ => hr
    deferredTarget := fun d hd => by
      obtain hd | hd := List.mem_append.mp hd
      · exact h.deferredTarget d hd
      · rw [List.mem_singleton.mp hd, hc]
    deferredCap := fun n hn => by
      have hle := h.deferredCap n hn
      have hne : n ≠ e.deferred.length := fun he => hroom (he ▸ hn)
      simp only [List.length_append, List.length_singleton]
      omega }

theorem State.Inv.issue (h : s.Inv) {c : Command} {x : State × CmdRes} (e : issue c s = .next x) : x.1.Inv := by
  by_cases hr : (s.ep c.target).notReady = true
  · by_cases hfull : s.cfg.deferCap = some (s.ep c.target).deferred.length
    · rw [issue_overflow hr hfull] at e; cases e
    · rw [issue_deferred hr hfull] at e; cases e
      exact h.setEp_of_sublist (fun hp => (h.endpoints _ hp).defer rfl hr hfull) (.refl _)
  · rw [issue_ready (by simpa using hr)] at e; cases e
    exact h.issueNow c

/-! ## start_transfer (R120 to R126) -/

/-- The length start_transfer computes fits `LEN_BITS` (R122). -/
theorem xferLen_lt {d : Dir} {maxp len lenBits n : Nat} (h : xferLen d maxp len lenBits = .next n) : n < 2 ^ lenBits := by
  simp only [xferLen] at h
  split_ifs at h <;> cases h <;> omega

theorem State.Inv.withTd (h : s.Inv) (p : Nat) {td : Td} (htd : td.length < 2 ^ s.cfg.lenBits) : (s.withTd p td).Inv := by
  have hset : (s.setEp p { s.ep p with td := td }).Inv :=
    h.setEp_of_sublist (fun hp => { h.endpoints p hp with tdFits := htd }) (.refl _)
  exact hset.congr ⟨rfl, rfl, rfl, rfl, fun hm => Memory.setBytes_wf hm _ _⟩ rfl

theorem setNotReady_ep (p q : Nat) (b : Bool) (s : State) :
    (s.setNotReady p b).ep q = if p = q ∧ p < s.eps.length then { s.ep q with notReady := b } else s.ep q := by
  rw [State.setNotReady, setEp_ep]
  split
  · next hpq => rw [hpq.1]
  · rfl

theorem setNotReady_ep_queue (p q : Nat) (b : Bool) (s : State) : ((s.setNotReady p b).ep q).queue = (s.ep q).queue := by
  rw [setNotReady_ep]
  split <;> rfl

theorem ep_congr {t u : State} (h : t.eps = u.eps) (q : Nat) : t.ep q = u.ep q := by rw [State.ep, State.ep, h]

/-- issue_now leaves an endpoint record, or sets its not-ready flag (R132). -/
theorem issueNow_ep (c : Command) (s : State) (q : Nat) :
    (issueNow c s).1.ep q = s.ep q ∨ (issueNow c s).1.ep q = { s.ep q with notReady := true } := by
  obtain heps | heps := issueNow_eps c s <;> rw [ep_congr heps]
  · exact .inl rfl
  · rw [setNotReady_ep]
    split
    · exact .inr rfl
    · exact .inl rfl

theorem issueNow_ep_queue (c : Command) (s : State) (q : Nat) : ((issueNow c s).1.ep q).queue = (s.ep q).queue := by
  obtain hep | hep := issueNow_ep c s q <;> rw [hep]

theorem issueNow_ep_deferred (c : Command) (s : State) (q : Nat) :
    ((issueNow c s).1.ep q).deferred = (s.ep q).deferred := by
  obtain hep | hep := issueNow_ep c s q <;> rw [hep]

theorem withTd_ep_queue (s : State) (p : Nat) (td : Td) : ((s.withTd p td).ep p).queue = (s.ep p).queue := by
  have hep : (s.withTd p td).ep p = (s.setEp p { s.ep p with td := td }).ep p := rfl
  rw [hep, setEp_ep]
  split <;> rfl

/-- Recording the start of the request at a queue's head: it becomes active, with an index (R124), or nothing (R125). -/
theorem State.Inv.recordStart {x : State × CmdRes} (h : x.1.Inv) {p : Nat} {r : ReqRef}
    (hhead : (x.1.ep p).queue.head? = some r) : (recordStart p r x).Inv := by
  unfold Sys2Proof.Machine.recordStart
  split
  · exact h.setEp_of_sublist (fun hp => { h.endpoints p hp with
      activeIsHead := fun a ha => by cases ha; exact hhead
      indexIffActive := rfl }) (.refl _)
  · exact h
  · exact h

theorem State.Inv.startTransfer (h : s.Inv) {p : Nat} {t : State} (e : startTransfer p s = .next t) : t.Inv := by
  obtain rfl | ⟨r, rest, n, ty, -, hq, hn, -, -, rfl⟩ := startTransfer_cases e
  · exact h
  · refine ((h.withTd p (td := startedTd (s.req r) n ty) (xferLen_lt hn)).issueNow _).recordStart ?_
    rw [issueNow_ep_queue, withTd_ep_queue, hq, List.head?_cons]

/-! ## The drain (R138)

While it runs the endpoint is marked ready though commands still wait. The invariant then holds of the state with the flag set
again, and of the state itself once the flag is set or the FIFO empty. -/

/-- The drain of `p` is under way: with the not-ready flag set again the invariant holds. -/
def State.InvWhileDraining (p : Nat) (s : State) : Prop := (s.setNotReady p true).Inv

theorem setNotReady_setNotReady (p : Nat) (b b' : Bool) (s : State) :
    (s.setNotReady p b).setNotReady p b' = s.setNotReady p b' := by
  by_cases hp : p < s.eps.length
  · simp [setEp_setEp, setEp_ep_same s hp]
  · simp [setEp_beyond s (Nat.le_of_not_lt hp)]

theorem State.Inv.startDrain (h : s.Inv) (p : Nat) : (s.setNotReady p false).InvWhileDraining p := by
  rw [State.InvWhileDraining, setNotReady_setNotReady]
  exact h.setNotReady p

namespace State.InvWhileDraining

variable {p : Nat}

theorem ep (h : s.InvWhileDraining p) (hp : p < s.cfg.numPhysEp) :
    EpInv s.cfg p { s.ep p with notReady := true } := by
  have hep : (s.setNotReady p true).ep p = { s.ep p with notReady := true } :=
    setEp_ep_same s (by simpa using h.shaped.eps hp) _
  rw [← hep]
  exact h.endpoints p hp

theorem congr {t : State} (h : s.InvWhileDraining p) (k : KeepsBesideEps s t)
    (he : t.eps = s.eps ∨ t.eps = (s.setNotReady p true).eps) : t.InvWhileDraining p := by
  have heps : (t.setNotReady p true).eps = (s.setNotReady p true).eps := by
    have hcongr : ∀ u : State, t.eps = u.eps → (t.setNotReady p true).eps = (u.setNotReady p true).eps := fun u hu => by
      simp [hu, ep_congr hu]
    obtain he | he := he
    · exact hcongr s he
    · rw [hcongr _ he, setNotReady_setNotReady]
  obtain ⟨hcfg, hports, hhw, hcursor, hmem⟩ := k
  exact State.Inv.congr h ⟨hcfg, hports, hhw, hcursor, hmem⟩ heps

/-- The drain stops at a not-ready endpoint (R139). -/
theorem endNotReady (h : s.InvWhileDraining p) (hr : (s.ep p).notReady = true) : s.Inv := by
  have hself : s.setNotReady p true = s := by
    rw [State.setNotReady, ← hr]
    exact setEp_self s p
  rw [← hself]
  exact h

/-- The drain stops at an empty FIFO (R138). -/
theorem endEmpty (h : s.InvWhileDraining p) (hd : (s.ep p).deferred = []) : s.Inv := by
  have hback : (s.setNotReady p true).setEp p (s.ep p) = s := by
    rw [State.setNotReady, setEp_setEp, setEp_self]
  rw [← hback]
  exact State.Inv.setEp_of_sublist h (fun hp => { h.ep hp with deferredOnlyNotReady := fun hne => absurd hd hne })
    (setNotReady_ep_queue p p true s ▸ .refl _)

theorem target (h : s.InvWhileDraining p) {c : Command} (hc : c ∈ (s.ep p).deferred) : c.target = p := by
  have hlen : p < s.eps.length := by
    by_contra hp
    simp [State.ep, hp, Endpoint.creation] at hc
  have hshape : s.eps.length = s.cfg.numPhysEp := by simpa using h.shaped.1
  exact (h.ep (hshape ▸ hlen)).deferredTarget c hc

/-- The command at the FIFO's head is taken off. -/
theorem pop (h : s.InvWhileDraining p) {c : Command} {rest : List Command} (hd : (s.ep p).deferred = c :: rest) :
    (s.setEp p { s.ep p with deferred := rest }).InvWhileDraining p := by
  have hpopped : (s.setEp p { s.ep p with deferred := rest }).setNotReady p true =
      (s.setNotReady p true).setEp p { s.ep p with notReady := true, deferred := rest } := by
    by_cases hp : p < s.eps.length
    · simp [setEp_setEp, setEp_ep_same s hp]
    · simp [setEp_beyond s (Nat.le_of_not_lt hp)]
  have hsub : rest.Sublist (s.ep p).deferred := hd ▸ List.sublist_cons_self c rest
  rw [State.InvWhileDraining, hpopped]
  exact State.Inv.setEp_of_sublist h (fun hp => { h.ep hp with
    deferredOnlyNotReady := fun _ => rfl
    deferredTarget := fun d hd => (h.ep hp).deferredTarget d (hsub.subset hd)
    deferredCap := fun n hn => hsub.length_le.trans ((h.ep hp).deferredCap n hn) }) (setNotReady_ep_queue p p true s ▸ .refl _)

theorem issueNow (h : s.InvWhileDraining p) {c : Command} (hc : c.target = p) :
    (Machine.issueNow c s).1.InvWhileDraining p :=
  h.congr (issueNow_keepsBesideEps c s) (hc ▸ issueNow_eps c s)

theorem drainOne (h : s.InvWhileDraining p) {c : Command} {rest : List Command} (hd : (s.ep p).deferred = c :: rest) :
    (drainOne p c rest s).InvWhileDraining p := by
  have hissued := (h.pop hd).issueNow (h.target (hd ▸ List.mem_cons_self))
  unfold Machine.drainOne
  simp only
  split
  · exact hissued.congr ⟨rfl, rfl, rfl, rfl, id⟩ (.inr rfl)
  · exact hissued

end State.InvWhileDraining

theorem drainOne_deferred_length (p : Nat) (c : Command) (rest : List Command) (s : State) :
    ((drainOne p c rest s).ep p).deferred.length ≤ rest.length := by
  have hissued : ((issueNow c (s.setEp p { s.ep p with deferred := rest })).1.ep p).deferred.length ≤ rest.length := by
    rw [issueNow_ep_deferred, setEp_ep]
    split
    · exact Nat.le_refl _
    · next hp =>
      have hbeyond : ¬ p < s.eps.length := fun hlt => hp ⟨rfl, hlt⟩
      simp [State.ep, hbeyond, Endpoint.creation]
  unfold drainOne
  simp only
  split
  · rw [setNotReady_ep]
    split <;> exact hissued
  · exact hissued

/-- With a bound that covers the FIFO, the loop ends where the drain does (R138, R139). -/
theorem State.InvWhileDraining.drainLoop {p : Nat} (n : Nat) (h : s.InvWhileDraining p)
    (hn : (s.ep p).deferred.length ≤ n) : (drainLoop n p s).Inv := by
  induction n generalizing s with
  | zero => exact h.endEmpty (List.length_eq_zero_iff.mp (Nat.le_zero.mp hn))
  | succ n ih =>
    unfold Machine.drainLoop
    split
    · next hr => exact h.endNotReady hr
    · split
      · next hd => exact h.endEmpty hd
      · next c rest hd =>
        refine ih (h.drainOne hd) ((drainOne_deferred_length p c rest s).trans ?_)
        rw [hd, List.length_cons] at hn
        exact Nat.le_of_succ_le_succ hn

theorem State.Inv.drainDeferred (h : s.Inv) (p : Nat) : (drainDeferred p s).Inv := by
  refine (h.startDrain p).drainLoop _ ?_
  rw [setNotReady_ep]
  split <;> exact Nat.le_refl _

/-! ## Completion (R180, R181) -/

/-- A completed request off the queue; the active one takes its marker and its index with it (R181). -/
theorem EpInv.complete {cfg : Config} {p : Nat} {e : Endpoint} (h : EpInv cfg p e) (r : ReqRef) :
    EpInv cfg p { e with
      queue := e.queue.erase r
      active := if decide (e.active = some r) then none else e.active
      resIdx := if decide (e.active = some r) then none else e.resIdx } := by
  by_cases hr : e.active = some r
  · exact { h with activeIsHead := by simp [hr], indexIffActive := by simp [hr] }
  · refine { h with activeIsHead := fun a ha => ?_, indexIffActive := by simpa [hr] using h.indexIffActive }
    have hactive : e.active = some a := by simpa [hr] using ha
    have hne : a ≠ r := fun har => hr (har ▸ hactive)
    obtain ⟨rest, hq⟩ := List.head?_eq_some_iff.mp (h.activeIsHead a hactive)
    simp [hq, hne]

theorem State.Inv.release (h : s.Inv) (p : Nat) (r : ReqRef) (res : Result) : (release p r res s).Inv := by
  have hset := h.setEp_of_sublist (fun hp => (h.endpoints p hp).complete r) List.erase_sublist
  rw [release_eq]
  exact hset.congr ⟨rfl, rfl, rfl, rfl, id⟩ rfl

end Sys2Proof.Machine
end

section
/-! Every write of the machine keeps the invariant, so every step does. -/

namespace Sys2Proof.Machine

/-- A state that meets the invariant is taken to one that does. -/
def InvKept (s t : State) : Prop := s.Inv → t.Inv

/-- A write of nothing the invariant reads. -/
theorem InvKept.ofEq {s t : State} (k : KeepsBesideEps s t) (he : t.eps = s.eps) : InvKept s t := fun h => h.congr k he

theorem invOpFrame : OpFrame InvKept where
  refl := fun _ h => h
  trans := fun hst htu h => htu (hst h)
  issue := fun _ _ _ e h => h.issue e
  notReady := fun p _ h => h.setNotReady p
  start := fun _ _ _ e h => h.startTransfer e
  push := fun p r s hr h => by
    refine h.setEp (fun hp => ?_) (queuedOnce_set_push h.queuedOnce hr rfl)
    have hep := h.endpoints p hp
    exact { hep with activeIsHead := fun a ha => by simp [hep.activeIsHead a ha] }
  setReq := fun _ _ _ _ => .ofEq ⟨rfl, rfl, rfl, rfl, id⟩ rfl
  enable := fun _ _ _ => .ofEq ⟨rfl, by simp, rfl, rfl, id⟩ rfl
  cfgStarted := fun _ => .ofEq ⟨rfl, rfl, rfl, rfl, id⟩ rfl
  emit := fun _ _ _ => .ofEq ⟨rfl, rfl, rfl, rfl, id⟩ rfl
  mark := fun _ _ => .ofEq ⟨rfl, rfl, rfl, rfl, id⟩ rfl

theorem invPhase (ph : Phase) (s : State) : InvKept s (s.setPhase ph) := .ofEq ⟨rfl, rfl, rfl, rfl, id⟩ rfl

theorem invCallFrame : CallFrame InvKept where
  toOpFrame := invOpFrame
  release := fun p r res _ h => h.release p r res
  stall := invOpFrame.stallOfPhase (fun p r res _ h => h.release p r res) invPhase
  setType := fun p _ _ _ _ h => h.setEp_of_sublist (fun hp => { h.endpoints p hp with }) (.refl _)
  halted := fun p _ _ h0 h => h.setEp_of_sublist
    (fun hp => { h.endpoints p hp with ep0NotHalted := fun h1 => absurd h1 (by simp [h0]) }) (.refl _)
  popCbs := fun _ _ _ _ => .ofEq ⟨rfl, rfl, rfl, rfl, id⟩ rfl
  popMap := fun _ => .ofEq ⟨rfl, rfl, rfl, rfl, id⟩ rfl
  fresh := fun _ _ => .ofEq ⟨rfl, rfl, rfl, rfl, id⟩ rfl
  drop := fun _ _ => .ofEq ⟨rfl, rfl, rfl, rfl, id⟩ rfl

theorem invAdvFrame : AdvFrame InvKept where
  toCallFrame := invCallFrame
  phase := fun ph s _ => invPhase ph s
  context := fun _ _ => .ofEq ⟨rfl, rfl, rfl, rfl, id⟩ rfl
  selData := fun _ _ => .ofEq ⟨rfl, rfl, rfl, rfl, id⟩ rfl
  devAddr := fun _ _ => .ofEq ⟨rfl, rfl, rfl, rfl, id⟩ rfl
  popSetup := fun _ => .ofEq ⟨rfl, rfl, rfl, rfl, id⟩ rfl
  writeMem := fun a bs s t e => by
    obtain ⟨-, rfl⟩ := writeMem_eq_next e
    exact .ofEq ⟨rfl, rfl, rfl, rfl, fun hm => Memory.setBytes_wf hm a bs⟩ rfl

/-- USB reset clears every halted flag (R240). -/
theorem State.Inv.clearHalts {s : State} (h : s.Inv) : s.clearHalts.Inv :=
  h.mapEps ⟨rfl, rfl, rfl, rfl, id⟩ rfl (fun _ => rfl) fun _ _ he => { he with ep0NotHalted := fun _ => rfl }

/-- Connect-done resizes max-packets (R243). -/
theorem State.Inv.resizeMaxp {s : State} (h : s.Inv) (sp : Speed) : (resizeMaxp sp s).Inv := by
  refine h.mapEps ⟨rfl, rfl, rfl, rfl, id⟩ rfl (fun e => ?_) fun p e he => ?_
  · split <;> rfl
  · split
    · exact he
    · exact { he with }

theorem writeBackTd_hw_length {p : Nat} {d : XferDraw} {s t : State} (e : writeBackTd p d s = .next t) :
    t.hw.eps.length = s.hw.eps.length := by
  rw [(writeBackTd_eq_next e).2, List.length_set]

theorem hwTransfer_hw_length {p : Nat} {s t : State} (e : hwTransfer p s = .next t) :
    t.hw.eps.length = s.hw.eps.length := by
  unfold hwTransfer at e
  split at e
  · split at e
    · cases e; rfl
    · exact writeBackTd_hw_length e
  · obtain ⟨u, hu, e⟩ := andThen_eq_next.mp e
    rw [writeBackTd_hw_length e]
    split at hu
    · obtain ⟨a, rfl⟩ := hwDma_eq_next hu
      rfl
    · cases hu; rfl

theorem hwTransfer_keepsInv {p : Nat} {s t : State} (e : hwTransfer p s = .next t) : InvKept s t := by
  obtain ⟨ht, -, hmem⟩ := hwTransfer_eq_next e
  exact .ofEq ⟨by rw [ht], by rw [ht], hwTransfer_hw_length e, by rw [ht], hmem⟩ (by rw [ht])

theorem invEventFrame : EventFrame InvKept where
  toAdvFrame := invAdvFrame
  hwTransfer := fun _ _ _ => hwTransfer_keepsInv
  acrossReset := fun _ _ => .ofEq ⟨rfl, rfl, rfl, rfl, id⟩ rfl
  clearHalts := fun _ h => h.clearHalts
  cfgCleared := fun _ => .ofEq ⟨rfl, rfl, rfl, rfl, id⟩ rfl
  latchSpeed := fun _ => .ofEq ⟨rfl, rfl, rfl, rfl, id⟩ rfl
  speed := fun _ _ => .ofEq ⟨rfl, rfl, rfl, rfl, id⟩ rfl
  resize := fun sp _ h => h.resizeMaxp sp
  connected := fun _ _ => .ofEq ⟨rfl, rfl, rfl, rfl, id⟩ rfl
  commandDone := fun p s => by
    obtain ⟨k, he⟩ := landLate_keeps p s
    exact .ofEq (k.trans ⟨rfl, by simp [hwCommandDone, clearActive], rfl, rfl, id⟩) he
  drain := fun p _ h => h.drainDeferred p

/-- After a record the cursor is again at a record of the ring (R34, R231). -/
theorem State.Inv.acknowledge {s : State} (h : s.Inv) : (acknowledge s).Inv := by
  obtain ⟨hwhole, hpos⟩ := Config.wf_ring h.cfgWf
  have haligned : (s.ctl.evtCursor + s.cfg.evtBytes) % s.cfg.evtBufBytes % s.cfg.evtBytes = 0 := by
    rw [Nat.mod_mod_of_dvd _ (Nat.dvd_of_mod_eq_zero hwhole), Nat.add_mod_right, h.cursorInRing.1]
  exact { h with cursorInRing := ⟨haligned, Nat.mod_lt _ hpos⟩ }

/-- INIT puts the cursor at the ring's first record (R290). -/
theorem State.Inv.initRegs {s : State} (h : s.Inv) : (initRegs s).Inv :=
  { h with cursorInRing := ⟨Nat.zero_mod _, (Config.wf_ring h.cfgWf).2⟩ }

theorem countRecord_keepsInv (s : State) : InvKept s (countRecord s) := .ofEq ⟨rfl, rfl, rfl, rfl, id⟩ rfl

theorem deliverRecord_keepsInv (w : Nat) : Within InvKept (deliverRecord w) := by
  intro s t e
  unfold deliverRecord at e
  split at e
  · cases e
    exact countRecord_keepsInv s
  · obtain ⟨u, hu, e⟩ := andThen_eq_next.mp e
    cases e
    exact invOpFrame.trans (invAdvFrame.writeMem _ _ s u hu) (countRecord_keepsInv u)

theorem invMachineFrame : MachineFrame InvKept where
  toEventFrame := invEventFrame
  acknowledge := fun _ h => h.acknowledge
  dispatching := fun _ _ => .ofEq ⟨rfl, rfl, rfl, rfl, id⟩ rfl
  initEp0 := fun p _ h => h.setEp_of_sublist (fun hp => { h.endpoints p hp with }) (.refl _)
  initRegs := fun _ h => h.initRegs
  runStop := fun _ _ => .ofEq ⟨rfl, rfl, rfl, rfl, id⟩ rfl
  clearEnables := fun _ => .ofEq ⟨rfl, by simp [clearEnables], rfl, rfl, id⟩ rfl
  landLate := fun p s => .ofEq (landLate_keeps p s).1 (landLate_keeps p s).2
  takeLine := fun _ _ _ _ => .ofEq ⟨rfl, rfl, rfl, rfl, id⟩ rfl
  deliver := deliverRecord_keepsInv

/-- Settles O17: every write of the machine keeps the invariant, so every step does; the one operation that leaves it on its way,
the drain, meets it again where it stops (`State.InvWhileDraining`). -/
theorem stepKeepsTheInvariant : Obligations.StepKeepsTheInvariant := fun s t h e => invMachineFrame.step s t e h

end Sys2Proof.Machine
end

section
/-! The creation state: its records, and the invariant's base case (R48, R24, R39 to R45). -/

namespace Sys2Proof.Machine

theorem creation_shaped (cfg : Config) : (State.creation cfg).Shaped := by
  simp [State.Shaped, State.creation, Regs.creation]

theorem creation_ep (cfg : Config) (p : Nat) : (State.creation cfg).ep p = Endpoint.creation := by
  simp only [State.ep, State.creation, List.getD_eq_getElem?_getD, List.getElem?_getD_replicate_default_eq]

theorem creation_port (cfg : Config) (p : Nat) : (State.creation cfg).port p = EpPort.creation := by
  simp only [State.port, State.creation, Regs.creation, List.getD_eq_getElem?_getD, List.getElem?_getD_replicate_default_eq]

/-- An endpoint record at creation: nothing queued, active, deferred or halted (R48). -/
theorem creation_epInv (cfg : Config) (p : Nat) : EpInv cfg p Endpoint.creation where
  activeIsHead := by simp [Endpoint.creation]
  indexIffActive := rfl
  deferredOnlyNotReady := fun h => absurd rfl h
  deferredTarget := by simp [Endpoint.creation]
  deferredCap := fun _ _ => Nat.zero_le _
  tdFits := Nat.two_pow_pos _
  ep0NotHalted := fun _ => rfl

theorem creation_inv {cfg : Config} (h : cfg.wf = true) : (State.creation cfg).Inv where
  cfgWf := h
  shaped := creation_shaped cfg
  endpoints := fun p _ => by rw [creation_ep]; exact creation_epInv cfg p
  queuedOnce := by
    have hempty : ∀ n, (List.replicate n Endpoint.creation).flatMap (fun e => e.queue) = [] := by
      simp [Endpoint.creation]
    exact (hempty cfg.numPhysEp) ▸ List.nodup_nil
  cursorInRing := ⟨Nat.zero_mod _, (Config.wf_ring h).2⟩
  memCanonical := rfl

/-- Settles O13, by the creation records every endpoint and register port starts from. -/
theorem resetIsTheCreationState : Obligations.ResetIsTheCreationState := by
  refine ⟨rfl, fun cfg p _ => ?_⟩
  simp only [creation_ep, creation_port]
  exact ⟨rfl, rfl, rfl, rfl, rfl, rfl, rfl, rfl, rfl, fun _ => rfl, rfl, rfl, rfl, rfl, rfl, rfl, rfl, rfl, rfl, rfl, rfl, rfl,
    creation_shaped cfg⟩

/-- Settles O16: the creation state of a well-formed launch meets the invariant, and the spec's default launch is well-formed. -/
theorem resetMeetsTheInvariant : Obligations.ResetMeetsTheInvariant :=
  ⟨creation_inv (by decide), fun _ => creation_inv⟩

end Sys2Proof.Machine
end

section
/-! Who writes the launch parameters, `run_stop`, the ring registers and the device address (R6, R39, R40, R42, R76). -/

namespace Sys2Proof.Machine

/-- A reading no event handler writes is kept by every operation but INIT and TEARDOWN, if taking and acknowledging records keeps
it too. -/
theorem HandlerBlind.dispatchFrame {α : Type} {f : State → α} (hf : HandlerBlind f)
    (hack : ∀ s, f (acknowledge s) = f s) (hdisp : ∀ b s, f (s.setDispatching b) = f s) :
    DispatchFrame (fun s t => f t = f s) where
  toEventFrame := hf.eventFrame
  acknowledge := hack
  dispatching := hdisp

/-! ## Launch parameters -/

theorem deliverRecord_cfg {w : Nat} {s t : State} (e : deliverRecord w s = .next t) : t.cfg = s.cfg := by
  unfold deliverRecord at e
  split at e
  · cases e; rfl
  · obtain ⟨u, hu, e⟩ := andThen_eq_next.mp e
    obtain ⟨-, rfl⟩ := writeMem_eq_next hu
    cases e; rfl

/-- No write of the machine reaches the launch parameters (R6, R76). -/
theorem cfgFrame : MachineFrame (fun s t => t.cfg = s.cfg) where
  toDispatchFrame := HandlerBlind.dispatchFrame (fun _ _ hcfg _ _ _ _ _ _ => hcfg) (fun _ => rfl) (fun _ _ => rfl)
  initEp0 := fun _ _ => rfl
  initRegs := fun _ => rfl
  runStop := fun _ _ => rfl
  clearEnables := fun _ => rfl
  landLate := fun p s => by rw [landLate_eq]
  takeLine := fun _ _ _ _ => rfl
  deliver := fun _ _ _ => deliverRecord_cfg

/-! ## `run_stop` and the ring registers -/

theorem runStopFrame : DispatchFrame (fun s t => t.regs.runStop = s.regs.runStop) :=
  HandlerBlind.dispatchFrame (fun _ _ _ _ _ hrun _ _ _ => hrun) (fun _ => rfl) (fun _ _ => rfl)

theorem evbufFrame :
    DispatchFrame (fun s t => (t.regs.evbufBase, t.regs.evbufSize) = (s.regs.evbufBase, s.regs.evbufSize)) :=
  HandlerBlind.dispatchFrame (fun _ _ _ _ _ _ hbase hsize _ => by rw [hbase, hsize]) (fun _ => rfl) (fun _ _ => rfl)

/-- TEARDOWN stays within a relation that kill_all with Shutdown and its own register writes stay within (R293). -/
theorem OpFrame.teardown {R : State → State → Prop} (h : OpFrame R) (hkill : ∀ p, Within R (killAll p .shutdown))
    (hrun : ∀ s, R s (s.setRunStop false)) (hclear : ∀ s, R s ((clearEnables s).setPhase .unconnected)) :
    Within R teardown := by
  intro s t e
  obtain ⟨u, hu, e⟩ := andThen_eq_next.mp e
  cases e
  exact h.trans (hrun s) (h.trans (h.each hkill _ _ u hu) (hclear u))

theorem exec_evbuf {i : Instr} {s t : State} (e : exec i s = .next t) (hi : i ≠ .init) :
    t.regs.evbufBase = s.regs.evbufBase ∧ t.regs.evbufSize = s.regs.evbufSize := by
  refine Prod.mk.inj ?_
  by_cases htd : i = .teardown
  · subst htd
    exact evbufFrame.toOpFrame.teardown (fun p => evbufFrame.killAll p _) (fun _ => rfl) (fun _ => rfl) s t e
  · exact evbufFrame.execRun i ⟨hi, htd⟩ s t e

/-! ## The device address

The operations that can reach a setup packet, a USB reset or INIT write it; the callbacks of the others make upper-layer calls
only, none of which does (R206, R240, R290). -/

/-- The device address is as it was. -/
def DevAddrKept (s t : State) : Prop := t.regs.devAddr = s.regs.devAddr

theorem devAddr_issuerBlind : IssuerBlind fun s => s.regs.devAddr := fun _ _ _ _ _ hregs =>
  (congrArg Regs.devAddr hregs :)

theorem devAddrOpFrame : OpFrame DevAddrKept where
  refl := fun _ => rfl
  trans := fun hst htu => htu.trans hst
  issue := devAddr_issuerBlind.issue
  notReady := fun _ _ => rfl
  start := devAddr_issuerBlind.start
  push := fun _ _ _ _ => rfl
  setReq := fun _ _ _ _ => rfl
  enable := fun _ _ _ => rfl
  cfgStarted := fun _ => rfl
  emit := fun _ _ _ => rfl
  mark := fun _ _ => rfl

theorem release_devAddr (p : Nat) (r : ReqRef) (res : Result) (s : State) : DevAddrKept s (release p r res s) := by
  rw [release_eq]
  rfl

theorem devAddrFrame : CallFrame DevAddrKept where
  toOpFrame := devAddrOpFrame
  release := release_devAddr
  stall := devAddrOpFrame.stallOfPhase release_devAddr fun _ _ => rfl
  setType := fun _ _ _ _ _ => rfl
  halted := fun _ _ _ _ => rfl
  popCbs := fun _ _ _ _ => rfl
  popMap := fun _ => rfl
  fresh := fun _ _ => rfl
  drop := fun _ _ => rfl

/-- kill_all without Success advances no EP0 phase, so it handles no setup packet (R185). -/
theorem killAll_devAddr (p : Nat) {res : Result} (hres : res ≠ .success) : Within DevAddrKept (killAll p res) :=
  devAddrOpFrame.killAllWith release_devAddr devAddrFrame.callback (fun h => absurd h hres) p

theorem ep0Stall_devAddr : Within DevAddrKept ep0Stall :=
  devAddrOpFrame.chain (devAddrOpFrame.issueCommand _) (devAddrFrame.stall _ devAddrFrame.callback)

theorem upcallSetup_devAddr {pkt : BitVec 64} {s : State} {x : State × Int} (e : upcallSetup pkt s = .next x) :
    DevAddrKept s x.1 := by
  obtain ⟨u, hu, e⟩ := andThen_eq_next.mp e
  cases e
  exact (devAddrOpFrame.each (fun c => devAddrFrame.nestedCall devAddrFrame.callback c) _ _ u hu :)

theorem ep0NotReady_devAddr (p : Nat) : Within DevAddrKept (ep0NotReady p) := by
  intro s t e
  unfold ep0NotReady at e
  simp only at e
  split at e
  · exact (devAddrOpFrame.submitInternal _ _ _ _ _ t e :)
  · cases e; rfl

theorem onXferNotReady_devAddr (p : Nat) : Within DevAddrKept (onXferNotReady p) := by
  intro s t e
  unfold onXferNotReady at e
  split at e
  · exact ep0NotReady_devAddr p s t e
  · cases e; rfl

theorem onCmdComplete_devAddr (p : Nat) : Within DevAddrKept (onCmdComplete p) := by
  intro s t e
  have hdone : DevAddrKept s (hwCommandDone p s) := by
    have hcleared : hwCommandDone p s = clearActive p (landLate p s) := rfl
    rw [hcleared, landLate_eq]
    rfl
  have hdrained := devAddrOpFrame.trans hdone (devAddr_issuerBlind.drain p _)
  unfold onCmdComplete at e
  simp only at e
  split at e
  · exact devAddrOpFrame.trans hdrained (devAddrOpFrame.start p _ t e)
  · cases e; exact hdrained

theorem onConnectDone_devAddr : Within DevAddrKept onConnectDone := by
  intro s t e
  obtain ⟨s2, h2, e⟩ := andThen_eq_next.mp e
  obtain ⟨s3, h3, e⟩ := andThen_eq_next.mp e
  have hactivated : DevAddrKept s s3 :=
    (devAddrOpFrame.trans (devAddrOpFrame.activate 0 _ s2 h2) (devAddrOpFrame.activate 1 s2 s3 h3) :)
  simp only at e
  split at e
  · exact devAddrOpFrame.trans hactivated (devAddrOpFrame.submitInternal _ _ _ _ _ t e :)
  · cases e; exact hactivated

theorem upcallDisconnect_devAddr (s : State) : DevAddrKept s (upcallDisconnect s) := by
  unfold upcallDisconnect
  split <;> rfl

theorem onDisconnect_devAddr : Within DevAddrKept onDisconnect := by
  intro s t e
  cases e
  exact (upcallDisconnect_devAddr s :)

theorem onLinkState_devAddr (st : BitVec 4) : Within DevAddrKept (onLinkState st) := by
  intro s t e
  unfold onLinkState at e
  split at e
  · exact onDisconnect_devAddr s t e
  · cases e; rfl

/-- An operation that is refused on an illegal endpoint stays within a relation that what it does on a legal one stays within
(R104). -/
theorem withEp_within {R : State → State → Prop} {f : Nat → State → Out State} (hf : ∀ n, Within R (f n)) (p : Nat) :
    Within R fun s => withEp p s fun n => f n s :=
  fun s t e => hf p s t (withEp_eq_next s e).2

/-- Every operation but those that can reach a setup packet, a USB reset or INIT leaves the device address. -/
theorem exec_devAddr {i : Instr} {s t : State} (e : exec i s = .next t)
    (hi : i ∉ [Instr.init, .evUsbReset, .interrupt, .procProcessControl])
    (hp : ∀ p, i ≠ .evXferComplete p ∧ i ≠ .procComplete p ∧ i ≠ .procKillAll p ∧ i ≠ .procEp0Advance p) :
    DevAddrKept s t := by
  cases i with
  | init | evUsbReset | interrupt | procProcessControl => simp at hi
  | evXferComplete p | procComplete p | procKillAll p | procEp0Advance p => simpa using hp p
  | enable p => exact devAddrFrame.execEnable p s t e
  | disable p => exact devAddrFrame.execDisable p s t e
  | queue p => exact devAddrFrame.execQueue p s t e
  | dequeue p => exact devAddrFrame.execDequeue p s t e
  | setHalt p => exact devAddrFrame.execSetHalt p s t e
  | allocRequest => exact devAddrFrame.execAllocRequest s t e
  | freeRequest => exact devAddrFrame.execFreeRequest s t e
  | evXferNotReady p => exact withEp_within onXferNotReady_devAddr _ s t e
  | evEpCmdComplete p => exact withEp_within onCmdComplete_devAddr _ s t e
  | evEpOther p => exact withEp_within (f := onEpOther) (fun _ _ _ e' => by cases e'; rfl) _ s t e
  | evConnectDone => exact onConnectDone_devAddr s t e
  | evLinkState => exact onLinkState_devAddr _ s t e
  | evDisconnect => exact onDisconnect_devAddr s t e
  | evOther => cases e; rfl
  | teardown =>
    exact devAddrOpFrame.teardown (fun p => killAll_devAddr p (by simp)) (fun _ => rfl) (fun _ => rfl) s t e
  | cmdStartNewConfig p | cmdSetEpConfig p | cmdSetXferResource p | cmdSetStall p | cmdClearStall p =>
    exact withEp_within (fun _ u => devAddrOpFrame.issueCommand _ u) _ s t e
  | cmdStartTransfer p =>
    have e := (withEp_eq_next s (show execCmdStartTransfer p s = .next t from e)).2
    split at e
    · cases e; rfl
    · exact devAddrOpFrame.issueCommand _ s t e
  | cmdEndTransfer p => exact withEp_within devAddrOpFrame.endTransfer _ s t e
  | upSetup =>
    obtain ⟨x, hx, e⟩ := andThen_eq_next.mp e
    cases e
    exact (upcallSetup_devAddr hx :)
  | upDisconnect => cases e; exact upcallDisconnect_devAddr s
  | upSuspend => cases e; unfold upcallSuspend; split <;> rfl
  | upResume => cases e; unfold upcallResume; split <;> rfl
  | upCompleteCb => exact devAddrFrame.callback _ s t e
  | procStartTransfer p => exact withEp_within devAddrOpFrame.start _ s t e
  | procIssue p =>
    obtain ⟨x, hx, e⟩ := andThen_eq_next.mp (withEp_eq_next s (show execProcIssue p s = .next t from e)).2
    cases e
    exact (devAddrOpFrame.issue _ s x hx :)
  | procActivate p => exact withEp_within devAddrOpFrame.activate _ s t e
  | procDeactivate p => exact withEp_within devAddrOpFrame.deactivate _ s t e
  | procDrainDeferred p =>
    have e := (withEp_eq_next s (show execProcDrainDeferred p s = .next t from e)).2
    cases e
    exact devAddr_issuerBlind.drain _ s
  | procEp0Stall => exact ep0Stall_devAddr s t e

/-- Settles O20: the launch parameters over the frame of the whole machine, `run_stop` and the ring registers over the frame of
the dispatcher (and TEARDOWN), the device address by the operations that reach none of its writers. -/
theorem controlRegistersHaveTheirWriters : Obligations.ControlRegistersHaveTheirWriters :=
  ⟨fun s t e => cfgFrame.step s t e, fun i s t e hinit htd => runStopFrame.execRun i ⟨hinit, htd⟩ s t e,
    fun _ _ _ e hinit => exec_evbuf e hinit, fun _ _ _ e hi hp => exec_devAddr e hi hp⟩

end Sys2Proof.Machine
end

section
/-! The bytes of a setup packet, and its fields (R71, R103, R193, R194). -/

namespace Sys2Proof.Machine

/-! ## Bytes of a little-endian value (R70) -/

/-- Byte `k` of the value of little-endian bytes is the `k`-th of them; past the last it is 0. -/
theorem ofBytes_div_mod (bs : List Byte) (k : Nat) : ofBytes bs / 256 ^ k % 256 = (bs.getD k 0).toNat := by
  induction bs generalizing k with
  | nil => simp [ofBytes]
  | cons b bs ih =>
    have hb := b.isLt
    cases k with
    | zero =>
      simp only [ofBytes, pow_zero, Nat.div_one, List.getD_cons_zero]
      omega
    | succ k =>
      have htail : ofBytes (b :: bs) / 256 = ofBytes bs := by
        simp only [ofBytes]
        omega
      rw [pow_succ', ← Nat.div_div_eq_div_mul, htail, ih, List.getD_cons_succ]

/-! ## Fields of the packet -/

/-- An 8-bit field of the packet at a byte boundary is that byte (R71). -/
theorem extractLsb'_setupPacket (bs : List Byte) {k : Nat} (hk : k < 8) :
    (setupPacket bs).extractLsb' (8 * k) 8 = bs.getD k 0 := by
  refine BitVec.eq_of_toNat_eq ?_
  have hpow : (2 : Nat) ^ (8 * k) = 256 ^ k := pow_mul 2 8 k
  have hsplit : (2 : Nat) ^ 64 = 256 ^ k * (256 * 256 ^ (7 - k)) := by
    rw [← pow_succ', ← pow_add, show k + (7 - k + 1) = 8 by omega]
    norm_num
  rw [← ofBytes_div_mod, setupPacket, BitVec.extractLsb'_toNat, BitVec.toNat_ofNat, Nat.shiftRight_eq_div_pow, hpow, hsplit,
    Nat.mod_mul_right_div_self, Nat.mod_mul_right_mod]

/-- A 16-bit field of a packet is its two bytes, the first the low one (R70). -/
theorem extractLsb'_two_bytes (pkt : BitVec 64) (lo : Nat) :
    pkt.extractLsb' lo 16 = pkt.extractLsb' (lo + 8) 8 ++ pkt.extractLsb' lo 8 := by
  rw [BitVec.extractLsb'_append_extractLsb'_eq_extractLsb' (by omega)]

/-- Each byte of the packet in its field, a 16-bit one little-endian (R71, R193). -/
theorem decodeSetup_eight_bytes (b0 b1 b2 b3 b4 b5 b6 b7 : Byte) :
    decodeSetup (setupPacket [b0, b1, b2, b3, b4, b5, b6, b7]) =
      { bmRequestType := b0, bRequest := b1, wValue := b3 ++ b2, wIndex := b5 ++ b4, wLength := b7 ++ b6
        hasData := decide (0 < (b7 ++ b6).toNat), dataDir := if bits b0.toNat 7 7 = 1 then .IN else .OUT } := by
  have hbyte : ∀ k, k < 8 → (setupPacket [b0, b1, b2, b3, b4, b5, b6, b7]).extractLsb' (8 * k) 8 =
      [b0, b1, b2, b3, b4, b5, b6, b7].getD k 0 := fun k => extractLsb'_setupPacket _
  simp only [decodeSetup, extractLsb'_two_bytes]
  rw [hbyte 0 (by decide), hbyte 1 (by decide), hbyte 2 (by decide), hbyte 3 (by decide), hbyte 4 (by decide),
    hbyte 5 (by decide), hbyte 6 (by decide), hbyte 7 (by decide)]
  rfl

/-- A 16-bit field is 0 exactly if both its bytes are. -/
theorem append_toNat_pos (hi lo : Byte) : 0 < (hi ++ lo).toNat ↔ lo ≠ 0 ∨ hi ≠ 0 := by
  have hvalue : (hi ++ lo).toNat = hi.toNat * 256 + lo.toNat := opWord_toNat hi lo
  have hlo : lo = 0 ↔ lo.toNat = 0 := BitVec.toNat_inj.symm
  have hhi : hi = 0 ↔ hi.toNat = 0 := BitVec.toNat_inj.symm
  rw [hvalue, Ne, Ne, hlo, hhi]
  omega

theorem bits_seven (b : Byte) : bits b.toNat 7 7 = 1 ↔ 128 ≤ b.toNat := by
  have hb := b.isLt
  simp only [bits]
  omega

theorem bits_six_five (b : Byte) : bits b.toNat 6 5 = b.toNat / 32 % 4 := rfl

/-- The five codes, tested in ascending order (R103). -/
theorem localReqOfCode_toNat (b : Byte) :
    localReqOfCode b.toNat =
      if b = 0 then some .getStatus else if b = 1 then some .clearFeature else if b = 3 then some .setFeature
      else if b = 5 then some .setAddress else if b = 48 then some .setSel else none := by
  have hcode : ∀ c : Byte, b = c ↔ b.toNat = c.toNat := fun c => BitVec.toNat_inj.symm
  simp only [hcode]
  unfold localReqOfCode
  split <;> simp_all

/-- Settles O7: every field of the packet is a string of its bytes, and the codes are told apart one by one. -/
theorem setupPacketFields : Obligations.SetupPacketFields := by
  intro b0 b1 b2 b3 b4 b5 b6 b7
  simp only [decodeSetup_eight_bytes, localReq, localReqOfCode_toNat, bits_seven, bits_six_five, append_toNat_pos,
    decide_eq_true_eq, ite_not, true_and]

end Sys2Proof.Machine
end

section
/-! The dispatcher's own state and the records waiting in the ring: taking a line touches neither, and no operation but
INTERRUPT and INIT writes the cursor or `dispatching` (R82, R84, R230, R273). -/

namespace Sys2Proof.Machine

/-! ## Waiting records (R43, R82) -/

/-- The ring and the dispatcher's record stay, no record leaves the ring, and every waiting byte keeps its value, the cursor
being in the ring. -/
structure RecordsKept (s t : State) : Prop where
  cfg : t.cfg = s.cfg
  ctl : t.ctl = s.ctl
  base : t.regs.evbufBase = s.regs.evbufBase
  count : s.regs.evbufCount ≤ t.regs.evbufCount
  bytes : s.ctl.evtCursor < s.cfg.evtBufBytes → ∀ a, s.pendingByte a = true → Memory.get t.mem a = Memory.get s.mem a

theorem RecordsKept.refl (s : State) : RecordsKept s s := ⟨rfl, rfl, rfl, Nat.le_refl _, fun _ _ _ => rfl⟩

/-- A waiting byte still waits. -/
theorem RecordsKept.pending {s t : State} (h : RecordsKept s t) {a : Nat} (ha : s.pendingByte a = true) :
    t.pendingByte a = true := by
  simp only [State.pendingByte, decide_eq_true_eq, h.cfg, h.ctl, h.base] at ha ⊢
  exact ⟨ha.1, ha.2.1, Nat.lt_of_lt_of_le ha.2.2 h.count⟩

theorem RecordsKept.trans {s t u : State} (h : RecordsKept s t) (k : RecordsKept t u) : RecordsKept s u where
  cfg := k.cfg.trans h.cfg
  ctl := k.ctl.trans h.ctl
  base := k.base.trans h.base
  count := h.count.trans k.count
  bytes := fun hcur a ha => (k.bytes (by rw [h.ctl, h.cfg]; exact hcur) a (h.pending ha)).trans (h.bytes hcur a ha)

theorem RecordsKept.each {α : Type} {f : α → State → Out State} (hf : ∀ a, Within RecordsKept (f a)) (l : List α) :
    Within RecordsKept (eachInOrder f l) := by
  induction l with
  | nil => intro s t e; cases e; exact .refl s
  | cons a l ih =>
    intro s t e
    obtain ⟨u, hu, e⟩ := andThen_eq_next.mp e
    exact (hf a s u hu).trans (ih u t e)

/-! ## What a line does before its operation (R110, R111, R134) -/

theorem landLate_keepsRecords (p : Nat) (s : State) : RecordsKept s (landLate p s) := by
  rw [landLate_eq]
  exact ⟨rfl, rfl, rfl, Nat.le_refl _, fun _ _ _ => rfl⟩

theorem landAll_keepsRecords (ps : List Nat) (s : State) : RecordsKept s (landAll ps s) := by
  induction ps generalizing s with
  | nil => exact .refl s
  | cons p ps ih => exact (landLate_keepsRecords p s).trans (ih _)

/-- A write from outside that is not refused meets no waiting byte (R82). -/
theorem writeOutside_not_pending {a : Nat} {bs : List Byte} {s t : State} (e : writeOutside a bs s = .next t) {i : Nat}
    (hi : i < bs.length) : s.pendingByte (a + i) = false := by
  unfold writeOutside at e
  split at e
  · cases e
  · rename_i hfree
    simp only [List.any_eq_true, List.mem_range, not_exists, not_and, Bool.not_eq_true] at hfree
    exact hfree i hi

theorem outsideWrite_keepsRecords (x : Nat × List Byte) : Within RecordsKept (outsideWrite x) := by
  intro s t e
  have hfree : ∀ b, s.pendingByte b = true → b < x.1 ∨ x.1 + x.2.length ≤ b := by
    intro b hb
    by_contra hin
    have hnot := writeOutside_not_pending e (i := b - x.1) (by omega)
    rw [Nat.add_sub_of_le (by omega)] at hnot
    exact Bool.noConfusion (hb.symm.trans hnot)
  obtain ⟨-, rfl⟩ := writeMem_eq_next (writeOutside_eq_next e)
  exact ⟨rfl, rfl, rfl, Nat.le_refl _, fun _ b hb => Memory.get_setBytes_outside _ _ _ (hfree b hb)⟩

/-- A record is written behind those waiting if it has room, and is counted in any case (R111, log 35). -/
theorem deliverRecord_cases {w : Nat} {s t : State} (e : deliverRecord w s = .next t) :
    t = countRecord s ∨ s.regs.evbufCount + s.cfg.evtBytes ≤ s.cfg.evtBufBytes ∧
      t = countRecord { s with
        mem := Memory.setBytes s.mem (s.regs.evbufBase + (s.ctl.evtCursor + s.regs.evbufCount) % s.cfg.evtBufBytes)
          (toBytes s.cfg.evtBytes w) } := by
  unfold deliverRecord at e
  split at e
  · cases e
    exact .inl rfl
  · obtain ⟨u, hu, e⟩ := andThen_eq_next.mp e
    obtain ⟨-, rfl⟩ := writeMem_eq_next hu
    cases e
    exact .inr ⟨by omega, rfl⟩

/-- With room for `size` bytes in the ring of `ring` bytes, no byte from the first free offset to `size` bytes on is among the
`count` waiting from the cursor on. -/
theorem waiting_outside_free {cursor count size ring x : Nat} (hcur : cursor < ring) (hroom : count + size ≤ ring)
    (hx : x < ring) (hwait : (x + ring - cursor) % ring < count) :
    x < (cursor + count) % ring ∨ (cursor + count) % ring + size ≤ x := by
  have hoff : (x + ring - cursor) % ring = if cursor ≤ x then x - cursor else x + ring - cursor := by
    split
    · rw [show x + ring - cursor = x - cursor + ring by omega, Nat.add_mod_right, Nat.mod_eq_of_lt (by omega)]
    · exact Nat.mod_eq_of_lt (by omega)
  have hfree : (cursor + count) % ring = if cursor + count < ring then cursor + count else cursor + count - ring := by
    split
    · exact Nat.mod_eq_of_lt ‹_›
    · rw [Nat.mod_eq_sub_mod (by omega), Nat.mod_eq_of_lt (by omega)]
  rw [hoff] at hwait
  rw [hfree]
  split at hwait <;> split <;> omega

theorem deliverRecord_keepsRecords (w : Nat) : Within RecordsKept (deliverRecord w) := by
  intro s t e
  obtain rfl | ⟨hroom, rfl⟩ := deliverRecord_cases e
  · exact ⟨rfl, rfl, rfl, Nat.le_add_right _ _, fun _ _ _ => rfl⟩
  · refine ⟨rfl, rfl, rfl, Nat.le_add_right _ _, fun hcur a ha => Memory.get_setBytes_outside _ _ _ ?_⟩
    simp only [State.pendingByte, decide_eq_true_eq] at ha
    obtain ⟨hlo, hhi, hwait⟩ := ha
    have hout := waiting_outside_free hcur hroom (by omega) hwait
    rw [toBytes_length]
    omega

/-- Taking a line leaves the records waiting in the ring (R82). -/
theorem loadLine_keepsRecords {ln : Line} {s t : State} (e : loadLine ln s = .next t) : RecordsKept s t := by
  obtain ⟨u, hu, e⟩ := andThen_eq_next.mp e
  have hargs : RecordsKept s { s with args := ln.args, draws := ln.draws } :=
    ⟨rfl, rfl, rfl, Nat.le_refl _, fun _ _ _ => rfl⟩
  exact hargs.trans ((landAll_keepsRecords _ _).trans ((RecordsKept.each outsideWrite_keepsRecords _ _ u hu).trans
    (RecordsKept.each deliverRecord_keepsRecords _ u t e)))

/-! ## The dispatcher's record -/

/-- A port hands on the state it was given, with at most one more record in the ring (R91). -/
theorem accept_cases {port : Port} {i : Instr} {s : State} {x : Option Instr × State} (e : accept port i s = .next x) :
    x.2 = s ∨ ∃ w, deliverRecord w s = .next x.2 := by
  unfold accept at e
  split at e
  · cases e; exact .inl rfl
  · split at e
    case h_3 =>
      split at e
      · split at e
        · obtain ⟨u, hu, e⟩ := andThen_eq_next.mp e
          cases e
          exact .inr ⟨_, hu⟩
        · cases e; exact .inl rfl
      · cases e
    all_goals cases e
    all_goals exact .inl rfl

/-- Fetching the next operation leaves the controller's record. -/
theorem fetch_ctl {s : State} {x : Option Instr × State} (e : fetch s = .next x) : x.2.ctl = s.ctl := by
  unfold fetch at e
  split at e
  · cases e; rfl
  · split at e
    · cases e
    · obtain ⟨u, hu, e⟩ := andThen_eq_next.mp e
      have hload : u.ctl = s.ctl := (loadLine_keepsRecords hu).ctl
      obtain hx | ⟨w, hw⟩ := accept_cases e
      · rw [hx, hload]
      · rw [(deliverRecord_keepsRecords w u x.2 hw).ctl, hload]

theorem cursor_handlerBlind : HandlerBlind fun s => s.ctl.evtCursor := fun _ _ _ hcur _ _ _ _ _ => hcur

theorem dispatching_handlerBlind : HandlerBlind fun s => s.ctl.dispatching := fun _ _ _ _ hdisp _ _ _ _ => hdisp

/-- A reading that no handler writes, and neither `run_stop`, the enables nor the EP0 phase reach, is kept by every operation
but INTERRUPT and INIT. -/
theorem HandlerBlind.exec_keeps {α : Type} {f : State → α} (hf : HandlerBlind f) (hrun : ∀ s, f (s.setRunStop false) = f s)
    (hclear : ∀ s, f ((clearEnables s).setPhase .unconnected) = f s) {i : Instr} (hint : i ≠ .interrupt) (hinit : i ≠ .init) :
    Within (fun s t => f t = f s) (exec i) := by
  by_cases htd : i = .teardown
  · subst htd
    exact hf.opFrame.teardown (fun p => hf.eventFrame.killAll p _) hrun hclear
  · exact hf.eventFrame.exec i ⟨hint, hinit, htd⟩

/-- INIT stays within a relation that the operations it is made of and its own writes stay within (R290). -/
theorem AdvFrame.initController {R : State → State → Prop} (h : AdvFrame R) (hregs : ∀ s, R s (initRegs s))
    (hrun : ∀ s, R s (s.setRunStop true)) : Within R initController := by
  intro s t e
  unfold Sys2Proof.Machine.initController at e
  split at e
  · cases e
  · obtain ⟨s1, h1, e⟩ := andThen_eq_next.mp e
    obtain ⟨s2, h2, e⟩ := andThen_eq_next.mp e
    obtain ⟨s3, h3, e⟩ := andThen_eq_next.mp e
    cases e
    have hnote : R s (noteInit s) := by
      unfold noteInit
      split
      · exact h.refl s
      · exact h.mark _ s
    have hep0 : ∀ p u, R u (initEp0 p u) := fun p u => h.setType p _ _ _ u
    have hwrites := h.trans hnote (h.trans (hep0 0 _) (h.trans (hep0 1 _) (hregs _)))
    exact h.trans hwrites (h.trans (h.activate 0 _ s1 h1) (h.trans (h.activate 1 s1 s2 h2)
      (h.trans (h.armSetup s2 s3 h3) (hrun s3))))

/-- The dispatcher returns with `dispatching` clear (R273). -/
theorem dispatch_clears_dispatching {s t : State} (e : dispatch s = .next t) : t.ctl.dispatching = false := by
  unfold dispatch at e
  split at e
  · cases e
  · split at e
    · cases e
    · obtain ⟨u, -, e⟩ := andThen_eq_next.mp e
      cases e
      rfl

/-- An operation that starts outside a dispatch ends outside one (R230, R273). -/
theorem exec_outside_dispatch {i : Instr} {s t : State} (e : exec i s = .next t) (hs : s.ctl.dispatching = false) :
    t.ctl.dispatching = false := by
  by_cases hint : i = .interrupt
  · subst hint
    exact dispatch_clears_dispatching e
  by_cases hinit : i = .init
  · subst hinit
    exact (dispatching_handlerBlind.eventFrame.initController (fun _ => rfl) (fun _ => rfl) s t e).trans hs
  · exact (dispatching_handlerBlind.exec_keeps (fun _ => rfl) (fun _ => rfl) hint hinit s t e).trans hs

theorem step_outside_dispatch {s t : State} (e : step s = .next t) (hs : s.ctl.dispatching = false) :
    t.ctl.dispatching = false := by
  obtain ⟨x, hx, e⟩ := andThen_eq_next.mp e
  have hfetched : x.2.ctl.dispatching = false := by rw [fetch_ctl hx, hs]
  split at e
  · exact exec_outside_dispatch e hfetched
  · cases e; exact hfetched

/-- Settles O21: fetching leaves the controller's record, and of the operations INTERRUPT alone sets `dispatching`, clear again
when it returns; no handler writes the cursor; what a line brings keeps clear of the records waiting. -/
theorem dispatcherStateIsTheDispatchersAlone : Obligations.DispatcherStateIsTheDispatchersAlone := by
  refine ⟨fun s t hs e => step_outside_dispatch e hs, fun i s t e hint hinit => ?_, fun s t ln e _ _ _ hcur _ a ha => ?_⟩
  · exact cursor_handlerBlind.exec_keeps (fun _ => rfl) (fun _ => rfl) hint hinit s t e
  · exact (loadLine_keepsRecords e).bytes hcur a ha

end Sys2Proof.Machine
end

section
/-! Operation words: the word of an operation decodes to it, and no other word does (R90 to R97, R104). -/

namespace Sys2Proof

/-- The word of an operation decodes to it (R90 to R97). -/
theorem decode_encode (i : Instr) : decode (encode i) = .ok i := by
  cases i <;> exact decode_opWord _ _

/-- What a decoder answers for the word `{c, p}` is, where it is an operation, the operation with that word. -/
def AnswersOwnWord (c : BitVec 8) (p : EpField) (r : Except DecodeReject Instr) : Prop :=
  ∀ i, r = .ok i → encode i = opWord c p

namespace AnswersOwnWord

variable {c : BitVec 8} {p : EpField} {i : Instr}

theorem error (why : DecodeReject) : AnswersOwnWord c p (.error why) := fun _ h => nomatch h

theorem ok (hi : encode i = opWord c p) : AnswersOwnWord c p (.ok i) := by
  intro j h
  cases h
  exact hi

theorem noOperand (hi : encode i = opWord c 0) : AnswersOwnWord c p (noOperand p i) := by
  intro j h
  obtain ⟨rfl, rfl⟩ := noOperand_eq_ok h
  exact hi

end AnswersOwnWord

/-! ## The table of each class (R92 to R97) -/

section

variable (p : EpField)

theorem decodeUpperCall_answersOwnWord : ∀ code, AnswersOwnWord (.ofNat 8 (16 * 1 + code)) p (decodeUpperCall code p)
  | 0 | 1 | 2 | 3 | 4 => .ok rfl
  | 5 | 6 => .noOperand rfl
  | _ + 7 => .error .unlistedCode

theorem decodeEventOp_answersOwnWord : ∀ code, AnswersOwnWord (.ofNat 8 (16 * 2 + code)) p (decodeEventOp code p)
  | 0 | 1 | 2 | 3 => .ok rfl
  | 8 | 9 | 10 | 11 | 15 => .noOperand rfl
  | 4 | 5 | 6 | 7 | 12 | 13 | 14 | _ + 16 => .error .unlistedCode

theorem decodeLifecycle_answersOwnWord : ∀ code, AnswersOwnWord (.ofNat 8 (16 * 3 + code)) p (decodeLifecycle code p)
  | 0 | 1 | 2 => .noOperand rfl
  | _ + 3 => .error .unlistedCode

theorem decodeCommandOp_answersOwnWord : ∀ code, AnswersOwnWord (.ofNat 8 (16 * 4 + code)) p (decodeCommandOp code p)
  | 0 | 1 | 2 | 3 | 4 | 5 | 6 => .ok rfl
  | _ + 7 => .error .unlistedCode

theorem decodeUpcall_answersOwnWord : ∀ code, AnswersOwnWord (.ofNat 8 (16 * 5 + code)) p (decodeUpcall code p)
  | 0 | 1 | 2 | 3 | 4 => .noOperand rfl
  | _ + 5 => .error .unlistedCode

theorem decodeInternal_answersOwnWord : ∀ code, AnswersOwnWord (.ofNat 8 (16 * 6 + code)) p (decodeInternal code p)
  | 0 | 1 | 2 | 3 | 4 | 5 | 7 | 8 => .ok rfl
  | 6 | 9 => .noOperand rfl
  | _ + 10 => .error .unlistedCode

/-- A byte by its two nibbles. -/
theorem ofNat_nibbles {c : BitVec 8} {n : Nat} (h : c.toNat / 16 = n) : BitVec.ofNat 8 (16 * n + c.toNat % 16) = c := by
  rw [← h, Nat.div_add_mod, BitVec.ofNat_toNat, BitVec.setWidth_eq]

/-- The table of the word's class, if it has one, answers an operation with that word (R91). -/
theorem decode_answersOwnWord (c : BitVec 8) : AnswersOwnWord c p (decode (opWord c p)) := by
  rw [decode_opWord]
  split
  case h_1 h => simpa only [ofNat_nibbles h] using decodeUpperCall_answersOwnWord p (c.toNat % 16)
  case h_2 h => simpa only [ofNat_nibbles h] using decodeEventOp_answersOwnWord p (c.toNat % 16)
  case h_3 h => simpa only [ofNat_nibbles h] using decodeLifecycle_answersOwnWord p (c.toNat % 16)
  case h_4 h => simpa only [ofNat_nibbles h] using decodeCommandOp_answersOwnWord p (c.toNat % 16)
  case h_5 h => simpa only [ofNat_nibbles h] using decodeUpcall_answersOwnWord p (c.toNat % 16)
  case h_6 h => simpa only [ofNat_nibbles h] using decodeInternal_answersOwnWord p (c.toNat % 16)
  case h_7 => exact .error .reservedClass

end

/-! ## Words -/

theorem encode_of_decode {w : OpWord} {i : Instr} (h : decode w = .ok i) : encode i = w := by
  rw [eq_opWord w] at h ⊢
  exact decode_answersOwnWord _ _ i h

theorem decode_reservedClass {w : OpWord} (h : w.toNat / 4096 = 0 ∨ 7 ≤ w.toNat / 4096) :
    decode w = .error .reservedClass := by
  have hw := w.isLt
  have hcls : bits w.toNat 15 12 = w.toNat / 4096 := by
    simp only [bits]
    omega
  simp only [decode, hcls]
  split
  case h_7 => rfl
  all_goals omega

/-- A word that is no operation's decodes to no operation (R104). -/
theorem decode_error_of_no_encoding {w : OpWord} (h : ∀ i, encode i ≠ w) : ∃ why, decode w = .error why := by
  cases hd : decode w with
  | error why => exact ⟨why, rfl⟩
  | ok i => exact absurd (encode_of_decode hd) (h i)

/-- Settles O1: the decoder reads a word by its two bytes, and each constructor has its own high byte. -/
theorem decodeOfEncodeIsTheInstruction : Obligations.DecodeOfEncodeIsTheInstruction := decode_encode

/-- Settles O2: in every class, whatever its table answers for a code has that word. -/
theorem encodeOfDecodeIsTheWord : Obligations.EncodeOfDecodeIsTheWord := fun _ _ => encode_of_decode

/-- Settles O3: the six words are the words of those operations. -/
theorem specWordsDecodeAsNamed : Obligations.SpecWordsDecodeAsNamed :=
  ⟨decode_encode (.queue 2), decode_encode (.evXferComplete 2), decode_encode .init, decode_encode (.cmdEndTransfer 3),
    decode_encode .upCompleteCb, decode_encode .procEp0Stall⟩

end Sys2Proof
end

section
/-! Words that are refused: illegal words, words that are no input, and endpoints that do not exist (R104). -/

namespace Sys2Proof.Machine

/-- An operation with an endpoint runs under the check of its endpoint, so a missing endpoint takes the other branch (R104). -/
theorem exec_illegalEndpoint {s : State} {i : Instr} {p : EpField} (h : i.endpoint? = some p)
    (hp : s.cfg.numPhysEp ≤ p.toNat) : exec i s = .refused .illegalEndpoint := by
  cases i <;> cases h <;> exact if_neg (Nat.not_lt.mpr hp)

theorem instr_wf_eq_false {n : Nat} {i : Instr} {p : EpField} (h : i.endpoint? = some p) (hp : n ≤ p.toNat) :
    i.wf n = false := by
  simp only [Instr.wf, h, decide_eq_false_iff_not]
  omega

theorem accept_external_notAnInput {i : Instr} (h : i.cls = .command ∨ i.cls = .upcall ∨ i.cls = .internal) (s : State) :
    accept .external i s = .refused .notAnInput := by
  obtain h | h | h := h <;> simp only [accept, h]

theorem accept_external_illegalEvent {i : Instr} {s : State} (h : i.cls = .event) (hwf : i.wf s.cfg.numPhysEp = false) :
    accept .external i s = .refused .illegalEndpoint := by
  simp only [accept, h, hwf, Bool.false_eq_true, if_false]

theorem step_of_fetch_refused {s : State} {why : Refusal} (h : fetch s = .refused why) : step s = .refused why := by
  simp only [step, h, andThen_refused]

theorem fetch_of_illegalWord {s : State} {ln : Line} {rest : List Line} {why : DecodeReject} (ht : s.trace = ln :: rest)
    (hd : decode ln.word = .error why) : fetch s = .refused (.illegalWord why) := by
  simp only [fetch, ht, hd]

/-- Settles O4: what `decode`, `fetch` or `accept` refuses, the step refuses, and what they let through exec checks. -/
theorem illegalWordsAreRefused : Obligations.IllegalWordsAreRefused := by
  refine ⟨fun _ => decode_reservedClass, fun _ => decode_error_of_no_encoding, fun _ _ _ _ ht hd => ?_,
    fun _ s1 _ _ _ ht hport hd hcls hl => ?_, fun _ _ _ => exec_illegalEndpoint, fun s s1 ln _ i _ ht hd hl hi hp hin => ?_⟩
  · exact step_of_fetch_refused (fetch_of_illegalWord ht hd)
  · have hfetch := fetch_of_line ht hd hl
    rw [hport] at hfetch
    exact step_of_fetch_refused (hfetch.trans (accept_external_notAnInput hcls s1))
  · have hfetch := fetch_of_line ht hd hl
    have hexec := exec_illegalEndpoint hi hp
    cases hport : ln.port <;> rw [hport] at hfetch hin
    case engine => exact (step_of_fetch_some hfetch).trans hexec
    case external =>
      obtain hengine | hcall | hevent := hin
      · cases hengine
      · exact (step_of_fetch_some (hfetch.trans (accept_external_call (.inl hcall) s1))).trans hexec
      · exact step_of_fetch_refused (hfetch.trans (accept_external_illegalEvent hevent (instr_wf_eq_false hi hp)))

end Sys2Proof.Machine
end

section
/-! Event records: what the fields of a record word read as, and the launch's own table over them (R100, R6). -/

namespace Sys2Proof

/-- The endpoint event of each kind (R100). -/
theorem decodeEndpointEvent_eq (kind p : Nat) :
    decodeEndpointEvent kind p =
      (if kind = 1 then .xferComplete p else if kind = 3 then .xferNotReady p
       else if kind = 7 then .epCmdComplete p else .epOther p) := by
  unfold decodeEndpointEvent
  split <;> simp_all

/-- The device event of each type (R100). -/
theorem decodeDeviceEvent_eq (ty : Nat) (st : BitVec 4) :
    decodeDeviceEvent ty st =
      (if ty = 0 then .disconnect else if ty = 1 then .usbReset else if ty = 2 then .connectDone
       else if ty = 3 then .linkState st else .other) := by
  unfold decodeDeviceEvent
  split <;> simp_all

theorem decodeEvent_endpointRecord {p kind : Nat} (hp : p < 32) (hkind : kind < 16) (hi : Nat) :
    decodeEvent (2 * p + 64 * kind + 1024 * hi) = decodeEndpointEvent kind p := by
  have hflag : bits (2 * p + 64 * kind + 1024 * hi) 0 0 = 0 := by simp only [bits]; omega
  have hk : bits (2 * p + 64 * kind + 1024 * hi) 9 6 = kind := by simp only [bits]; omega
  have hnum : bits (2 * p + 64 * kind + 1024 * hi) 5 1 = p := by simp only [bits]; omega
  rw [decodeEvent, if_pos hflag, hk, hnum]

theorem decodeEvent_deviceRecord {ty mid st : Nat} (hty : ty < 16) (hmid : mid < 16) (hst : st < 16) (hi : Nat) :
    decodeEvent (1 + 256 * ty + 4096 * mid + 65536 * st + 1048576 * hi) = decodeDeviceEvent ty (.ofNat 4 st) := by
  generalize hw : 1 + 256 * ty + 4096 * mid + 65536 * st + 1048576 * hi = w
  have hflag : ¬ bits w 0 0 = 0 := by simp only [bits]; omega
  have hlow : bits w 7 1 = 0 := by simp only [bits]; omega
  have ht : bits w 11 8 = ty := by simp only [bits]; omega
  have hs : bits w 19 16 = st := by simp only [bits]; omega
  rw [decodeEvent, if_neg hflag, if_pos hlow, ht, hs]

theorem decodeEvent_reservedRecord {x : Nat} (hpos : 0 < x) (hx : x < 128) (hi : Nat) :
    decodeEvent (1 + 2 * x + 256 * hi) = .other := by
  have hflag : ¬ bits (1 + 2 * x + 256 * hi) 0 0 = 0 := by simp only [bits]; omega
  have hlow : ¬ bits (1 + 2 * x + 256 * hi) 7 1 = 0 := by simp only [bits]; omega
  rw [decodeEvent, if_neg hflag, if_neg hlow]

theorem find?_of_unlisted {table : List (Nat × Event)} {w : Nat} (h : ∀ x ∈ table, x.1 ≠ w) :
    table.find? (fun x => x.1 == w) = none := by
  simpa [List.find?_eq_none] using h

theorem decodeEventBy_unlisted {table : List (Nat × Event)} {w : Nat} (h : ∀ x ∈ table, x.1 ≠ w) :
    decodeEventBy table w = decodeEvent w := by
  rw [decodeEventBy, find?_of_unlisted h]

theorem decodeEventBy_firstEntry {before : List (Nat × Event)} {w : Nat} (h : ∀ x ∈ before, x.1 ≠ w) (e : Event)
    (after : List (Nat × Event)) : decodeEventBy (before ++ (w, e) :: after) w = e := by
  have hfind : (before ++ (w, e) :: after).find? (fun x => x.1 == w) = some (w, e) := by
    simp [List.find?_append, find?_of_unlisted h]
  rw [decodeEventBy, hfind]

/-- Settles O5: each field is read where the record has it; the table answers before R100 does. -/
theorem eventRecordsDecodeAsTabled : Obligations.EventRecordsDecodeAsTabled := by
  refine ⟨fun p kind hi hp hkind => ?_, fun ty mid st hi hty hmid hst => ?_, fun _ hi hpos hx => ?_,
    fun _ _ => decodeEventBy_unlisted, fun _ after _ e h => decodeEventBy_firstEntry h e after⟩
  · rw [decodeEvent_endpointRecord hp hkind, decodeEndpointEvent_eq]
  · rw [decodeEvent_deviceRecord hty hmid hst, decodeDeviceEvent_eq]
  · exact decodeEvent_reservedRecord hpos hx hi

end Sys2Proof
end

section
/-! The default layouts of a TD and of `EPCMD[p]` as numbers (R99, R101), and a register's bytes in the window (R38, R70). -/

namespace Sys2Proof.Machine

/-! ## Parts of a little-endian value (R70) -/

theorem ofBytes_take (bs : List Byte) (n : Nat) : ofBytes (bs.take n) = ofBytes bs % 256 ^ n := by
  induction bs generalizing n with
  | nil => simp [ofBytes]
  | cons b bs ih =>
    cases n with
    | zero => simp [ofBytes, Nat.mod_one]
    | succ n =>
      have hb := b.isLt
      rw [List.take_succ_cons, ofBytes, ofBytes, ih, pow_succ', Nat.mod_mul, Nat.add_mul_mod_self_left,
        Nat.mod_eq_of_lt (a := b.toNat) hb, show (b.toNat + 256 * ofBytes bs) / 256 = ofBytes bs by omega]

theorem ofBytes_drop (bs : List Byte) (n : Nat) : ofBytes (bs.drop n) = ofBytes bs / 256 ^ n := by
  induction bs generalizing n with
  | nil => simp [ofBytes]
  | cons b bs ih =>
    cases n with
    | zero => simp
    | succ n =>
      have hb := b.isLt
      rw [List.drop_succ_cons, ofBytes, ih, pow_succ', ← Nat.div_div_eq_div_mul,
        show (b.toNat + 256 * ofBytes bs) / 256 = ofBytes bs by omega]

/-! ## A number filled field by field -/

/-- A field put above a number is added to it. -/
theorem putField_above {x lo w v : Nat} (hx : x < 2 ^ lo) (hv : v < 2 ^ w) : putField x lo w v = x + v * 2 ^ lo := by
  have hhigh : x / 2 ^ (lo + w) = 0 :=
    Nat.div_eq_of_lt (Nat.lt_of_lt_of_le hx (Nat.pow_le_pow_right (by decide) (Nat.le_add_right lo w)))
  rw [putField_eq, hhigh, Nat.mod_eq_of_lt hx, Nat.mod_eq_of_lt hv]
  omega

/-- The second of two writes of one field counts. -/
theorem putField_putField_same (x lo w u v : Nat) : putField (putField x lo w u) lo w v = putField x lo w v := by
  obtain ⟨-, hlow, hhigh⟩ := field_parts (a := x / 2 ^ (lo + w)) (Nat.mod_lt u (Nat.two_pow_pos w))
    (Nat.mod_lt x (Nat.two_pow_pos lo))
  rw [putField_eq (putField x lo w u), putField_eq x lo w u, hlow, hhigh, ← putField_eq]

theorem toNat_lt_two_pow_one (b : Bool) : b.toNat < 2 ^ 1 := b.toNat_lt

theorem ctlTypeCode_lt (t : CtlType) : ctlTypeCode t < 2 ^ 3 := by cases t <;> decide

theorem cmdCode_lt (t : CmdType) : cmdCode t < 2 ^ 4 := by cases t <;> decide

theorem cmdTypeOfCode_cmdCode (t : CmdType) : cmdTypeOfCode (cmdCode t) = some t := by cases t <;> rfl

theorem decide_toNat_eq_one (b : Bool) : decide (b.toNat = 1) = b := by cases b <;> rfl

/-! ## The default TD layout (R99) -/

theorem TdLayout.default_wf {a n : Nat} (ha : a ≤ 64) (hn : n ≤ 32) : TdLayout.default.wf a n = true := by
  rw [TdLayout.wf_iff]
  simp only [TdLayout.default, true_or, and_true]
  omega

/-- A TD in the default layout as one number: each field at the bit R99 gives it. -/
theorem ofBytes_encodeTd_default {c : Config} {t : Td} (hk : c.tdLayout = TdLayout.default) (ha : c.addrBits ≤ 64)
    (hn : c.lenBits ≤ 32) (hbuf : t.bufAddr < 2 ^ c.addrBits) (hlen : t.length < 2 ^ c.lenBits) :
    ofBytes (encodeTd c t) =
      t.bufAddr + t.length * 2 ^ 64 + t.owner.toNat * 2 ^ 96 + ctlTypeCode t.ctlType * 2 ^ 100 := by
  have hbuf64 : t.bufAddr < 2 ^ 64 := Nat.lt_of_lt_of_le hbuf (Nat.pow_le_pow_right (by decide) ha)
  have hlen32 : t.length < 2 ^ 32 := Nat.lt_of_lt_of_le hlen (Nat.pow_le_pow_right (by decide) hn)
  have howner := toNat_lt_two_pow_one t.owner
  have haddr : putField 0 0 c.addrBits t.bufAddr = t.bufAddr := by
    rw [putField_above (Nat.two_pow_pos 0) hbuf]
    omega
  rw [encodeTd_value (hk ▸ TdLayout.default_wf ha hn), hk]
  simp only [TdLayout.default]
  rw [putField_putField_same, haddr, putField_above hbuf64 hlen, putField_above (by omega) howner,
    putField_above (by omega) (ctlTypeCode_lt _)]

/-- The four words of a TD in the default layout (R99). -/
theorem encodeTd_default_words {c : Config} {t : Td} (hk : c.tdLayout = TdLayout.default) (ha : c.addrBits ≤ 64)
    (hn : c.lenBits ≤ 32) (hbuf : t.bufAddr < 2 ^ c.addrBits) (hlen : t.length < 2 ^ c.lenBits) :
    ofBytes ((encodeTd c t).take 4) = t.bufAddr % 2 ^ 32 ∧
    ofBytes (((encodeTd c t).drop 4).take 4) = t.bufAddr / 2 ^ 32 ∧
    ofBytes (((encodeTd c t).drop 8).take 4) = t.length ∧
    ofBytes ((encodeTd c t).drop 12) = t.owner.toNat + 16 * ctlTypeCode t.ctlType := by
  have hbuf64 : t.bufAddr < 2 ^ 64 := Nat.lt_of_lt_of_le hbuf (Nat.pow_le_pow_right (by decide) ha)
  have hlen32 : t.length < 2 ^ 32 := Nat.lt_of_lt_of_le hlen (Nat.pow_le_pow_right (by decide) hn)
  simp only [ofBytes_take, ofBytes_drop, ofBytes_encodeTd_default hk ha hn hbuf hlen]
  omega

/-! ## The default `EPCMD[p]` layout (R101) -/

/-- The command word in the default layout: each field at the bit R101 gives it. -/
theorem encodeEpCmd_default {c : EpCmd} (h : c.resIdx < 128) :
    encodeEpCmd RegMap.default c = cmdCode c.type + 256 * c.force.toNat + 512 * c.ioc.toNat + 1024 * c.active.toNat
      + 65536 * c.resIdx := by
  have htype := cmdCode_lt c.type
  have hforce := toNat_lt_two_pow_one c.force
  have hioc := toNat_lt_two_pow_one c.ioc
  have hactive := toNat_lt_two_pow_one c.active
  simp only [encodeEpCmd, RegMap.default]
  rw [putField_above (Nat.two_pow_pos 0) htype, putField_above (by omega) hforce, putField_above (by omega) hioc,
    putField_above (by omega) hactive, putField_above (by omega) h]
  omega

/-- The command word reads back in the default layout (R101). -/
theorem decodeEpCmd_encodeEpCmd_default {c : EpCmd} (h : c.resIdx < 128) :
    decodeEpCmd RegMap.default (encodeEpCmd RegMap.default c) = some c := by
  have htype := cmdCode_lt c.type
  have hforce := toNat_lt_two_pow_one c.force
  have hioc := toNat_lt_two_pow_one c.ioc
  have hactive := toNat_lt_two_pow_one c.active
  generalize hw : encodeEpCmd RegMap.default c = w
  rw [encodeEpCmd_default h] at hw
  have h0 : getField w 0 4 = cmdCode c.type := by simp only [getField]; omega
  have h8 : getField w 8 1 = c.force.toNat := by simp only [getField]; omega
  have h9 : getField w 9 1 = c.ioc.toNat := by simp only [getField]; omega
  have h10 : getField w 10 1 = c.active.toNat := by simp only [getField]; omega
  have h16 : getField w 16 7 = c.resIdx := by simp only [getField]; omega
  simp only [decodeEpCmd, RegMap.default, h0, h8, h9, h10, h16, cmdTypeOfCode_cmdCode, decide_toNat_eq_one, Option.map_some]

/-! ## The register window (R38, R70) -/

/-- Of the readable registers, only `r` covers a byte of `r`. -/
def State.RegisterApart (s : State) (r : RegName) : Prop :=
  ∀ q ∈ readableRegs s.cfg.numPhysEp, q ≠ r →
    regAddress s.cfg.regMap q + regBytes s.cfg q ≤ regAddress s.cfg.regMap r ∨
    regAddress s.cfg.regMap r + regBytes s.cfg r ≤ regAddress s.cfg.regMap q

theorem windowByte_apart {s : State} {r : RegName} {w i : Nat} (hr : r ∈ readableRegs s.cfg.numPhysEp)
    (hw : s.regWord r = some w) (hapart : s.RegisterApart r) (hi : i < regBytes s.cfg r) :
    s.windowByte (regAddress s.cfg.regMap r + i) = some (BitVec.ofNat 8 (w / 256 ^ i)) := by
  refine windowByte_register hr hi (fun q hq hin => ?_) hw
  by_contra hne
  have hdisjoint := hapart q hq hne
  simp only [inRegister, decide_eq_true_eq] at hin
  omega

theorem readWindow_apart {s : State} {r : RegName} {w : Nat} (hr : r ∈ readableRegs s.cfg.numPhysEp)
    (hw : s.regWord r = some w) (hapart : s.RegisterApart r) (hfits : w < 256 ^ regBytes s.cfg r) :
    s.readWindow (regAddress s.cfg.regMap r) (regBytes s.cfg r) = some w := by
  rw [State.readWindow, windowBytes_toBytes fun _ => windowByte_apart hr hw hapart, Option.map_some, ofBytes_toBytes,
    Nat.mod_eq_of_lt hfits]

/-- Settles O6: the default layouts are sums of their fields, each below the next; in any other layout a field reads back what
was put there. -/
theorem defaultLayoutsAreAsTabled : Obligations.DefaultLayoutsAreAsTabled := by
  refine ⟨fun c t hk ha hn hbuf hlen _ => ?_, fun c t hwf hlen hrem => ?_, fun c bs n o hwf hbs hn => ?_, fun c h => ?_,
    fun s r w hr hw hapart => ?_⟩
  · exact ⟨toBytes_length 16 _, encodeTd_default_words hk ha hn hbuf hlen⟩
  · exact ⟨tdOwner_encodeTd hwf t, (tdRemaining_encodeTd hwf hrem).trans (Nat.mod_eq_of_lt hlen)⟩
  · obtain ⟨howner, hremaining⟩ := tdWriteBack_reads hwf hbs (some n) o
    exact ⟨howner, hremaining.trans (Nat.mod_eq_of_lt hn), tdWriteBack_reads hwf hbs none o⟩
  · exact ⟨decodeEpCmd_encodeEpCmd_default h, encodeEpCmd_default h⟩
  · exact ⟨fun _ => windowByte_apart hr hw hapart, readWindow_apart hr hw hapart⟩

end Sys2Proof.Machine
end

section
/-! The transfer length (R8, R122): what `xferLen` answers in each direction. -/

namespace Sys2Proof.Machine

/-- `roundup(a, b)` is the multiple of `b` that holds `a` and exceeds it by less than one `b` (R8). -/
theorem roundup_bounds (a : Nat) {b : Nat} (hb : 0 < b) : b ∣ roundup a b ∧ a ≤ roundup a b ∧ roundup a b < a + b := by
  have hdiv := Nat.div_add_mod' (a + b - 1) b
  have hmod := Nat.mod_lt (a + b - 1) hb
  refine ⟨Nat.dvd_mul_left b _, ?_, ?_⟩ <;> simp only [roundup, ceilDiv] <;> omega

theorem xferLen_in (maxp len lenBits : Nat) :
    xferLen .IN maxp len lenBits = if 2 ^ lenBits ≤ len then .fault .lengthOverflow else .next len := by
  simp [xferLen]

theorem xferLen_out_zero (len lenBits : Nat) : xferLen .OUT 0 len lenBits = .fault .zeroMaxPacket := by
  simp [xferLen]

theorem xferLen_out {maxp : Nat} (h : 0 < maxp) (len lenBits : Nat) :
    xferLen .OUT maxp len lenBits =
      if 2 ^ lenBits ≤ roundup len maxp then .fault .lengthOverflow else .next (roundup len maxp) := by
  have hne : maxp ≠ 0 := by omega
  simp [xferLen, hne]

/-- Settles O8: the length is the request's for IN and its `roundup` for OUT, checked against `LEN_BITS`. -/
theorem transferLengthRule : Obligations.TransferLengthRule := by
  refine fun maxp len lenBits => ⟨fun h => ?_, fun h => ?_, xferLen_out_zero len lenBits, fun h => ?_⟩
  · rw [xferLen_in, if_neg (Nat.not_le.mpr h)]
  · rw [xferLen_in, if_pos h]
  · obtain ⟨hdvd, hle, hlt⟩ := roundup_bounds len h
    exact ⟨roundup len maxp, hdvd, hle, hlt, xferLen_out h len lenBits⟩

end Sys2Proof.Machine
end

section
/-! The class 0x4 words and `issue`: each word but END_TRANSFER issues its command of R95's table; what that leaves of the engine,
answered in time, timed out or deferred (R95, R130 to R133). -/

namespace Sys2Proof.Machine

variable {s t : State}

/-! ## From the word to its command -/

theorem epDir_eq_in_iff (p : Nat) : epDir p = .IN ↔ p % 2 = 1 := by
  rw [epDir]
  split <;> simp <;> omega

/-- SET_EP_CONFIG as R95's table writes it (R153). -/
theorem setEpConfigCmd_eq (p : Nat) (e : Endpoint) :
    setEpConfigCmd p e =
      { target := p, type := .setEpConfig, par0 := .epConfig e.type e.maxp,
        par1 := .burstFifo e.burst (if p % 2 = 1 then p / 2 else 0), par2 := .notify true true,
        force := false, ioc := false, resIdx := 0 } := by
  simp only [setEpConfigCmd, epDir_eq_in_iff]
  rfl

/-- A command word issues its command of R95's table; START_TRANSFER does nothing on a not-ready endpoint (R121, log 20). -/
theorem exec_of_tableCommand {i : Instr} {c : Command} (hc : tableCommand s i = some c) (hp : c.target < s.cfg.numPhysEp) :
    exec i s = if c.type = .startTransfer ∧ (s.ep c.target).notReady = true then .next s else issueCommand c s := by
  cases i <;> simp only [tableCommand, reduceCtorEq, Option.some.injEq] at hc <;> subst hc <;> simp only at hp
  case cmdSetEpConfig p =>
    simp only [exec, execCmdSetEpConfig, withEp_legal s hp, setEpConfigCmd_eq, reduceCtorEq, false_and, if_false]
  case cmdStartTransfer p =>
    simp only [exec, execCmdStartTransfer, withEp_legal s hp, true_and]
    rfl
  all_goals
    simp only [exec, execCmdStartNewConfig, execCmdSetXferResource, execCmdSetStall, execCmdClearStall, withEp_legal s hp,
      reduceCtorEq, false_and, if_false]
    rfl

/-- On a ready endpoint every command of the table is issued now (R130, R131). -/
theorem exec_of_tableCommand_ready {i : Instr} {c : Command} (hc : tableCommand s i = some c)
    (hp : c.target < s.cfg.numPhysEp) (hr : (s.ep c.target).notReady = false) : exec i s = issueCommand c s := by
  rw [exec_of_tableCommand hc hp, if_neg (by simp [hr])]

theorem exec_procIssue {p : EpField} (hp : p.toNat < s.cfg.numPhysEp) :
    exec (.procIssue p) s =
      andThen (issue { s.args.cmd with target := p.toNat } s) fun x => .next (x.1.returns (.cmd x.2)) := by
  simp only [exec, execProcIssue, withEp_legal s hp]

/-! ## The engine after a command -/

/-- A command whose result nothing records, not answered in time (R132). -/
theorem issueCommand_timeout {c : Command} (hr : (s.ep c.target).notReady = false) (hok : ¬ s.CmdOk) :
    issueCommand c s = .next { s with
      eps := s.eps.set c.target { s.ep c.target with notReady := true }
      regs := s.regsWith c.target (portAfter c true c.resIdx (s.port c.target))
      hw := s.hwLate c s.cmdDraw.idx
      marks := s.marks ++ lateMarks c
      draws := s.drawsAfterCmd
      outs := s.outs ++ [.command c, .localError .hardwareCommandTimeout c.target] } := by
  rw [issueCommand, issue_ready hr, issueNow_timeout hok, andThen_next]

/-- Settles O22: on a ready endpoint the word's command is issued and completes. -/
theorem readyCommandIsWrittenAndDone : Obligations.ReadyCommandIsWrittenAndDone := by
  intro s i c hc hp hs hr hok
  exact ⟨_, (exec_of_tableCommand_ready hc hp hr).trans (issueCommand_ok hr (hs.ports hp) hok)⟩

/-- Settles O23: on a ready endpoint the word's command is issued and times out. -/
theorem timedOutCommandMarksNotReady : Obligations.TimedOutCommandMarksNotReady := by
  intro s i c hc hp _ hr hok
  exact (exec_of_tableCommand_ready hc hp hr).trans (issueCommand_timeout hr hok)

/-- Settles O24: on a not-ready endpoint issue appends to the FIFO or finds it full; the START_TRANSFER word issues nothing. -/
theorem notReadyDefersCommands : Obligations.NotReadyDefersCommands := by
  intro s i c hc hp hr
  rw [exec_of_tableCommand hc hp]
  by_cases hstart : c.type = .startTransfer
  · rw [if_pos ⟨hstart, hr⟩, if_pos hstart]
  · rw [if_neg (fun h => hstart h.1), if_neg hstart, issueCommand]
    by_cases hfull : s.cfg.deferCap = some (s.ep c.target).deferred.length
    · rw [issue_overflow hr hfull, if_pos hfull, andThen_fault]
    · rw [issue_deferred hr hfull, if_neg hfull, andThen_next]
      rfl

/-- Settles O27: the four outcomes of issue, each followed by the return of its result. -/
theorem issueReturnsItsResult : Obligations.IssueReturnsItsResult := by
  intro s p hp hs c
  have hexec : exec (.procIssue p) s = andThen (issue c s) fun x => .next (x.1.returns (.cmd x.2)) := exec_procIssue hp
  refine ⟨fun hr hok => ⟨(hwPerform c (doneIdx c s.cmdDraw.idx) s).hw, ?_⟩, fun hr hok => ?_, fun hr hfull => ?_,
    fun hr hroom => ?_⟩ <;> rw [hexec]
  · rw [issue_ready hr, issueNow_ok (hs.ports hp) hok]
    simp [State.emit, doneIdx, c]
  · rw [issue_ready hr, issueNow_timeout hok]
    simp [State.emit, lateMarks, c]
  · rw [issue_overflow hr hfull, andThen_fault]
  · rw [issue_deferred hr hroom]
    rfl

end Sys2Proof.Machine
end

section
/-! The hardware agent's record after a command (R47, R136): at once when it is answered in time, when it lands if it is late. -/

namespace Sys2Proof.Machine

variable {s t : State}

/-! ## The effect of one command -/

/-- The effect the model gives a command is the one R136 names. -/
theorem hwAfter_hwEpEffect (c : Command) (idx : Nat) (h : HwEndpoint) : HwAfter c idx h (hwEpEffect c idx h) where
  newConfig hc := by simp only [hwEpEffect, hc]
  config hc ty mp b f x y h0 h1 h2 := by simp only [hwEpEffect, hc, hwConfigOf, h0, h1, h2]
  slot hc := by simp only [hwEpEffect, hc]
  start hc hi lo h0 h1 := by simp only [hwEpEffect, hc, hwTdOf, h0, h1]
  abort hc := by
    simp only [hwEpEffect, hc, true_and]
    refine ⟨fun x hx hidx => ?_, fun hother => ?_⟩
    · simp only [hx, abortRunning, hidx, if_true]
    · cases hrun : h.running with
      | none => rfl
      | some x => simp only [abortRunning, hother x hrun, if_false]
  stall hc := by simp only [hwEpEffect, hc]
  unstall hc := by simp only [hwEpEffect, hc]

/-- The whole of the hardware's side of a command: its target's record and the count of configurations (R136). -/
theorem hwPerform_hw (c : Command) (idx : Nat) (s : State) :
    (hwPerform c idx s).hw =
      { eps := s.hw.eps.set c.target (hwEpEffect c idx (s.hwEp c.target))
        configs := s.hw.configs + if c.type = .startNewConfig then 1 else 0 } := by
  unfold hwPerform
  split <;> rfl

/-! ## Reading the registers and the record after a write of one endpoint's -/

theorem port_of_regsWith {p : Nat} {x : EpPort} (ht : t.regs = s.regsWith p x) (q : Nat) :
    t.port q = if p = q ∧ p < s.regs.ports.length then x else s.port q := by
  rw [← setPort_port, State.port, ht]
  rfl

theorem hwEp_of_hw_set {p n : Nat} {x : HwEndpoint} (ht : t.hw = { eps := s.hw.eps.set p x, configs := n }) (q : Nat) :
    t.hwEp q = if p = q ∧ p < s.hw.eps.length then x else s.hwEp q := by
  rw [← setHwEp_hwEp, State.hwEp, ht]
  rfl

/-- The registers and the hardware's record once a command has completed on its target with index `idx` (R45, R136). -/
structure CommandLanded (c : Command) (idx : Nat) (s t : State) : Prop where
  index : (t.port c.target).cmd.resIdx = idx
  target : t.hwEp c.target = hwEpEffect c idx (s.hwEp c.target)
  others : ∀ q, q ≠ c.target → t.hwEp q = s.hwEp q
  configs : t.hw.configs = s.hw.configs + if c.type = .startNewConfig then 1 else 0

theorem CommandLanded.of_writes {c : Command} {active : Bool} {idx : Nat} (hs : s.Shaped) (hp : c.target < s.cfg.numPhysEp)
    (hregs : t.regs = s.regsWith c.target (portAfter c active idx (s.port c.target))) (hhw : t.hw = (hwPerform c idx s).hw) :
    CommandLanded c idx s t := by
  rw [hwPerform_hw] at hhw
  refine ⟨?_, ?_, fun q hq => ?_, by rw [hhw]⟩
  · rw [port_of_regsWith hregs, if_pos ⟨rfl, hs.ports hp⟩]
    rfl
  · rw [hwEp_of_hw_set hhw, if_pos ⟨rfl, hs.hw hp⟩]
  · rw [hwEp_of_hw_set hhw, if_neg fun h => hq h.1.symm]

/-- The read-back index is the one the effect has: both follow the command. -/
theorem CommandLanded.hwAfter {c : Command} {idx : Nat} (h : CommandLanded c idx s t) :
    HwAfter c (t.port c.target).cmd.resIdx (s.hwEp c.target) (t.hwEp c.target) := by
  rw [h.index, h.target]
  exact hwAfter_hwEpEffect c idx _

/-! ## The operations that issue -/

theorem issueNow_landed {c : Command} (hs : s.Shaped) (hp : c.target < s.cfg.numPhysEp) (hok : s.CmdOk) :
    CommandLanded c (doneIdx c s.cmdDraw.idx) s (issueNow c s).1 := by
  rw [issueNow_ok (hs.ports hp) hok]
  exact .of_writes hs hp rfl rfl

theorem issueNow_late {c : Command} (hs : s.Shaped) (hp : c.target < s.cfg.numPhysEp) (hok : ¬ s.CmdOk) :
    (issueNow c s).1.hwEp c.target = { s.hwEp c.target with late := some { cmd := c, idx := s.cmdDraw.idx } } ∧
    (∀ q, q ≠ c.target → (issueNow c s).1.hwEp q = s.hwEp q) ∧ (issueNow c s).1.hw.configs = s.hw.configs := by
  have hhw : (issueNow c s).1.hw = s.hwLate c s.cmdDraw.idx := by rw [issueNow_timeout hok]
  refine ⟨?_, fun q hq => ?_, by rw [hhw]; rfl⟩
  · rw [hwEp_of_hw_set hhw, if_pos ⟨rfl, hs.hw hp⟩]
  · rw [hwEp_of_hw_set hhw, if_neg fun h => hq h.1.symm]

/-- END_TRANSFER of the outstanding index on a ready endpoint is issued, and the endpoint is then not ready (R158). -/
theorem exec_cmdEndTransfer_ready {p : EpField} {k : Nat} (hp : p.toNat < s.cfg.numPhysEp)
    (hk : (s.ep p.toNat).resIdx = some k) (hr : (s.ep p.toNat).notReady = false) :
    exec (.cmdEndTransfer p) s = .next ((issueNow (endCommand p.toNat k) s).1.setNotReady p.toNat true) := by
  have hissue : issue (endTransferCmd p.toNat k) s = .next (issueNow (endCommand p.toNat k) s) := issue_ready hr
  simp only [exec, execCmdEndTransfer, withEp_legal s hp, endTransfer, hk, hissue, andThen_next]

/-- The TD address a START_TRANSFER carries in its two words (R95, R123). -/
theorem hwTdOf_halves {c : Command} {a : Nat} (h0 : c.par0 = .word (BitVec.ofNat 32 (a / 2 ^ 32)))
    (h1 : c.par1 = .word (BitVec.ofNat 32 a)) : hwTdOf c = some (a % 2 ^ 64) := by
  simp only [hwTdOf, h0, h1, BitVec.toNat_ofNat, Option.some.injEq]
  omega

/-- What a SET_EP_CONFIG of R95's table tells the hardware (R153). -/
theorem hwConfigOf_tableCommand {i : Instr} {c : Command} (hc : tableCommand s i = some c) (ht : c.type = .setEpConfig) :
    hwConfigOf c = some
      { type := (s.ep c.target).type, maxp := (s.ep c.target).maxp, burst := (s.ep c.target).burst,
        fifo := if c.target % 2 = 1 then c.target / 2 else 0, notify := (true, true) } := by
  cases i <;> simp only [tableCommand, reduceCtorEq, Option.some.injEq] at hc <;> subst hc <;>
    simp only [reduceCtorEq] at ht
  rfl

/-- The TD a START_TRANSFER of R95's table names (R123). -/
theorem hwTdOf_tableCommand {i : Instr} {c : Command} (hc : tableCommand s i = some c) (ht : c.type = .startTransfer) :
    hwTdOf c = some (s.tdAddr c.target % 2 ^ 64) := by
  cases i <;> simp only [tableCommand, reduceCtorEq, Option.some.injEq] at hc <;> subst hc <;>
    simp only [reduceCtorEq] at ht
  exact hwTdOf_halves rfl rfl

/-! ## Late commands -/

/-- A command that lands late has the effect it would have had at once, and shows as complete (R134). -/
theorem landLate_effect {p : Nat} {x : LateCommand} (hx : (s.hwEp p).late = some x) :
    landLate p s = { s with
      regs := s.regsWith p { s.port p with cmd := { (s.port p).cmd with active := false, resIdx := doneIdx x.cmd x.idx } }
      hw := { eps := s.hw.eps.set p (hwEpEffect x.cmd (doneIdx x.cmd x.idx) (s.hwEp p))
              configs := s.hw.configs + if x.cmd.type = .startNewConfig then 1 else 0 } } := by
  rw [landLate_some hx, hwPerform_hw]
  rfl

/-- Settles O25: a completed command has `hwEpEffect` on its target's record, which is R136's, whether it is one of the table's, an
END_TRANSFER, one given to issue or one that lands late; a command that timed out is only recorded as outstanding. -/
theorem hardwareCommandEffects : Obligations.HardwareCommandEffects := by
  refine ⟨fun s t i c hc hp hs hr hok e => ?_, fun s t p k hp hs hk hr hok e => ?_, fun s t p hp hs hr e => ?_,
    fun s p => landLate_none, fun s p x hp hs hx => ⟨_, landLate_effect hx, hwAfter_hwEpEffect x.cmd _ _⟩⟩
  · rw [exec_of_tableCommand_ready hc hp hr, issueCommand, issue_ready hr, andThen_next] at e
    cases e
    have hland := issueNow_landed hs hp hok
    refine ⟨hland.others, hland.hwAfter, hland.configs, fun htype => ?_, fun htype => ?_⟩
    · simp only [hland.target, hwEpEffect, htype, hwConfigOf_tableCommand hc htype]
    · simp only [hland.target, hwEpEffect, htype, hwTdOf_tableCommand hc htype, doneIdx, if_true]
  · rw [exec_cmdEndTransfer_ready hp hk hr] at e
    cases e
    have hland := issueNow_landed (c := endCommand p.toNat k) hs hp hok
    refine ⟨?_, hland.configs, hland.others⟩
    have hafter := hland.hwAfter
    rw [hland.index] at hafter
    exact hafter
  · intro c
    have hexec : exec (.procIssue p) s = .next ((issueNow c s).1.returns (.cmd (issueNow c s).2)) := by
      rw [exec_procIssue hp, issue_ready hr, andThen_next]
    rw [hexec] at e
    cases e
    by_cases hok : s.CmdOk
    · have hland := issueNow_landed (c := c) hs hp hok
      exact ⟨fun _ => ⟨hland.hwAfter, hland.configs⟩, fun h => absurd hok h, hland.others⟩
    · obtain ⟨hlate, hothers, hconfigs⟩ := issueNow_late (c := c) hs hp hok
      exact ⟨fun h => absurd h hok, fun _ => ⟨hlate, hconfigs⟩, hothers⟩

end Sys2Proof.Machine
end

section
/-! start_transfer run to its end: where the head does not start, and what it leaves, answered in time and not (R122 to R127). -/

namespace Sys2Proof.Machine

variable {s : State} {p : Nat}

theorem exec_procStartTransfer {p : EpField} (hp : p.toNat < s.cfg.numPhysEp) :
    exec (.procStartTransfer p) s = startTransfer p.toNat s := by
  simp only [exec, execProcStartTransfer, withEp_legal s hp]

/-! ## The control type (R126) -/

theorem ctlTypeFor_normal (hp : 2 ≤ p) (ph : Phase) : ctlTypeFor p ph = .next .normal := by
  have hep0 : isEp0 p = false := by simp only [isEp0, decide_eq_false_iff_not]; omega
  simp [ctlTypeFor, hep0]

theorem ctlTypeFor_ep0 (hp : p < 2) (ph : Phase) : ctlTypeFor p ph = ep0CtlType ph := by
  have hep0 : isEp0 p = true := by simp only [isEp0, decide_eq_true_eq]; omega
  simp [ctlTypeFor, hep0]

theorem ep0CtlType_badPhase {ph : Phase} (h : ph = .unconnected ∨ ph = .waitNrdy ∨ ph = .stalled) :
    ep0CtlType ph = .fault .ep0BadPhase := by
  obtain rfl | rfl | rfl := h <;> rfl

theorem ep0CtlType_of_mem {ph : Phase} {ty : CtlType} (h : (ph, ty) ∈ ep0CtlTypes) : ep0CtlType ph = .next ty := by
  simp only [ep0CtlTypes, List.mem_cons, Prod.mk.injEq, List.not_mem_nil, or_false] at h
  obtain ⟨rfl, rfl⟩ | ⟨rfl, rfl⟩ | ⟨rfl, rfl⟩ | ⟨rfl, rfl⟩ := h <;> rfl

/-- The types R126 tables are the ones start_transfer uses. -/
theorem ctlTypeFor_tabled {ph : Phase} {ty : CtlType} (h : 2 ≤ p ∧ ty = .normal ∨ p < 2 ∧ (ph, ty) ∈ ep0CtlTypes) :
    ctlTypeFor p ph = .next ty := by
  obtain ⟨hp, rfl⟩ | ⟨hp, hmem⟩ := h
  · exact ctlTypeFor_normal hp ph
  · rw [ctlTypeFor_ep0 hp, ep0CtlType_of_mem hmem]

theorem placeTd_misaligned (h : s.tdAddr p % s.cfg.tdAlign ≠ 0) (td : Td) : placeTd p td s = .refused .misalignedTd := by
  rw [placeTd, if_neg h]

/-- Settles O31: the guards leave the state, and `startHead` stops at the length, then the phase, then the TD's address. -/
theorem startTransferGuardsAndFaults : Obligations.StartTransferGuardsAndFaults := by
  refine ⟨fun s p hp h => (exec_procStartTransfer hp).trans (startTransfer_idle h), fun s p r rest hp hc hq => ?_⟩
  intro x
  have hx : xferLen (epDir p.toNat) (s.ep p.toNat).maxp (s.req r).length s.cfg.lenBits = x := rfl
  rw [exec_procStartTransfer hp, startTransfer_head hc hq, startHead, hx]
  refine ⟨fun f hf => ?_, fun n hn hep0 hph => ?_, fun n hn hp2 halign => ?_⟩
  · rw [hf, andThen_fault]
  · rw [hn, andThen_next, ctlTypeFor_ep0 hep0, ep0CtlType_badPhase hph, andThen_fault]
  · rw [hn, andThen_next, ctlTypeFor_normal hp2, andThen_next, placeTd_misaligned halign, andThen_refused]

/-! ## The written TD (R123) -/

/-- In memory `m` the TD of `p` stands at its address, and every other byte is as in `s`. -/
structure TdWritten (s : State) (p : Nat) (td : Td) (m : Memory) : Prop where
  reads : Memory.getBytes m (s.tdAddr p) 16 = encodeTd s.cfg td
  outside : ∀ a, a < s.tdAddr p ∨ s.tdAddr p + 16 ≤ a → Memory.get m a = Memory.get s.mem a

/-- Placing a TD writes the record and, in memory, the TD alone. -/
theorem withTd_eq (hm : Memory.wf s.mem = true) (p : Nat) (td : Td) :
    ∃ m, TdWritten s p td m ∧ s.withTd p td = { s with eps := s.eps.set p { s.ep p with td := td }, mem := m } := by
  refine ⟨Memory.setBytes s.mem (s.tdAddr p) (encodeTd s.cfg td), ⟨?_, fun a ha => ?_⟩, rfl⟩
  · simpa using Memory.getBytes_setBytes hm (s.tdAddr p) (encodeTd s.cfg td)
  · exact Memory.get_setBytes_outside _ _ _ (by simpa using ha)

/-- A second write of one endpoint's record is a write over the first. -/
theorem eps_set_of_eps_set {u : State} {e : Endpoint} (h : p < s.eps.length) (hu : u.eps = s.eps.set p e)
    (f : Endpoint → Endpoint) : u.eps.set p (f (u.ep p)) = s.eps.set p (f e) := by
  have hep : u.ep p = e := (ep_congr (u := s.setEp p e) hu p).trans (setEp_ep_same s h e)
  rw [hep, hu, List.set_set]

/-- Two states are equal if their endpoint records are and they agree in everything else. -/
theorem State.ext_eps {t u : State} (he : t.eps = u.eps) (h : { t with eps := u.eps } = u) : t = u := by
  rw [← h, ← he]

/-! ## The head started, answered in time and not (R124, R125) -/

section
variable {r : ReqRef} {rest : List ReqRef} {n : Nat} {ty : CtlType} (hs : s.Shaped) (hp : p < s.cfg.numPhysEp)
  (hm : Memory.wf s.mem = true) (hc : s.CanStart p) (hq : (s.ep p).queue = r :: rest)
  (hn : xferLen (epDir p) (s.ep p).maxp (s.req r).length s.cfg.lenBits = .next n)
  (ht : ctlTypeFor p s.ctl.ep0Phase = .next ty) (htd : s.TdPlaced p)
include hs hp hm hc hq hn ht htd

/-- Answered in time, the head is active with the returned index (R124). -/
theorem startTransfer_answered (hok : s.CmdOk) :
    ∃ m h, TdWritten s p (startedTd (s.req r) n ty) m ∧ startTransfer p s = .next { s with
      eps := s.eps.set p { s.ep p with
        td := startedTd (s.req r) n ty, resIdx := some s.cmdDraw.idx, active := some r }
      regs := s.regsWith p (portAfter (startTransferCmd p (s.tdAddr p)) false s.cmdDraw.idx (s.port p))
      mem := m
      hw := h
      draws := s.drawsAfterCmd
      outs := s.outs ++ [.command (startTransferCmd p (s.tdAddr p))] } := by
  obtain ⟨m, hm, hu⟩ := withTd_eq hm p (startedTd (s.req r) n ty)
  have heps := eps_set_of_eps_set (hs.eps hp) (congrArg State.eps hu) fun e =>
    { e with resIdx := some s.cmdDraw.idx, active := some r }
  rw [hu] at heps
  rw [startTransfer_starts hc hq hn ht htd, issueNow_ok (s := s.withTd p _) (hs.ports hp) hok, hu]
  exact ⟨m, _, hm, congrArg Host.Outcome.next (State.ext_eps heps rfl)⟩

/-- Not answered in time, the head stays queued and inactive, and the endpoint is not ready (R125, R132). -/
theorem startTransfer_timedOut (hok : ¬ s.CmdOk) :
    ∃ m, TdWritten s p (startedTd (s.req r) n ty) m ∧ startTransfer p s = .next { s with
      eps := s.eps.set p { s.ep p with td := startedTd (s.req r) n ty, notReady := true }
      regs := s.regsWith p (portAfter (startTransferCmd p (s.tdAddr p)) true 0 (s.port p))
      mem := m
      hw := s.hwLate (startTransferCmd p (s.tdAddr p)) s.cmdDraw.idx
      marks := s.marks ++ [.lateStart p]
      draws := s.drawsAfterCmd
      outs := s.outs ++ [.command (startTransferCmd p (s.tdAddr p)), .localError .hardwareCommandTimeout p] } := by
  obtain ⟨m, hm, hu⟩ := withTd_eq hm p (startedTd (s.req r) n ty)
  have heps := eps_set_of_eps_set (hs.eps hp) (congrArg State.eps hu) fun e => { e with notReady := true }
  rw [hu] at heps
  rw [startTransfer_starts hc hq hn ht htd, issueNow_timeout (s := s.withTd p _) hok, hu]
  exact ⟨m, hm, congrArg Host.Outcome.next (State.ext_eps heps rfl)⟩

end

/-- Settles O32: the tabled control type is the one start_transfer uses, and the head answered in time leaves the TD and the
command. -/
theorem startTransferStartsTheHead : Obligations.StartTransferStartsTheHead := by
  intro s p r rest n ty hp hs hm hc hq htd hok hn hty
  obtain ⟨m, h, htdm, e⟩ := startTransfer_answered hs hp hm hc hq hn (ctlTypeFor_tabled hty) htd hok
  exact ⟨_, h, (exec_procStartTransfer hp).trans e, rfl, htdm.reads, htdm.outside⟩

/-- Settles O33: the head not answered in time leaves the TD, the not-ready flag and the mark. -/
theorem startTransferTimeoutKeepsTheRequest : Obligations.StartTransferTimeoutKeepsTheRequest := by
  intro s p r rest n ty hp hs hm hc hq htd hok hn hty
  obtain ⟨m, htdm, e⟩ := startTransfer_timedOut hs hp hm hc hq hn (ctlTypeFor_tabled hty) htd hok
  exact ⟨_, (exec_procStartTransfer hp).trans e, setEp_ep_same s (hs.eps hp) _, fun q hq => setEp_ep_ne s hq.symm _,
    htdm.reads, htdm.outside, rfl, rfl, rfl⟩

end Sys2Proof.Machine
end

section
/-! The drain (R138 to R140): how many of the waiting commands it issues, and what it leaves. -/

namespace Sys2Proof.Machine

variable {s t u : State} {p : Nat}

/-! ## Where it stops -/

/-- The drain stops at the `i`-th of the waiting commands `cs`: it is an END_TRANSFER, or its draw is not an answer within `limit`
polls (R138, R139). -/
def DrainStopsAt (limit : Nat) (cs : List Command) (ds : List CmdDraw) (i : Nat) : Prop :=
  (∃ c, cs[i]? = some c ∧ c.type = .endTransfer) ∨ limit ≤ (ds.getD i { stillActive := 0, idx := 0 }).stillActive

theorem drainStopsAt_succ (limit : Nat) (c : Command) (cs : List Command) (ds : List CmdDraw) (i : Nat) :
    DrainStopsAt limit (c :: cs) ds (i + 1) ↔ DrainStopsAt limit cs ds.tail i := by
  cases ds <;> simp [DrainStopsAt]

/-- The drain of `p` from `s` stops at the `i`-th command waiting there. -/
def State.DrainStops (s : State) (p i : Nat) : Prop :=
  DrainStopsAt s.cfg.cmdTimeout (s.ep p).deferred s.draws.cmds i

theorem State.drainStops_zero {c : Command} {rest : List Command} (hd : (s.ep p).deferred = c :: rest) :
    s.DrainStops p 0 ↔ c.type = .endTransfer ∨ ¬ s.CmdOk := by
  simp only [State.DrainStops, DrainStopsAt, hd, State.CmdOk, State.cmdDraw, Nat.not_lt]
  cases s.draws.cmds <;> simp

/-! ## What a part of it leaves -/

/-- A part of the drain of `p` from `s` to `t` that writes the commands `cs`: what it changes, and what every part leaves. -/
structure DrainPart (p : Nat) (cs : List Command) (s t : State) : Prop where
  outs : commandsOf t.outs = commandsOf s.outs ++ cs
  draws : t.draws = { s.draws with cmds := s.draws.cmds.drop cs.length }
  others : ∀ q, q ≠ p → t.ep q = s.ep q ∧ t.port q = s.port q
  count : t.eps.length = s.eps.length
  cfg : t.cfg = s.cfg
  mem : t.mem = s.mem
  ctl : t.ctl = s.ctl
  reqs : t.reqs = s.reqs

theorem DrainPart.none (p : Nat) (s : State) : DrainPart p [] s s :=
  ⟨(List.append_nil _).symm, rfl, fun _ _ => ⟨rfl, rfl⟩, rfl, rfl, rfl, rfl, rfl⟩

theorem DrainPart.trans {cs ds : List Command} (h : DrainPart p cs s t) (k : DrainPart p ds t u) :
    DrainPart p (cs ++ ds) s u where
  outs := by rw [k.outs, h.outs, List.append_assoc]
  draws := by rw [k.draws, h.draws, List.length_append, ← List.drop_drop]
  others q hq := ⟨(k.others q hq).1.trans (h.others q hq).1, (k.others q hq).2.trans (h.others q hq).2⟩
  count := k.count.trans h.count
  cfg := k.cfg.trans h.cfg
  mem := k.mem.trans h.mem
  ctl := k.ctl.trans h.ctl
  reqs := k.reqs.trans h.reqs

/-- A write of the drained endpoint's own record is a part that writes no command. -/
theorem DrainPart.setEp (p : Nat) (e : Endpoint) (s : State) : DrainPart p [] s (s.setEp p e) :=
  ⟨(List.append_nil _).symm, rfl, fun _ hq => ⟨setEp_ep_ne s hq.symm e, rfl⟩, by simp, rfl, rfl, rfl, rfl⟩

/-- issue_now writes no other endpoint's registers. -/
theorem issueNow_port_ne (c : Command) (s : State) {q : Nat} (hq : q ≠ c.target) :
    (issueNow c s).1.port q = s.port q := by
  have hne : ∀ n, ¬ (c.target = q ∧ c.target < n) := fun _ h => hq h.1.symm
  by_cases hok : s.CmdOk
  · have hpolls : s.cmdDraw.stillActive < s.cfg.cmdTimeout := hok
    simp only [issueNow, hpolls, if_true, completeCommand_eq]
    rw [port_of_regsWith rfl, if_neg (hne _)]
    simp only [writeCommand, popCmd_port, emit_port, setPort_port, hne, if_false]
  · rw [issueNow_timeout hok, port_of_regsWith rfl, if_neg (hne _)]

/-- One issued command is a part of the drain of its own endpoint. -/
theorem DrainPart.issueNow {c : Command} (hc : c.target = p) (s : State) : DrainPart p [c] s (issueNow c s).1 := by
  obtain ⟨hcfg, hctl, hmem, hreqs, -, -, hdraws, houts⟩ := issueNow_keeps c s
  have heps : (Machine.issueNow c s).1.eps = s.eps ∨ (Machine.issueNow c s).1.eps = (s.setNotReady p true).eps :=
    hc ▸ issueNow_eps c s
  refine ⟨houts, ?_, fun q hq => ⟨?_, issueNow_port_ne c s (hc ▸ hq)⟩, ?_, hcfg, hmem, hctl, hreqs⟩
  · rw [hdraws, State.drawsAfterCmd, List.length_singleton, List.drop_one]
  · obtain heps | heps := heps <;> rw [ep_congr heps]
    exact setEp_ep_ne s hq.symm _
  · obtain heps | heps := heps <;> rw [heps]
    simp

theorem DrainPart.drainOne {c : Command} (hc : c.target = p) (rest : List Command) (s : State) :
    DrainPart p [c] s (drainOne p c rest s) := by
  have hissued := (DrainPart.setEp p { s.ep p with deferred := rest } s).trans (.issueNow hc _)
  unfold Machine.drainOne
  simp only
  split
  · exact hissued.trans (.setEp p _ _)
  · exact hissued

/-! ## One drained command -/

theorem issueNow_answered (c : Command) (hok : s.CmdOk) :
    (issueNow c s).2 ≠ .timeout ∧ (issueNow c s).1.eps = s.eps := by
  have hpolls : s.cmdDraw.stillActive < s.cfg.cmdTimeout := hok
  obtain ⟨-, -, -, -, -, heps, -, -⟩ := issueNow_keeps c s
  rw [if_pos hpolls] at heps
  exact ⟨by simp [issueNow, hpolls], heps⟩

/-- A command that stops the drain leaves the endpoint not ready (R132, R138). -/
theorem drainOne_ep_stop {c : Command} (hc : c.target = p) (hp : p < s.eps.length) (rest : List Command)
    (hstop : c.type = .endTransfer ∨ ¬ s.CmdOk) :
    (drainOne p c rest s).ep p = { s.ep p with deferred := rest, notReady := true } := by
  have hpop : (s.setEp p { s.ep p with deferred := rest }).ep p = { s.ep p with deferred := rest } := setEp_ep_same s hp _
  generalize hu : s.setEp p { s.ep p with deferred := rest } = u at hpop
  have hpu : p < u.eps.length := by simpa [← hu] using hp
  have hmark : ∀ v : State, v.eps = u.eps → (v.setNotReady p true).ep p = { s.ep p with deferred := rest, notReady := true } :=
    fun v hv => by rw [setNotReady_ep, hv, if_pos ⟨rfl, hpu⟩, ep_congr hv, hpop]
  have hokiff : u.CmdOk ↔ s.CmdOk := by rw [← hu]; exact Iff.rfl
  simp only [drainOne, hu]
  by_cases hok : s.CmdOk
  · obtain ⟨hres, heps⟩ := issueNow_answered c (hokiff.mpr hok)
    rw [if_pos ⟨hstop.resolve_right (not_not_intro hok), hres⟩]
    exact hmark _ heps
  · rw [issueNow_timeout (mt hokiff.mp hok), if_neg (fun h => h.2 rfl)]
    exact hc ▸ hmark u rfl

/-- Any other command leaves the endpoint ready for the next. -/
theorem drainOne_ep_goOn {c : Command} {rest : List Command} (hd : (s.ep p).deferred = c :: rest) (hp : p < s.eps.length)
    (hgo : ¬ s.DrainStops p 0) : (drainOne p c rest s).ep p = { s.ep p with deferred := rest } := by
  rw [State.drainStops_zero hd, not_or, not_not] at hgo
  obtain ⟨hend, hok⟩ := hgo
  obtain ⟨-, heps⟩ := issueNow_answered (s := s.setEp p { s.ep p with deferred := rest }) c hok
  simp only [drainOne, hend, false_and, if_false]
  exact (ep_congr heps p).trans (setEp_ep_same s hp _)

/-! ## The loop -/

/-- The drain of `p` led from `s` to `t` and issued the first `k` of the commands waiting (R138, R139). -/
structure Drained (p k : Nat) (s t : State) : Prop where
  le : k ≤ (s.ep p).deferred.length
  before : ∀ i, i + 1 < k → ¬ s.DrainStops p i
  rest : k < (s.ep p).deferred.length → 0 < k ∧ s.DrainStops p (k - 1)
  part : DrainPart p ((s.ep p).deferred.take k) s t
  record : t.ep p = { s.ep p with deferred := (s.ep p).deferred.drop k, notReady := (t.ep p).notReady }
  notReady_iff : (t.ep p).notReady = true ↔ 0 < k ∧ s.DrainStops p (k - 1)

/-- With nothing waiting the drain is over. -/
theorem Drained.empty (hr : (s.ep p).notReady = false) (hd : (s.ep p).deferred = []) : Drained p 0 s s where
  le := Nat.zero_le _
  before i hi := absurd hi (Nat.not_lt_zero _)
  rest h := by simp [hd] at h
  part := .none p s
  record := rfl
  notReady_iff := by simp [hr]

section
variable {c : Command} {rest : List Command} (hd : (s.ep p).deferred = c :: rest) (hc : c.target = p)
  (hp : p < s.eps.length)
include hd hc hp

/-- The drain is over after a command that stops it. -/
theorem Drained.stop (hstop : s.DrainStops p 0) : Drained p 1 s (drainOne p c rest s) := by
  have hep := drainOne_ep_stop hc hp rest ((State.drainStops_zero hd).mp hstop)
  refine ⟨by simp [hd], fun i hi => by omega, fun _ => ⟨Nat.one_pos, hstop⟩, ?_, ?_, ?_⟩
  · rw [hd]
    exact .drainOne hc rest s
  · rw [hep, hd]
    rfl
  · rw [hep]
    exact ⟨fun _ => ⟨Nat.one_pos, hstop⟩, fun _ => rfl⟩

/-- After any other command it goes on with the rest. -/
theorem Drained.next {k : Nat} (hgo : ¬ s.DrainStops p 0) (h : Drained p k (drainOne p c rest s) t) :
    Drained p (k + 1) s t := by
  have hep := drainOne_ep_goOn hd hp hgo
  have hone := DrainPart.drainOne hc rest s
  have hshift : ∀ i, (drainOne p c rest s).DrainStops p i ↔ s.DrainStops p (i + 1) := fun i => by
    rw [State.DrainStops, State.DrainStops, hep, hone.cfg, hone.draws, hd, drainStopsAt_succ, List.length_singleton,
      List.drop_one]
  obtain ⟨hle, hbefore, hrest, hpart, hrecord, hnr⟩ := h
  rw [hep] at hle hrest hpart hrecord
  refine ⟨by simpa [hd] using hle, fun i hi => ?_, fun hlt => ?_, ?_, ?_, ?_⟩
  · cases i with
    | zero => exact hgo
    | succ i => exact mt (hshift i).mpr (hbefore i (by omega))
  · obtain ⟨hk, hstops⟩ := hrest (by simpa [hd] using hlt)
    obtain ⟨j, rfl⟩ := Nat.exists_eq_add_one.mpr hk
    exact ⟨Nat.succ_pos _, (hshift j).mp hstops⟩
  · rw [hd]
    exact hone.trans hpart
  · rw [hrecord, hd]
    rfl
  · cases k with
    | zero => simpa [hgo] using hnr
    | succ j => exact hnr.trans ⟨fun h => ⟨Nat.succ_pos _, (hshift j).mp h.2⟩, fun h => ⟨Nat.succ_pos _, (hshift j).mpr h.2⟩⟩

end

theorem drainLoop_notReady (n : Nat) (h : (s.ep p).notReady = true) : drainLoop n p s = s := by
  cases n <;> simp [drainLoop, h]

/-- With a bound that covers the FIFO the loop is the drain (R138). -/
theorem drainLoop_drained (n : Nat) (hp : p < s.eps.length) (hr : (s.ep p).notReady = false)
    (hn : (s.ep p).deferred.length ≤ n) (htarget : ∀ c ∈ (s.ep p).deferred, c.target = p) :
    ∃ k, Drained p k s (drainLoop n p s) := by
  induction n generalizing s with
  | zero => exact ⟨0, .empty hr (List.length_eq_zero_iff.mp (Nat.le_zero.mp hn))⟩
  | succ n ih =>
    cases hd : (s.ep p).deferred with
    | nil =>
      have hstay : drainLoop (n + 1) p s = s := by simp [drainLoop, hr, hd]
      rw [hstay]
      exact ⟨0, .empty hr hd⟩
    | cons c rest =>
      have hloop : drainLoop (n + 1) p s = drainLoop n p (drainOne p c rest s) := by simp [drainLoop, hr, hd]
      have hc : c.target = p := htarget c (by simp [hd])
      rw [hloop]
      by_cases hstop : s.DrainStops p 0
      · have h := Drained.stop hd hc hp hstop
        rw [drainLoop_notReady n (h.notReady_iff.mpr ⟨Nat.one_pos, hstop⟩)]
        exact ⟨1, h⟩
      · have hep := drainOne_ep_goOn hd hp hstop
        have hlen := (DrainPart.drainOne hc rest s).count
        rw [hd] at hn htarget
        obtain ⟨k, h⟩ := ih (s := drainOne p c rest s) (hlen ▸ hp) (by rw [hep]; exact hr)
          (by rw [hep]; exact Nat.le_of_succ_le_succ hn) (by rw [hep]; exact fun d hd => htarget d (List.mem_cons_of_mem c hd))
        exact ⟨k + 1, h.next hd hc hp hstop⟩

/-- Settles O28: the drain is its loop over the endpoint marked ready. -/
theorem drainIssuesInOrder : Obligations.DrainIssuesInOrder := by
  intro s p hp hs htarget
  have hexec : exec (.procDrainDeferred p) s = .next (drainDeferred p.toNat s) := by
    simp only [exec, execProcDrainDeferred, withEp_legal s hp]
  have hready := DrainPart.setEp p.toNat { s.ep p.toNat with notReady := false } s
  have hep : (s.setNotReady p.toNat false).ep p.toNat = { s.ep p.toNat with notReady := false } :=
    setEp_ep_same s (hs.eps hp) _
  obtain ⟨k, hle, hbefore, hrest, hpart, hrecord, hnr⟩ := drainLoop_drained (s := s.setNotReady p.toNat false)
    (p := p.toNat) (s.ep p.toNat).deferred.length (hready.count ▸ hs.eps hp) (by rw [hep]) (by rw [hep]) (by rwa [hep])
  simp only [State.DrainStops, hep] at hle hbefore hrest hpart hrecord hnr
  obtain ⟨houts, hdraws, hothers, -, -, hmem, hctl, hreqs⟩ := hready.trans hpart
  rw [List.nil_append, List.length_take_of_le hle] at hdraws
  exact ⟨_, k, hexec, hle, hbefore, hrest, houts, hrecord, hnr, hdraws, hothers, hmem, hctl, hreqs⟩

end Sys2Proof.Machine
end

section
/-! END_TRANSFER and deactivate (R157 to R159): nothing without an index outstanding; with one, what is left when the command is
answered in time, when it times out and when it is deferred. -/

namespace Sys2Proof.Machine

variable {s t : State} {p : Nat}

/-! ## END_TRANSFER (R158) -/

theorem endTransfer_noIndex (hk : (s.ep p).resIdx = none) : endTransfer p s = .next s := by
  simp only [endTransfer, hk]

section
variable {k : Nat} (hp : p < s.cfg.numPhysEp) (hs : s.Shaped) (hk : (s.ep p).resIdx = some k)
include hp hs hk

/-- Whatever issue leaves of the endpoint, END_TRANSFER leaves with the not-ready flag set. -/
theorem endTransfer_of_issue {x : State × CmdRes} {e : Endpoint} (hx : issue (endCommand p k) s = .next x)
    (he : x.1.eps = s.eps.set p e) :
    endTransfer p s = .next { x.1 with eps := s.eps.set p { e with notReady := true } } := by
  have hend : endTransfer p s = andThen (issue (endCommand p k) s) fun x => .next (x.1.setNotReady p true) := by
    simp only [endTransfer, hk]
    rfl
  rw [hend, hx, andThen_next]
  exact congrArg Host.Outcome.next
    (State.ext_eps (eps_set_of_eps_set (hs.eps hp) he fun e => { e with notReady := true }) rfl)

/-- Answered in time (R131). -/
theorem endTransfer_answered (hr : (s.ep p).notReady = false) (hok : s.CmdOk) :
    endTransfer p s = .next { s with
      eps := s.eps.set p { s.ep p with notReady := true }
      regs := s.regsWith p (portAfter (endCommand p k) false k (s.port p))
      hw := (hwPerform (endCommand p k) k s).hw
      draws := s.drawsAfterCmd
      outs := s.outs ++ [.command (endCommand p k)] } := by
  have hissue := issueNow_ok (c := endCommand p k) (hs.ports hp) hok
  exact endTransfer_of_issue hp hs hk ((issue_ready hr).trans (congrArg Host.Outcome.next hissue))
    (congrArg State.eps (setEp_self s p)).symm

/-- Not answered in time: the error is recorded and the end of the transfer with it (R132). -/
theorem endTransfer_timedOut (hr : (s.ep p).notReady = false) (hok : ¬ s.CmdOk) :
    endTransfer p s = .next { s with
      eps := s.eps.set p { s.ep p with notReady := true }
      regs := s.regsWith p (portAfter (endCommand p k) true k (s.port p))
      hw := s.hwLate (endCommand p k) s.cmdDraw.idx
      draws := s.drawsAfterCmd
      outs := s.outs ++ [.command (endCommand p k), .localError .hardwareCommandTimeout p] } := by
  have hissue := issueNow_timeout (c := endCommand p k) hok
  have hmarks : s.marks ++ lateMarks (endCommand p k) = s.marks := List.append_nil _
  rw [hmarks] at hissue
  exact endTransfer_of_issue (e := { s.ep p with notReady := true }) hp hs hk
    ((issue_ready hr).trans (congrArg Host.Outcome.next hissue)) rfl

/-- On a not-ready endpoint whose FIFO has room (R130). -/
theorem endTransfer_deferred (hr : (s.ep p).notReady = true) (hroom : s.cfg.deferCap ≠ some (s.ep p).deferred.length) :
    endTransfer p s = .next { s with
      eps := s.eps.set p { s.ep p with
        deferred := (s.ep p).deferred ++ [endCommand p k], notReady := true } } :=
  endTransfer_of_issue hp hs hk (issue_deferred (c := endCommand p k) hr hroom) rfl

end

/-! ## deactivate (R157, R159) -/

theorem deactivate_of_endTransfer (e : endTransfer p s = .next t) : deactivate p s = .next (t.setEnable p false) := by
  rw [deactivate, e, andThen_next]

/-- Where END_TRANSFER leads, deactivate leads with the enable bit cleared. -/
theorem exec_endTransfer_and_deactivate {p : EpField} (hp : p.toNat < s.cfg.numPhysEp) (e : endTransfer p.toNat s = .next t) :
    exec (.cmdEndTransfer p) s = .next t ∧ exec (.procDeactivate p) s = .next (t.setEnable p.toNat false) := by
  simp only [exec, execCmdEndTransfer, execProcDeactivate, withEp_legal s hp]
  exact ⟨e, deactivate_of_endTransfer e⟩

/-- Settles O26: the four outcomes of END_TRANSFER, each with the enable bit cleared after it. -/
theorem endTransferAndDeactivate : Obligations.EndTransferAndDeactivate := fun _ _ hp hs =>
  ⟨fun hk => exec_endTransfer_and_deactivate hp (endTransfer_noIndex hk),
    fun _ hk hr hok => ⟨_, exec_endTransfer_and_deactivate hp (endTransfer_answered hp hs hk hr hok)⟩,
    fun _ hk hr hok => ⟨_, exec_endTransfer_and_deactivate hp (endTransfer_timedOut hp hs hk hr hok)⟩,
    fun _ hk hr hroom => exec_endTransfer_and_deactivate hp (endTransfer_deferred hp hs hk hr hroom)⟩

end Sys2Proof.Machine
end

section
/-! ENABLE: its checks in order (R150, R162, R270), and what activate leaves behind it (R151 to R156). -/

namespace Sys2Proof.Machine

variable {s t u : State} {p : Nat}

/-! ## The checks of ENABLE and DISABLE -/

theorem noteCall_running (h : s.regs.runStop = true) : noteCall s = s := by rw [noteCall, if_pos h]

theorem isEp0_eq_false_iff : isEp0 p = false ↔ 2 ≤ p := by
  simp only [isEp0, decide_eq_false_iff_not]
  omega

theorem isEp0_eq_true_iff : isEp0 p = true ↔ p < 2 := by
  simp only [isEp0, decide_eq_true_eq]
  omega

/-- After INIT ENABLE leaves no mark of its own (R292). -/
theorem exec_enable {p : EpField} (hp : p.toNat < s.cfg.numPhysEp) (hrun : s.regs.runStop = true) :
    exec (.enable p) s = callEnable p.toNat s.args.desc s := by
  simp only [exec, execEnable, withEp_legal s hp, noteCall_running hrun]

/-- After INIT DISABLE leaves no mark of its own (R292). -/
theorem exec_disable {p : EpField} (hp : p.toNat < s.cfg.numPhysEp) (hrun : s.regs.runStop = true) :
    exec (.disable p) s = callDisable callback p.toNat s := by
  simp only [exec, execDisable, withEp_legal s hp, noteCall_running hrun]

theorem callEnable_ep0 (hp : p < 2) (d : DescArg) : callEnable p d s = .refused .ep0NotForUpperLayer := by
  simp [callEnable, isEp0_eq_true_iff.mpr hp]

theorem callDisable_ep0 (cb : CallbackAct) (hp : p < 2) : callDisable cb p s = .refused .ep0NotForUpperLayer := by
  simp [callDisable, isEp0_eq_true_iff.mpr hp]

theorem callEnable_mismatch {d : DescArg} (hp : 2 ≤ p) (hd : (descOfArg d).num ≠ epNum p ∨ (descOfArg d).dir ≠ epDir p) :
    callEnable p d s = raiseErr .mismatchedDescriptor s := by
  simp [callEnable, isEp0_eq_false_iff.mpr hp, hd]

/-- An endpoint's record with the type, max-packet and burst of its descriptor (R150). -/
def Endpoint.described (e : Endpoint) (ty : EpType) (d : Descriptor) : Endpoint :=
  { e with type := ty, maxp := d.maxp, burst := d.burst }

theorem callEnable_isochronous {d : DescArg} (hp : 2 ≤ p) (hnum : (descOfArg d).num = epNum p)
    (hdir : (descOfArg d).dir = epDir p) (htype : (descOfArg d).type = .isochronous) :
    callEnable p d s = raiseErr .unsupportedEndpointType s := by
  simp [callEnable, isEp0_eq_false_iff.mpr hp, hnum, hdir, htype, epTypeOfDesc]

theorem callEnable_supported {d : DescArg} {ty : EpType} (hp : 2 ≤ p) (hnum : (descOfArg d).num = epNum p)
    (hdir : (descOfArg d).dir = epDir p) (htype : epTypeOfDesc (descOfArg d).type = some ty)
    (hact : activate p (s.setEp p ((s.ep p).described ty (descOfArg d))) = .next t) :
    callEnable p d s = .next (t.returns (.int 0)) := by
  rw [Endpoint.described] at hact
  simp [callEnable, isEp0_eq_false_iff.mpr hp, hnum, hdir, htype, hact]

/-- Settles O34: the checks of ENABLE in the order it makes them; DISABLE has the first of them. -/
theorem enableChecksInOrder : Obligations.EnableChecksInOrder := by
  intro s p hp hrun d
  rw [exec_enable hp hrun, exec_disable hp hrun]
  exact ⟨fun hep0 => ⟨callEnable_ep0 hep0 _, callDisable_ep0 _ hep0⟩, fun hp2 hd => callEnable_mismatch hp2 hd,
    fun hp2 hnum hdir htype => callEnable_isochronous hp2 hnum hdir htype⟩

end Sys2Proof.Machine
end

section
/-! activate (R151 to R156): what each of its commands leaves, and its whole with the commands answered in time. -/

namespace Sys2Proof.Machine

variable {s t u : State} {p : Nat}

theorem exec_procActivate {p : EpField} (hp : p.toNat < s.cfg.numPhysEp) : exec (.procActivate p) s = activate p.toNat s := by
  simp only [exec, execProcActivate, withEp_legal s hp]

/-! ## A new configuration, if one is due (R152) -/

theorem newConfig_due (ht : (s.ep p).type ≠ .control) (hc : s.ctl.cfgStarted = false) :
    newConfig p s = andThen (issueCommand (Command.plain 0 .startNewConfig) s) fun t => .next (t.setCfgStarted true) := by
  rw [newConfig, if_pos ⟨ht, hc⟩, issueCommand, andThen_assoc]
  rfl

theorem newConfig_notDue (h : (s.ep p).type = .control ∨ s.ctl.cfgStarted = true) : newConfig p s = .next s := by
  rw [newConfig, if_neg]
  rintro ⟨ht, hc⟩
  obtain h | h := h
  · exact ht h
  · exact Bool.noConfusion (hc.symm.trans h)

/-- A new configuration is due, or it is not. -/
theorem newConfig_cases (p : Nat) (s : State) :
    ((s.ep p).type ≠ .control ∧ s.ctl.cfgStarted = false) ∨ (s.ep p).type = .control ∨ s.ctl.cfgStarted = true := by
  cases s.ctl.cfgStarted <;> simp [Classical.em, or_comm]

/-! ## Whatever the commands return -/

/-- From `s` to `t` only not-ready flags and FIFOs of endpoint records were written, and no port was added or taken away. -/
structure IssuerWrites (s t : State) : Prop where
  records : ∀ q, t.ep q = { s.ep q with notReady := (t.ep q).notReady, deferred := (t.ep q).deferred }
  portCount : t.regs.ports.length = s.regs.ports.length

theorem IssuerWrites.trans (h : IssuerWrites s t) (k : IssuerWrites t u) : IssuerWrites s u where
  records q := by rw [k.records q, h.records q]
  portCount := k.portCount.trans h.portCount

theorem IssuerWrites.of_eps (he : t.eps = s.eps) (hl : t.regs.ports.length = s.regs.ports.length) : IssuerWrites s t :=
  ⟨fun q => by rw [ep_congr he], hl⟩

theorem IssuerWrites.issueCommand {c : Command} (e : issueCommand c s = .next t) : IssuerWrites s t := by
  obtain ⟨x, hx, e⟩ := andThen_eq_next.mp e
  cases e
  by_cases hr : (s.ep c.target).notReady = true
  · by_cases hfull : s.cfg.deferCap = some (s.ep c.target).deferred.length
    · rw [issue_overflow hr hfull] at hx; cases hx
    · rw [issue_deferred hr hfull] at hx; cases hx
      refine ⟨fun q => ?_, rfl⟩
      rw [setEp_ep]
      split
      · next hq => rw [hq.1]
      · rfl
  · rw [issue_ready (by simpa using hr)] at hx; cases hx
    refine ⟨fun q => ?_, (issueNow_keepsBesideEps c s).ports⟩
    obtain hep | hep := issueNow_ep c s q <;> rw [hep]

theorem IssuerWrites.newConfig (e : newConfig p s = .next t) : IssuerWrites s t := by
  obtain ⟨ht, hc⟩ | h := newConfig_cases p s
  · rw [newConfig_due ht hc] at e
    obtain ⟨u, hu, e⟩ := andThen_eq_next.mp e
    cases e
    exact (IssuerWrites.issueCommand hu).trans (.of_eps rfl rfl)
  · rw [newConfig_notDue h] at e
    cases e
    exact .of_eps rfl rfl

/-- An activate that answers has set the enable bit last (R155). -/
theorem activate_eq_next (e : activate p s = .next t) : ∃ u, IssuerWrites s u ∧ t = u.setEnable p true := by
  obtain ⟨s1, e1, e⟩ := andThen_eq_next.mp e
  obtain ⟨s2, e2, e⟩ := andThen_eq_next.mp e
  obtain ⟨s3, e3, e⟩ := andThen_eq_next.mp e
  cases e
  exact ⟨s3, (IssuerWrites.newConfig e1).trans ((IssuerWrites.issueCommand e2).trans (IssuerWrites.issueCommand e3)), rfl⟩

/-! ## The commands answered in time -/

/-- On a ready endpoint a command answered in time leaves every endpoint record, and one draw fewer (R130, R131). -/
theorem issueCommand_answers {c : Command} {n : Nat} (hr : (s.ep c.target).notReady = false) (hok : s.CmdsOk (n + 1)) :
    ∃ t, issueCommand c s = .next t ∧ t.eps = s.eps ∧ t.CmdsOk n := by
  obtain ⟨hcfg, -, -, -, -, -, hdraws, -⟩ := issueNow_keeps c s
  obtain ⟨-, heps⟩ := issueNow_answered c (hok.cmdOk n.succ_pos)
  refine ⟨(issueNow c s).1, by rw [issueCommand, issue_ready hr, andThen_next], heps, ?_⟩
  exact hok.drop (k := 1) hcfg (by rw [hdraws, State.drawsAfterCmd, List.drop_one])

theorem newConfig_answers (h0 : (s.ep 0).notReady = false) (hok : s.CmdsOk 3) :
    ∃ t, newConfig p s = .next t ∧ t.eps = s.eps ∧ t.CmdsOk 2 := by
  obtain ⟨ht, hc⟩ | h := newConfig_cases p s
  · obtain ⟨t, e, heps, hok'⟩ := issueCommand_answers (c := Command.plain 0 .startNewConfig) h0 hok
    exact ⟨t.setCfgStarted true, by rw [newConfig_due ht hc, e, andThen_next], heps, hok'⟩
  · exact ⟨s, newConfig_notDue h, rfl, fun k hk => hok k (by omega)⟩

theorem activate_answers (h0 : (s.ep 0).notReady = false) (hr : (s.ep p).notReady = false) (hok : s.CmdsOk 3) :
    ∃ t, activate p s = .next t := by
  obtain ⟨s1, e1, heps1, hok1⟩ := newConfig_answers (p := p) h0 hok
  have hr1 : (s1.ep p).notReady = false := by rw [ep_congr heps1, hr]
  obtain ⟨s2, e2, heps2, hok2⟩ := issueCommand_answers (c := setEpConfigCmd p (s1.ep p)) hr1 hok1
  have hr2 : (s2.ep p).notReady = false := by rw [ep_congr heps2, hr1]
  obtain ⟨s3, e3, -, -⟩ := issueCommand_answers (c := setXferResourceCmd p) hr2 hok2
  exact ⟨s3.setEnable p true, by simp only [activate, e1, e2, e3, andThen_next]⟩

/-- Settles O36: the enable bit is the last write of every activate that answers; on a ready endpoint nothing is deferred, so none
stops at a full FIFO. -/
theorem activateAlwaysSetsTheEnableBit : Obligations.ActivateAlwaysSetsTheEnableBit := by
  refine ⟨fun s t p hs e => ?_, fun s p hp h0 hr hok => ?_⟩
  · obtain ⟨hp, e⟩ := withEp_eq_next (k := fun n => activate n s) s e
    obtain ⟨u, hu, rfl⟩ := activate_eq_next e
    refine ⟨?_, hu.records⟩
    rw [setEnable_eq, setPort_port, if_pos ⟨rfl, hu.portCount ▸ hs.ports hp⟩]
  · rw [exec_procActivate hp]
    exact activate_answers h0 hr hok

end Sys2Proof.Machine
end

section
/-! ENABLE of a matching endpoint (R150): what activate leaves with its commands answered in time (R151 to R155). -/

namespace Sys2Proof.Machine

variable {s t : State} {p : Nat}

/-- Who is enabled after a write of one endpoint's registers (R44). -/
theorem setPort_enabled {x : EpPort} {b : Bool} (hp : p < s.regs.ports.length) (hx : x.enabled = b) (q : Nat) :
    ((s.setPort p x).port q).enabled = if q = p then b else (s.port q).enabled := by
  rw [setPort_port]
  by_cases hq : p = q
  · rw [if_pos ⟨hq, hp⟩, if_pos hq.symm, hx]
  · rw [if_neg fun h => hq h.1, if_neg fun h => hq h.symm]

/-- The commands of activate on `p`, in order (R152 to R154). -/
def activateCommands (s : State) (p : Nat) : List Output :=
  (if (s.ep p).type ≠ .control ∧ s.ctl.cfgStarted = false then [.command (Command.plain 0 .startNewConfig)] else []) ++
    [.command (setEpConfigCmd p (s.ep p)), .command (setXferResourceCmd p)]

/-- What activate of `p` leaves of `s` once its commands are answered in time (R151 to R155). -/
structure Activated (p : Nat) (s t : State) : Prop where
  eps : t.eps = s.eps
  enabled : ∀ q, (t.port q).enabled = if q = p then true else (s.port q).enabled
  ctl : t.ctl = { s.ctl with cfgStarted := s.ctl.cfgStarted || decide ((s.ep p).type ≠ .control) }
  outs : t.outs = s.outs ++ activateCommands s p
  mem : t.mem = s.mem
  reqs : t.reqs = s.reqs
  marks : t.marks = s.marks

theorem activate_activated (hp : p < s.regs.ports.length) (h0 : (s.ep 0).notReady = false) (hr : (s.ep p).notReady = false)
    (hok : s.CmdsOk 3) : ∃ t, activate p s = .next t ∧ Activated p s t := by
  obtain ⟨ht, hc⟩ | hn := newConfig_cases p s
  · obtain ⟨x, y, h, hx, hy, e⟩ := activate_first ht hc h0 hr hp hok
    refine ⟨_, e, rfl, fun q => ?_, by simp [ht], by simp [activateCommands, ht, hc], rfl, rfl, rfl⟩
    have h0q : ((s.setPort 0 y).port q).enabled = (s.port q).enabled := by
      rw [setPort_enabled (by omega) hy, ite_eq_right_iff]
      exact fun hq => hq ▸ rfl
    rw [← h0q]
    exact setPort_enabled (s := s.setPort 0 y) (by simpa using hp) hx q
  · obtain ⟨x, h, hx, e⟩ := activate_ok hn hr hp fun k hk => hok k (by omega)
    have hstarted : (s.ctl.cfgStarted || decide ((s.ep p).type ≠ .control)) = s.ctl.cfgStarted := by
      obtain hn | hn := hn <;> simp [hn]
    have hnone : ¬ ((s.ep p).type ≠ .control ∧ s.ctl.cfgStarted = false) := by
      obtain hn | hn := hn <;> simp [hn]
    exact ⟨_, e, rfl, setPort_enabled hp hx, by rw [hstarted], by rw [activateCommands, if_neg hnone]; rfl, rfl, rfl, rfl⟩

/-- Settles O35: the descriptor goes into the endpoint's record, and activate takes it from there. -/
theorem enableActivatesTheEndpoint : Obligations.EnableActivatesTheEndpoint := by
  intro s p ty hp hp2 hs hrun d hnum hdir hty h0 hr hok
  have htype : epTypeOfDesc d.type = some ty := by
    obtain ⟨hd, rfl⟩ | ⟨hd, rfl⟩ | ⟨hd, rfl⟩ := hty <;> rw [hd] <;> rfl
  have hep := setEp_ep_same s (hs.eps hp) ((s.ep p.toNat).described ty d)
  have hep0 := setEp_ep_ne s (show p.toNat ≠ 0 by omega) ((s.ep p.toNat).described ty d)
  obtain ⟨t, hact, heps, henabled, hctl, houts, hmem, hreqs, hmarks⟩ :=
    activate_activated (s := s.setEp p.toNat ((s.ep p.toNat).described ty d)) (hs.ports hp) (by rw [hep0, h0])
      (by rw [hep]; exact hr) hok
  rw [hep] at hctl
  rw [activateCommands, hep, setEpConfigCmd_eq] at houts
  refine ⟨_, (exec_enable hp hrun).trans (callEnable_supported hp2 hnum hdir htype hact), heps, ?_, fun q hq => ?_, hctl, ?_,
    hmem, hreqs, hmarks⟩
  · exact (henabled p.toNat).trans (if_pos rfl)
  · exact (henabled q).trans (if_neg hq)
  · have hret : (t.returns (.int 0)).outs = t.outs ++ [.returned (.int 0)] := rfl
    rw [hret, houts, List.append_assoc, List.append_assoc]
    exact (List.append_assoc _ _ _).symm

end Sys2Proof.Machine
end

section
/-! DISABLE (R160, R161): deactivate, kill_all with Shutdown, and a second DISABLE after it. -/

namespace Sys2Proof.Machine

variable {s t u : State} {p : Nat}

/-! ## From DISABLE to its parts -/

theorem callDisable_eq_next {cb : CallbackAct} :
    callDisable cb p s = .next t ↔
      2 ≤ p ∧ ∃ u, deactivate p s = .next u ∧
        ∃ v, killAllWith cb noAdvance p .shutdown u = .next v ∧ v.returns (.int 0) = t := by
  by_cases hp : p < 2
  · simp [callDisable_ep0 cb hp, Nat.not_le.mpr hp]
  · have hp2 : 2 ≤ p := Nat.le_of_not_lt hp
    simp [callDisable, isEp0_eq_false_iff.mpr hp2, hp2, andThen_eq_next]

/-! ## deactivate answered in time -/

/-- What a deactivate of `p` answered in time leaves of `s` (R157 to R159). -/
structure Deactivated (p : Nat) (s t : State) : Prop where
  eps : t.eps = s.eps.set p { s.ep p with notReady := (s.ep p).resIdx.isSome }
  enabled : (t.port p).enabled = false
  outs : t.outs = s.outs ++
    (match (s.ep p).resIdx with | none => [] | some k => [Output.command (endCommand p k)])
  reqs : t.reqs = s.reqs
  mem : t.mem = s.mem
  ctl : t.ctl = s.ctl

theorem setEnable_enabled (hp : p < s.regs.ports.length) (b : Bool) : ((s.setEnable p b).port p).enabled = b :=
  (setPort_enabled hp rfl p).trans (if_pos rfl)

theorem deactivate_answered (hs : s.Shaped) (hp : p < s.cfg.numPhysEp) (hr : (s.ep p).notReady = false) (hok : s.CmdOk) :
    ∃ t, deactivate p s = .next t ∧ Deactivated p s t := by
  cases hk : (s.ep p).resIdx with
  | none =>
    have hep : { s.ep p with notReady := (s.ep p).resIdx.isSome } = s.ep p := by rw [hk, Option.isSome_none, ← hr]
    refine ⟨_, deactivate_of_endTransfer (endTransfer_noIndex hk), ?_, setEnable_enabled (hs.ports hp) _, ?_, rfl, rfl, rfl⟩
    · rw [hep]
      exact (congrArg State.eps (setEp_self s p)).symm
    · simp [hk]
  | some k =>
    refine ⟨_, deactivate_of_endTransfer (endTransfer_answered hp hs hk hr hok), by rw [hk]; rfl, setEnable_enabled ?_ _,
      by rw [hk]; rfl, rfl, rfl, rfl⟩
    simpa [State.regsWith] using hs.ports hp

/-! ## kill_all with Shutdown -/

theorem State.Inv.queue_nodup (h : s.Inv) (hp : p < s.cfg.numPhysEp) : (s.ep p).queue.Nodup := by
  have hlen := h.shaped.eps hp
  refine (List.nodup_flatMap.mp h.queuedOnce).1 _ ?_
  rw [State.ep_eq_getElem hlen]
  exact List.getElem_mem hlen

/-- What kill_all of `p` without Success leaves of `s`, the callbacks making no nested call (R186). -/
structure QueueKilled (p : Nat) (res : Result) (s t : State) : Prop where
  eps : t.eps = s.eps.set p { s.ep p with queue := [], active := none, resIdx := none }
  outs : t.outs = s.outs ++ (s.ep p).queue.flatMap fun r => callbackOutput r (completed res (s.req r))
  req : ∀ r, t.req r = if r ∈ (s.ep p).queue then completed res (s.req r) else s.req r
  cfg : t.cfg = s.cfg
  regs : t.regs = s.regs
  mem : t.mem = s.mem
  ctl : t.ctl = s.ctl

theorem killAllWith_queueKilled (h : s.Inv) (hn : s.NoNested) (hp : p < s.cfg.numPhysEp) {res : Result}
    (hres : res ≠ .success) :
    ∃ t, killAllWith callback noAdvance p res s = .next t ∧ QueueKilled p res s t := by
  obtain ⟨t, e, ht, hreq⟩ := killAllWith_failure (adv := noAdvance) (fun _ _ => callback_quiet) hres hn (h.shaped.eps hp)
    (h.queue_nodup hp) (h.endpoints p hp).activeIsHead (h.endpoints p hp).indexIffActive
  refine ⟨t, e, ?_, ?_, hreq, ?_, ?_, ?_, ?_⟩ <;> rw [ht]

theorem killAllWith_empty {cb : CallbackAct} {adv : AdvanceAct} {res : Result} (hq : (s.ep p).queue = []) :
    killAllWith cb adv p res s = .next s := by
  rw [killAllWith, hq, eachInOrder_nil]

theorem State.NoNested.deactivate (h : s.NoNested) (e : deactivate p s = .next t) : t.NoNested := by
  have hle : t.draws.cbs.length ≤ s.draws.cbs.length := cbsOpFrame.deactivate p s t e
  rw [State.NoNested] at h
  rwa [h, List.length_nil, Nat.le_zero, List.length_eq_zero_iff] at hle

/-- Whatever deactivate left, the kill_all of DISABLE runs to its end (R160). -/
theorem shutdown_after_deactivate (h : s.Inv) (hn : s.NoNested) (hp : p < s.cfg.numPhysEp) (e : deactivate p s = .next u) :
    ∃ v, killAllWith callback noAdvance p .shutdown u = .next v ∧ QueueKilled p .shutdown u v := by
  have hcfg : u.cfg = s.cfg := cfgFrame.deactivate p s u e
  exact killAllWith_queueKilled (invOpFrame.deactivate p s u e h) (hn.deactivate e) (hcfg ▸ hp) nofun

/-- Settles O37: deactivate answered in time, and kill_all in the state it leaves. -/
theorem disableShutsTheEndpointDown : Obligations.DisableShutsTheEndpointDown := by
  intro s p hp hp2 h hn hrun hr hok
  obtain ⟨u, hu, hd⟩ := deactivate_answered h.shaped hp hr hok
  obtain ⟨v, hv, hk⟩ := shutdown_after_deactivate h hn hp hu
  have hep : u.ep p.toNat = { s.ep p.toNat with notReady := (s.ep p.toNat).resIdx.isSome } :=
    (ep_congr (u := s.setEp p.toNat _) hd.eps _).trans (setEp_ep_same s (h.shaped.eps hp) _)
  have hreq : ∀ r, u.req r = s.req r := fun r => by rw [State.req, hd.reqs, State.req]
  have heps : v.eps = s.eps.set p.toNat { s.ep p.toNat with
      queue := [], active := none, resIdx := none, notReady := (s.ep p.toNat).resIdx.isSome } := by
    rw [hk.eps, hep, hd.eps, List.set_set]
  have houts := hk.outs
  have hvreq := hk.req
  simp only [hep, hreq] at houts hvreq
  refine ⟨_, (exec_disable hp hrun).trans (callDisable_eq_next.mpr ⟨hp2, u, hu, v, hv, rfl⟩), ?_, fun q hq => ?_, ?_, ?_,
    hvreq, hk.mem.trans hd.mem, hk.ctl.trans hd.ctl⟩
  · exact (ep_congr (u := s.setEp p.toNat _) heps _).trans (setEp_ep_same s (h.shaped.eps hp) _)
  · exact (ep_congr (u := s.setEp p.toNat _) heps q).trans (setEp_ep_ne s hq.symm _)
  · have hport : v.port p.toNat = u.port p.toNat := by rw [State.port, hk.regs, State.port]
    exact (congrArg EpPort.enabled hport).trans hd.enabled
  · rw [hd.outs] at houts
    exact congrArg (· ++ [.returned (.int 0)]) houts

/-! ## A second DISABLE -/

/-- Writing back the registers an endpoint has changes nothing. -/
theorem setPort_self (s : State) (p : Nat) : s.setPort p (s.port p) = s := by
  by_cases h : p < s.regs.ports.length
  · simp [State.setPort, State.port, h]
  · simp [State.setPort, List.set_eq_of_length_le (Nat.le_of_not_lt h)]

theorem deactivate_of_idle (hk : (s.ep p).resIdx = none) (hoff : (s.port p).enabled = false) : deactivate p s = .next s := by
  have hport : { s.port p with enabled := false } = s.port p := by rw [← hoff]
  rw [deactivate_of_endTransfer (endTransfer_noIndex hk), setEnable_eq, hport, setPort_self]

/-- DISABLE of an endpoint without an index, a request and the enable bit only returns 0 (R161). -/
theorem callDisable_of_idle {cb : CallbackAct} (hp : 2 ≤ p) (hk : (s.ep p).resIdx = none) (hq : (s.ep p).queue = [])
    (hoff : (s.port p).enabled = false) : callDisable cb p s = .next (s.returns (.int 0)) :=
  callDisable_eq_next.mpr ⟨hp, s, deactivate_of_idle hk hoff, s, killAllWith_empty hq, rfl⟩

theorem deactivate_disables (hp : p < t.regs.ports.length) (e : deactivate p s = .next t) : (t.port p).enabled = false := by
  obtain ⟨u, -, e⟩ := andThen_eq_next.mp e
  cases e
  exact setEnable_enabled (by simpa using hp) false

/-- Settles O38: however the first DISABLE came to its end, the endpoint it leaves has no index, no request and no enable bit. -/
theorem secondDisableDoesNothing : Obligations.SecondDisableDoesNothing := by
  intro s t p h hn hrun e
  have hp : p.toNat < s.cfg.numPhysEp := (withEp_eq_next (k := fun n => callDisable callback n (noteCall s)) s e).1
  obtain ⟨hp2, u, hu, v, hv, rfl⟩ := callDisable_eq_next.mp ((exec_disable hp hrun).symm.trans e)
  obtain ⟨w, hw, hk⟩ := shutdown_after_deactivate h hn hp hu
  cases hv.symm.trans hw
  have hcfg : u.cfg = s.cfg := cfgFrame.deactivate _ s u hu
  have hshaped : u.Shaped := (invOpFrame.deactivate _ s u hu h).shaped
  have hpu : p.toNat < u.cfg.numPhysEp := hcfg ▸ hp
  have hrunv : v.regs.runStop = true := by
    rw [hk.regs, show u.regs.runStop = s.regs.runStop from runStopFrame.deactivate _ s u hu, hrun]
  have hep : v.ep p.toNat = { u.ep p.toNat with queue := [], active := none, resIdx := none } :=
    (ep_congr (u := u.setEp p.toNat _) hk.eps _).trans (setEp_ep_same u (hshaped.eps hpu) _)
  have hoff : (v.port p.toNat).enabled = false := by
    rw [State.port, hk.regs]
    exact deactivate_disables (hshaped.ports hpu) hu
  rw [exec_disable (s := v.returns (.int 0)) (show p.toNat < v.cfg.numPhysEp from hk.cfg ▸ hpu) hrunv]
  exact callDisable_of_idle hp2 (congrArg Endpoint.resIdx hep) (congrArg Endpoint.queue hep) hoff

end Sys2Proof.Machine
end

section
/-! ALLOC_REQUEST and FREE_REQUEST (R170, R171): the number ALLOC_REQUEST draws is in no use, and what is then among the request
objects. -/

namespace Sys2Proof.Machine

variable {s : State}

/-! ## The request objects -/

theorem findReq_eq_none_iff {l : List (ReqRef × Request)} {r : ReqRef} : findReq l r = none ↔ ∀ x ∈ l, x.1 ≠ r := by
  induction l with
  | nil => simp [findReq]
  | cons x xs ih => by_cases hx : x.1 = r <;> simp [findReq, hx, ih]

/-- The objects but `r`: `r` is not found among them, every other reference as before (R171). -/
theorem findReq_filter_ne (l : List (ReqRef × Request)) (r r' : ReqRef) :
    findReq (l.filter fun x => decide (x.1 ≠ r)) r' = if r' = r then none else findReq l r' := by
  by_cases hr : r' = r
  · subst hr
    rw [if_pos rfl, findReq_eq_none_iff]
    intro x hx
    simpa using List.of_mem_filter hx
  · rw [if_neg hr]
    induction l with
    | nil => rfl
    | cons x xs ih =>
      by_cases hx : x.1 = r
      · simpa [findReq, hx, Ne.symm hr] using ih
      · simpa [findReq, hx] using congrArg (fun o => if x.1 = r' then some x.2 else o) ih

/-! ## A number in no use -/

theorem mem_userIds {l : List ReqRef} {n : Nat} : n ∈ userIds l ↔ ReqRef.user n ∈ l := by
  induction l with
  | nil => simp [userIds]
  | cons r l ih => cases r <;> simp [userIds, ih]

theorem lt_aboveAll {l : List Nat} {n : Nat} (h : n ∈ l) : n < aboveAll l := by
  induction l with
  | nil => cases h
  | cons m l ih =>
    rw [aboveAll]
    rcases List.mem_cons.mp h with rfl | h
    · exact Nat.lt_of_lt_of_le (Nat.lt_succ_self n) (Nat.le_max_left _ _)
    · exact Nat.lt_of_lt_of_le (ih h) (Nat.le_max_right _ _)

theorem freshId_notMem_usedIds (s : State) : s.freshId ∉ s.usedIds := fun h => Nat.lt_irrefl _ (lt_aboveAll h)

theorem findReq_freshId (s : State) : findReq s.reqs (.user s.freshId) = none := by
  refine findReq_eq_none_iff.mpr fun x hx hid => freshId_notMem_usedIds s (List.mem_append_left _ ?_)
  exact mem_userIds.mpr (List.mem_map.mpr ⟨x, hx, hid⟩)

theorem onAnyQueue_eq_true_iff {r : ReqRef} : s.onAnyQueue r = true ↔ r ∈ queuedRefs s.eps := by
  simp [State.onAnyQueue, queuedRefs]

theorem onAnyQueue_freshId (s : State) : s.onAnyQueue (.user s.freshId) = false := by
  refine Bool.eq_false_iff.mpr fun h => freshId_notMem_usedIds s (List.mem_append_right _ ?_)
  exact mem_userIds.mpr (onAnyQueue_eq_true_iff.mp h)

/-! ## The two calls -/

/-- After INIT ALLOC_REQUEST leaves no mark of its own (R292). -/
theorem exec_allocRequest (hrun : s.regs.runStop = true) : exec .allocRequest s = callAlloc s := by
  simp only [exec, execAllocRequest, noteCall_running hrun]

/-- After INIT FREE_REQUEST leaves no mark of its own (R292). -/
theorem exec_freeRequest (hrun : s.regs.runStop = true) : exec .freeRequest s = callFree s.args.req s := by
  simp only [exec, execFreeRequest, noteCall_running hrun]

theorem callFree_queued {req : Nat} (h : s.onAnyQueue (.user req) = true) : callFree req s = .refused .freeOfQueued := by
  simp [callFree, h]

theorem callFree_unqueued {req : Nat} (h : s.onAnyQueue (.user req) = false) :
    callFree req s = .next (s.dropReq (.user req)) := by
  simp [callFree, h]

/-- Settles O39: the number drawn lies above every number in use, and FREE_REQUEST takes the one object out of the list. -/
theorem allocAndFreeRequests : Obligations.AllocAndFreeRequests := by
  refine ⟨fun s hrun => ?_, fun s hrun => ?_⟩
  · rw [exec_allocRequest hrun]
    exact ⟨_, s.freshId, _, rfl, rfl, findReq_freshId s, onAnyQueue_freshId s, findReq_putReq_same _ _ _,
      fun r hr => findReq_putReq_ne _ hr.symm _⟩
  · rw [exec_freeRequest hrun]
    refine ⟨callFree_queued, fun hq => ⟨_, callFree_unqueued hq, rfl, ?_, fun r hr => ?_⟩⟩
    · exact (findReq_filter_ne _ _ _).trans (if_pos rfl)
    · exact (findReq_filter_ne _ _ _).trans (if_neg hr)

end Sys2Proof.Machine
end

section
/-! QUEUE (R172 to R175): where the request goes, whether it is mapped, and then its place on the queue. -/

namespace Sys2Proof.Machine

variable {s : State} {p q : Nat} {r : ReqRef}

/-! ## The checks before the queue -/

/-- After INIT QUEUE leaves no mark of its own (R292). -/
theorem exec_queue {p : EpField} (hp : p.toNat < s.cfg.numPhysEp) (hrun : s.regs.runStop = true) :
    exec (.queue p) s = callQueue p.toNat s.args.req s.args.buf s.args.len s := by
  simp only [exec, execQueue, withEp_legal s hp, noteCall_running hrun]

theorem ep0Target_other (hp : 2 ≤ p) : ep0Target p s = .next p := by
  simp [ep0Target, isEp0_eq_false_iff.mpr hp]

theorem ep0Target_data (hp : p < 2) (hph : s.ctl.ep0Phase = .data) :
    ep0Target p s = .next (phys 0 s.ctl.ep0Ctx.dataDir) := by
  simp [ep0Target, isEp0_eq_true_iff.mpr hp, hph]

theorem ep0Target_badPhase (hp : p < 2) (hph : s.ctl.ep0Phase ≠ .data) : ep0Target p s = .fault .ep0BadPhase := by
  simp [ep0Target, isEp0_eq_true_iff.mpr hp, hph]

/-- The physical endpoint of EP0's data stage (R7, R174). -/
theorem phys_zero (d : Dir) : phys 0 d = if d = .IN then 1 else 0 := by
  cases d <;> rfl

section
variable {req buf len : Nat}

theorem callQueue_queued (h : s.onAnyQueue (.user req) = true) : callQueue p req buf len s = .refused .alreadyQueued := by
  simp [callQueue, h]

theorem callQueue_badPhase (h : s.onAnyQueue (.user req) = false) (hp : p < 2) (hph : s.ctl.ep0Phase ≠ .data) :
    callQueue p req buf len s = .fault .ep0BadPhase := by
  simp [callQueue, h, ep0Target_badPhase hp hph]

theorem callQueue_unmapped (h : s.onAnyQueue (.user req) = false) (ht : ep0Target p s = .next q)
    (hm : (s.req (.user req)).mapped = false) (hd : s.mapDraw = false) :
    callQueue p req buf len s = raiseErr .bufferMapFailure
      (s.popMap.setReq (.user req) (submitted (s.req (.user req)) (buf % 2 ^ s.cfg.addrBits) len)) := by
  simp [callQueue, h, ht, submitted, hm, hd]

end

/-! ## On the queue -/

/-- The request of a QUEUE once it is mapped (R172). -/
def mappedRequest (buf len : Nat) : Request :=
  { buf := buf, length := len, callback := .upper, status := .inProgress, actual := 0, mapped := true }

/-- `s` with the mapped request `x` written as `r`: a map draw is used unless `r` was mapped already, and a buffer against R76's
premise leaves its mark (R172, logs 14 and 34). -/
def State.submitting (s : State) (r : ReqRef) (x : Request) : State :=
  { s with
    reqs := putReq s.reqs r x
    draws := if (s.req r).mapped then s.draws else { s.draws with maps := s.draws.maps.tail }
    marks := s.marks ++ (if s.bufferClear r x then [] else [.bufferOverlap r]) }

/-- `r` at the tail of `p`'s queue, nothing started. -/
def State.appended (s : State) (p : Nat) (r : ReqRef) : State := s.setEp p { s.ep p with queue := (s.ep p).queue ++ [r] }

/-- On a busy or not-ready endpoint a request waits (R172). -/
theorem enqueue_waits (h : (s.ep p).queue ≠ [] ∨ (s.ep p).notReady = true) : enqueue p r s = .next (s.appended p r) := by
  have hidle : ¬ ((s.ep p).queue = [] ∧ (s.ep p).notReady = false) := fun ⟨hq, hr⟩ => by simp [hq, hr] at h
  exact if_neg hidle

/-- On an empty ready one it starts (R172). -/
theorem enqueue_starts (hq : (s.ep p).queue = []) (hr : (s.ep p).notReady = false) :
    enqueue p r s = startTransfer p (s.appended p r) :=
  if_pos ⟨hq, hr⟩

section
variable {req buf len : Nat}

/-- A request that is mapped, or whose mapping succeeds, is submitted and put on the queue of its endpoint. -/
theorem callQueue_mapped (h : s.onAnyQueue (.user req) = false) (ht : ep0Target p s = .next q)
    (hm : (s.req (.user req)).mapped = true ∨ s.mapDraw = true) :
    callQueue p req buf len s =
      andThen (enqueue q (.user req) (s.submitting (.user req) (mappedRequest (buf % 2 ^ s.cfg.addrBits) len)))
        fun t => .next (t.returns (.int 0)) := by
  cases hmap : (s.req (.user req)).mapped with
  | true =>
    simp only [callQueue, h, ht, submitted, hmap, noteBuffer_eq, State.submitting]
    rfl
  | false =>
    have hd : s.mapDraw = true := hm.resolve_left (by simp [hmap])
    simp only [callQueue, h, ht, submitted, hmap, hd, noteBuffer_eq, State.submitting]
    rfl

/-- Where a submitted request goes on the queue of `q`: there it waits and 0 is returned, or the rest is what start_transfer does
(R172, R175). -/
theorem callQueue_answers {n : EpField} (hn : n.toNat < s.cfg.numPhysEp) (h : s.onAnyQueue (.user req) = false)
    (ht : ep0Target p s = .next n.toNat) (hm : (s.req (.user req)).mapped = true ∨ s.mapDraw = true) :
    let u := (s.submitting (.user req) (mappedRequest (buf % 2 ^ s.cfg.addrBits) len)).appended n.toNat (.user req)
    ((s.ep n.toNat).queue ≠ [] ∨ (s.ep n.toNat).notReady = true →
      callQueue p req buf len s = .next (u.returns (.int 0))) ∧
    ((s.ep n.toNat).queue = [] → (s.ep n.toNat).notReady = false →
      callQueue p req buf len s = andThen (exec (.procStartTransfer n) u) fun t => .next (t.returns (.int 0))) := by
  rw [callQueue_mapped h ht hm]
  refine ⟨fun hwait => ?_, fun hq hr => ?_⟩
  · rw [enqueue_waits (s := s.submitting _ _) hwait, andThen_next]
  · rw [enqueue_starts (s := s.submitting _ _) hq hr]
    exact congrArg (andThen · _) (exec_procStartTransfer (s := (s.submitting _ _).appended _ _) hn).symm

end

/-- Settles O40: the request is submitted, and its own endpoint is where it goes. -/
theorem queueAppendsAndStarts : Obligations.QueueAppendsAndStarts := by
  intro s p hp hrun
  rw [exec_queue hp hrun]
  exact ⟨callQueue_queued, fun h hp2 hm => callQueue_answers hp h (ep0Target_other hp2) hm⟩

/-- Settles O41: the endpoint is settled before the mapping, so a failed mapping only writes the request; in DATA the endpoint is
the data stage's. -/
theorem queueMapFailureAndEp0Target : Obligations.QueueMapFailureAndEp0Target := by
  refine ⟨fun s p hp hdata hrun h hmap hd => ?_, fun s p hp hp2 hrun h => ?_⟩
  · obtain ⟨q, ht⟩ : ∃ q, ep0Target p.toNat s = .next q := by
      rcases Nat.lt_or_ge p.toNat 2 with hp2 | hp2
      · exact ⟨_, ep0Target_data hp2 (hdata.resolve_left (Nat.not_le.mpr hp2))⟩
      · exact ⟨_, ep0Target_other hp2⟩
    have hreq (r : ReqRef) := setReq_req s.popMap (.user s.args.req) r
      (submitted (s.req (.user s.args.req)) (s.args.buf % 2 ^ s.cfg.addrBits) s.args.len)
    have hself := (hreq (.user s.args.req)).trans (if_pos rfl)
    rw [exec_queue hp hrun, callQueue_unmapped h ht hmap hd]
    exact ⟨_, rfl, rfl, congrArg Request.status hself, congrArg Request.actual hself,
      (congrArg Request.mapped hself).trans hmap, fun r hr => (hreq r).trans (if_neg hr.symm)⟩
  · rw [exec_queue hp hrun]
    refine ⟨callQueue_badPhase h hp2, fun hph hnum hm => ?_⟩
    intro q
    have hq : q < 2 := by
      rw [show q = if s.ctl.ep0Ctx.dataDir = .IN then 1 else 0 from rfl]
      split <;> decide
    have hn : (BitVec.ofNat 8 q).toNat = q := Nat.mod_eq_of_lt (Nat.lt_trans hq (by decide))
    have ht : ep0Target p.toNat s = .next (BitVec.ofNat 8 q).toNat := by
      rw [ep0Target_data hp2 hph, phys_zero, hn]
    have hans := callQueue_answers (buf := s.args.buf) (len := s.args.len) (by omega) h ht hm
    rwa [hn] at hans

end Sys2Proof.Machine
end

section
/-! Completion, the callback making no nested call (R176 to R186): what complete leaves without Success and with it, DEQUEUE over
it, and kill_all. -/

namespace Sys2Proof.Machine

variable {s : State} {p q : Nat} {r : ReqRef} {res : Result}

/-! ## complete -/

theorem exec_procComplete {p : EpField} (hp : p.toNat < s.cfg.numPhysEp) :
    exec (.procComplete p) s = complete p.toNat s.args.ref s.args.result s := by
  simp only [exec, execProcComplete, withEp_legal s hp]

/-- The endpoint's record without the completed request; the marker and the index go with the active one (R181). -/
def Endpoint.without (e : Endpoint) (r : ReqRef) : Endpoint :=
  { e with
    queue := e.queue.erase r
    active := if decide (e.active = some r) then none else e.active
    resIdx := if decide (e.active = some r) then none else e.resIdx }

theorem Endpoint.without_active_eq_none_iff {e : Endpoint} :
    (e.without r).active = none ↔ e.active = some r ∨ e.active = none := by
  by_cases h : e.active = some r <;> simp [Endpoint.without, h]

/-- `s` with `r` completed on `p` and its callback made; the marks are left to the caller (R180 to R182). -/
def State.completing (s : State) (p : Nat) (r : ReqRef) (res : Result) : State :=
  { s with
    reqs := putReq s.reqs r (completed res (s.req r))
    eps := s.eps.set p ((s.ep p).without r)
    outs := s.outs ++ callbackOutput r (completed res (s.req r)) }

/-- complete without Success leaves the request completed, with R305's mark if it was the active one, and starts nothing
(R180 to R185). -/
theorem completeWith_quiet_failure {adv : AdvanceAct} (hn : s.NoNested) (hres : res ≠ .success) :
    completeWith callback adv p r res s = .next { s.completing p r res with
      marks := s.marks ++ (if decide ((s.ep p).active = some r) then [.bufferReleased p r] else []) } := by
  rw [completeWith_failure (fun _ _ => callback_quiet) hres hn, release_eq]
  simp only [hres, ne_eq, not_false_eq_true, and_true]
  rfl

/-- Settles O43: complete stops after the callback. -/
theorem completionWithoutSuccess : Obligations.CompletionWithoutSuccess := fun _ _ hp hn hres =>
  (exec_procComplete hp).trans (completeWith_quiet_failure hn hres)

/-- Releasing a request with Success and making its callback leaves it completed (R180 to R183). -/
theorem callback_after_release (hn : s.NoNested) :
    (if ((release p r .success s).req r).callback ≠ .internal then callback r (release p r .success s)
      else .next (release p r .success s)) = .next (s.completing p r .success) := by
  have hreq : (release p r .success s).req r = completed .success (s.req r) := by
    rw [release_eq]
    simp [State.req, findReq_putReq_same]
  have hcompleting : s.completing p r .success =
      { release p r .success s with
        outs := s.outs ++ callbackOutput r (completed .success (s.req r)) } := by
    rw [release_eq]
    simp [State.completing, Endpoint.without]
  have houts : (release p r .success s).outs = s.outs := by rw [release_eq]
  by_cases hc : ((release p r .success s).req r).callback = .internal
  · have hsilent : callbackOutput r (completed .success (s.req r)) = [] := if_pos (hreq ▸ hc)
    rw [if_neg (not_not_intro hc), hcompleting, hsilent, List.append_nil, ← houts]
  · have hquiet : (release p r .success s).NoNested := (release_cbs _ _ _ _).trans hn
    rw [if_pos hc, callback_quiet hquiet, emitCb_eq hc, hcompleting, hreq, houts]

/-- complete with Success on an endpoint other than EP0: if no request is then active the queue goes on (R180, R184). -/
theorem completeWith_success {adv : AdvanceAct} (hp : 2 ≤ p) (hn : s.NoNested) :
    completeWith callback adv p r .success s =
      if ((s.completing p r .success).ep p).active = none then startTransfer p (s.completing p r .success)
      else .next (s.completing p r .success) := by
  simp only [completeWith, isEp0_eq_false_iff.mpr hp, Bool.false_eq_true, if_false, andThen_next,
    callback_after_release hn, and_true]

theorem completing_ep (hp : p < s.eps.length) : (s.completing p r res).ep p = (s.ep p).without r :=
  setEp_ep_same s hp _

/-- Settles O44: a request is still active only if another than the completed one was. -/
theorem completionStartsTheNext : Obligations.CompletionStartsTheNext := by
  intro s p hp hs hp2 hn hres r act u
  have hep : u.ep p.toNat = (s.ep p.toNat).without r := completing_ep (res := .success) (hs.eps hp)
  have hexec : exec (.procComplete p) s =
      if (u.ep p.toNat).active = none then exec (.procStartTransfer p) u else .next u := by
    rw [exec_procComplete hp, hres, exec_procStartTransfer (s := u) hp]
    exact completeWith_success hp2 hn
  have hnone : (u.ep p.toNat).active = none ↔ act = true ∨ (s.ep p.toNat).active = none := by
    rw [hep, Endpoint.without_active_eq_none_iff, decide_eq_true_iff]
  refine ⟨fun hidle => ?_, fun hact hbusy => ?_⟩
  · rw [hexec, if_pos (hnone.mpr hidle)]
  · rw [hexec, if_neg fun h => (hnone.mp h).elim (by simp [hact]) hbusy]

/-! ## DEQUEUE -/

/-- After INIT DEQUEUE leaves no mark of its own (R292). -/
theorem exec_dequeue {p : EpField} (hp : p.toNat < s.cfg.numPhysEp) (hrun : s.regs.runStop = true) :
    exec (.dequeue p) s = callDequeue callback p.toNat s.args.req s := by
  simp only [exec, execDequeue, withEp_legal s hp, noteCall_running hrun]

theorem holderOf_other (hp : 2 ≤ p) : holderOf p r s = p := by
  simp [holderOf, isEp0_eq_false_iff.mpr hp]

/-- On EP0 endpoint 0 is searched first, then endpoint 1 (R176). -/
theorem holderOf_ep0 (hp : p < 2) :
    holderOf p r s = if r ∈ (s.ep 0).queue then 0 else if r ∈ (s.ep 1).queue then 1 else p := by
  simp [holderOf, isEp0_eq_true_iff.mpr hp]

theorem callDequeue_absent {cb : CallbackAct} {req : Nat} (h : .user req ∉ (s.ep (holderOf p (.user req) s)).queue) :
    callDequeue cb p req s = raiseErr .requestNotFound s :=
  if_neg h

theorem callDequeue_held {cb : CallbackAct} {req : Nat} (hq : holderOf p (.user req) s = q)
    (h : .user req ∈ (s.ep q).queue) :
    callDequeue cb p req s =
      andThen (completeWith cb noAdvance q (.user req) .connectionReset s) fun t => .next (t.returns (.int 0)) := by
  subst hq
  exact if_pos h

/-- Settles O42: the endpoint searched is the one that holds the request, and complete does the rest. -/
theorem dequeueCompletesWithConnectionReset : Obligations.DequeueCompletesWithConnectionReset := by
  constructor
  · intro s p hp hrun r hother hep0
    rw [exec_dequeue hp hrun]
    refine callDequeue_absent ?_
    rcases Nat.lt_or_ge p.toNat 2 with hp2 | hp2
    · obtain ⟨h0, h1⟩ := hep0 hp2
      rw [holderOf_ep0 hp2, if_neg h0, if_neg h1]
      interval_cases p.toNat
      · exact h0
      · exact h1
    · rw [holderOf_other hp2]
      exact hother hp2
  · intro s p q hp hs hnum hn hrun r hq hmem
    have hholder : holderOf p.toNat r s = q := by
      rcases hq with ⟨hp2, rfl⟩ | ⟨hp2, rfl⟩ | ⟨hp2, rfl, h0⟩
      · exact holderOf_other hp2
      · rw [holderOf_ep0 hp2, if_pos hmem]
      · rw [holderOf_ep0 hp2, if_neg h0, if_pos hmem]
    rw [exec_dequeue hp hrun, callDequeue_held hholder hmem, completeWith_quiet_failure (res := .connectionReset) hn nofun]
    rfl

/-! ## kill_all -/

theorem exec_procKillAll {p : EpField} (hp : p.toNat < s.cfg.numPhysEp) :
    exec (.procKillAll p) s = killAll p.toNat s.args.result s := by
  simp only [exec, execProcKillAll, withEp_legal s hp]

/-- Settles O45: kill_all completes the requests of a queue that holds each of them once. -/
theorem killAllInQueueOrder : Obligations.KillAllInQueueOrder := by
  intro s p hp h hn hres
  obtain ⟨t, e, ht, hreq⟩ := killAllWith_failure (adv := ep0Advance) (fun _ _ => callback_quiet) hres hn
    (h.shaped.eps hp) (h.queue_nodup hp) (h.endpoints _ hp).activeIsHead (h.endpoints _ hp).indexIffActive
  have heps : t.eps = (s.setEp p.toNat { s.ep p.toNat with queue := [], active := none, resIdx := none }).eps := by
    rw [ht]; rfl
  refine ⟨t, (exec_procKillAll hp).trans e, ?_, fun q hq => ?_, hreq, ?_, ?_, ?_, ?_, ?_⟩
  · exact (ep_congr heps _).trans (setEp_ep_same s (h.shaped.eps hp) _)
  · exact (ep_congr heps q).trans (setEp_ep_ne s hq.symm _)
  all_goals rw [ht]

end Sys2Proof.Machine
end

section
/-! The completion callback and its nested calls (R183). -/

namespace Sys2Proof.Machine

variable {s : State}

/-- The bound of a callback covers the callbacks scripted after it, so those have callbacks of their own (R183). -/
theorem callbackN_agree_callback (n : Nat) : AgreeBelow n (callbackN n) callback := fun r s hs =>
  callbackN_agree n s.draws.cbs.length s.draws.cbs.length hs (Nat.le_refl _) r s (Nat.le_refl _)

/-- A callback with calls scripted makes its upcall, then those calls, over what is left of the script (R183). -/
theorem callback_scripted {r : ReqRef} {calls : List NestedCall} {rest : List (List NestedCall)}
    (hc : s.draws.cbs = calls :: rest) :
    callback r s = eachInOrder (nestedCall callback) calls (emitCb r { s with draws := { s.draws with cbs := rest } }) := by
  have hagree : ∀ (c : NestedCall) (t : State), t.draws.cbs.length ≤ rest.length →
      nestedCall (callbackN rest.length) c t = nestedCall callback c t :=
    nestedCall_agree (cbsFrame.callbackN _) (callbackN_agree_callback _)
  have hlen : s.draws.cbs.length = rest.length + 1 := congrArg List.length hc
  rw [callback, hlen, callbackN, hc]
  exact eachInOrder_agree (cbsFrame.nestedCall (cbsFrame.callbackN _)) hagree calls _ (Nat.le_refl _)

/-- A nested call of an absent endpoint is refused (R104). -/
theorem nestedCall_illegal {n : Nat} (hn : s.cfg.numPhysEp ≤ n) :
    (∀ d, nestedCall callback (.enable n d) s = .refused .illegalEndpoint) ∧
    nestedCall callback (.disable n) s = .refused .illegalEndpoint ∧
    (∀ r b len, nestedCall callback (.queue n r b len) s = .refused .illegalEndpoint) ∧
    (∀ r, nestedCall callback (.dequeue n r) s = .refused .illegalEndpoint) ∧
    ∀ v, nestedCall callback (.setHalt n v) s = .refused .illegalEndpoint := by
  simp only [nestedCall, withEp_illegal s hn, implies_true, and_self]

/-- Settles O46: the script bounds the nesting and is never met; each nested call is the meaning of its own word. -/
theorem callbackMakesItsNestedCalls : Obligations.CallbackMakesItsNestedCalls := by
  intro s o
  refine ⟨callback_quiet, fun calls rest hc => callback_scripted hc, fun p hp => ?_, rfl, fun _ => rfl, rfl,
    fun n hn => nestedCall_illegal hn, fun hd => if_pos hd, fun hd => if_neg (by simp [hd])⟩
  simp only [nestedCall, exec, execEnable, execDisable, execQueue, execDequeue, execSetHalt, withEp_legal s hp, implies_true,
    and_self]

end Sys2Proof.Machine
end

section
/-! STALLED is left in the operation that enters it: no write of the machine enters it but the stall effects, and these end by
arming the setup read (R214, R215). -/

namespace Sys2Proof.Machine

/-- EP0 is not in STALLED if it was not before (R215). -/
def StaysUnstalled (s t : State) : Prop := s.ctl.ep0Phase ≠ .stalled → t.ctl.ep0Phase ≠ .stalled

theorem StaysUnstalled.of_ctl {s t : State} (h : t.ctl = s.ctl) : StaysUnstalled s t := fun hs => h ▸ hs

theorem ctl_issuerBlind : IssuerBlind State.ctl := fun _ _ _ hctl _ _ => hctl

theorem unstalledOpFrame : OpFrame StaysUnstalled where
  refl := fun _ => id
  trans := fun hst htu h => htu (hst h)
  issue := fun c s x e => .of_ctl (ctl_issuerBlind.issue c s x e)
  notReady := fun _ _ => id
  start := fun p s t e => .of_ctl (ctl_issuerBlind.start p s t e)
  push := fun _ _ _ _ => id
  setReq := fun _ _ _ _ => id
  enable := fun _ _ _ => id
  cfgStarted := fun _ => id
  emit := fun _ _ _ => id
  mark := fun _ _ => id

/-- arm_setup leaves SETUP behind it, whatever the phase was (R191). -/
theorem armSetup_unstalled {s t : State} (e : armSetup s = .next t) : t.ctl.ep0Phase ≠ .stalled :=
  unstalledOpFrame.submitInternal _ _ _ _ _ t e nofun

/-- The stall effects enter STALLED and leave it by arm_setup (R214, R215). -/
theorem stallEffects_unstalled {cb : CallbackAct} {s t : State} (e : ep0StallEffectsWith cb s = .next t) :
    t.ctl.ep0Phase ≠ .stalled := by
  obtain ⟨_, _, e⟩ := andThen_eq_next.mp e
  obtain ⟨_, _, e⟩ := andThen_eq_next.mp e
  exact armSetup_unstalled e

theorem unstalledCallFrame : CallFrame StaysUnstalled where
  toOpFrame := unstalledOpFrame
  release := fun p r res s => .of_ctl (by rw [release_eq])
  stall := fun _ _ _ _ e _ => stallEffects_unstalled e
  setType := fun _ _ _ _ _ => id
  halted := fun _ _ _ _ => id
  popCbs := fun _ _ _ _ => id
  popMap := fun _ => id
  fresh := fun _ _ => id
  drop := fun _ _ => id

theorem unstalledAdvFrame : AdvFrame StaysUnstalled where
  toCallFrame := unstalledCallFrame
  phase := fun _ _ hph _ => hph
  context := fun _ _ => id
  selData := fun _ _ => id
  devAddr := fun _ _ => id
  popSetup := fun _ => id
  writeMem := fun _ _ s t e => .of_ctl (by rw [(writeMem_eq_next e).2])

theorem unstalledEventFrame : EventFrame StaysUnstalled where
  toAdvFrame := unstalledAdvFrame
  hwTransfer := fun _ _ _ e => .of_ctl (by rw [(hwTransfer_eq_next e).1])
  acrossReset := fun _ _ => id
  clearHalts := fun _ => id
  cfgCleared := fun _ => id
  latchSpeed := fun _ => id
  speed := fun _ _ => id
  resize := fun _ _ => id
  connected := fun _ _ => id
  commandDone := fun p s => .of_ctl (landLate_keepsRecords p s).ctl
  drain := fun p s => .of_ctl (ctl_issuerBlind.drain p s)

theorem unstalledMachineFrame : MachineFrame StaysUnstalled where
  toEventFrame := unstalledEventFrame
  acknowledge := fun _ => id
  dispatching := fun _ _ => id
  initEp0 := fun _ _ => id
  initRegs := fun _ => id
  runStop := fun _ _ => id
  clearEnables := fun _ => id
  landLate := fun p s => .of_ctl (landLate_keepsRecords p s).ctl
  takeLine := fun _ _ _ _ => id
  deliver := fun w s t e => .of_ctl (deliverRecord_keepsRecords w s t e).ctl

/-- Settles O19: every write of the machine leaves an EP0 that is not in STALLED out of it, so every operation and step does. -/
theorem stalledIsTransient : Obligations.StalledIsTransient :=
  ⟨fun i s t e => unstalledMachineFrame.execAll i s t e, fun s t h e => unstalledMachineFrame.step s t e h⟩

end Sys2Proof.Machine
end

section
/-! The upcalls (R96, R209, R245, R246), and process_control over them: a setup packet that arrived is recorded and answered,
locally or by the upper layer, and a negative answer is ep0_stall (R193 to R195, R204, R209, R210). -/

namespace Sys2Proof.Machine

variable {s : State}

/-! ## The upcalls -/

/-- The SETUP upcall puts out the packet with its return, and the calls of the answer run inside it (R209). -/
theorem upcallSetup_scripted {ret : Int} {calls : List NestedCall} {rest : List SetupDraw}
    (hd : s.draws.setups = { ret := ret, calls := calls } :: rest) (pkt : BitVec 64) :
    upcallSetup pkt s = andThen (eachInOrder (nestedCall callback) calls
      { s with draws := { s.draws with setups := rest }, outs := s.outs ++ [.setup pkt ret] })
      fun t => .next (t, ret) := by
  simp only [upcallSetup, State.setupDraw, State.popSetup, State.emit, hd, List.headD_cons, List.tail_cons]

theorem exec_upSetup_scripted {ret : Int} {calls : List NestedCall} {rest : List SetupDraw}
    (hd : s.draws.setups = { ret := ret, calls := calls } :: rest) :
    exec .upSetup s = andThen (eachInOrder (nestedCall callback) calls
      { s with draws := { s.draws with setups := rest }, outs := s.outs ++ [.setup s.args.packet ret] })
      fun t => .next (t.returns (.int ret)) := by
  rw [show exec .upSetup s = andThen (upcallSetup s.args.packet s) fun x => .next (x.1.returns (.int x.2)) from rfl,
    upcallSetup_scripted hd, andThen_assoc]
  rfl

/-- An optional upcall is an output if the upper layer bound it (R12). -/
theorem emit_if_bound (b : Bool) (o : Output) :
    (if b then s.emit o else s) = { s with outs := s.outs ++ (if b then [o] else []) } := by
  cases b
  · simp
  · rfl

/-- Settles O47: the SETUP answer's calls run between the packet and the return; the optional upcalls are outputs if bound. -/
theorem upcallsReachTheUpperLayer : Obligations.UpcallsReachTheUpperLayer := by
  intro s
  refine ⟨fun ret calls rest hd => exec_upSetup_scripted hd, fun ret rest hd => ?_, ?_, ?_, ?_⟩
  · rw [exec_upSetup_scripted hd]
    simp [State.emit]
  all_goals exact congrArg Host.Outcome.next (emit_if_bound _ _)

/-! ## The setup packet's record and its kind -/

theorem hasData_decodeSetup (pkt : BitVec 64) :
    (decodeSetup pkt).hasData = decide ((decodeSetup pkt).wLength ≠ 0) := by
  have hpos : 0 < (decodeSetup pkt).wLength.toNat ↔ (decodeSetup pkt).wLength ≠ 0 := by
    rw [Nat.pos_iff_ne_zero, Ne, Ne, ← BitVec.toNat_inj]
    rfl
  exact decide_eq_decide.mpr hpos

/-- Without data the record leaves the phase (R193). -/
theorem recorded_noData {c : Ep0Ctx} (h : c.wLength = 0) : s.recorded c = { s with ctl := { s.ctl with ep0Ctx := c } } := by
  rw [State.recorded, if_pos h]

/-- With data the phase is DATA already (R195). -/
theorem recorded_data {c : Ep0Ctx} (h : c.wLength ≠ 0) :
    s.recorded c = { s with ctl := { s.ctl with ep0Ctx := c, ep0Phase := .data } } := by
  rw [State.recorded, if_neg h]

theorem recordSetup_eq (pkt : BitVec 64) : recordSetup (decodeSetup pkt) s = s.recorded (decodeSetup pkt) := by
  rw [recordSetup, hasData_decodeSetup]
  by_cases h : (decodeSetup pkt).wLength = 0
  · rw [recorded_noData h, if_neg (by simp [h])]
  · rw [recorded_data h, if_pos (decide_eq_true h)]
    rfl

theorem localReq_standard {c : Ep0Ctx} (hstd : c.bmRequestType.toNat / 32 % 4 = 0) :
    localReq c = localReqOfCode c.bRequest.toNat := if_pos hstd

/-- A request is forwarded if it is not a standard one or has none of the five codes (R194). -/
theorem localReq_eq_none {c : Ep0Ctx}
    (h : c.bmRequestType.toNat / 32 % 4 ≠ 0 ∨ c.bRequest.toNat ∉ [0, 1, 3, 5, 48]) : localReq c = none := by
  by_cases hstd : c.bmRequestType.toNat / 32 % 4 = 0
  · rw [localReq_standard hstd]
    have hcode := h.resolve_left (not_not_intro hstd)
    unfold localReqOfCode
    split <;> simp_all
  · exact if_neg hstd

/-! ## process_control -/

/-- The end of process_control after a negative answer (R204). -/
theorem settleSetup_neg {c : Ep0Ctx} {t : State} {ret : Int} (h : ret < 0) : settleSetup c (t, ret) = ep0Stall t := if_pos h

/-- The end of process_control after an answer that is not negative: DATA, or WAIT_NRDY without data (R210). -/
theorem settleSetup_nonneg {pkt : BitVec 64} {t : State} {ret : Int} (h : 0 ≤ ret) :
    settleSetup (decodeSetup pkt) (t, ret) =
      if (decodeSetup pkt).wLength = 0 then .next (t.setPhase .waitNrdy) else .next t := by
  simp only [settleSetup, Int.not_lt.mpr h, if_false, hasData_decodeSetup, ne_eq, decide_not, Bool.not_eq_true',
    decide_eq_false_iff_not, ite_not]

section
variable {bs : List Byte} {c : Ep0Ctx} (h : s.SetupArrived bs) (hc : c = decodeSetup (setupPacket bs))
include h hc

/-- A packet that arrived is recorded, answered and settled (R193). -/
theorem processControl_arrived :
    processControl s = andThen (answerSetup (setupPacket bs) c (s.recorded c)) (settleSetup c) := by
  subst hc
  obtain ⟨hreset, hactual, hspace, -, hbytes⟩ := h
  rw [processControl, if_neg (by simp [hreset]), if_neg (not_not_intro hactual), readMem_inSpace hspace, andThen_next, hbytes]
  simp only [recordSetup_eq]

/-- A standard request with one of the five codes goes to its local handler (R194). -/
theorem processControl_local {q : LocalReq} {code : Nat} (hstd : c.bmRequestType.toNat / 32 % 4 = 0)
    (hcode : c.bRequest.toNat = code) (hq : localReqOfCode code = some q) :
    processControl s = andThen (localHandler q c (s.recorded c)) (settleSetup c) := by
  rw [processControl_arrived h hc, answerSetup, localReq_standard hstd, hcode, hq]

/-- Any other request goes to the SETUP upcall (R209). -/
theorem processControl_forwarded {ret : Int} {calls : List NestedCall} {rest : List SetupDraw}
    (hfwd : c.bmRequestType.toNat / 32 % 4 ≠ 0 ∨ c.bRequest.toNat ∉ [0, 1, 3, 5, 48])
    (hd : s.draws.setups = { ret := ret, calls := calls } :: rest) :
    processControl s = andThen (eachInOrder (nestedCall callback) calls { s.recorded c with
        draws := { s.draws with setups := rest }
        outs := s.outs ++ [.setup (setupPacket bs) ret] })
      fun t => settleSetup c (t, ret) := by
  rw [processControl_arrived h hc, answerSetup, localReq_eq_none hfwd, upcallSetup_scripted (s := s.recorded c) hd,
    andThen_assoc]
  rfl

end

theorem exec_procProcessControl : exec .procProcessControl s = processControl s := rfl

/-- Settles O52: a forwarded request is the upcall and what its return settles; the other stops are process_control's first two
checks. -/
theorem forwardedRequestsReachSetup : Obligations.ForwardedRequestsReachSetup := by
  refine ⟨fun s bs ret rest h => ?_, fun s hreset hactual => ?_, fun s hreset => if_pos hreset, fun s bs ret rest h => ?_,
    fun s bs ret calls rest h => ?_⟩
  · intro c hfwd hd hret
    rw [exec_procProcessControl, processControl_forwarded h rfl hfwd hd, eachInOrder_nil, andThen_next, settleSetup_nonneg hret]
    by_cases hlen : c.wLength = 0
    · rw [if_pos hlen, if_pos hlen]
      rfl
    · rw [if_neg hlen, if_neg hlen, recorded_data hlen]
  · rw [exec_procProcessControl, processControl, if_neg (by simp [hreset]), if_pos hactual]
    rfl
  · intro c hfwd hd hret
    rw [exec_procProcessControl, processControl_forwarded h rfl hfwd hd, eachInOrder_nil, andThen_next, settleSetup_neg hret]
    rfl
  · intro c hfwd hd u
    rw [exec_procProcessControl, processControl_forwarded h rfl hfwd hd]
    refine congrArg (andThen _) (funext fun t => ?_)
    by_cases hret : ret < 0
    · rw [settleSetup_neg hret, if_pos hret]
      rfl
    · rw [settleSetup_nonneg (Int.not_lt.mp hret), if_neg hret]
      rfl

end Sys2Proof.Machine
end

section
/-! The engine's own submits (R33, R174, R190), and what the EP0 sequencer does by them: the locally answered requests that change
no halt (R201 to R208), ep0_advance (R196) and ep0_not_ready (R198). -/

namespace Sys2Proof.Machine

variable {s : State}

/-! ## submit of a request of the engine's own -/

/-- A request of the engine's own as it is submitted (R33). -/
def internalRequest (buf len : Nat) : Request :=
  { buf := buf, length := len, callback := .internal, status := .inProgress, actual := 0, mapped := true }

/-- `s` with the engine's own request `r` at the tail of `p`'s queue, nothing started. -/
def State.queuedInternal (s : State) (p : Nat) (r : ReqRef) (buf len : Nat) : State :=
  (s.setReq r (internalRequest buf len)).appended p r

section
variable {p buf len : Nat} {r : ReqRef} (h : s.onAnyQueue r = false)
include h

theorem submitInternal_eq : submitInternal p r buf len s =
    if (s.ep p).queue = [] ∧ (s.ep p).notReady = false then startTransfer p (s.queuedInternal p r buf len)
    else .next (s.queuedInternal p r buf len) :=
  if_neg (by simp [h])

/-- On a busy or not-ready endpoint the request waits; on an empty ready one the rest is what start_transfer does (R172). -/
theorem submitInternal_answers {n : EpField} (hn : n.toNat < s.cfg.numPhysEp) (hp : n.toNat = p) :
    ((s.ep p).queue ≠ [] ∨ (s.ep p).notReady = true →
      submitInternal p r buf len s = .next (s.queuedInternal p r buf len)) ∧
    ((s.ep p).queue = [] → (s.ep p).notReady = false →
      submitInternal p r buf len s = exec (.procStartTransfer n) (s.queuedInternal p r buf len)) := by
  rw [submitInternal_eq h, exec_procStartTransfer (s := s.queuedInternal p r buf len) hn, hp]
  exact ⟨fun hw => if_neg fun ⟨hq, hr⟩ => by simp [hq, hr] at hw, fun hq hr => if_pos ⟨hq, hr⟩⟩

end

/-- arm_setup puts the setup read on endpoint 0's queue, and starts it if that was empty and ready (R191). -/
theorem armSetup_eq (h : s.onAnyQueue .setupRead = false) :
    armSetup s = if (s.ep 0).queue = [] ∧ (s.ep 0).notReady = false then startTransfer 0 s.armed else .next s.armed :=
  submitInternal_eq (s := s.setPhase .setup) h

/-! ## Local answers -/

/-- A negative answer of a local handler ends as ep0_stall does (R204). -/
theorem answer_neg {c : Ep0Ctx} {o : Out (State × Int)} {t : State} (ho : o = .next (t, -1)) :
    andThen o (settleSetup c) = ep0Stall t := by
  rw [ho, andThen_next, settleSetup_neg (by decide)]

/-- A local answer with data leaves DATA to its request (R195). -/
theorem answer_data {pkt : BitVec 64} (hlen : (decodeSetup pkt).wLength ≠ 0) (o : Out State) :
    andThen (andThen o fun t => .next (t, 0)) (settleSetup (decodeSetup pkt)) = o := by
  have hsettle (t : State) : settleSetup (decodeSetup pkt) (t, 0) = .next t := by
    rw [settleSetup_nonneg (Int.le_refl 0), if_neg hlen]
  cases o with
  | next t => exact hsettle t
  | fault f => rfl
  | refused r => rfl

theorem recipient_eq (c : Ep0Ctx) : recipient c = c.bmRequestType.toNat % 32 := by
  simp [recipient, bits]

theorem indexEp_eq (c : Ep0Ctx) : indexEp c = c.wIndex.toNat % 16 * 2 + c.wIndex.toNat / 128 % 2 := by
  simp [indexEp, bits]

/-! ## SET_ADDRESS (R205, R206) -/

theorem localSetAddress_ok {c : Ep0Ctx} (hlen : c.wLength = 0) (hval : c.wValue.toNat ≤ 127) :
    localSetAddress c s = .next ((s.setDevAddr (BitVec.ofNat 7 c.wValue.toNat)).setPhase .waitNrdy, 0) := by
  rw [localSetAddress, if_pos ⟨hlen, hval⟩]
  rfl

theorem localSetAddress_bad {c : Ep0Ctx} (h : c.wLength ≠ 0 ∨ 127 < c.wValue.toNat) :
    localSetAddress c s = .next (s, -1) :=
  if_neg fun ⟨hlen, hval⟩ => h.elim (· hlen) (Nat.not_lt.mpr hval)

/-- Settles O48: the handler writes the address, and the record and the phase are process_control's. -/
theorem setAddressWritesOnlyTheAddress : Obligations.SetAddressWritesOnlyTheAddress := by
  intro s bs h c hstd hreq
  have hpc := processControl_local (q := .setAddress) h rfl hstd (congrArg BitVec.toNat hreq) rfl
  rw [exec_procProcessControl, hpc]
  refine ⟨fun hlen hval => ?_, fun hbad => answer_neg (localSetAddress_bad hbad)⟩
  rw [localHandler, localSetAddress_ok hlen hval, andThen_next, settleSetup_nonneg (Int.le_refl 0), if_pos hlen,
    recorded_noData hlen]
  rfl

/-! ## GET_STATUS (R201, R202) -/

/-- The reply by recipient: the device's, an interface's, EP0's, another endpoint's halted bit (R202). -/
theorem statusReplyValue_eq {c : Ep0Ctx} {v : BitVec 16} (hnum : 2 ≤ s.cfg.numPhysEp)
    (h : recipient c = 0 ∧ v = s.cfg.deviceStatus ∨ recipient c = 1 ∧ v = 0 ∨
      recipient c = 2 ∧ indexEp c < 2 ∧ v = 0 ∨
      recipient c = 2 ∧ 2 ≤ indexEp c ∧ indexEp c < s.cfg.numPhysEp ∧ v = (if (s.ep (indexEp c)).halted then 1 else 0)) :
    statusReplyValue c s = some v := by
  obtain ⟨hr, rfl⟩ | ⟨hr, rfl⟩ | ⟨hr, hq, rfl⟩ | ⟨hr, hq, hlt, rfl⟩ := h <;> simp only [statusReplyValue, hr]
  · rw [if_neg (by omega), if_pos (isEp0_eq_true_iff.mpr hq)]
  · rw [if_neg (Nat.not_le.mpr hlt), if_neg (by simp [isEp0_eq_false_iff.mpr hq])]
    cases (s.ep (indexEp c)).halted <;> rfl

/-- No reply: another recipient, or an endpoint that does not exist (R202). -/
theorem statusReplyValue_none {c : Ep0Ctx} (h : 3 ≤ recipient c ∨ recipient c = 2 ∧ s.cfg.numPhysEp ≤ indexEp c) :
    statusReplyValue c s = none := by
  obtain h | ⟨hr, hq⟩ := h
  · unfold statusReplyValue
    split
    · omega
    · omega
    · omega
    · rfl
  · simp only [statusReplyValue, hr, if_pos hq]

/-- A reply is written to `status_buf` and submitted on physical endpoint 1 (R201). -/
theorem localGetStatus_ok {c : Ep0Ctx} {v : BitVec 16} (hlen : c.wLength = 2) (hdir : c.dataDir = .IN)
    (hv : statusReplyValue c s = some v) (hspace : s.cfg.statusBuf + 2 ≤ 2 ^ s.cfg.addrBits) :
    localGetStatus c s =
      andThen (submitInternal 1 .statusReply s.cfg.statusBuf 2
        { s with mem := Memory.setBytes s.mem s.cfg.statusBuf (toBytes 2 v.toNat) }) fun t => .next (t, 0) := by
  rw [localGetStatus, if_pos ⟨hlen, hdir⟩, hv]
  simp only [writeMem_inSpace (bs := toBytes 2 v.toNat) (by simpa using hspace), andThen_next]

theorem localGetStatus_bad {c : Ep0Ctx} (h : c.wLength ≠ 2 ∨ c.dataDir ≠ .IN ∨ statusReplyValue c s = none) :
    localGetStatus c s = .next (s, -1) := by
  unfold localGetStatus
  by_cases hc : c.wLength = 2 ∧ c.dataDir = .IN
  · have hv := (h.resolve_left (not_not_intro hc.1)).resolve_left (not_not_intro hc.2)
    rw [if_pos hc, hv]
  · exact if_neg hc

/-- Settles O49: the handler writes the reply and submits it; whatever has no reply stalls. -/
theorem getStatusQueuesItsReply : Obligations.GetStatusQueuesItsReply := by
  intro s bs h _ hnum hmem c q hstd hreq
  have hpc := processControl_local (q := .getStatus) h rfl hstd (congrArg BitVec.toNat hreq) rfl
  rw [exec_procProcessControl, hpc]
  simp only [q, ← indexEp_eq c, ← recipient_eq c]
  refine ⟨fun v hlen hdir hv hspace hfree => ?_, fun hbad => ?_⟩
  · have hdata : c.wLength ≠ 0 := by rw [hlen]; decide
    have hval : statusReplyValue c (s.recorded c) = some v := statusReplyValue_eq (s := s.recorded c) hnum hv
    rw [localHandler, localGetStatus_ok (s := s.recorded c) hlen hdir hval hspace, answer_data hdata]
    obtain ⟨hwaits, hstarts⟩ := submitInternal_answers (s := { s.recorded c with
      mem := Memory.setBytes s.mem s.cfg.statusBuf (toBytes 2 v.toNat) }) (buf := s.cfg.statusBuf) (len := 2) hfree
      (n := 1) (p := 1) hnum rfl
    refine ⟨_, hwaits, hstarts, ?_, rfl, ?_, fun r hr => ?_, ?_, fun a ha => ?_, rfl, rfl, rfl, rfl⟩
    · rw [recorded_data hdata]
      rfl
    · exact (setReq_req _ _ _ _).trans (if_pos rfl)
    · exact (setReq_req _ _ _ _).trans (if_neg hr.symm)
    · have hread := Memory.getBytes_setBytes hmem s.cfg.statusBuf (toBytes 2 v.toNat)
      rw [toBytes_length] at hread
      refine (congrArg ofBytes hread).trans ?_
      rw [ofBytes_toBytes, Nat.mod_eq_of_lt (show v.toNat < 256 ^ 2 from v.isLt)]
    · exact Memory.get_setBytes_outside _ _ _ (by simpa using ha)
  · refine answer_neg (localGetStatus_bad (s := s.recorded c) ?_)
    exact hbad.imp_right fun hbad => hbad.imp_right statusReplyValue_none

/-! ## SET_SEL (R207) -/

theorem localSetSel_ok {c : Ep0Ctx} (hlen : c.wLength = 6) (hdir : c.dataDir = .OUT) :
    localSetSel c s = andThen (submitInternal 0 .selRead s.cfg.selBuf 6 s) fun t => .next (t, 0) :=
  if_pos ⟨hlen, hdir⟩

theorem localSetSel_bad {c : Ep0Ctx} (h : c.wLength ≠ 6 ∨ c.dataDir ≠ .OUT) : localSetSel c s = .next (s, -1) :=
  if_neg fun ⟨hlen, hdir⟩ => h.elim (· hlen) (· hdir)

theorem exec_procEp0Advance {p : EpField} (hp : p.toNat < s.cfg.numPhysEp) :
    exec (.procEp0Advance p) s = ep0Advance p.toNat s.args.ref s := by
  simp only [exec, execProcEp0Advance, withEp_legal s hp]

/-- SET_SEL's data is kept as its read completes (R208). -/
theorem endDataStage_selRead (hspace : s.cfg.selBuf + 6 ≤ 2 ^ s.cfg.addrBits) :
    endDataStage .selRead s = .next { s with
      ctl := { s.ctl with selData := Memory.getBytes s.mem s.cfg.selBuf 6, ep0Phase := .waitNrdy } } := by
  rw [endDataStage, if_pos rfl, readMem_inSpace hspace]
  rfl

/-- Settles O51: the handler submits the read; the end of its data stage keeps the bytes. -/
theorem setSelKeepsItsData : Obligations.SetSelKeepsItsData := by
  refine ⟨fun s bs h _ hnum => ?_, fun s p hp hph href hspace => ?_⟩
  · intro c hstd hreq
    have hpc := processControl_local (q := .setSel) h rfl hstd (congrArg BitVec.toNat hreq) rfl
    rw [exec_procProcessControl, hpc]
    refine ⟨fun hlen hdir hfree => ?_, fun hbad => answer_neg (localSetSel_bad hbad)⟩
    have hdata : c.wLength ≠ 0 := by rw [hlen]; decide
    rw [localHandler, localSetSel_ok hlen hdir, answer_data hdata, recorded_data hdata]
    exact submitInternal_answers (s := { s with ctl := { s.ctl with ep0Ctx := c, ep0Phase := .data } }) hfree (n := 0)
      (Nat.lt_of_lt_of_le Nat.zero_lt_two hnum) rfl
  · rw [exec_procEp0Advance hp, href, ep0Advance, hph]
    exact endDataStage_selRead hspace

/-! ## ep0_advance (R196) -/

theorem endDataStage_other {r : ReqRef} (h : r ≠ .selRead) : endDataStage r s = .next (s.setPhase .waitNrdy) := if_neg h

/-- Settles O54: ep0_advance by the phase it is called in. -/
theorem ep0AdvanceByPhase : Obligations.Ep0AdvanceByPhase := by
  intro s p hp
  rw [exec_procEp0Advance hp]
  refine ⟨fun hph href => ?_, fun hph => ?_, fun hph href => ?_, fun hph hfree => ?_⟩
  · rw [ep0Advance, hph]
    exact if_pos href
  · obtain ⟨hph, href⟩ | hph | hph | hph := hph <;> rw [ep0Advance, hph]
    exact if_neg href
  · rw [ep0Advance, hph]
    exact endDataStage_other href
  · rw [← armSetup_eq hfree]
    obtain hph | hph := hph <;> rw [ep0Advance, hph]

/-! ## ep0_not_ready (R198) -/

theorem exec_evXferNotReady {p : EpField} (hp : p.toNat < s.cfg.numPhysEp) :
    exec (.evXferNotReady p) s = onXferNotReady p.toNat s := by
  simp only [exec, execEvXferNotReady, withEp_legal s hp]

theorem onXferNotReady_other {p : Nat} (hp : 2 ≤ p) : onXferNotReady p s = .next s := by
  simp [onXferNotReady, isEp0_eq_false_iff.mpr hp]

theorem onXferNotReady_ep0 {p : Nat} (hp : p < 2) : onXferNotReady p s = ep0NotReady p s := by
  simp [onXferNotReady, isEp0_eq_true_iff.mpr hp]

/-- The physical endpoint of EP0's status stage (R7, R198). -/
theorem phys_statusDir (b : Bool) (d : Dir) : phys 0 (statusDir b d) = if b = true ∧ d = .IN then 0 else 1 := by
  cases b <;> cases d <;> rfl

/-- On EP0 the direction tells the physical endpoint (R7). -/
theorem epDir_eq_iff_phys {p : Nat} (hp : p < 2) (d : Dir) : epDir p = d ↔ p = phys 0 d := by
  interval_cases p <;> cases d <;> decide

theorem statusPhase_eq (b : Bool) (after : StatusAfterData) :
    statusPhase b after = if b = true ∧ after = .status3 then .status3 else .status2 := by
  cases b <;> cases after <;> rfl

theorem ep0NotReady_ignored {p : Nat} (hp : p < 2)
    (h : s.ctl.ep0Phase ≠ .waitNrdy ∨ p ≠ phys 0 (statusDir s.ctl.ep0Ctx.hasData s.ctl.ep0Ctx.dataDir)) :
    ep0NotReady p s = .next s :=
  if_neg fun ⟨hph, hdir⟩ => h.elim (· hph) (· ((epDir_eq_iff_phys hp _).mp hdir))

theorem ep0NotReady_enters {p : Nat} (hp : p < 2) (hph : s.ctl.ep0Phase = .waitNrdy)
    (hdir : p = phys 0 (statusDir s.ctl.ep0Ctx.hasData s.ctl.ep0Ctx.dataDir)) :
    ep0NotReady p s = submitInternal p .zlp s.cfg.zlpBuf 0
      (s.setPhase (statusPhase s.ctl.ep0Ctx.hasData s.cfg.statusAfterData)) := by
  rw [ep0NotReady]
  simp only [if_pos (And.intro hph ((epDir_eq_iff_phys hp _).mpr hdir)), ← hdir]

/-- Settles O55: the status stage is entered in WAIT_NRDY on the endpoint of its direction, by a submit there. -/
theorem notReadyEntersTheStatusStage : Obligations.NotReadyEntersTheStatusStage := by
  intro s p hp c q
  have hq : phys 0 (statusDir c.hasData c.dataDir) = q := phys_statusDir _ _
  rw [exec_evXferNotReady hp]
  refine ⟨fun hignored => ?_, fun hpq hph hfree => ?_⟩
  · rcases Nat.lt_or_ge p.toNat 2 with hp2 | hp2
    · rw [onXferNotReady_ep0 hp2]
      exact ep0NotReady_ignored hp2 (hq ▸ hignored.resolve_left (Nat.not_le.mpr hp2))
    · exact onXferNotReady_other hp2
  · have hp2 : p.toNat < 2 := by
      rw [hpq, show q = if c.hasData = true ∧ c.dataDir = .IN then 0 else 1 from rfl]
      split <;> decide
    rw [onXferNotReady_ep0 hp2, ep0NotReady_enters hp2 hph (hpq.trans hq.symm), statusPhase_eq, hpq]
    exact submitInternal_answers (s := s.setPhase
      (if c.hasData = true ∧ s.cfg.statusAfterData = .status3 then .status3 else .status2)) hfree hp hpq

end Sys2Proof.Machine
end

section
/-! halt_op (R212, R213, R216) in closed form, and its two callers: CLEAR_FEATURE and SET_FEATURE of an endpoint's halt (R203),
and SET_HALT (R212). -/

namespace Sys2Proof.Machine

variable {s t : State} {p : Nat} {v : Bool}

/-! ## The stall command (R212) -/

theorem stallCmd_eq (p : Nat) (v : Bool) (s : State) : stallCmd p v s = stallCommand (stallTarget p s) v := rfl

theorem stallTarget_le (p : Nat) (s : State) : stallTarget p s ≤ p := by
  unfold stallTarget
  split
  · exact Nat.div_mul_le_self p 2
  · exact Nat.le_refl p

theorem stallTarget_control (h : (s.ep p).type = .control) : stallTarget p s = p / 2 * 2 := if_pos h

theorem stallTarget_other (h : (s.ep p).type ≠ .control) : stallTarget p s = p := if_neg h

theorem stallCommand_ne_start (q : Nat) (v : Bool) : (stallCommand q v).type ≠ .startTransfer := by
  cases v <;> nofun

/-- A stall command answered in time (R131). -/
theorem issue_stall_answered {q : Nat} (v : Bool) (hq : q < s.regs.ports.length) (hr : (s.ep q).notReady = false)
    (hok : s.CmdOk) :
    ∃ h, issue (stallCommand q v) s = .next ({ s with
      regs := s.regsWith q (portAfter (stallCommand q v) false 0 (s.port q))
      hw := h
      draws := s.drawsAfterCmd
      outs := s.outs ++ [.command (stallCommand q v)] }, .done 0) := by
  have hidx : doneIdx (stallCommand q v) s.cmdDraw.idx = 0 := if_neg (stallCommand_ne_start q v)
  rw [issue_ready (c := stallCommand q v) hr, issueNow_ok (c := stallCommand q v) hq hok, hidx]
  exact ⟨_, rfl⟩

/-- A stall command not answered in time (R132). -/
theorem issue_stall_timedOut {q : Nat} (v : Bool) (hr : (s.ep q).notReady = false) (hok : ¬ s.CmdOk) :
    ∃ h, issue (stallCommand q v) s = .next ({ s with
      eps := s.eps.set q { s.ep q with notReady := true }
      regs := s.regsWith q (portAfter (stallCommand q v) true 0 (s.port q))
      hw := h
      draws := s.drawsAfterCmd
      outs := s.outs ++ [.command (stallCommand q v), .localError .hardwareCommandTimeout q] }, .timeout) := by
  have hmarks : lateMarks (stallCommand q v) = [] := if_neg (stallCommand_ne_start q v)
  rw [issue_ready (c := stallCommand q v) hr, issueNow_timeout (c := stallCommand q v) hok, hmarks, List.append_nil]
  exact ⟨_, rfl⟩

/-! ## The clear-stall restart (R213) -/

theorem restartAfterClear_idle
    (h : v = true ∨ (t.ep p).type = .control ∨ (t.ep p).queue = [] ∨ (t.ep p).active ≠ none) :
    restartAfterClear p v t = .next t := by
  refine if_neg ?_
  rintro ⟨hv, htype, hact, hq⟩
  obtain h | h | h | h := h
  · exact Bool.noConfusion (hv.symm.trans h)
  · exact htype h
  · exact hq h
  · exact h hact

theorem restartAfterClear_starts (hv : v = false) (htype : (t.ep p).type ≠ .control) (hq : (t.ep p).queue ≠ [])
    (hact : (t.ep p).active = none) : restartAfterClear p v t = startTransfer p t :=
  if_pos ⟨hv, htype, hact, hq⟩

theorem restartAfterClear_notReady (h : (t.ep p).notReady = true) : restartAfterClear p v t = .next t := by
  unfold restartAfterClear
  split
  · exact startTransfer_idle (.inr (.inl h))
  · rfl

/-! ## halt_op (R212) -/

theorem haltOp_recorded {x : State × CmdRes} (hx : issue (stallCmd p v s) s = .next x) (hres : x.2 ≠ .timeout) :
    haltOp p v s = andThen (restartAfterClear p v (x.1.setHalted p v)) fun t => .next (t, x.2) := by
  rw [haltOp, hx, andThen_next, if_neg hres]

theorem haltOp_notAnswered (hx : issue (stallCmd p v s) s = .next (t, .timeout)) : haltOp p v s = .next (t, .timeout) := by
  rw [haltOp, hx, andThen_next, if_pos rfl]

section
variable (hs : s.Shaped) (hp : p < s.cfg.numPhysEp)
include hs hp

/-- Answered in time, the flag is recorded; clearing the stall of a non-control endpoint with a request queued and none active
goes on with start_transfer (R212, R213). -/
theorem haltOp_answered (v : Bool) (hr : (s.ep (stallTarget p s)).notReady = false) (hok : s.CmdOk) :
    ∃ h, let w : State := { s with
        eps := s.eps.set p { s.ep p with halted := v }
        regs := s.regsWith (stallTarget p s)
          (portAfter (stallCommand (stallTarget p s) v) false 0 (s.port (stallTarget p s)))
        hw := h
        draws := s.drawsAfterCmd
        outs := s.outs ++ [.command (stallCommand (stallTarget p s) v)] }
      (v = true ∨ (s.ep p).type = .control ∨ (s.ep p).queue = [] ∨ (s.ep p).active ≠ none →
        haltOp p v s = .next (w, .done 0)) ∧
      (v = false → (s.ep p).type ≠ .control → (s.ep p).queue ≠ [] → (s.ep p).active = none →
        haltOp p v s = andThen (startTransfer p w) fun t => .next (t, .done 0)) := by
  obtain ⟨h, hx⟩ := issue_stall_answered v (Nat.lt_of_le_of_lt (stallTarget_le p s) (hs.ports hp)) hr hok
  rw [← stallCmd_eq] at hx
  refine ⟨h, ?_⟩
  intro w
  have hw : w.ep p = { s.ep p with halted := v } := setEp_ep_same s (hs.eps hp) _
  have hrec : haltOp p v s = andThen (restartAfterClear p v w) fun t => .next (t, .done 0) := haltOp_recorded hx nofun
  rw [hrec]
  refine ⟨fun hidle => ?_, fun hv htype hq hact => ?_⟩
  · rw [restartAfterClear_idle (t := w) (by rw [hw]; exact hidle), andThen_next]
  · rw [restartAfterClear_starts hv (t := w) (by rw [hw]; exact htype) (by rw [hw]; exact hq) (by rw [hw]; exact hact)]

/-- Deferred, the command waits and the flag is recorded; nothing starts, for then the endpoint addressed is the not-ready one
(R130, R212, R121). -/
theorem haltOp_deferred (v : Bool) (hr : (s.ep (stallTarget p s)).notReady = true)
    (hroom : s.cfg.deferCap ≠ some (s.ep (stallTarget p s)).deferred.length) :
    haltOp p v s = .next
      ((s.setEp (stallTarget p s) { s.ep (stallTarget p s) with
          deferred := (s.ep (stallTarget p s)).deferred ++ [stallCommand (stallTarget p s) v] }).setHalted p v,
        .deferred) := by
  rw [haltOp_recorded (issue_deferred (c := stallCmd p v s) hr hroom) nofun]
  generalize hu : s.setEp (stallCmd p v s).target _ = u
  have hep : (u.setHalted p v).ep p = { u.ep p with halted := v } :=
    setEp_ep_same u (by rw [← hu]; simpa using hs.eps hp) _
  have hrestart : restartAfterClear p v (u.setHalted p v) = .next (u.setHalted p v) := by
    by_cases hc : (s.ep p).type = .control
    · refine restartAfterClear_idle (.inr (.inl ?_))
      rw [hep, ← hu, setEp_ep]
      split
      · next heq => exact (congrArg (fun q => (s.ep q).type) heq.1).trans hc
      · exact hc
    · refine restartAfterClear_notReady ?_
      rw [stallTarget_other hc] at hr
      rw [hep, ← hu, show (stallCmd p v s).target = p from stallTarget_other hc, setEp_ep_same s (hs.eps hp)]
      exact hr
  rw [hrestart, andThen_next, ← hu]
  rfl

end

/-! ## CLEAR_FEATURE and SET_FEATURE (R203) -/

section
variable {c : Ep0Ctx}

/-- The device's and an interface's features, and EP0's halt: no effect. -/
theorem localFeature_noEffect (hlen : c.wLength = 0) (h : recipient c = 0 ∨ recipient c = 1 ∨
    recipient c = 2 ∧ c.wValue = 0 ∧ indexEp c < 2 ∧ indexEp c < s.cfg.numPhysEp) : localFeature v c s = .next (s, 0) := by
  rw [localFeature, if_pos hlen]
  obtain hr | hr | ⟨hr, hval, hq, hlt⟩ := h <;> simp only [hr]
  rw [if_pos hval, if_neg (Nat.not_le.mpr hlt), if_pos (isEp0_eq_true_iff.mpr hq)]

/-- Another endpoint's halt: halt_op. -/
theorem localFeature_halt (hlen : c.wLength = 0) (hr : recipient c = 2) (hval : c.wValue = 0) (hq : 2 ≤ indexEp c)
    (hlt : indexEp c < s.cfg.numPhysEp) :
    localFeature v c s = andThen (haltOp (indexEp c) v s) fun x => .next (x.1, 0) := by
  rw [localFeature, if_pos hlen]
  simp only [hr]
  rw [if_pos hval, if_neg (Nat.not_le.mpr hlt), if_neg (by simp [isEp0_eq_false_iff.mpr hq])]

/-- With data, another feature, an endpoint that does not exist or another recipient: -1. -/
theorem localFeature_bad (h : c.wLength ≠ 0 ∨ 3 ≤ recipient c ∨
    recipient c = 2 ∧ (c.wValue ≠ 0 ∨ s.cfg.numPhysEp ≤ indexEp c)) : localFeature v c s = .next (s, -1) := by
  unfold localFeature
  split
  · next hlen =>
    have h := h.resolve_left (not_not_intro hlen)
    split
    · omega
    · omega
    · next hr =>
      split
      · next hval =>
        have hq : s.cfg.numPhysEp ≤ indexEp c :=
          (h.resolve_left (by omega)).2.resolve_left (not_not_intro hval)
        exact if_pos hq
      · rfl
    · rfl
  · rfl

end

/-- CLEAR_FEATURE and SET_FEATURE that arrived go to the one handler, with the value to set (R203). -/
theorem processControl_feature {bs : List Byte} {c : Ep0Ctx} (h : s.SetupArrived bs) (hc : c = decodeSetup (setupPacket bs))
    (hstd : c.bmRequestType.toNat / 32 % 4 = 0) (hreq : c.bRequest = 3 ∨ c.bRequest = 1) :
    processControl s = andThen (localFeature (decide (c.bRequest = 3)) c (s.recorded c)) (settleSetup c) := by
  obtain hreq | hreq := hreq
  · rw [processControl_local (q := .setFeature) h hc hstd (congrArg BitVec.toNat hreq) rfl, hreq]
    rfl
  · rw [processControl_local (q := .clearFeature) h hc hstd (congrArg BitVec.toNat hreq) rfl, hreq]
    rfl

/-- A halt_op without data ends in WAIT_NRDY (R210). -/
theorem answer_halt {pkt : BitVec 64} (hlen : (decodeSetup pkt).wLength = 0) (o : Out (State × CmdRes)) :
    andThen (andThen o fun x => .next (x.1, 0)) (settleSetup (decodeSetup pkt)) =
      andThen o fun x => .next (x.1.setPhase .waitNrdy) := by
  rw [andThen_assoc]
  refine congrArg (andThen o) (funext fun x => ?_)
  rw [andThen_next, settleSetup_nonneg (Int.le_refl 0), if_pos hlen]

/-- Settles O50: the handler's three kinds of answer; halt_op's outcomes each end in WAIT_NRDY. -/
theorem featureRequestsSetAndClearHalt : Obligations.FeatureRequestsSetAndClearHalt := by
  intro s bs h hs c q v rt hstd hreq u
  have hpc := processControl_feature h rfl hstd hreq
  have hq : q = indexEp c := (indexEp_eq c).symm
  have hrt : rt = recipient c := (recipient_eq c).symm
  clear_value q rt
  subst hq hrt
  rw [exec_procProcessControl, hpc]
  refine ⟨fun hlen hrec => ?_, fun hlen hr hval hq2 hqn => ?_, fun hbad => answer_neg (localFeature_bad hbad)⟩
  · rw [localFeature_noEffect (s := s.recorded c) hlen hrec, andThen_next, settleSetup_nonneg (Int.le_refl 0), if_pos hlen,
      recorded_noData hlen]
    rfl
  · have hbyte : (BitVec.ofNat 8 (indexEp c)).toNat = indexEp c := by
      rw [BitVec.toNat_ofNat]
      refine Nat.mod_eq_of_lt ?_
      rw [indexEp_eq]
      omega
    rw [localFeature_halt (s := s.recorded c) hlen hr hval hq2 hqn, answer_halt hlen, recorded_noData hlen]
    intro tgt
    refine ⟨fun hr hok => ?_, fun hr hok => ?_, fun hr hroom => ?_⟩
    · obtain ⟨h, hidle, hstart⟩ := haltOp_answered (s := { s with ctl := { s.ctl with ep0Ctx := c } }) hs hqn v hr hok
      refine ⟨h, fun hcase => ?_, fun hv htype hqueue hact => ?_⟩
      · rw [hidle hcase]
        rfl
      · rw [hstart hv htype hqueue hact, andThen_assoc, exec_procStartTransfer (by rw [hbyte]; exact hqn), hbyte]
        rfl
    · obtain ⟨h, hx⟩ := issue_stall_timedOut (s := { s with ctl := { s.ctl with ep0Ctx := c } }) v hr hok
      rw [haltOp_notAnswered hx]
      exact ⟨h, rfl⟩
    · rw [haltOp_deferred (s := { s with ctl := { s.ctl with ep0Ctx := c } }) hs hqn v hr hroom]
      rfl

/-! ## SET_HALT (R212) -/

/-- After INIT SET_HALT leaves no mark of its own (R292). -/
theorem exec_setHalt {p : EpField} (hp : p.toNat < s.cfg.numPhysEp) (hrun : s.regs.runStop = true) :
    exec (.setHalt p) s = callSetHalt callback p.toNat s.args.value s := by
  simp only [exec, execSetHalt, withEp_legal s hp, noteCall_running hrun]

section
variable {cb : CallbackAct}

theorem callSetHalt_other (hp : 2 ≤ p) :
    callSetHalt cb p v s = andThen (haltOp p v s) fun x => .next (x.1.returns (haltRet x.2)) :=
  if_neg (by simp [isEp0_eq_false_iff.mpr hp])

/-- On EP0 value 0 is the command alone (R216). -/
theorem callSetHalt_ep0_clear (hp : p < 2) (hv : v = false) :
    callSetHalt cb p v s = andThen (issue (stallCmd p v s) s) fun x => .next (x.1.returns (haltRet x.2)) := by
  subst hv
  exact if_pos (isEp0_eq_true_iff.mpr hp)

/-- On EP0 value 1 is the command, then the stall effects whatever it returned (R214). -/
theorem callSetHalt_ep0_set (hp : p < 2) (hv : v = true) :
    callSetHalt cb p v s = andThen (issue (stallCmd p v s) s) fun x =>
      andThen (ep0StallEffectsWith cb x.1) fun t => .next (t.returns (haltRet x.2)) := by
  subst hv
  exact if_pos (isEp0_eq_true_iff.mpr hp)

end

/-- A command returns a timeout exactly if it was issued and not answered in time (R132, R133). -/
theorem issue_eq_timeout_iff {c : Command} {x : State × CmdRes} (e : issue c s = .next x) :
    x.2 = .timeout ↔ (s.ep c.target).notReady = false ∧ s.cfg.cmdTimeout ≤ s.cmdDraw.stillActive := by
  cases hr : (s.ep c.target).notReady with
  | true =>
    by_cases hfull : s.cfg.deferCap = some (s.ep c.target).deferred.length
    · rw [issue_overflow hr hfull] at e
      cases e
    · rw [issue_deferred hr hfull] at e
      cases e
      simp
  | false =>
    rw [issue_ready hr] at e
    cases e
    unfold issueNow
    by_cases hok : s.cmdDraw.stillActive < s.cfg.cmdTimeout
    · simp [hok]
    · simp [hok, Nat.le_of_not_lt hok]

/-- SET_HALT of a control endpoint 0 with value 1 is ep0_stall and the return of its command's result (R214). -/
theorem callSetHalt_ep0Stall (hp : p < 2) (htype : (s.ep p).type = .control) (hv : v = true) :
    callSetHalt callback p v s = andThen (ep0Stall s) fun t =>
      .next (t.returns (.int (if (s.ep 0).notReady = false ∧ s.cfg.cmdTimeout ≤ s.cmdDraw.stillActive then -1 else 0))) := by
  have hcmd : stallCmd p v s = Command.plain 0 .setStall := by
    rw [stallCmd_eq, stallTarget_control htype, show p / 2 * 2 = 0 by omega, hv]
    rfl
  rw [callSetHalt_ep0_set hp hv, hcmd, ep0Stall, issueCommand, andThen_assoc, andThen_assoc]
  cases hx : issue (Command.plain 0 .setStall) s with
  | next x =>
    have hret : haltRet x.2 =
        .int (if (s.ep 0).notReady = false ∧ s.cfg.cmdTimeout ≤ s.cmdDraw.stillActive then -1 else 0) := by
      simp only [haltRet, issue_eq_timeout_iff hx]
      rfl
    rw [andThen_next, andThen_next, hret]
    rfl
  | fault f => rfl
  | refused r => rfl

/-- Settles O56: on an endpoint other than EP0 halt_op's outcomes and their return; on EP0 the command's outcomes, or
ep0_stall's. -/
theorem setHaltRecordsTheStall : Obligations.SetHaltRecordsTheStall := by
  intro s p hp hs hrun ctl tgt v c
  have hctl : ctl = true ↔ (s.ep p.toNat).type = .control := decide_eq_true_iff
  have hctl' : ctl = false ↔ (s.ep p.toNat).type ≠ .control := decide_eq_false_iff_not
  have htgt : tgt < s.regs.ports.length := Nat.lt_of_le_of_lt (stallTarget_le p.toNat s) (hs.ports hp)
  rw [exec_setHalt hp hrun]
  refine ⟨fun hp2 hr hok => ?_, fun hr hroom => ?_, fun hcase hr hok => ?_, fun hp2 hv hr hok => ?_, fun hp2 htype hv => ?_⟩
  · obtain ⟨h, hidle, hstart⟩ := haltOp_answered hs hp v hr hok
    rw [callSetHalt_other hp2]
    refine ⟨h, fun hcase => ?_, fun hv htype hqueue hact => ?_⟩
    · rw [hidle (hcase.imp_right fun hcase => hcase.imp_left hctl.mp)]
      rfl
    · rw [hstart hv (hctl'.mp htype) hqueue hact, andThen_assoc, exec_procStartTransfer (by exact hp)]
      rfl
  · refine ⟨fun hp2 => ?_, fun hp2 hv => ?_⟩
    · rw [callSetHalt_other hp2, haltOp_deferred hs hp v hr hroom]
      rfl
    · rw [callSetHalt_ep0_clear hp2 hv, issue_deferred (c := stallCmd p.toNat _ s) hr hroom]
      rfl
  · obtain ⟨h, hx⟩ := issue_stall_timedOut v hr hok
    refine ⟨h, ?_⟩
    rcases Nat.lt_or_ge p.toNat 2 with hp2 | hp2
    · rw [callSetHalt_ep0_clear hp2 (hcase.resolve_left (Nat.not_le.mpr hp2)), stallCmd_eq]
      exact (congrArg (andThen · _) hx).trans (by simp [State.emit, haltRet, c])
    · rw [callSetHalt_other hp2, haltOp_notAnswered hx]
      simp [State.emit, haltRet, c]
  · obtain ⟨h, hx⟩ := issue_stall_answered v htgt hr hok
    refine ⟨h, ?_⟩
    rw [callSetHalt_ep0_clear hp2 hv, stallCmd_eq]
    exact (congrArg (andThen · _) hx).trans (by simp [State.emit, haltRet, c])
  · exact callSetHalt_ep0Stall hp2 (hctl.mp htype) hv

end Sys2Proof.Machine
end

section
/-! ep0_stall (R214, R191): what the stall effects leave, the callbacks making no nested call, and ep0_stall over each outcome of
its SET_STALL. -/

namespace Sys2Proof.Machine

variable {s u v w : State} {p : Nat} {r : ReqRef} {res : Result}

/-! ## kill_all of one queue -/

/-- A result that is recorded stays, so completing twice with one result is completing once (R182). -/
theorem completed_completed (res : Result) (q : Request) : completed res (completed res q) = completed res q := by
  by_cases h : q.status = .inProgress
  · simp [completed, h]
  · simp [completed, h]

/-- Whether or not kill_all reached a request, completing it then leaves it completed once. -/
theorem QueueKilled.completed_req (h : QueueKilled p res s u) (r : ReqRef) :
    completed res (u.req r) = completed res (s.req r) := by
  rw [h.req]
  split
  · exact completed_completed res _
  · rfl

theorem QueueKilled.ep_same (h : QueueKilled p res s u) (hp : p < s.eps.length) :
    u.ep p = { s.ep p with queue := [], active := none, resIdx := none } :=
  (ep_congr (u := s.setEp p _) h.eps p).trans (setEp_ep_same s hp _)

theorem QueueKilled.ep_ne (h : QueueKilled p res s u) {q : Nat} (hq : q ≠ p) : u.ep q = s.ep q :=
  (ep_congr (u := s.setEp p _) h.eps q).trans (setEp_ep_ne s hq.symm _)

/-- kill_all with the callbacks quiet keeps the invariant and uses no draw (R186). -/
theorem killAllWith_quiet (h : s.Inv) (hn : s.NoNested) (hp : p < s.cfg.numPhysEp) (hres : res ≠ .success) :
    ∃ t, killAllWith callback noAdvance p res s = .next t ∧ QueueKilled p res s t ∧ t.Inv ∧ t.draws = s.draws := by
  obtain ⟨t, e, hk⟩ := killAllWith_queueKilled h hn hp hres
  obtain ⟨t', e', ht', -⟩ := killAllWith_failure (adv := noAdvance) (fun _ _ => callback_quiet) hres hn (h.shaped.eps hp)
    (h.queue_nodup hp) (h.endpoints p hp).activeIsHead (h.endpoints p hp).indexIffActive
  cases e.symm.trans e'
  exact ⟨t, e, hk, invCallFrame.killAllNoAdvance invCallFrame.callback hres p s t e h, by rw [ht']⟩

/-! ## The stall effects (R214) -/

/-- The COMPLETE_CB upcalls of killing both EP0 queues, endpoint 0's first (R214). -/
def State.ep0Callbacks (s : State) : List Output :=
  ((s.ep 0).queue ++ (s.ep 1).queue).flatMap fun r => callbackOutput r (completed .connectionReset (s.req r))

/-- Both EP0 queues of `s` killed, in phase STALLED; arm_setup is yet to come (R214). -/
structure Ep0Killed (s v : State) : Prop where
  inv : v.Inv
  cfg : v.cfg = s.cfg
  ctl : v.ctl = { s.ctl with ep0Phase := .stalled }
  draws : v.draws = s.draws
  mem : v.mem = s.mem
  ep0 : v.ep 0 = { s.ep 0 with queue := [], active := none, resIdx := none }
  ep1 : v.ep 1 = { s.ep 1 with queue := [], active := none, resIdx := none }
  others : ∀ q, 2 ≤ q → v.ep q = s.ep q
  killed : ∀ r ∈ (s.ep 0).queue ++ (s.ep 1).queue, v.req r = completed .connectionReset (s.req r)
  outs : v.outs = s.outs ++ s.ep0Callbacks

theorem Config.wf_two_endpoints {c : Config} (h : c.wf = true) : 2 ≤ c.numPhysEp := by
  simp only [Config.wf, Bool.and_eq_true, decide_eq_true_eq] at h
  tauto

/-- The two kill_alls of an EP0 stall run to their end. -/
theorem kill_ep0 (h : s.Inv) (hn : s.NoNested) :
    ∃ u v, killAllWith callback noAdvance 0 .connectionReset (s.setPhase .stalled) = .next u ∧
      killAllWith callback noAdvance 1 .connectionReset u = .next v ∧ Ep0Killed s v := by
  have hnum := Config.wf_two_endpoints h.cfgWf
  obtain ⟨u, eu, hu, huinv, hudraws⟩ := killAllWith_quiet (s := s.setPhase .stalled) (p := 0) (res := .connectionReset)
    (invPhase _ s h) hn (Nat.lt_of_lt_of_le Nat.zero_lt_two hnum) nofun
  have hucfg : u.cfg = s.cfg := hu.cfg
  have hun : u.NoNested := (congrArg Draws.cbs hudraws).trans hn
  obtain ⟨v, ev, hv, hvinv, hvdraws⟩ := killAllWith_quiet (p := 1) (res := .connectionReset) huinv hun (hucfg ▸ hnum) nofun
  have hu0 := hu.ep_same (h.shaped.eps (Nat.lt_of_lt_of_le Nat.zero_lt_two hnum))
  have hu1 : u.ep 1 = s.ep 1 := hu.ep_ne one_ne_zero
  refine ⟨u, v, eu, ev, hvinv, hv.cfg.trans hucfg, hv.ctl.trans hu.ctl, hvdraws.trans hudraws, hv.mem.trans hu.mem, ?_, ?_,
    fun q hq => ?_, fun r hr => ?_, ?_⟩
  · exact (hv.ep_ne zero_ne_one).trans hu0
  · rw [hv.ep_same (huinv.shaped.eps (hucfg ▸ hnum)), hu1]
  · exact (hv.ep_ne (by omega)).trans (hu.ep_ne (by omega))
  · rw [hv.req, hu1]
    split
    · exact hu.completed_req r
    · next hr1 => exact (hu.req r).trans (if_pos ((List.mem_append.mp hr).resolve_right hr1))
  · rw [hv.outs, hu.outs, hu1, List.append_assoc, State.ep0Callbacks, List.flatMap_append]
    refine congrArg (fun l => s.outs ++ (_ ++ l)) (List.flatMap_congr fun r _ => ?_)
    rw [hu.completed_req r]
    rfl

theorem onAnyQueue_eq_false (h : ∀ q, r ∉ (s.ep q).queue) : s.onAnyQueue r = false := by
  refine Bool.eq_false_iff.mpr fun hmem => ?_
  obtain ⟨e, he, hr⟩ := List.mem_flatMap.mp (onAnyQueue_eq_true_iff.mp hmem)
  obtain ⟨q, hq, rfl⟩ := List.getElem_of_mem he
  exact h q (State.ep_eq_getElem hq ▸ hr)

/-- The setup read put on the emptied queue of endpoint 0 (R191, R214). -/
structure Ep0Armed (s w : State) : Prop extends StallEffects s w where
  inv : w.Inv
  cfg : w.cfg = s.cfg
  draws : w.draws = s.draws
  ep0 : w.ep 0 = { s.ep 0 with queue := [.setupRead], active := none, resIdx := none }
  outs : w.outs = s.outs ++ s.ep0Callbacks

theorem Ep0Killed.onAnyQueue (h : Ep0Killed s v) (hread : ∀ q, 2 ≤ q → .setupRead ∉ (s.ep q).queue) :
    v.onAnyQueue .setupRead = false := by
  refine onAnyQueue_eq_false fun q => ?_
  match q with
  | 0 => simp [h.ep0]
  | 1 => simp [h.ep1]
  | q + 2 =>
    rw [h.others (q + 2) (by omega)]
    exact hread (q + 2) (by omega)

theorem Ep0Killed.armed (h : Ep0Killed s v) (hfree : v.onAnyQueue .setupRead = false) : Ep0Armed s v.armed where
  inv := invOpFrame.push 0 .setupRead ((v.setPhase .setup).setReq .setupRead (setupReadRequest v.cfg.setupBuf)) hfree
    (invOpFrame.setReq _ _ _ (Nat.zero_le _) (invPhase .setup v h.inv))
  cfg := h.cfg
  draws := h.draws
  ep0 := by
    have hlen := h.inv.shaped.eps (Nat.lt_of_lt_of_le Nat.zero_lt_two (Config.wf_two_endpoints h.inv.cfgWf))
    have hset : v.armed.ep 0 = { v.ep 0 with queue := (v.ep 0).queue ++ [.setupRead] } := setEp_ep_same v hlen _
    rw [hset, h.ep0]
    rfl
  outs := h.outs
  ctl := by
    have hctl : v.armed.ctl = { v.ctl with ep0Phase := .setup } := rfl
    rw [hctl, h.ctl]
  ep1 := (setEp_ep_ne v zero_ne_one _).trans h.ep1
  others q hq := (setEp_ep_ne v (by omega) _).trans (h.others q hq)
  killed r hr hne := ((setReq_req v .setupRead r _).trans (if_neg hne.symm)).trans (h.killed r hr)
  read := ((setReq_req v .setupRead .setupRead _).trans (if_pos rfl)).trans (by rw [h.cfg])
  mem := h.mem

/-- The stall effects leave the setup read queued on endpoint 0, and start it if the endpoint is ready (R214, R191). -/
theorem stallEffects_armed (h : s.Inv) (hn : s.NoNested) (hread : ∀ q, 2 ≤ q → .setupRead ∉ (s.ep q).queue) :
    ∃ w, Ep0Armed s w ∧ ep0StallEffectsWith callback s =
      if (s.ep 0).notReady = false then startTransfer 0 w else .next w := by
  obtain ⟨u, v, eu, ev, hv⟩ := kill_ep0 h hn
  have hfree := hv.onAnyQueue hread
  refine ⟨v.armed, hv.armed hfree, ?_⟩
  rw [ep0StallEffectsWith, eu, andThen_next, ev, andThen_next, armSetup_eq hfree, hv.ep0]
  simp only [true_and]

/-! ## ep0_stall over the outcomes of its SET_STALL -/

/-- What a command leaves for the stall effects to find: only endpoint 0's not-ready flag and FIFO may differ. -/
structure Ep0Commanded (s u : State) : Prop where
  cfg : u.cfg = s.cfg
  ctl : u.ctl = s.ctl
  mem : u.mem = s.mem
  reqs : u.reqs = s.reqs
  queue : (u.ep 0).queue = (s.ep 0).queue
  others : ∀ q, q ≠ 0 → u.ep q = s.ep q

theorem Ep0Commanded.of_eps_set {e : Endpoint} (heps : u.eps = s.eps.set 0 e) (he : e.queue = (s.ep 0).queue)
    (hcfg : u.cfg = s.cfg) (hctl : u.ctl = s.ctl) (hmem : u.mem = s.mem) (hreqs : u.reqs = s.reqs) : Ep0Commanded s u where
  cfg := hcfg
  ctl := hctl
  mem := hmem
  reqs := hreqs
  queue := by
    rw [ep_congr (u := s.setEp 0 e) heps, setEp_ep]
    split
    · exact he
    · rfl
  others q hq := (ep_congr (u := s.setEp 0 e) heps q).trans (setEp_ep_ne s hq.symm e)

theorem Ep0Commanded.req (h : Ep0Commanded s u) (r : ReqRef) : u.req r = s.req r := by
  rw [State.req, State.req, h.reqs]

theorem Ep0Commanded.callbacks (h : Ep0Commanded s u) : u.ep0Callbacks = s.ep0Callbacks := by
  simp only [State.ep0Callbacks, h.queue, h.others 1 one_ne_zero, h.req]

theorem Ep0Commanded.stallEffects (h : Ep0Commanded s u) (k : StallEffects u w) : StallEffects s w where
  ctl := by rw [k.ctl, h.ctl]
  ep1 := by rw [k.ep1, h.others 1 one_ne_zero]
  others q hq := (k.others q hq).trans (h.others q (by omega))
  killed r hr hne := by
    rw [← h.queue, ← h.others 1 one_ne_zero] at hr
    rw [k.killed r hr hne, h.req]
  read := by rw [k.read, h.cfg]
  mem := k.mem.trans h.mem

theorem stallCommand_zero : Command.plain 0 .setStall = stallCommand 0 true := rfl

/-- ep0_stall once its SET_STALL was issued or deferred: the effects, and the setup read started if endpoint 0 is still ready. -/
theorem ep0Stall_commanded {x : State × CmdRes} (h : s.Inv) (hn : s.NoNested)
    (hread : ∀ q, 2 ≤ q → .setupRead ∉ (s.ep q).queue) (hx : issue (stallCommand 0 true) s = .next x)
    (hc : Ep0Commanded s x.1) :
    ∃ w, Ep0Armed x.1 w ∧ StallEffects s w ∧ w.outs = x.1.outs ++ s.ep0Callbacks ∧
      ep0Stall s = if (x.1.ep 0).notReady = false then startTransfer 0 w else .next w := by
  obtain ⟨w, hw, e⟩ := stallEffects_armed (h.issue hx) ((issue_cbs hx).trans hn) fun q hq => by
    rw [hc.others q (by omega)]
    exact hread q hq
  refine ⟨w, hw, hc.stallEffects hw.toStallEffects, hc.callbacks ▸ hw.outs, ?_⟩
  rw [ep0Stall, stallCommand_zero, issueCommand, hx, andThen_next, andThen_next, e]

section
variable (h : s.Inv) (hn : s.NoNested) (hread : ∀ q, 2 ≤ q → .setupRead ∉ (s.ep q).queue)
include h hn hread

/-- SET_STALL answered in time: the setup read is ready to start (R214, R191). -/
theorem ep0Stall_answered (hr : (s.ep 0).notReady = false) (hok : s.CmdOk) :
    ∃ w, w.Inv ∧ w.cfg = s.cfg ∧ w.draws = s.drawsAfterCmd ∧ StallEffects s w ∧
      w.ep 0 = { s.ep 0 with queue := [.setupRead], active := none, resIdx := none } ∧
      w.outs = s.outs ++ [.command (stallCommand 0 true)] ++ s.ep0Callbacks ∧ ep0Stall s = startTransfer 0 w := by
  obtain ⟨hardware, hx⟩ := issue_stall_answered true
    (h.shaped.ports (Nat.lt_of_lt_of_le Nat.zero_lt_two (Config.wf_two_endpoints h.cfgWf))) hr hok
  obtain ⟨w, hw, heff, houts, e⟩ := ep0Stall_commanded h hn hread hx ⟨rfl, rfl, rfl, rfl, rfl, fun _ _ => rfl⟩
  exact ⟨w, hw.inv, hw.cfg, hw.draws, heff, hw.ep0, houts, e.trans (if_pos hr)⟩

/-- SET_STALL not answered in time: endpoint 0 is not ready, so nothing starts (R132, R214). -/
theorem ep0Stall_timedOut (hr : (s.ep 0).notReady = false) (hok : ¬ s.CmdOk) :
    ∃ w, ep0Stall s = .next w ∧ StallEffects s w ∧
      w.ep 0 = { s.ep 0 with queue := [.setupRead], active := none, resIdx := none, notReady := true } ∧
      w.outs = s.outs ++ [.command (stallCommand 0 true), .localError .hardwareCommandTimeout 0] ++ s.ep0Callbacks := by
  obtain ⟨hardware, hx⟩ := issue_stall_timedOut true hr hok
  obtain ⟨w, hw, heff, houts, e⟩ := ep0Stall_commanded h hn hread hx (.of_eps_set rfl rfl rfl rfl rfl rfl)
  have hlen := h.shaped.eps (Nat.lt_of_lt_of_le Nat.zero_lt_two (Config.wf_two_endpoints h.cfgWf))
  have hep := setEp_ep_same s hlen { s.ep 0 with notReady := true }
  refine ⟨w, e.trans (if_neg ?_), heff, hw.ep0.trans ?_, houts⟩
  · exact fun hready => Bool.noConfusion (hready.symm.trans (congrArg Endpoint.notReady hep))
  · exact congrArg (fun e : Endpoint => { e with queue := [.setupRead], active := none, resIdx := none }) hep

/-- SET_STALL deferred on a not-ready endpoint 0: it waits, and nothing starts (R130, R214). -/
theorem ep0Stall_deferred (hr : (s.ep 0).notReady = true) (hroom : s.cfg.deferCap ≠ some (s.ep 0).deferred.length) :
    ∃ w, ep0Stall s = .next w ∧ StallEffects s w ∧
      w.ep 0 = { s.ep 0 with
        queue := [.setupRead], active := none, resIdx := none
        deferred := (s.ep 0).deferred ++ [stallCommand 0 true] } ∧
      w.outs = s.outs ++ s.ep0Callbacks := by
  obtain ⟨w, hw, heff, houts, e⟩ := ep0Stall_commanded h hn hread (issue_deferred (c := stallCommand 0 true) hr hroom)
    (.of_eps_set rfl rfl rfl rfl rfl rfl)
  have hlen := h.shaped.eps (Nat.lt_of_lt_of_le Nat.zero_lt_two (Config.wf_two_endpoints h.cfgWf))
  have hep := setEp_ep_same s hlen { s.ep 0 with deferred := (s.ep 0).deferred ++ [stallCommand 0 true] }
  refine ⟨w, e.trans (if_neg ?_), heff, hw.ep0.trans ?_, houts⟩
  · exact fun hready => Bool.noConfusion (hready.symm.trans ((congrArg Endpoint.notReady hep).trans hr))
  · exact congrArg (fun e : Endpoint => { e with queue := [.setupRead], active := none, resIdx := none }) hep

end

/-- With SET_STALL's FIFO full ep0_stall faults (R30). -/
theorem ep0Stall_overflow (hr : (s.ep 0).notReady = true) (hfull : s.cfg.deferCap = some (s.ep 0).deferred.length) :
    ep0Stall s = .fault .deferOverflow := by
  rw [ep0Stall, stallCommand_zero, issueCommand, issue_overflow (c := stallCommand 0 true) hr hfull]
  rfl

/-! ## The setup read started -/

/-- The second draw is the next one once the first is used. -/
theorem cmdDraw_after_cmd (hd : w.draws = s.drawsAfterCmd) :
    w.cmdDraw = s.draws.cmds.getD 1 { stillActive := 0, idx := 0 } := by
  rw [State.cmdDraw, hd]
  change s.draws.cmds.tail.headD _ = _
  cases s.draws.cmds with
  | nil => rfl
  | cons d ds => cases ds <;> rfl

/-- Settles O53: the outcomes of SET_STALL, and the setup read started where the second command is answered too. -/
theorem ep0StallRearmsSetup : Obligations.Ep0StallRearmsSetup := by
  refine ⟨fun s n h hn hr hread htd hok hlen => ?_, fun s h hn hread => ?_⟩
  · have hnum : 0 < s.cfg.numPhysEp := Nat.lt_of_lt_of_le Nat.zero_lt_two (Config.wf_two_endpoints h.cfgWf)
    obtain ⟨w, hinv, hcfg, hdraws, heff, hep, houts, e⟩ :=
      ep0Stall_answered h hn hread hr (hok.cmdOk Nat.zero_lt_two)
    have hnumw : 0 < w.cfg.numPhysEp := hcfg ▸ hnum
    have haddr : w.tdAddr 0 = s.tdAddr 0 := by rw [State.tdAddr, hcfg, State.tdAddr]
    have hstart : w.CanStart 0 := by
      rw [State.CanStart, hep]
      exact ⟨(h.endpoints 0 hnum).ep0NotHalted rfl, hr, rfl⟩
    have hdraw := cmdDraw_after_cmd hdraws
    have hokw : w.CmdOk := by
      rw [State.CmdOk, hdraw, hcfg]
      exact hok 1 Nat.one_lt_two
    obtain ⟨_, _, -, et⟩ := startTransfer_answered (r := .setupRead) (rest := []) (n := n) (ty := .setup) hinv.shaped hnumw
      hinv.memCanonical hstart (by rw [hep]) (by rw [hep, heff.read, hcfg]; exact hlen) (by rw [heff.ctl]; rfl)
      (by rw [State.TdPlaced, haddr, hcfg]; exact htd) hokw
    refine ⟨_, e.trans et, heff.ctl, ?_, ?_, fun q hq => ?_, heff.killed, ?_⟩
    · refine (setEp_ep_same w (hinv.shaped.eps hnumw) _).trans ?_
      rw [hep, heff.read, hdraw]
    · exact (setEp_ep_ne w zero_ne_one _).trans heff.ep1
    · exact (setEp_ep_ne w (by omega) _).trans (heff.others q hq)
    · simp only [houts, haddr]
      rfl
  · intro c e killed
    refine ⟨fun hr hok => ?_, ep0Stall_timedOut h hn hread, ep0Stall_deferred h hn hread, ep0Stall_overflow⟩
    obtain ⟨w, hinv, -, -, heff, hep, houts, ew⟩ := ep0Stall_answered h hn hread hr hok
    have hnumw : 0 < w.cfg.numPhysEp := Nat.lt_of_lt_of_le Nat.zero_lt_two (Config.wf_two_endpoints hinv.cfgWf)
    exact ⟨w, ew.trans (exec_procStartTransfer (p := 0) hnumw).symm, heff, hep, houts⟩

end Sys2Proof.Machine
end

section
/-! No write of the machine takes a request's byte count beyond its length (R238): every submit writes it 0, a completed transfer
writes a minimum with the length, and completion keeps both. -/

namespace Sys2Proof.Machine

/-- Byte counts within their lengths stay so (R238). -/
def BoundKept (s t : State) : Prop := s.ActualBounded → t.ActualBounded

theorem BoundKept.of_reqs {s t : State} (h : t.reqs = s.reqs) : BoundKept s t := fun hs => by
  rw [State.ActualBounded, h]
  exact hs

theorem mem_of_findReq {l : List (ReqRef × Request)} {r : ReqRef} {q : Request} (h : findReq l r = some q) : ∃ x ∈ l, x.2 = q := by
  induction l with
  | nil => cases h
  | cons x xs ih =>
    rw [findReq] at h
    split at h
    · exact ⟨x, List.mem_cons_self, Option.some.inj h⟩
    · obtain ⟨y, hy, hq⟩ := ih h
      exact ⟨y, List.mem_cons_of_mem x hy, hq⟩

/-- A reference without an object reads as a request with no byte counted, so the bound holds of every reference. -/
theorem State.ActualBounded.req {s : State} (h : s.ActualBounded) (r : ReqRef) : (s.req r).actual ≤ (s.req r).length := by
  cases hfound : findReq s.reqs r with
  | none =>
    have habsent : s.req r = absentReq r := by rw [State.req, hfound, Option.getD_none]
    rw [habsent]
    cases r <;> exact Nat.le_refl 0
  | some q =>
    have hread : s.req r = q := by rw [State.req, hfound, Option.getD_some]
    obtain ⟨x, hx, rfl⟩ := mem_of_findReq hfound
    rw [hread]
    exact h x hx

theorem State.ActualBounded.setReq {s : State} (h : s.ActualBounded) (r : ReqRef) {q : Request} (hq : q.actual ≤ q.length) :
    (s.setReq r q).ActualBounded := fun x hx => by
  obtain rfl | hx := mem_putReq hx
  · exact hq
  · exact h x hx

/-- Completion writes status and mapping, and keeps byte count and length (R180). -/
theorem release_keepsBound (p : Nat) (r : ReqRef) (res : Result) (s : State) : BoundKept s (release p r res s) := fun h => by
  rw [release_eq]
  exact (h.setReq r (q := completed res (s.req r)) (h.req r) :)

/-- A command that lands late writes no request (R134). -/
theorem landLate_reqs (p : Nat) (s : State) : (landLate p s).reqs = s.reqs := by rw [landLate_eq]

theorem reqs_issuerBlind : IssuerBlind State.reqs := fun _ _ _ _ hreqs _ => hreqs

theorem boundOpFrame : OpFrame BoundKept where
  refl := fun _ => id
  trans := fun hst htu h => htu (hst h)
  issue := fun c s x e => .of_reqs (reqs_issuerBlind.issue c s x e)
  notReady := fun _ _ => id
  start := fun p s t e => .of_reqs (reqs_issuerBlind.start p s t e)
  push := fun _ _ _ _ => id
  setReq := fun r _ _ hq h => h.setReq r hq
  enable := fun _ _ _ => id
  cfgStarted := fun _ => id
  emit := fun _ _ _ => id
  mark := fun _ _ => id

theorem boundCallFrame : CallFrame BoundKept where
  toOpFrame := boundOpFrame
  release := release_keepsBound
  stall := boundOpFrame.stallOfPhase release_keepsBound fun _ _ => id
  setType := fun _ _ _ _ _ => id
  halted := fun _ _ _ _ => id
  popCbs := fun _ _ _ _ => id
  popMap := fun _ => id
  fresh := fun _ _ => id
  drop := fun _ _ h x hx => h x (List.mem_of_mem_filter hx)

theorem boundAdvFrame : AdvFrame BoundKept where
  toCallFrame := boundCallFrame
  phase := fun _ _ _ => id
  context := fun _ _ => id
  selData := fun _ _ => id
  devAddr := fun _ _ => id
  popSetup := fun _ => id
  writeMem := fun _ _ _ _ e => .of_reqs (by rw [(writeMem_eq_next e).2])

theorem boundEventFrame : EventFrame BoundKept where
  toAdvFrame := boundAdvFrame
  hwTransfer := fun _ _ _ e => .of_reqs (by rw [(hwTransfer_eq_next e).1])
  acrossReset := fun _ _ => id
  clearHalts := fun _ => id
  cfgCleared := fun _ => id
  latchSpeed := fun _ => id
  speed := fun _ _ => id
  resize := fun _ _ => id
  connected := fun _ _ => id
  commandDone := fun p s => .of_reqs (landLate_reqs p s)
  drain := fun p s => .of_reqs (reqs_issuerBlind.drain p s)

theorem boundMachineFrame : MachineFrame BoundKept where
  toEventFrame := boundEventFrame
  acknowledge := fun _ => id
  dispatching := fun _ _ => id
  initEp0 := fun _ _ => id
  initRegs := fun _ => id
  runStop := fun _ _ => id
  clearEnables := fun _ => id
  landLate := fun p s => .of_reqs (landLate_reqs p s)
  takeLine := fun _ _ _ _ => id
  deliver := fun w s t e => by
    obtain rfl | ⟨-, rfl⟩ := deliverRecord_cases e <;> exact id

/-- Settles O18: every write of the machine keeps the byte counts within the lengths, so every step does. -/
theorem actualNeverExceedsLength : Obligations.ActualNeverExceedsLength := fun s t h e => boundMachineFrame.step s t e h

end Sys2Proof.Machine
end

section
/-! The dispatcher (R230 to R233, R247 to R250): the faults before any record, one record of a longer run, runs over records that
are ignored, and the routing of each record to the operation of its own event word; EV_DISCONNECT and the ignored events. -/

namespace Sys2Proof.Machine

variable {s t : State} {n : Nat}

theorem exec_interrupt (s : State) : exec .interrupt s = dispatch s := rfl

/-! ## Before any record (R232, R250) -/

theorem badCount_eq_true_iff :
    badCount s = true ↔ s.regs.evbufCount % s.cfg.evtBytes ≠ 0 ∨ s.cfg.evtBufBytes < s.regs.evbufCount := by
  simp [badCount]

theorem dispatch_reentrant (h : s.ctl.dispatching = true) : dispatch s = .fault .reentrantDispatch := by
  rw [dispatch, if_pos h]

theorem dispatch_badCount (h : s.ctl.dispatching = false)
    (hbad : s.regs.evbufCount % s.cfg.evtBytes ≠ 0 ∨ s.cfg.evtBufBytes < s.regs.evbufCount) :
    dispatch s = .fault .badEventCount := by
  rw [dispatch, if_neg (by simp [h]), if_pos (badCount_eq_true_iff.mpr hbad)]

/-- A ring of whole records is handled record by record, with `dispatching` set meanwhile (R230). -/
theorem dispatch_records (h : s.ctl.dispatching = false) (hsize : 0 < s.cfg.evtBytes)
    (hcount : s.regs.evbufCount = n * s.cfg.evtBytes) (hfits : s.regs.evbufCount ≤ s.cfg.evtBufBytes) :
    dispatch s = andThen (dispatchLoop n (s.setDispatching true)) fun t => .next (t.setDispatching false) := by
  have hgood : ¬ badCount s = true := by
    rw [badCount_eq_true_iff, hcount, Nat.mul_mod_left, ← hcount]
    omega
  rw [dispatch, if_neg (by simp [h]), if_neg hgood, hcount, Nat.mul_div_cancel n hsize]

theorem eventEp_legal {p : Nat} (h : p < s.cfg.numPhysEp) (k : Nat → Out State) : eventEp p s k = k p := if_pos h

theorem eventEp_illegal {p : Nat} (h : s.cfg.numPhysEp ≤ p) (k : Nat → Out State) :
    eventEp p s k = .fault .badEventEndpoint := if_neg (Nat.not_lt.mpr h)

/-- Settles O12: the dispatcher's checks come before its loop, and the endpoint's before its handler. -/
theorem dispatchFaultsInOrder : Obligations.DispatchFaultsInOrder := fun _ =>
  ⟨dispatch_reentrant, dispatch_badCount, fun _ hp => by simp only [handle, eventEp_illegal hp, and_self]⟩

/-! ## One record (R230, R231, R248) -/

/-- The record at the cursor (R73, R230). -/
def State.recordAtCursor (s : State) : Event :=
  decodeEventBy s.cfg.eventTable
    (ofBytes (Memory.getBytes s.mem (s.regs.evbufBase + s.ctl.evtCursor) s.cfg.evtBytes))

theorem oneRecord_inSpace (h : s.regs.evbufBase + s.ctl.evtCursor + s.cfg.evtBytes ≤ 2 ^ s.cfg.addrBits) :
    oneRecord s = andThen (handle s.recordAtCursor s) fun t => .next (acknowledge t) := by
  rw [oneRecord, readMem_inSpace h, andThen_next, State.recordAtCursor]

/-- What a handler leaves to the dispatcher: the launch parameters, `dispatching` and the count (R84, R230). -/
theorem handle_keeps {ev : Event} (e : handle ev s = .next t) :
    t.cfg = s.cfg ∧ t.ctl.dispatching = s.ctl.dispatching ∧ t.regs.evbufCount = s.regs.evbufCount := by
  have hblind : HandlerBlind fun s => (s.cfg, s.ctl.dispatching, s.regs.evbufCount) :=
    fun _ _ hcfg _ hdisp _ _ _ hcount => by simp only [hcfg, hdisp, hcount]
  simpa only [Prod.mk.injEq] using hblind.eventFrame.handle ev s t e

/-- `t`, in which the first record has been handled, with that record acknowledged, `n` left and no dispatch in progress. -/
def State.afterRecord (t : State) (c : Config) (n : Nat) : State :=
  { t with
    ctl := { t.ctl with evtCursor := (t.ctl.evtCursor + c.evtBytes) % c.evtBufBytes, dispatching := false }
    regs := { t.regs with evbufCount := n * c.evtBytes } }

/-- The rest of a run, once its first record is acknowledged, is the run INTERRUPT makes over the other records (R230, R249). -/
theorem dispatch_afterRecord (hdisp : t.ctl.dispatching = true) (hsize : 0 < t.cfg.evtBytes)
    (hcount : t.regs.evbufCount = (n + 1) * t.cfg.evtBytes) (hfits : t.regs.evbufCount ≤ t.cfg.evtBufBytes) :
    (andThen (dispatchLoop n (acknowledge t)) fun v => .next (v.setDispatching false)) = dispatch (t.afterRecord t.cfg n) := by
  have hleft : t.regs.evbufCount - t.cfg.evtBytes = n * t.cfg.evtBytes := by
    rw [hcount, Nat.succ_mul, Nat.add_sub_cancel]
  have hack : (t.afterRecord t.cfg n).setDispatching true = acknowledge t := by
    simp only [acknowledge, hleft, State.setDispatching, State.afterRecord, hdisp]
  have hle : n * t.cfg.evtBytes ≤ t.cfg.evtBufBytes := by omega
  rw [dispatch_records (s := t.afterRecord t.cfg n) rfl hsize rfl hle, hack]

/-- The first of `n + 1` records (R230, R249). -/
theorem dispatch_first_record (h : s.ctl.dispatching = false) (hsize : 0 < s.cfg.evtBytes)
    (hcount : s.regs.evbufCount = (n + 1) * s.cfg.evtBytes) (hfits : s.regs.evbufCount ≤ s.cfg.evtBufBytes)
    (hspace : s.regs.evbufBase + s.ctl.evtCursor + s.cfg.evtBytes ≤ 2 ^ s.cfg.addrBits) :
    dispatch s = andThen (handle s.recordAtCursor (s.setDispatching true)) fun t => dispatch (t.afterRecord s.cfg n) := by
  have hrecord : oneRecord (s.setDispatching true) =
      andThen (handle s.recordAtCursor (s.setDispatching true)) fun t => .next (acknowledge t) := oneRecord_inSpace hspace
  rw [dispatch_records h hsize hcount hfits, dispatchLoop, hrecord, andThen_assoc, andThen_assoc]
  cases e : handle s.recordAtCursor (s.setDispatching true) with
  | fault f => rfl
  | refused r => rfl
  | next t =>
    obtain ⟨hcfg, hdisp, hkept⟩ := handle_keeps e
    have hcfg : t.cfg = s.cfg := hcfg
    have hkept : t.regs.evbufCount = s.regs.evbufCount := hkept
    rw [← hcfg] at hsize hcount hfits ⊢
    exact dispatch_afterRecord hdisp hsize (hkept.trans hcount) (hkept ▸ hfits)

/-- Over no record a run changes nothing. -/
theorem dispatch_empty (h : s.ctl.dispatching = false) (hcount : s.regs.evbufCount = 0) : dispatch s = .next s := by
  have hgood : ¬ badCount s = true := by simp [badCount, hcount]
  rw [dispatch, if_neg (by simp [h]), if_neg hgood, hcount, Nat.zero_div]
  simp only [dispatchLoop, andThen_next, State.setDispatching, ← h]

/-! ## Routing (R233) -/

theorem exec_evEpCmdComplete {p : EpField} (hp : p.toNat < s.cfg.numPhysEp) :
    exec (.evEpCmdComplete p) s = onCmdComplete p.toNat s := by
  simp only [exec, execEvEpCmdComplete, withEp_legal s hp]

theorem exec_evXferComplete {p : EpField} (hp : p.toNat < s.cfg.numPhysEp) :
    exec (.evXferComplete p) s = onXferComplete p.toNat s := by
  simp only [exec, execEvXferComplete, withEp_legal s hp]

theorem exec_evEpOther {p : EpField} (hp : p.toNat < s.cfg.numPhysEp) : exec (.evEpOther p) s = .next s := by
  simp only [exec, execEvEpOther, withEp_legal s hp, onEpOther]

/-- The handler of an endpoint record is its own operation. -/
theorem handle_endpoint {p : EpField} (hp : p.toNat < s.cfg.numPhysEp) :
    handle (.xferComplete p.toNat) s = exec (.evXferComplete p) s ∧
    handle (.xferNotReady p.toNat) s = exec (.evXferNotReady p) s ∧
    handle (.epCmdComplete p.toNat) s = exec (.evEpCmdComplete p) s ∧
    handle (.epOther p.toNat) s = exec (.evEpOther p) s := by
  rw [exec_evXferComplete hp, exec_evXferNotReady hp, exec_evEpCmdComplete hp, exec_evEpOther hp]
  simp only [handle, eventEp_legal hp, onEpOther, and_self]

/-- Settles O10: the first record of a run and the run over the rest; and each record's route. -/
theorem oneRecordInterruptRunsItsHandler : Obligations.OneRecordInterruptRunsItsHandler := by
  refine ⟨fun s n h hsize hcount hfits hspace => dispatch_first_record h hsize hcount hfits hspace,
    fun s h hsize hcount hfits hspace => ?_, fun s h hcount => dispatch_empty h hcount,
    fun s => ⟨fun p hp => handle_endpoint hp, rfl, rfl, rfl, rfl, rfl, fun _ => rfl⟩⟩
  have hone : s.regs.evbufCount = (0 + 1) * s.cfg.evtBytes := by omega
  refine (dispatch_first_record h hsize hone hfits hspace).trans (congrArg (andThen _) (funext fun t => ?_))
  rw [dispatch_empty (s := t.afterRecord s.cfg 0) rfl (Nat.zero_mul _), State.afterRecord, Nat.zero_mul]

/-! ## Ignored records (R239, R247) -/

/-- EV_OTHER and EV_EP_OTHER of an existing endpoint change nothing. -/
theorem handle_ignored {ev : Event} (h : ev = .other ∨ ∃ p, p < s.cfg.numPhysEp ∧ ev = .epOther p) : handle ev s = .next s := by
  obtain rfl | ⟨p, hp, rfl⟩ := h
  · rfl
  · simp only [handle, eventEp_legal hp, onEpOther]

/-- In a ring of whole records a record at the cursor does not pass the ring's end. -/
theorem record_before_end {cursor size ring : Nat} (hwhole : ring % size = 0) (hcur : cursor % size = 0) (hlt : cursor < ring) :
    cursor + size ≤ ring := by
  obtain ⟨k, rfl⟩ := Nat.dvd_of_mod_eq_zero hcur
  obtain ⟨m, rfl⟩ := Nat.dvd_of_mod_eq_zero hwhole
  rw [← Nat.mul_succ]
  exact Nat.mul_le_mul_left size (Nat.lt_of_mul_lt_mul_left hlt)

/-- Settles O11: record by record, each moving the cursor by its bytes. -/
theorem ignoredRecordsAreAcknowledged : Obligations.IgnoredRecordsAreAcknowledged := by
  intro s n
  induction n generalizing s with
  | zero =>
    intro h hsize _ hend _ _ hcount _ _
    have hzero : s.regs.evbufCount = 0 := by rw [hcount, Nat.zero_mul]
    have hstay : (s.ctl.evtCursor + 0) % s.cfg.evtBufBytes = s.ctl.evtCursor := Nat.mod_eq_of_lt (by omega)
    rw [exec_interrupt, dispatch_empty h hzero, hzero, hstay, ← hzero]
  | succ n ih =>
    intro h hsize hring hend hwhole hcur hcount hfits hrecords
    have hspace : s.regs.evbufBase + s.ctl.evtCursor + s.cfg.evtBytes ≤ 2 ^ s.cfg.addrBits := by
      rw [State.RingPlaced] at hring
      omega
    have hlt : (s.ctl.evtCursor + s.cfg.evtBytes) % s.cfg.evtBufBytes < s.cfg.evtBufBytes := Nat.mod_lt _ (by omega)
    have halign : (s.ctl.evtCursor + s.cfg.evtBytes) % s.cfg.evtBufBytes % s.cfg.evtBytes = 0 := by
      rw [Nat.mod_mod_of_dvd _ (Nat.dvd_of_mod_eq_zero hwhole), Nat.add_mod_right, hcur]
    have hshift : ∀ k, ((s.ctl.evtCursor + s.cfg.evtBytes) % s.cfg.evtBufBytes + k * s.cfg.evtBytes) % s.cfg.evtBufBytes =
        (s.ctl.evtCursor + (k + 1) * s.cfg.evtBytes) % s.cfg.evtBufBytes := fun k => by
      rw [Nat.mod_add_mod, Nat.succ_mul, Nat.add_assoc, Nat.add_comm s.cfg.evtBytes]
    have hfirst : handle s.recordAtCursor (s.setDispatching true) = .next (s.setDispatching true) := by
      refine handle_ignored ?_
      have hk := hrecords 0 n.succ_pos
      rw [Nat.zero_mul, Nat.add_zero, Nat.mod_eq_of_lt (by omega)] at hk
      exact hk
    have hleft : n * s.cfg.evtBytes ≤ s.cfg.evtBufBytes := by
      rw [hcount] at hfits
      exact (Nat.mul_le_mul_right _ n.le_succ).trans hfits
    have hrest := ih ((s.setDispatching true).afterRecord s.cfg n) rfl hsize hring (record_before_end hwhole halign hlt) hwhole
      halign rfl hleft fun k hk => by
        have hr := hrecords (k + 1) (Nat.succ_lt_succ hk)
        rw [← hshift] at hr
        exact hr
    rw [exec_interrupt, dispatch_first_record h hsize hcount hfits hspace, hfirst, andThen_next]
    refine hrest.trans ?_
    rw [hcount, ← hshift]
    simp only [State.afterRecord, State.setDispatching, ← h]

/-! ## EV_DISCONNECT, EV_LINK_STATE (R245, R246) -/

/-- Settles O60: the upcall is an output if bound; the other events are ignored by their handlers. -/
theorem disconnectNotifiesAndOthersAreIgnored : Obligations.DisconnectNotifiesAndOthersAreIgnored := by
  intro s t
  have hdisconnect : onDisconnect s = .next t := by
    rw [onDisconnect, upcallDisconnect, emit_if_bound]
    rfl
  exact ⟨hdisconnect, fun h => (if_pos h).trans hdisconnect, fun h => if_neg h, rfl, fun p hp => exec_evEpOther hp⟩

end Sys2Proof.Machine
end

section
/-! EV_EP_CMD_COMPLETE (R237, R141): the drain of an empty FIFO and of one answered in time, and the restart after it. -/

namespace Sys2Proof.Machine

variable {s t : State} {p : Nat}

/-! ## The restart after the drain -/

/-- A queue with no request active is started (R237). -/
def restartIdle (p : Nat) (t : State) : Out State :=
  if (t.ep p).active = none ∧ (t.ep p).queue ≠ [] then startTransfer p t else .next t

theorem onCmdComplete_eq (p : Nat) (s : State) :
    onCmdComplete p s = restartIdle p (drainDeferred p (hwCommandDone p s)) := rfl

theorem restartIdle_nothing (h : (t.ep p).active ≠ none ∨ (t.ep p).queue = []) : restartIdle p t = .next t :=
  if_neg fun ⟨ha, hq⟩ => h.elim (· ha) hq

theorem restartIdle_starts (ha : (t.ep p).active = none) (hq : (t.ep p).queue ≠ []) : restartIdle p t = startTransfer p t :=
  if_pos ⟨ha, hq⟩

/-- The restart by what an earlier state's record of `p` holds, where the drain kept marker and queue. -/
theorem restartIdle_answers {p : EpField} (hp : p.toNat < t.cfg.numPhysEp)
    (ha : (t.ep p.toNat).active = (s.ep p.toNat).active) (hq : (t.ep p.toNat).queue = (s.ep p.toNat).queue) :
    ((s.ep p.toNat).active ≠ none ∨ (s.ep p.toNat).queue = [] → restartIdle p.toNat t = .next t) ∧
    ((s.ep p.toNat).active = none → (s.ep p.toNat).queue ≠ [] →
      restartIdle p.toNat t = exec (.procStartTransfer p) t) := by
  rw [exec_procStartTransfer hp, ← ha, ← hq]
  exact ⟨restartIdle_nothing, restartIdle_starts⟩

/-! ## The hardware's report -/

/-- The command reported is complete in the hardware's record and in the port; nothing else changes (R45, R134). -/
theorem hwCommandDone_eq (p : Nat) (s : State) : hwCommandDone p s = { s with
    regs := (hwCommandDone p s).regs
    hw := (hwCommandDone p s).hw } := by
  obtain ⟨regs, hw, h⟩ : ∃ regs hw, landLate p s = { s with regs := regs, hw := hw } := ⟨_, _, landLate_eq p s⟩
  rw [hwCommandDone, h]
  rfl

/-! ## The drain -/

theorem drainDeferred_empty (h : (s.ep p).deferred = []) : drainDeferred p s = s.setNotReady p false := by
  rw [drainDeferred, h]
  rfl

theorem setNotReady_ep_active (p q : Nat) (b : Bool) (s : State) : ((s.setNotReady p b).ep q).active = (s.ep q).active := by
  rw [setNotReady_ep]
  split <;> rfl

/-- A part of a drain writes one endpoint's record. -/
theorem DrainPart.eps {cs : List Command} (h : DrainPart p cs s t) : t.eps = s.eps.set p (t.ep p) := by
  refine List.ext_getElem (by rw [h.count, List.length_set]) fun q hq hq' => ?_
  have hqs : q < s.eps.length := h.count ▸ hq
  rw [List.getElem_set, ← State.ep_eq_getElem hq, ← State.ep_eq_getElem hqs]
  split
  · next hpq => rw [hpq]
  · next hpq => exact (h.others q fun e => hpq e.symm).1

/-- With no END_TRANSFER among them and every draw an answer, the drain stops at none of the commands waiting. -/
theorem State.CmdsOk.not_drainStops (hok : s.CmdsOk (s.ep p).deferred.length)
    (hend : ∀ c ∈ (s.ep p).deferred, c.type ≠ .endTransfer) {i : Nat} (hi : i < (s.ep p).deferred.length) :
    ¬ s.DrainStops p i := by
  rintro (⟨c, hc, htype⟩ | hlate)
  · exact hend c (List.mem_of_getElem? hc) htype
  · exact Nat.not_le.mpr (hok i hi) hlate

/-- A drain that stops at no command issues them all and leaves the endpoint ready (R138). -/
theorem drainDeferred_all (hp : p < s.eps.length) (htarget : ∀ c ∈ (s.ep p).deferred, c.target = p)
    (hend : ∀ c ∈ (s.ep p).deferred, c.type ≠ .endTransfer) (hok : s.CmdsOk (s.ep p).deferred.length) :
    DrainPart p (s.ep p).deferred s (drainDeferred p s) ∧
      (drainDeferred p s).ep p = { s.ep p with deferred := [], notReady := false } := by
  have hready := DrainPart.setEp p { s.ep p with notReady := false } s
  have hep : (s.setNotReady p false).ep p = { s.ep p with notReady := false } := setEp_ep_same s hp _
  obtain ⟨k, hk⟩ := drainLoop_drained (s := s.setNotReady p false) (p := p) (s.ep p).deferred.length (hready.count ▸ hp)
    (by rw [hep]) (by rw [hep]) (by rwa [hep])
  have hgo : ∀ i, i < (s.ep p).deferred.length → ¬ (s.setNotReady p false).DrainStops p i := fun i hi => by
    rw [State.DrainStops, hep]
    exact hok.not_drainStops hend hi
  obtain ⟨hle, -, hrest, hpart, hrecord, hnr⟩ := hk
  simp only [hep] at hle hrest hpart hrecord
  have hall : k = (s.ep p).deferred.length := by
    by_contra hne
    obtain ⟨hpos, hstop⟩ := hrest (Nat.lt_of_le_of_ne hle hne)
    exact hgo (k - 1) (by omega) hstop
  have hnot : (drainDeferred p s).ep p = { (drainDeferred p s).ep p with notReady := false } := by
    have hfalse : ((drainDeferred p s).ep p).notReady = false := by
      refine Bool.eq_false_iff.mpr fun htrue => ?_
      obtain ⟨hpos, hstop⟩ := hnr.mp htrue
      exact hgo (k - 1) (by omega) hstop
    rw [← hfalse]
  subst hall
  rw [List.take_length] at hpart
  refine ⟨hready.trans hpart, hnot.trans ?_⟩
  rw [drainDeferred, hrecord, List.drop_length]

theorem exec_procDrainDeferred {p : EpField} (hp : p.toNat < s.cfg.numPhysEp) :
    exec (.procDrainDeferred p) s = .next (drainDeferred p.toNat s) := by
  simp only [exec, execProcDrainDeferred, withEp_legal s hp]

theorem drainDeferred_cfg (p : Nat) (s : State) : (drainDeferred p s).cfg = s.cfg :=
  IssuerBlind.drain (f := State.cfg) (fun _ _ h _ _ _ => h) p s

/-- Settles O29: the hardware's report, the drain, and the restart by what the endpoint held before. -/
theorem commandCompleteRestartsTheQueue : Obligations.CommandCompleteRestartsTheQueue := by
  intro s p hp l w
  have hw : w = { s with regs := w.regs, hw := w.hw } := hwCommandDone_eq p.toNat s
  have hwcfg : w.cfg = s.cfg := by rw [hw]
  have hwep : w.ep p.toNat = s.ep p.toNat := by rw [hw]; rfl
  have hpw : p.toNat < w.cfg.numPhysEp := hwcfg ▸ hp
  have hexec : exec (.evEpCmdComplete p) s = restartIdle p.toNat (drainDeferred p.toNat w) := exec_evEpCmdComplete hp
  refine ⟨?_, fun hempty => ?_, fun hs hcs hok => ?_⟩
  · rw [exec_procDrainDeferred hpw, andThen_next, hexec,
      exec_procStartTransfer (s := drainDeferred p.toNat w) (drainDeferred_cfg p.toNat w ▸ hpw)]
    rfl
  · intro t
    have ht : drainDeferred p.toNat w = t := by
      rw [drainDeferred_empty (hwep ▸ hempty), State.setNotReady, hwep]
      have heps : w.eps = s.eps := by rw [hw]
      rw [State.setEp, heps]
    rw [hexec, ht]
    refine restartIdle_answers (t := t) hpw ?_ ?_
    · exact setNotReady_ep_active p.toNat p.toNat false s
    · exact setNotReady_ep_queue p.toNat p.toNat false s
  · have heps : w.eps = s.eps := by rw [hw]
    have hlen : p.toNat < w.eps.length := heps ▸ hs.eps hp
    rw [← hwep] at hcs hok
    obtain ⟨hpart, hep⟩ := drainDeferred_all (s := w) hlen (fun c hc => (hcs c hc).1) (fun c hc => (hcs c hc).2)
      (hok.drop (k := 0) hwcfg (by rw [hw]; rfl))
    have hpt : p.toNat < (drainDeferred p.toNat w).cfg.numPhysEp := hpart.cfg ▸ hpw
    refine ⟨drainDeferred p.toNat w, ?_, ?_, ?_, ?_, ?_, hexec ▸ restartIdle_answers hpt ?_ ?_⟩
    · rw [hpart.outs, hwep, hw]
    · rw [hpart.eps, hep, hwep, heps]
    · rw [hpart.mem, hw]
    · rw [hpart.ctl, hw]
    · rw [hpart.reqs, hw]
    · rw [hep, hwep]
    · rw [hep, hwep]

end Sys2Proof.Machine
end

section
/-! EV_USB_RESET (R240, R241, I9): kill_all over a run of endpoints, the callbacks making no nested call, and the flags cleared
after it. -/

namespace Sys2Proof.Machine

variable {s t u : State} {p : Nat} {res : Result}

/-! ## kill_all over several endpoints (R186) -/

/-- Completion callbacks are no commands. -/
theorem commandsOf_callbackOutputs (l : List ReqRef) (f : ReqRef → Request) :
    commandsOf (l.flatMap fun r => callbackOutput r (f r)) = [] := by
  induction l with
  | nil => rfl
  | cons r l ih =>
    rw [List.flatMap_cons, commandsOf_append, ih, List.append_nil, callbackOutput]
    split <;> rfl

/-- What kill_all of the endpoints `ps` without Success leaves of `s`, the callbacks making no nested call. -/
structure QueuesKilled (ps : List Nat) (res : Result) (s t : State) : Prop where
  killed : ∀ p ∈ ps, t.ep p = { s.ep p with queue := [], active := none, resIdx := none }
  others : ∀ p, p ∉ ps → t.ep p = s.ep p
  completed : ∀ p ∈ ps, ∀ r ∈ (s.ep p).queue, t.req r = completed res (s.req r)
  reqs : ∀ r, t.req r = s.req r ∨ t.req r = Machine.completed res (s.req r)
  commands : commandsOf t.outs = commandsOf s.outs
  ctl : t.ctl = s.ctl
  regs : t.regs = s.regs
  mem : t.mem = s.mem
  hw : t.hw = s.hw
  acrossReset : t.ep0AcrossReset = s.ep0AcrossReset

theorem QueuesKilled.nil (res : Result) (s : State) : QueuesKilled [] res s s :=
  ⟨nofun, fun _ _ => rfl, nofun, fun _ => .inl rfl, rfl, rfl, rfl, rfl, rfl, rfl⟩

/-- One endpoint killed, with what `QueueKilled` leaves out. -/
theorem killAll_queueKilled (h : s.Inv) (hn : s.NoNested) (hp : p < s.cfg.numPhysEp) (hres : res ≠ .success) :
    ∃ t, killAll p res s = .next t ∧ QueueKilled p res s t ∧ t.Inv ∧ t.draws = s.draws ∧ t.hw = s.hw ∧
      t.ep0AcrossReset = s.ep0AcrossReset := by
  obtain ⟨t, e, ht, hreq⟩ := killAllWith_failure (adv := ep0Advance) (fun _ _ => callback_quiet) hres hn (h.shaped.eps hp)
    (h.queue_nodup hp) (h.endpoints p hp).activeIsHead (h.endpoints p hp).indexIffActive
  refine ⟨t, e, ⟨?_, ?_, hreq, ?_, ?_, ?_, ?_⟩, invAdvFrame.killAll p res s t e h, ?_, ?_, ?_⟩ <;> rw [ht]

/-- One endpoint's queue killed before the others. -/
theorem QueuesKilled.cons {ps : List Nat} (hlen : p < s.eps.length) (k : QueueKilled p res s u) (hhw : u.hw = s.hw)
    (hflag : u.ep0AcrossReset = s.ep0AcrossReset) (h : QueuesKilled ps res u t) : QueuesKilled (p :: ps) res s t where
  killed q hq := by
    have hu : { u.ep q with queue := [], active := none, resIdx := none } =
        { s.ep q with queue := [], active := none, resIdx := none } := by
      by_cases hqp : q = p
      · rw [hqp, k.ep_same hlen]
      · rw [k.ep_ne hqp]
    by_cases hqs : q ∈ ps
    · rw [h.killed q hqs, hu]
    · obtain rfl := (List.mem_cons.mp hq).resolve_right hqs
      rw [h.others q hqs, k.ep_same hlen]
  others q hq := by
    obtain ⟨hqp, hqs⟩ := not_or.mp (mt List.mem_cons.mpr hq)
    rw [h.others q hqs, k.ep_ne hqp]
  completed q hq r hr := by
    by_cases hqp : q = p
    · subst hqp
      have hu : u.req r = Machine.completed res (s.req r) := (k.req r).trans (if_pos hr)
      obtain ht | ht := h.reqs r
      · rw [ht, hu]
      · rw [ht, hu, completed_completed]
    · have hqs := (List.mem_cons.mp hq).resolve_left hqp
      rw [h.completed q hqs r (k.ep_ne hqp ▸ hr), k.completed_req]
  reqs r := by
    obtain ht | ht := h.reqs r
    · rw [ht, k.req]
      split
      · exact .inr rfl
      · exact .inl rfl
    · exact .inr (ht.trans (k.completed_req r))
  commands := by rw [h.commands, k.outs, commandsOf_append, commandsOf_callbackOutputs, List.append_nil]
  ctl := h.ctl.trans k.ctl
  regs := h.regs.trans k.regs
  mem := h.mem.trans k.mem
  hw := h.hw.trans hhw
  acrossReset := h.acrossReset.trans hflag

theorem killAll_each (ps : List Nat) (h : s.Inv) (hn : s.NoNested) (hps : ∀ p ∈ ps, p < s.cfg.numPhysEp)
    (hres : res ≠ .success) : ∃ t, eachInOrder (fun p => killAll p res) ps s = .next t ∧ QueuesKilled ps res s t := by
  induction ps generalizing s with
  | nil => exact ⟨s, rfl, .nil res s⟩
  | cons p ps ih =>
    have hp := hps p List.mem_cons_self
    obtain ⟨u, eu, hu, hinv, hdraws, hhw, hflag⟩ := killAll_queueKilled h hn hp hres
    obtain ⟨t, et, ht⟩ := ih hinv ((congrArg Draws.cbs hdraws).trans hn)
      fun q hq => hu.cfg ▸ hps q (List.mem_cons_of_mem p hq)
    exact ⟨t, by rw [eachInOrder_cons, eu, andThen_next, et], .cons (h.shaped.eps hp) hu hhw hflag ht⟩

/-! ## What a USB reset clears (R240) -/

theorem clearHalts_ep (p : Nat) (s : State) : s.clearHalts.ep p = { s.ep p with halted := false } := by
  by_cases hp : p < s.eps.length
  · simp [State.ep, State.clearHalts, hp]
  · simp [State.ep, State.clearHalts, hp, Endpoint.creation]

theorem ep0Pending_eq_true_iff :
    ep0Pending s = true ↔ ∃ r ∈ (s.ep 0).queue ++ (s.ep 1).queue, r ≠ .setupRead := by
  simp only [ep0Pending, List.any_eq_true, decide_eq_true_eq]

theorem mem_drop_range {n k : Nat} : p ∈ (List.range n).drop k ↔ k ≤ p ∧ p < n := by
  rw [List.range_eq_range', List.drop_range', List.mem_range'_1]
  omega

theorem exec_evUsbReset (s : State) : exec .evUsbReset s = onUsbReset s := rfl

/-- Settles O58: the endpoints other than EP0 are killed in turn, and what is cleared after that is in none of their queues. -/
theorem usbResetKillsAndClears : Obligations.UsbResetKillsAndClears := by
  intro s h hn
  have hps (p : Nat) := mem_drop_range (n := s.cfg.numPhysEp) (k := 2) (p := p)
  have hs0 : ({ s with ep0AcrossReset := s.ep0AcrossReset || ep0Pending s } : State).Inv := h.congr ⟨rfl, rfl, rfl, rfl, id⟩ rfl
  obtain ⟨t, e, ht⟩ := killAll_each (res := .connectionReset) ((List.range s.cfg.numPhysEp).drop 2) hs0 hn
    (fun p hp => ((hps p).mp hp).2) nofun
  have hep : ∀ q, ((t.clearHalts.setDevAddr 0).setCfgStarted false).ep q = { t.ep q with halted := false } :=
    fun q => clearHalts_ep q t
  refine ⟨(t.clearHalts.setDevAddr 0).setCfgStarted false, ?_, fun p hp2 hp => ⟨?_, fun r hr => ?_⟩, fun p hp => ?_, ?_, ?_,
    ht.commands, ht.mem, ht.hw, ?_⟩
  · rw [exec_evUsbReset, onUsbReset, e, andThen_next]
  · rw [hep, ht.killed p ((hps p).mpr ⟨hp2, hp⟩)]
    rfl
  · exact ht.completed p ((hps p).mpr ⟨hp2, hp⟩) r hr
  · rw [hep, ht.others p fun hmem => by have := ((hps p).mp hmem).1; omega]
    rfl
  · exact congrArg (fun c : Controller => { c with cfgStarted := false }) ht.ctl
  · exact congrArg (fun c : Regs => { c with devAddr := 0 }) ht.regs
  · have hflag : ((t.clearHalts.setDevAddr 0).setCfgStarted false).ep0AcrossReset = (s.ep0AcrossReset || ep0Pending s) :=
      ht.acrossReset
    rw [hflag, Bool.or_eq_true, ep0Pending_eq_true_iff]

end Sys2Proof.Machine
end

section
/-! EV_CONNECT_DONE (R243, R244): the resized max-packets, EP0's two activates answered in time, and the setup read armed in
UNCONNECTED. -/

namespace Sys2Proof.Machine

variable {s t u : State} {p : Nat}

/-! ## The resized records (R243) -/

/-- An endpoint's record at a new speed; one without a type stays. -/
def Endpoint.resized (e : Endpoint) (c : Config) (sp : Speed) : Endpoint :=
  if e.type = .none then e else { e with maxp := maxpLookup c.maxpTable sp e.type }

theorem Endpoint.resized_keeps (e : Endpoint) (c : Config) (sp : Speed) :
    (e.resized c sp).type = e.type ∧ (e.resized c sp).notReady = e.notReady ∧ (e.resized c sp).queue = e.queue := by
  unfold Endpoint.resized
  split <;> exact ⟨rfl, rfl, rfl⟩

theorem resizeMaxp_ep (sp : Speed) (s : State) (p : Nat) : (resizeMaxp sp s).ep p = (s.ep p).resized s.cfg sp := by
  by_cases hp : p < s.eps.length
  · simp [State.ep, resizeMaxp, hp, Endpoint.resized]
  · simp [State.ep, resizeMaxp, hp, Endpoint.resized, Endpoint.creation]

theorem resizeMaxp_onAnyQueue (sp : Speed) (s : State) (r : ReqRef) : (resizeMaxp sp s).onAnyQueue r = s.onAnyQueue r := by
  have hqueue : ∀ e : Endpoint, ((e.resized s.cfg sp).queue.contains r) = e.queue.contains r := fun e => by
    rw [(e.resized_keeps s.cfg sp).2.2]
  exact List.any_map.trans (congrArg s.eps.any (funext hqueue))

/-! ## EP0's endpoints activated (R244) -/

/-- What activate of a control endpoint `p` leaves of `s`, its two commands answered in time: no new configuration is begun. -/
structure ControlActivated (p : Nat) (s t : State) : Prop where
  cfg : t.cfg = s.cfg
  eps : t.eps = s.eps
  ctl : t.ctl = s.ctl
  mem : t.mem = s.mem
  reqs : t.reqs = s.reqs
  enabled : (t.port p).enabled = true
  others : ∀ q, q ≠ p → t.port q = s.port q
  portCount : t.regs.ports.length = s.regs.ports.length
  outs : t.outs = s.outs ++ [.command (setEpConfigCmd p (s.ep p)), .command (setXferResourceCmd p)]

theorem activate_control {n : Nat} (htype : (s.ep p).type = .control) (hr : (s.ep p).notReady = false)
    (hp : p < s.regs.ports.length) (hok : s.CmdsOk (n + 2)) :
    ∃ t, activate p s = .next t ∧ ControlActivated p s t ∧ t.CmdsOk n := by
  obtain ⟨x, h, hx, e⟩ := activate_ok (.inl htype) hr hp fun k hk => hok k (by omega)
  refine ⟨_, e, ⟨rfl, rfl, rfl, rfl, rfl, setPort_enabled hp hx p |>.trans (if_pos rfl), fun q hq => ?_, ?_, rfl⟩,
    hok.drop (k := 2) rfl rfl⟩
  · exact (setPort_port s p q x).trans (if_neg fun hpq => hq hpq.1.symm)
  · exact List.length_set

/-- The types and targets of the commands among the outputs. -/
def commandKinds (os : List Output) : List (CmdType × Nat) := (commandsOf os).map fun c => (c.type, c.target)

/-- What the two activates of EP0 leave of `s` (R243, R244). -/
structure Ep0Activated (s t : State) : Prop where
  cfg : t.cfg = s.cfg
  eps : t.eps = s.eps
  ctl : t.ctl = s.ctl
  mem : t.mem = s.mem
  reqs : t.reqs = s.reqs
  enabled0 : (t.port 0).enabled = true
  enabled1 : (t.port 1).enabled = true
  others : ∀ q, 2 ≤ q → t.port q = s.port q
  commands : commandKinds t.outs = commandKinds s.outs ++
    [(.setEpConfig, 0), (.setXferResource, 0), (.setEpConfig, 1), (.setXferResource, 1)]

theorem Ep0Activated.of_both (h : ControlActivated 0 s u) (k : ControlActivated 1 u t) : Ep0Activated s t where
  cfg := k.cfg.trans h.cfg
  eps := k.eps.trans h.eps
  ctl := k.ctl.trans h.ctl
  mem := k.mem.trans h.mem
  reqs := k.reqs.trans h.reqs
  enabled0 := by rw [k.others 0 zero_ne_one, h.enabled]
  enabled1 := k.enabled
  others q hq := (k.others q (by omega)).trans (h.others q (by omega))
  commands := by
    rw [k.outs, h.outs]
    simp only [commandKinds, commandsOf_append, List.map_append, List.append_assoc]
    rfl

theorem activate_ep0 (hports : 2 ≤ s.regs.ports.length) (htype0 : (s.ep 0).type = .control) (htype1 : (s.ep 1).type = .control)
    (hr0 : (s.ep 0).notReady = false) (hr1 : (s.ep 1).notReady = false) (hok : s.CmdsOk 4) :
    ∃ t, andThen (activate 0 s) (activate 1) = .next t ∧ Ep0Activated s t := by
  obtain ⟨u, eu, hu, hok'⟩ := activate_control htype0 hr0 (by omega) hok
  have hep := ep_congr hu.eps 1
  obtain ⟨t, et, ht, -⟩ := activate_control (s := u) (p := 1) (n := 0) (hep ▸ htype1) (hep ▸ hr1) (hu.portCount ▸ hports) hok'
  exact ⟨t, by rw [eu, andThen_next, et], .of_both hu ht⟩

/-! ## The event -/

theorem exec_evConnectDone (s : State) : exec .evConnectDone s = onConnectDone s := rfl

theorem armSetup_queued (h : s.onAnyQueue .setupRead = true) : armSetup s = .refused .alreadyQueued := if_pos h

/-- The state in which EV_CONNECT_DONE activates EP0: the speed recorded, the max-packets resized (R243). -/
def State.connecting (s : State) : State :=
  resizeMaxp s.latchSpeed.regs.stsSpeed
    { s.latchSpeed with ctl := { s.latchSpeed.ctl with speed := some s.latchSpeed.regs.stsSpeed } }

theorem onConnectDone_activated (h : andThen (activate 0 s.connecting) (activate 1) = .next t) :
    onConnectDone s = if t.ctl.ep0Phase = .unconnected then armSetup (t.setConnected true) else .next (t.setConnected true) := by
  have hassoc : onConnectDone s = andThen (andThen (activate 0 s.connecting) (activate 1)) fun t =>
      if t.ctl.ep0Phase = .unconnected then armSetup (t.setConnected true) else .next (t.setConnected true) := by
    rw [andThen_assoc]
    rfl
  rw [hassoc, h, andThen_next]

/-- Settles O59: the resized state activated, then connected, then armed if EP0 was unconnected. -/
theorem connectDoneResizesAndActivates : Obligations.ConnectDoneResizesAndActivates := by
  intro s hs hnum htype0 htype1 hr0 hr1 hok sp
  have hep : ∀ p, s.connecting.ep p = (s.ep p).resized s.cfg sp := fun p => resizeMaxp_ep _ _ p
  have hkeeps : ∀ p, (s.connecting.ep p).type = (s.ep p).type ∧ (s.connecting.ep p).notReady = (s.ep p).notReady ∧
      (s.connecting.ep p).queue = (s.ep p).queue := fun p => hep p ▸ (s.ep p).resized_keeps s.cfg sp
  have hports : 2 ≤ s.connecting.regs.ports.length := hs.2.1 ▸ hnum
  obtain ⟨t, et, ht⟩ := activate_ep0 (s := s.connecting) hports ((hkeeps 0).1.trans htype0) ((hkeeps 1).1.trans htype1)
    ((hkeeps 0).2.1.trans hr0) ((hkeeps 1).2.1.trans hr1) hok
  have hphase : t.ctl.ep0Phase = s.ctl.ep0Phase := (congrArg Controller.ep0Phase ht.ctl :)
  have hqueued : (t.setConnected true).onAnyQueue .setupRead = s.onAnyQueue .setupRead :=
    (congrArg (fun eps : List Endpoint => eps.any fun e => e.queue.contains .setupRead) ht.eps).trans
      (resizeMaxp_onAnyQueue _ _ _)
  have hep0 : (t.setConnected true).ep 0 = s.connecting.ep 0 := ep_congr ht.eps 0
  rw [exec_evConnectDone, onConnectDone_activated et, hphase]
  refine ⟨t.setConnected true, fun hph => if_neg hph, fun hph hfree => ?_, fun hph hq => ?_, fun p _ => ?_, ?_, ht.enabled0,
    ht.enabled1, ht.others, ht.commands, ht.mem, ht.reqs⟩
  · have hp0 : (0 : EpField).toNat < (t.setConnected true).armed.cfg.numPhysEp :=
      (congrArg Config.numPhysEp ht.cfg).symm ▸ Nat.lt_of_lt_of_le Nat.zero_lt_two hnum
    rw [if_pos hph, armSetup_eq (hqueued.trans hfree), exec_procStartTransfer hp0, hep0, (hkeeps 0).2.2, (hkeeps 0).2.1, hr0]
    simp only [and_true]
    rfl
  · rw [if_pos hph, armSetup_queued (hqueued.trans hq)]
  · exact (ep_congr ht.eps p).trans (hep p)
  · exact congrArg (fun c : Controller => { c with connected := true }) ht.ctl

end Sys2Proof.Machine
end

section
/-! EV_XFER_COMPLETE (R234, R235, R238): what the hardware did before it, in closed form; the faults of the written-back TD; the
byte count, and what complete does with it on each endpoint and in each EP0 phase, the callback making no nested call. Where a
proof generalizes a memory, it is so that unification need not compare the written bytes. -/

namespace Sys2Proof.Machine

variable {s t u : State} {p : Nat} {r : ReqRef} {d : XferDraw} {rest : List XferDraw}

/-! ## The hardware's part (R47, R110, log 25) -/

/-- A write from outside that meets no waiting record is a write of memory (R82). -/
theorem writeOutside_free {a : Nat} {bs : List Byte} (hspace : a + bs.length ≤ 2 ^ s.cfg.addrBits)
    (hfree : ∀ i, i < bs.length → s.pendingByte (a + i) = false) :
    writeOutside a bs s = .next { s with mem := Memory.setBytes s.mem a bs } := by
  rw [writeOutside, if_neg (by simpa using hfree), writeMem_inSpace hspace]

/-- The bytes a draw moves on endpoint `p`: those of an OUT endpoint. -/
def XferDraw.moved (d : XferDraw) (p : Nat) : List Byte := if p % 2 = 0 then d.data else []

/-- The buffer the hardware's TD names. -/
def State.hwBuf (s : State) (p : Nat) : Nat := tdBufAddr s.cfg (Memory.getBytes s.mem (s.hwTdAddr p) 16)

theorem hwBuf_lt (s : State) (p : Nat) : s.hwBuf p < 2 ^ s.cfg.addrBits := Nat.mod_lt _ (Nat.two_pow_pos _)

/-- The DMA of a draw, where its bytes go over no waiting record. -/
theorem hwDma_moved (hspace : s.hwTdAddr p + 16 ≤ 2 ^ s.cfg.addrBits)
    (hbuf : s.hwBuf p + (d.moved p).length ≤ 2 ^ s.cfg.addrBits)
    (hfree : ∀ i, i < (d.moved p).length → s.pendingByte (s.hwBuf p + i) = false) :
    (if epDir p = .OUT then hwDma p d.data s else .next s) =
      .next { s with mem := Memory.setBytes s.mem (s.hwBuf p) (d.moved p) } := by
  by_cases hp : p % 2 = 0
  · have hout : epDir p = .OUT := if_pos hp
    have hmoved : d.moved p = d.data := if_pos hp
    rw [hmoved] at hbuf hfree ⊢
    rw [if_pos hout, hwDma, readMem_inSpace hspace, andThen_next]
    exact writeOutside_free hbuf hfree
  · have hin : epDir p ≠ .OUT := by simp [epDir, hp]
    have hmoved : d.moved p = [] := if_neg hp
    rw [if_neg hin, hmoved]
    rfl

/-- With a draw the hardware moves its bytes, then writes its TD back. -/
theorem hwTransfer_draw (hx : s.draws.xfers = d :: rest) (hspace : s.hwTdAddr p + 16 ≤ 2 ^ s.cfg.addrBits)
    (hbuf : s.hwBuf p + (d.moved p).length ≤ 2 ^ s.cfg.addrBits)
    (hfree : ∀ i, i < (d.moved p).length → s.pendingByte (s.hwBuf p + i) = false) :
    hwTransfer p s = writeBackTd p d { s with
      mem := Memory.setBytes s.mem (s.hwBuf p) (d.moved p), draws := { s.draws with xfers := rest } } := by
  simp only [hwTransfer, hx]
  rw [hwDma_moved (s := { s with draws := { s.draws with xfers := rest } }) hspace hbuf hfree, andThen_next]
  rfl

/-- A draw that moves no byte. -/
theorem hwTransfer_noData (hx : s.draws.xfers = d :: rest) (hd : d.data = []) (hspace : s.hwTdAddr p + 16 ≤ 2 ^ s.cfg.addrBits) :
    hwTransfer p s = writeBackTd p d { s with draws := { s.draws with xfers := rest } } := by
  have hmoved : d.moved p = [] := by rw [XferDraw.moved, hd, ite_self]
  have h := hwTransfer_draw hx hspace (by rw [hmoved]; exact Nat.le_of_lt (hwBuf_lt s p)) (by rw [hmoved]; nofun)
  rwa [hmoved] at h

/-- The hardware's TD as the draw writes it back (R27, R47). -/
def State.writtenBack (s : State) (p : Nat) (d : XferDraw) : List Byte :=
  tdWriteBack s.cfg d.remaining d.owner (Memory.getBytes s.mem (s.hwTdAddr p) 16)

theorem writtenBack_length (s : State) (p : Nat) (d : XferDraw) : (s.writtenBack p d).length = 16 := tdWriteBack_length _ _ _ _

theorem writeBackTd_free (hspace : s.hwTdAddr p + 16 ≤ 2 ^ s.cfg.addrBits)
    (hfree : ∀ i, i < 16 → s.pendingByte (s.hwTdAddr p + i) = false) (d : XferDraw) :
    ∃ h, writeBackTd p d s = .next { s with
      mem := Memory.setBytes s.mem (s.hwTdAddr p) (s.writtenBack p d), hw := h } := by
  have hwrite : writeOutside (s.hwTdAddr p) (s.writtenBack p d) s =
      .next { s with mem := Memory.setBytes s.mem (s.hwTdAddr p) (s.writtenBack p d) } :=
    writeOutside_free (by rw [writtenBack_length]; exact hspace) (by rw [writtenBack_length]; exact hfree)
  rw [writeBackTd, readMem_inSpace hspace, andThen_next, ← State.writtenBack, hwrite, andThen_next]
  exact ⟨_, rfl⟩

/-- The draw the hardware uses with a request active: the next one, or the trace's default (R110). -/
def State.xferDraw (s : State) : XferDraw := s.draws.xfers.headD XferDraw.default

/-- With a request active and no byte to move, the hardware writes its TD back and nothing else of memory. -/
theorem hwTransfer_active (hactive : (s.ep p).active = some r) (hd : s.xferDraw.data = [])
    (hspace : s.hwTdAddr p + 16 ≤ 2 ^ s.cfg.addrBits) (hfree : ∀ i, i < 16 → s.pendingByte (s.hwTdAddr p + i) = false) :
    ∃ h, hwTransfer p s = .next { s with
      draws := { s.draws with xfers := s.draws.xfers.tail }
      mem := Memory.setBytes s.mem (s.hwTdAddr p) (s.writtenBack p s.xferDraw)
      hw := h } := by
  cases hx : s.draws.xfers with
  | nil =>
    have hdraw : s.xferDraw = XferDraw.default := by rw [State.xferDraw, hx, List.headD_nil]
    obtain ⟨h, e⟩ := writeBackTd_free hspace hfree XferDraw.default
    refine ⟨h, ?_⟩
    simp only [hwTransfer, hx, hactive, reduceCtorEq, if_false, e, hdraw, List.tail_nil]
    rw [← hx]
  | cons d rest =>
    have hdraw : s.xferDraw = d := by rw [State.xferDraw, hx, List.headD_cons]
    rw [hdraw] at hd ⊢
    obtain ⟨h, e⟩ := writeBackTd_free (s := { s with draws := { s.draws with xfers := rest } }) hspace hfree d
    exact ⟨h, (hwTransfer_noData hx hd hspace).trans e⟩

/-! ## on_xfer_complete (R234, R235) -/

theorem onXferComplete_inactive (e : hwTransfer p s = .next u) (h : (u.ep p).active = none) : onXferComplete p s = .next u := by
  simp only [onXferComplete, e, andThen_next, h]

theorem onXferComplete_active (e : hwTransfer p s = .next u) (h : (u.ep p).active = some r) :
    onXferComplete p s = finishTransfer p r u := by
  simp only [onXferComplete, e, andThen_next, h]

/-- `s` with `r`'s byte count written (R238). -/
def State.counted (s : State) (p : Nat) (r : ReqRef) (rem : Nat) : State :=
  s.setReq r { s.req r with actual := min (s.req r).length ((s.ep p).td.length - rem) }

theorem finishTransfer_eq (hspace : s.tdAddr p + 16 ≤ 2 ^ s.cfg.addrBits) {bs : List Byte}
    (hbs : Memory.getBytes s.mem (s.tdAddr p) 16 = bs) :
    finishTransfer p r s =
      if tdOwner s.cfg bs = true then .fault .descriptorStillOwned
      else if (s.ep p).td.length < tdRemaining s.cfg bs then .fault .remainingTooLarge
      else complete p r .success (s.counted p r (tdRemaining s.cfg bs)) := by
  rw [finishTransfer, readMem_inSpace hspace, andThen_next, hbs]
  rfl

/-! ## complete with Success, after the phase advance (R180, R183, R184) -/

theorem putReq_putReq (l : List (ReqRef × Request)) (r : ReqRef) (x y : Request) :
    putReq (putReq l r x) r y = putReq l r y := by
  induction l with
  | nil => simp [putReq]
  | cons z l ih => by_cases hz : z.1 = r <;> simp [putReq, hz, ih]

/-- The active request's byte count written and the request released with Success: what the phase advance and the callback find. -/
theorem release_counted (hactive : (s.ep p).active = some r) (rem : Nat) :
    release p r .success (s.counted p r rem) = { s with
      reqs := putReq s.reqs r (completed .success { s.req r with
        actual := min (s.req r).length ((s.ep p).td.length - rem) })
      eps := s.eps.set p { s.ep p with queue := (s.ep p).queue.erase r, active := none, resIdx := none } } := by
  have hep : (s.counted p r rem).ep p = s.ep p := rfl
  have hreq : (s.counted p r rem).req r =
      { s.req r with actual := min (s.req r).length ((s.ep p).td.length - rem) } := (setReq_req _ _ _ _).trans (if_pos rfl)
  rw [release_eq, hep, hreq, hactive]
  simp [State.counted, State.setReq, putReq_putReq]

/-- The callback of a completion that makes no nested call: its output, if it has one (R183). -/
theorem callback_output (hn : t.NoNested) :
    (if (t.req r).callback ≠ .internal then callback r t else .next t) =
      .next { t with outs := t.outs ++ callbackOutput r (t.req r) } := by
  by_cases hc : (t.req r).callback = .internal
  · have hsilent : callbackOutput r (t.req r) = [] := if_pos hc
    rw [if_neg (not_not_intro hc), hsilent, List.append_nil]
  · rw [if_pos hc, callback_quiet hn, emitCb_eq hc]

section
variable {w : State} (hw : release p r .success s = w)
include hw

/-- The phase advance answered, with the completed request as it was and nothing active: the callback's output, and then the
queue's next (R184). -/
theorem complete_advanced (hadv : (if isEp0 p = true then ep0Advance p r w else .next w) = .next t) (hn : t.NoNested)
    (hreq : t.req r = w.req r) (hidle : (t.ep p).active = none) :
    complete p r .success s = startTransfer p { t with outs := t.outs ++ callbackOutput r (w.req r) } := by
  simp only [complete, completeWith, hw, and_true, hadv, andThen_next]
  rw [← hreq, callback_output hn, andThen_next]
  exact if_pos hidle

/-- On EP0 an internal request's completion is its phase advance, and then the queue's next. -/
theorem complete_internal (hp : p < 2) (hc : (w.req r).callback = .internal) :
    complete p r .success s =
      andThen (ep0Advance p r w) fun t => if (t.ep p).active = none then startTransfer p t else .next t := by
  simp only [complete, completeWith, hw, isEp0_eq_true_iff.mpr hp, and_true, if_true, hc, ne_eq, not_true, if_false,
    andThen_next]

end

theorem ep0Advance_nothing (h : s.ctl.ep0Phase = .setup ∧ r ≠ .setupRead ∨
      s.ctl.ep0Phase ∈ [Phase.unconnected, .waitNrdy, .stalled]) :
    ep0Advance p r s = .next s := by
  simp only [List.mem_cons, List.not_mem_nil, or_false] at h
  obtain ⟨hph, hr⟩ | hph | hph | hph := h <;> rw [ep0Advance, hph]
  exact if_neg hr

theorem ep0Advance_setupRead (h : s.ctl.ep0Phase = .setup) : ep0Advance p .setupRead s = processControl s := by
  rw [ep0Advance, h]
  exact if_pos rfl

theorem ep0Advance_status (h : s.ctl.ep0Phase = .status2 ∨ s.ctl.ep0Phase = .status3) : ep0Advance p r s = armSetup s := by
  obtain h | h := h <;> rw [ep0Advance, h]

/-- Arming the setup read in the model's words for a start on an idle endpoint (R191, R172). -/
theorem armSetup_startIfIdle (h : s.onAnyQueue .setupRead = false) (hnum : 0 < s.cfg.numPhysEp) :
    armSetup s = startIfIdle s s.armed 0 := by
  have hstart : exec (.procStartTransfer 0) s.armed = startTransfer 0 s.armed := exec_procStartTransfer (p := 0) (s := s.armed) hnum
  rw [armSetup_eq h, startIfIdle, hstart]
  rfl

theorem startIfInactive_eq {p : EpField} (hp : p.toNat < t.cfg.numPhysEp) :
    startIfInactive t p = if (t.ep p.toNat).active = none then startTransfer p.toNat t else .next t := by
  rw [startIfInactive, exec_procStartTransfer hp]

/-! ## The event with a draw -/

section
variable (hx : s.draws.xfers = d :: rest) (hspace : s.hwTdAddr p + 16 ≤ 2 ^ s.cfg.addrBits)
  (hbuf : s.hwBuf p + (d.moved p).length ≤ 2 ^ s.cfg.addrBits)
  (hfree : ∀ i, i < (d.moved p).length → s.pendingByte (s.hwBuf p + i) = false)
include hx hspace hbuf hfree

/-- A draw's bytes stand in memory before the handler reads anything (R110). -/
theorem onXferComplete_moved : onXferComplete p s = onXferComplete p { s with
    mem := Memory.setBytes s.mem (s.hwBuf p) (d.moved p)
    draws := { s.draws with xfers := { d with data := [] } :: rest } } := by
  have hafter := hwTransfer_noData (p := p) (d := { d with data := [] }) (rest := rest) (s := { s with
    mem := Memory.setBytes s.mem (s.hwBuf p) (d.moved p)
    draws := { s.draws with xfers := { d with data := [] } :: rest } }) rfl rfl hspace
  rw [onXferComplete, onXferComplete, hafter, hwTransfer_draw hx hspace hbuf hfree]
  rfl

variable (htd : ∀ i, i < 16 → s.pendingByte (s.hwTdAddr p + i) = false)
  (hapart : ∀ i, i < (d.moved p).length → s.hwBuf p + i < s.hwTdAddr p ∨ s.hwTdAddr p + 16 ≤ s.hwBuf p + i)
include htd hapart

/-- Moved bytes that go beside the TD leave it as it was for the write-back. -/
theorem hwTransfer_moved : ∃ h, hwTransfer p s = .next { s with
    mem := Memory.setBytes (Memory.setBytes s.mem (s.hwBuf p) (d.moved p)) (s.hwTdAddr p) (s.writtenBack p d)
    hw := h
    draws := { s.draws with xfers := rest } } := by
  have hsame : Memory.getBytes (Memory.setBytes s.mem (s.hwBuf p) (d.moved p)) (s.hwTdAddr p) 16 =
      Memory.getBytes s.mem (s.hwTdAddr p) 16 :=
    Memory.getBytes_congr fun k hk => Memory.get_setBytes_outside _ _ _ (by
      by_contra hin
      have := hapart (s.hwTdAddr p + k - s.hwBuf p) (by omega)
      omega)
  have e := hwTransfer_draw hx hspace hbuf hfree
  generalize Memory.setBytes s.mem (s.hwBuf p) (d.moved p) = m at hsame e ⊢
  obtain ⟨h, eback⟩ := writeBackTd_free (s := { s with mem := m, draws := { s.draws with xfers := rest } }) hspace htd d
  have hback : State.writtenBack { s with mem := m, draws := { s.draws with xfers := rest } } p d = s.writtenBack p d :=
    congrArg (tdWriteBack s.cfg d.remaining d.owner) hsame
  rw [hback] at eback
  exact ⟨h, e.trans eback⟩

variable (hm : Memory.wf s.mem = true) (hactive : (s.ep p).active = none)
include hm hactive

/-- With nothing active the moved bytes and the written-back TD stand in memory, and no record of the engine changes. -/
theorem onXferComplete_drawInactive : ∃ m h,
    onXferComplete p s = .next { s with mem := m, hw := h, draws := { s.draws with xfers := rest } } ∧
    Memory.getBytes m (s.hwBuf p) (d.moved p).length = d.moved p ∧
    Memory.getBytes m (s.hwTdAddr p) 16 = s.writtenBack p d ∧
    ∀ a, (a < s.hwBuf p ∨ s.hwBuf p + (d.moved p).length ≤ a) → (a < s.hwTdAddr p ∨ s.hwTdAddr p + 16 ≤ a) →
      Memory.get m a = Memory.get s.mem a := by
  obtain ⟨h, e⟩ := hwTransfer_moved hx hspace hbuf hfree htd hapart
  have hmoved := Memory.getBytes_setBytes hm (s.hwBuf p) (d.moved p)
  have hread := Memory.getBytes_setBytes (Memory.setBytes_wf hm (s.hwBuf p) (d.moved p)) (s.hwTdAddr p) (s.writtenBack p d)
  have hout : ∀ a, (a < s.hwTdAddr p ∨ s.hwTdAddr p + 16 ≤ a) →
      Memory.get (Memory.setBytes (Memory.setBytes s.mem (s.hwBuf p) (d.moved p)) (s.hwTdAddr p) (s.writtenBack p d)) a =
        Memory.get (Memory.setBytes s.mem (s.hwBuf p) (d.moved p)) a := fun a ha =>
    Memory.get_setBytes_outside _ _ _ (by rwa [writtenBack_length])
  have hout' : ∀ a, (a < s.hwBuf p ∨ s.hwBuf p + (d.moved p).length ≤ a) →
      Memory.get (Memory.setBytes s.mem (s.hwBuf p) (d.moved p)) a = Memory.get s.mem a := fun a ha =>
    Memory.get_setBytes_outside _ _ _ ha
  rw [writtenBack_length] at hread
  generalize Memory.setBytes (Memory.setBytes s.mem (s.hwBuf p) (d.moved p)) (s.hwTdAddr p) (s.writtenBack p d) = m
    at e hread hout
  generalize Memory.setBytes s.mem (s.hwBuf p) (d.moved p) = m₀ at hmoved hout hout'
  refine ⟨m, h, onXferComplete_inactive e hactive, ?_, hread, fun a ha ha' => (hout a ha').trans (hout' a ha)⟩
  exact (Memory.getBytes_congr fun k hk => hout _ (hapart k hk)).trans hmoved

end

/-! ## The event with a request active -/

/-- What stands in the TD's remaining length once the draw is written back (R110, R234). -/
def State.remainingAfter (s : State) (p : Nat) : Nat :=
  match s.xferDraw.remaining with
  | some n => n % 2 ^ s.cfg.lenBits
  | none => tdRemaining s.cfg (Memory.getBytes s.mem (s.tdAddr p) 16)

/-- The request as the event completes it (R234, R238). -/
def State.transferred (s : State) (p : Nat) (r : ReqRef) : Request :=
  completed .success { s.req r with actual := min (s.req r).length ((s.ep p).td.length - s.remainingAfter p) }

/-- `s` in memory `m` and with the hardware's record `h`, the active request `r` of `p` completed; the phase and the callback are
yet to come. -/
def State.transferDone (s : State) (p : Nat) (r : ReqRef) (m : Memory) (h : Hardware) : State :=
  { s with
    reqs := putReq s.reqs r (s.transferred p r)
    eps := s.eps.set p { s.ep p with queue := (s.ep p).queue.erase r, active := none, resIdx := none }
    draws := { s.draws with xfers := s.draws.xfers.tail }
    mem := m
    hw := h }

/-- With a request active the event is a fault on the written-back TD, or a completion with Success that releases the request into
`transferDone` (R234, R235). -/
theorem onXferComplete_outcomes (hactive : (s.ep p).active = some r) (hspace : s.tdAddr p + 16 ≤ 2 ^ s.cfg.addrBits)
    (hm : Memory.wf s.mem = true) (hlayout : s.cfg.tdLayout.wf s.cfg.addrBits s.cfg.lenBits = true)
    (hd : s.xferDraw.data = []) (hown : s.hwTdAddr p = s.tdAddr p)
    (hfree : ∀ i, i < 16 → s.pendingByte (s.tdAddr p + i) = false) :
    ∃ m h v, (∀ a, a < s.tdAddr p ∨ s.tdAddr p + 16 ≤ a → Memory.get m a = Memory.get s.mem a) ∧
      release p r .success v = s.transferDone p r m h ∧
      onXferComplete p s =
        if s.xferDraw.owner = true then .fault .descriptorStillOwned
        else if (s.ep p).td.length < s.remainingAfter p then .fault .remainingTooLarge
        else complete p r .success v := by
  obtain ⟨h, e⟩ := hwTransfer_active hactive hd (hown ▸ hspace) (hown ▸ hfree)
  rw [hown] at e
  have hlen := writtenBack_length s p s.xferDraw
  have hread := Memory.getBytes_setBytes hm (s.tdAddr p) (s.writtenBack p s.xferDraw)
  rw [hlen] at hread
  obtain ⟨howner, hrem⟩ := tdWriteBack_reads hlayout (Memory.getBytes_length s.mem (s.tdAddr p) 16) s.xferDraw.remaining
    s.xferDraw.owner
  have hback : s.writtenBack p s.xferDraw =
      tdWriteBack s.cfg s.xferDraw.remaining s.xferDraw.owner (Memory.getBytes s.mem (s.tdAddr p) 16) := by
    rw [State.writtenBack, hown]
  rw [← hback] at howner hrem
  have hrem : tdRemaining s.cfg (s.writtenBack p s.xferDraw) = s.remainingAfter p := hrem
  have hframe : ∀ a, a < s.tdAddr p ∨ s.tdAddr p + 16 ≤ a →
      Memory.get (Memory.setBytes s.mem (s.tdAddr p) (s.writtenBack p s.xferDraw)) a = Memory.get s.mem a := fun a ha =>
    Memory.get_setBytes_outside _ _ _ (by rwa [hlen])
  clear hback
  generalize Memory.setBytes s.mem (s.tdAddr p) (s.writtenBack p s.xferDraw) = m at e hread hframe
  generalize s.writtenBack p s.xferDraw = bs at hread howner hrem
  obtain ⟨u, hu⟩ : ∃ u : State, u =
      { s with draws := { s.draws with xfers := s.draws.xfers.tail }, mem := m, hw := h } := ⟨_, rfl⟩
  rw [← hu] at e
  have hactiveu : (u.ep p).active = some r := hu ▸ hactive
  have hfinish := finishTransfer_eq (p := p) (r := r) (s := u) (bs := bs) (hu ▸ hspace) (hu ▸ hread)
  have hcfg : u.cfg = s.cfg := hu ▸ rfl
  have hep : u.ep p = s.ep p := hu ▸ rfl
  rw [hcfg, hep, howner, hrem] at hfinish
  refine ⟨m, h, _, hframe, ?_, (onXferComplete_active e hactiveu).trans hfinish⟩
  rw [release_counted hactiveu, hu]
  rfl

/-! ## What follows the completion, the callback making no nested call -/

section
variable {m : Memory} {h : Hardware}

theorem transferDone_req : (s.transferDone p r m h).req r = s.transferred p r := by
  simp [State.transferDone, State.req, findReq_putReq_same]

theorem transferDone_ep (hp : p < s.eps.length) : (s.transferDone p r m h).ep p =
    { s.ep p with queue := (s.ep p).queue.erase r, active := none, resIdx := none } := setEp_ep_same s hp _

variable {v : State} (hw : release p r .success v = s.transferDone p r m h) (hn : s.NoNested) (hp : p < s.eps.length)
include hw hn hp

theorem complete_transferDone {c : Controller}
    (hadv : (if isEp0 p = true then ep0Advance p r (s.transferDone p r m h) else .next (s.transferDone p r m h)) =
      .next { s.transferDone p r m h with ctl := c }) :
    complete p r .success v = startTransfer p { s.transferDone p r m h with
      ctl := c, outs := s.outs ++ callbackOutput r (s.transferred p r) } := by
  have hidle : ((s.transferDone p r m h).ep p).active = none := by rw [transferDone_ep hp]
  rw [complete_advanced hw hadv hn rfl hidle, transferDone_req]
  rfl

/-- No phase to advance: the callback, and then the queue's next (R184, R196). -/
theorem complete_noAdvance (hph : 2 ≤ p ∨ s.ctl.ep0Phase = .setup ∧ r ≠ .setupRead ∨
      s.ctl.ep0Phase ∈ [Phase.unconnected, .waitNrdy, .stalled]) :
    complete p r .success v = startTransfer p { s.transferDone p r m h with
      outs := s.outs ++ callbackOutput r (s.transferred p r) } := by
  refine complete_transferDone hw hn hp (c := s.ctl) ?_
  obtain hother | hph := hph
  · exact if_neg (by simp [isEp0_eq_false_iff.mpr hother])
  · rw [ep0Advance_nothing (s := s.transferDone p r m h) hph, ite_self]
    rfl

theorem complete_lastOfQueue (hother : 2 ≤ p) (hqueue : (s.ep p).queue = [r]) :
    complete p r .success v = .next { s.transferDone p r m h with
      outs := s.outs ++ callbackOutput r (s.transferred p r) } := by
  have hempty : ((s.transferDone p r m h).ep p).queue = [] := by rw [transferDone_ep hp]; simp [hqueue]
  exact (complete_noAdvance hw hn hp (.inl hother)).trans (startTransfer_idle (.inr (.inr (.inr hempty))))

/-- At the end of DATA the phase is WAIT_NRDY; SET_SEL's bytes are kept first (R197, R208). -/
theorem complete_dataStage (hep0 : p < 2) (hph : s.ctl.ep0Phase = .data) {c : Controller}
    (hend : endDataStage r (s.transferDone p r m h) = .next { s.transferDone p r m h with ctl := c }) :
    complete p r .success v = startTransfer p { s.transferDone p r m h with
      ctl := c, outs := s.outs ++ callbackOutput r (s.transferred p r) } := by
  refine complete_transferDone hw hn hp ?_
  rw [if_pos (isEp0_eq_true_iff.mpr hep0), ← hend]
  simp only [ep0Advance, State.transferDone, hph]

end

/-- An internal request's completion on EP0 is its phase advance, which keeps the launch parameters, and then the queue's next. -/
theorem complete_internalTransfer {p : EpField} {v : State} {m : Memory} {h : Hardware} {a : Out State}
    (hw : release p.toNat r .success v = s.transferDone p.toNat r m h) (hp : p.toNat < s.cfg.numPhysEp) (hep0 : p.toNat < 2)
    (hc : (s.req r).callback = .internal) (hadv : ep0Advance p.toNat r (s.transferDone p.toNat r m h) = a) :
    complete p.toNat r .success v = andThen a fun t => startIfInactive t p := by
  rw [complete_internal hw hep0 (by rw [transferDone_req]; exact hc), hadv]
  cases a with
  | next t =>
    have hcfg : t.cfg = s.cfg := cfgFrame.ep0Advance _ _ (s.transferDone p.toNat r m h) _ hadv
    exact (startIfInactive_eq (hcfg ▸ hp)).symm
  | _ => rfl

/-- Settles O57: the hardware's part in closed form, then the completion the handler ends in, by endpoint and EP0 phase. -/
theorem transferCompleteCountsTheBytes : Obligations.TransferCompleteCountsTheBytes := by
  intro s p hp
  rw [exec_evXferComplete hp]
  refine ⟨fun hx hactive => ?_, ?_, ?_⟩
  · have hidle : hwTransfer p.toNat s = .next s := by simp only [hwTransfer, hx, hactive, if_true]
    exact onXferComplete_inactive hidle hactive
  · intro d rest hx hm hspace td buf data hbuf hfree hapart
    have e := onXferComplete_moved hx hspace hbuf hfree
    exact ⟨_, Memory.getBytes_setBytes hm _ _, fun _ ha => Memory.get_setBytes_outside _ _ _ ha,
      e.trans (exec_evXferComplete (by exact hp)).symm,
      fun hactive htd => onXferComplete_drawInactive hx hspace hbuf hfree htd hapart hm hactive⟩
  · intro r hactive hspace hm hlayout hs d hd hown hfree rem x
    obtain ⟨m, h, v, hmem, hw, e⟩ := onXferComplete_outcomes hactive hspace hm hlayout hd hown hfree
    refine ⟨fun ho => e.trans (if_pos ho), fun ho hlt => e.trans ((if_neg (ne_true_of_eq_false ho)).trans (if_pos hlt)),
      fun ho hle hn => ?_⟩
    have e : onXferComplete p.toNat s = complete p.toNat r .success v :=
      e.trans ((if_neg (ne_true_of_eq_false ho)).trans (if_neg (Nat.not_lt.mpr hle)))
    have hlen := hs.eps hp
    have hstart : ∀ u : State, u.cfg = s.cfg → startTransfer p.toNat u = exec (.procStartTransfer p) u := fun u hcfg =>
      (exec_procStartTransfer (hcfg ▸ hp)).symm
    refine ⟨m, h, hmem, fun hph => ?_, fun hother hqueue => ?_, fun hep0 hph href hc => ?_, fun hep0 hph href => ?_,
      fun hep0 hph href hsel => ?_, fun hep0 hph hc hfree => ?_⟩ <;> refine e.trans ?_
    · exact (complete_noAdvance hw hn hlen hph).trans (hstart _ rfl)
    · exact complete_lastOfQueue hw hn hlen hother hqueue
    · subst href
      exact complete_internalTransfer hw hp hep0 hc (ep0Advance_setupRead hph)
    · exact (complete_dataStage hw hn hlen hep0 hph (endDataStage_other href)).trans (hstart _ rfl)
    · subst href
      exact (complete_dataStage hw hn hlen hep0 hph (endDataStage_selRead hsel)).trans (hstart _ rfl)
    · have hadv := (ep0Advance_status (p := p.toNat) (r := r) (s := s.transferDone p.toNat r m h) hph).trans
        (armSetup_startIfIdle hfree (Nat.zero_lt_of_lt hp))
      exact complete_internalTransfer hw hp hep0 hc hadv

end Sys2Proof.Machine
end

section
/-! An endpoint that is not ready gets no command and stays not ready, whatever runs but a drain (R130, R302, R303): every write
but an issue puts out no command, no write clears the flag, and an issue to such an endpoint is deferred. -/

namespace Sys2Proof.Machine

variable {s t : State}

/-- From `s` to `t` commands are only added, none to an endpoint that was not ready in `s`, and each such endpoint is still not
ready (R130, R302). -/
def NotReadyUndisturbed (s t : State) : Prop :=
  ∃ new, commandsOf t.outs = commandsOf s.outs ++ new ∧
    ∀ p, (s.ep p).notReady = true → (t.ep p).notReady = true ∧ ∀ c ∈ new, c.target ≠ p

theorem withTd_ep_notReady (s : State) (p : Nat) (td : Td) : ((s.withTd p td).ep p).notReady = (s.ep p).notReady := by
  have hep : (s.withTd p td).ep p = (s.setEp p { s.ep p with td := td }).ep p := rfl
  rw [hep, setEp_ep]
  split <;> rfl

namespace NotReadyUndisturbed

theorem of_no_command (hcmd : commandsOf t.outs = commandsOf s.outs)
    (hnot : ∀ p, (s.ep p).notReady = true → (t.ep p).notReady = true) : NotReadyUndisturbed s t :=
  ⟨[], by rw [hcmd, List.append_nil], fun p hp => ⟨hnot p hp, fun _ hc => absurd hc List.not_mem_nil⟩⟩

theorem of_eps (hcmd : commandsOf t.outs = commandsOf s.outs) (heps : t.eps = s.eps) : NotReadyUndisturbed s t :=
  of_no_command hcmd fun p hp => by rwa [ep_congr heps]

theorem refl (s : State) : NotReadyUndisturbed s s := .of_eps rfl rfl

theorem trans {u : State} (h : NotReadyUndisturbed s t) (k : NotReadyUndisturbed t u) : NotReadyUndisturbed s u := by
  obtain ⟨l, hl, hst⟩ := h
  obtain ⟨m, hm, htu⟩ := k
  refine ⟨l ++ m, by rw [hm, hl, List.append_assoc], fun p hp => ?_⟩
  obtain ⟨ht, hnewl⟩ := hst p hp
  obtain ⟨hu, hnewm⟩ := htu p ht
  exact ⟨hu, fun c hc => (List.mem_append.mp hc).elim (hnewl c) (hnewm c)⟩

/-- A write of one endpoint's record that keeps its not-ready flag where it is set. -/
theorem of_eps_set {p : Nat} {e : Endpoint} (hcmd : commandsOf t.outs = commandsOf s.outs) (heps : t.eps = s.eps.set p e)
    (he : (s.ep p).notReady = true → e.notReady = true) : NotReadyUndisturbed s t := by
  refine of_no_command hcmd fun q hq => ?_
  rw [ep_congr (u := s.setEp p e) heps, setEp_ep]
  split
  · next hpq => exact he (hpq.1.symm ▸ hq)
  · exact hq

/-- issue_now on a ready endpoint: its one command goes to none that is not ready (R131, R132). -/
theorem issueNow {c : Command} (hr : (s.ep c.target).notReady = false) : NotReadyUndisturbed s (issueNow c s).1 := by
  obtain ⟨-, -, -, -, -, -, -, hcmd⟩ := issueNow_keeps c s
  refine ⟨[c], hcmd, fun p hp => ⟨?_, fun d hd htarget => ?_⟩⟩
  · obtain hep | hep := issueNow_ep c s p <;> rw [hep]
    exact hp
  · obtain rfl := List.mem_singleton.mp hd
    rw [htarget, hp] at hr
    cases hr

/-- issue writes its command only where the endpoint is ready, and defers it elsewhere (R130). -/
theorem issue {c : Command} {x : State × CmdRes} (e : issue c s = .next x) : NotReadyUndisturbed s x.1 := by
  by_cases hr : (s.ep c.target).notReady = true
  · by_cases hfull : s.cfg.deferCap = some (s.ep c.target).deferred.length
    · rw [issue_overflow hr hfull] at e; cases e
    · rw [issue_deferred hr hfull] at e; cases e
      exact .of_eps_set rfl rfl id
  · rw [issue_ready (by simpa using hr)] at e; cases e
    exact .issueNow (by simpa using hr)

theorem recordStart (p : Nat) (r : ReqRef) (x : State × CmdRes) : NotReadyUndisturbed x.1 (recordStart p r x) := by
  unfold Sys2Proof.Machine.recordStart
  split
  · exact .of_eps_set rfl rfl id
  · exact .refl _
  · exact .refl _

/-- start_transfer starts on a ready endpoint alone (R120). -/
theorem startTransfer {p : Nat} (e : startTransfer p s = .next t) : NotReadyUndisturbed s t := by
  obtain rfl | ⟨r, rest, n, ty, ⟨-, hready, -⟩, -, -, -, -, rfl⟩ := startTransfer_cases e
  · exact .refl _
  · have hr := (withTd_ep_notReady s p (startedTd (s.req r) n ty)).trans hready
    have htd : NotReadyUndisturbed s (s.withTd p (startedTd (s.req r) n ty)) := .of_eps_set rfl rfl id
    exact htd.trans ((issueNow (c := startTransferCmd p (s.tdAddr p)) hr).trans (recordStart p r _))

theorem release (p : Nat) (r : ReqRef) (res : Result) (s : State) : NotReadyUndisturbed s (release p r res s) := by
  rw [release_eq]
  exact .of_eps_set rfl rfl id

end NotReadyUndisturbed

theorem commandsOf_emit {o : Output} (ho : ∀ c, o ≠ .command c) (s : State) :
    commandsOf (s.emit o).outs = commandsOf s.outs := by
  have hone : commandsOf [o] = [] := by
    cases o with
    | command c => exact absurd rfl (ho c)
    | _ => rfl
  rw [emit_outs, commandsOf_append, hone, List.append_nil]

theorem notReadyOpFrame : OpFrame NotReadyUndisturbed where
  refl := .refl
  trans := .trans
  issue := fun _ _ _ => .issue
  notReady := fun _ _ => .of_eps_set rfl rfl fun _ => rfl
  start := fun _ _ _ => .startTransfer
  push := fun _ _ _ _ => .of_eps_set rfl rfl id
  setReq := fun _ _ _ _ => .of_eps rfl rfl
  enable := fun _ _ _ => .of_eps rfl rfl
  cfgStarted := fun _ => .of_eps rfl rfl
  emit := fun _ s ho => .of_eps (commandsOf_emit ho s) rfl
  mark := fun _ _ => .of_eps rfl rfl

theorem notReadyCallFrame : CallFrame NotReadyUndisturbed where
  toOpFrame := notReadyOpFrame
  release := .release
  stall := notReadyOpFrame.stallOfPhase .release fun _ _ => .of_eps rfl rfl
  setType := fun _ _ _ _ _ => .of_eps_set rfl rfl id
  halted := fun _ _ _ _ => .of_eps_set rfl rfl id
  popCbs := fun _ _ _ _ => .of_eps rfl rfl
  popMap := fun _ => .of_eps rfl rfl
  fresh := fun _ _ => .of_eps rfl rfl
  drop := fun _ _ => .of_eps rfl rfl

theorem notReadyAdvFrame : AdvFrame NotReadyUndisturbed where
  toCallFrame := notReadyCallFrame
  phase := fun _ _ _ => .of_eps rfl rfl
  context := fun _ _ => .of_eps rfl rfl
  selData := fun _ _ => .of_eps rfl rfl
  devAddr := fun _ _ => .of_eps rfl rfl
  popSetup := fun _ => .of_eps rfl rfl
  writeMem := fun _ _ s t e => by
    rw [(writeMem_eq_next e).2]
    exact .of_eps rfl rfl

theorem notReadyHandlerFrame : HandlerFrame NotReadyUndisturbed where
  toAdvFrame := notReadyAdvFrame
  hwTransfer := fun _ s t e => by
    rw [(hwTransfer_eq_next e).1]
    exact .of_eps rfl rfl
  acrossReset := fun _ _ => .of_eps rfl rfl
  clearHalts := fun s => .of_no_command rfl fun p hp => by rwa [clearHalts_ep]
  cfgCleared := fun _ => .of_eps rfl rfl
  latchSpeed := fun _ => .of_eps rfl rfl
  speed := fun _ _ => .of_eps rfl rfl
  resize := fun sp s => .of_no_command rfl fun p hp => by
    rw [resizeMaxp_ep, ((s.ep p).resized_keeps s.cfg sp).2.1, hp]
  connected := fun _ _ => .of_eps rfl rfl

/-- Settles O30: INIT and TEARDOWN are made of the operations the handlers are made of, and no write of any of them disturbs an
endpoint that is not ready; only the drain does. -/
theorem notReadyEndpointGetsNoCommand : Obligations.NotReadyEndpointGetsNoCommand := by
  intro i s t e hint hdrain
  by_cases hinit : i = .init
  · subst hinit
    exact notReadyAdvFrame.initController (fun _ => .of_eps rfl rfl) (fun _ => .of_eps rfl rfl) s t e
  by_cases htd : i = .teardown
  · subst htd
    exact notReadyOpFrame.teardown (fun p => notReadyAdvFrame.killAll p _) (fun _ => .of_eps rfl rfl)
      (fun _ => .of_eps rfl rfl) s t e
  · exact notReadyHandlerFrame.execNoDrain i ⟨hint, hinit, htd⟩ hdrain s t e

end Sys2Proof.Machine
end

section
/-! TEARDOWN (R293): kill_all of every endpoint in turn, the callbacks making no nested call, and the enable bits cleared. -/

namespace Sys2Proof.Machine

theorem clearEnables_port (p : Nat) (s : State) : (clearEnables s).port p = { s.port p with enabled := false } := by
  by_cases hp : p < s.regs.ports.length
  · simp [State.port, clearEnables, hp]
  · simp [State.port, clearEnables, hp, EpPort.creation]

theorem exec_teardown (s : State) : exec .teardown s = teardown s := rfl

/-- Settles O15: every endpoint is killed in turn, and nothing written after that is a request or an endpoint record. -/
theorem teardownClosesTheController : Obligations.TeardownClosesTheController := by
  intro s h hn
  have hstopped : (s.setRunStop false).Inv := invMachineFrame.runStop false s h
  obtain ⟨t, e, ht⟩ := killAll_each (res := .shutdown) (List.range s.cfg.numPhysEp) hstopped hn
    (fun p => List.mem_range.mp) nofun
  refine ⟨(clearEnables t).setPhase .unconnected, ?_, fun p hp => ⟨?_, ?_, ?_⟩, ?_, ?_, ?_, ?_, ht.commands, ht.mem, ht.hw⟩
  · rw [exec_teardown, teardown, e, andThen_next]
  · exact ht.killed p (List.mem_range.mpr hp)
  · refine (clearEnables_port p t).trans ?_
    rw [State.port, ht.regs]
    rfl
  · exact ht.completed p (List.mem_range.mpr hp)
  · exact congrArg (fun c : Controller => { c with ep0Phase := .unconnected }) ht.ctl
  · exact (congrArg Regs.runStop ht.regs :)
  · exact (congrArg Regs.devAddr ht.regs :)
  · exact (congrArg Regs.evbufCount ht.regs :)

end Sys2Proof.Machine
end

section
/-! INIT in the creation state (R290, R291): its own writes, EP0's two activates answered in time, and the setup read armed and
started. -/

namespace Sys2Proof.Machine

variable {s t u : State} {p n : Nat}

/-! ## What a well-formed launch gives (R72, R76) -/

theorem Config.wf_ringAligned {c : Config} (h : c.wf = true) : c.evbufAddr % c.evtBytes = 0 := by
  simp only [Config.wf, Bool.and_eq_true, beq_iff_eq] at h
  tauto

/-- Every endpoint's TD is aligned and inside the address space. -/
theorem tdPlaced_of_wf (h : s.cfg.wf = true) (hp : p < s.cfg.numPhysEp) : s.TdPlaced p := by
  simp only [Config.wf, Bool.and_eq_true, beq_iff_eq, List.all_eq_true, decide_eq_true_eq] at h
  obtain ⟨⟨⟨⟨⟨⟨⟨-, hcount⟩, haligned⟩, -⟩, hspace⟩, -⟩, -⟩, -⟩ := h
  have hmem : s.tdAddr p ∈ s.cfg.tdAddrs := by
    rw [State.tdAddr, ← List.getElem_eq_getD (h := hcount ▸ hp)]
    exact List.getElem_mem _
  exact ⟨haligned _ hmem, hspace (s.tdAddr p, 16) (List.mem_append_left _ (List.mem_map_of_mem hmem))⟩

/-! ## INIT's own writes (R290) -/

/-- The state in which INIT activates EP0. -/
def State.initialising (s : State) : State := initRegs (initEp0 1 (initEp0 0 s))

theorem initPremises_of_creation (heps : s.eps = List.replicate n Endpoint.creation) (hctl : s.ctl = Controller.creation)
    (hcount : s.regs.evbufCount = 0) (hrun : s.regs.runStop = false) (hlate : ∀ p, (s.hwEp p).late = none) :
    initPremises s = true := by
  have hhw : ∀ h ∈ s.hw.eps, h.late = none := fun h hmem => by
    obtain ⟨q, hq, rfl⟩ := List.getElem_of_mem hmem
    rw [List.getElem_eq_getD HwEndpoint.creation]
    exact hlate q
  simpa [initPremises, heps, hctl, hcount, hrun, Endpoint.creation, Controller.creation] using hhw

theorem exec_init (s : State) : exec .init s = initController s := rfl

/-- Within its premises INIT leaves no mark (log 16). -/
theorem initController_eq (hring : s.cfg.evbufAddr % s.cfg.evtBytes = 0) (hpremises : initPremises s = true) :
    initController s = andThen (andThen (activate 0 s.initialising) (activate 1)) fun u =>
      andThen (armSetup u) fun t => .next (t.setRunStop true) := by
  have hnote : noteInit s = s := if_pos hpremises
  rw [initController, if_neg (not_not.mpr hring), hnote, andThen_assoc]
  rfl

theorem initialising_ep (hlen : 2 ≤ s.eps.length) (p : Nat) : s.initialising.ep p =
    if p < 2 then { s.ep p with type := .control, maxp := s.cfg.maxpTable.ss.control } else s.ep p := by
  have hset : s.initialising.ep p = (initEp0 1 (initEp0 0 s)).ep p := rfl
  rw [hset]
  match p with
  | 0 => exact (setEp_ep_ne _ one_ne_zero _).trans (setEp_ep_same s (by omega) _)
  | 1 =>
    refine (setEp_ep_same _ ?_ _).trans ?_
    · rw [initEp0, setEp_eps, List.length_set]
      omega
    · rw [initEp0, setEp_ep_ne s zero_ne_one]
      rfl
  | p + 2 => exact (setEp_ep_ne _ (by omega) _).trans ((setEp_ep_ne s (by omega) _).trans (if_neg (by omega)).symm)

/-! ## EP0's endpoints activated (R151 to R155) -/

/-- The two activates of EP0, with what `Ep0Activated` leaves out: the registers but the ports, four draws, no mark. -/
structure Ep0ActivatedOnly (s t : State) : Prop extends Ep0Activated s t where
  regs : t.regs = { s.regs with ports := t.regs.ports }
  portCount : t.regs.ports.length = s.regs.ports.length
  draws : t.draws.cmds = s.draws.cmds.drop 4
  marks : t.marks = s.marks

theorem activate_ep0_only (hports : 2 ≤ s.regs.ports.length) (htype0 : (s.ep 0).type = .control)
    (htype1 : (s.ep 1).type = .control) (hr0 : (s.ep 0).notReady = false) (hr1 : (s.ep 1).notReady = false)
    (hok : s.CmdsOk 4) : ∃ t, andThen (activate 0 s) (activate 1) = .next t ∧ Ep0ActivatedOnly s t := by
  obtain ⟨t, et, ht⟩ := activate_ep0 hports htype0 htype1 hr0 hr1 hok
  have eboth := et
  obtain ⟨x, h, -, e0⟩ := activate_ok (.inl htype0) hr0 (by omega) fun k hk => hok k (by omega)
  rw [e0, andThen_next] at eboth
  obtain ⟨y, h', -, e1⟩ := activate_ok (s := { s with
      regs := s.regsWith 0 x, hw := h, draws := { s.draws with cmds := s.draws.cmds.drop 2 }
      outs := s.outs ++ [.command (setEpConfigCmd 0 (s.ep 0)), .command (setXferResourceCmd 0)] }) (p := 1)
    (.inl htype1) hr1 (List.length_set.symm ▸ hports) (hok.drop (k := 2) rfl rfl)
  cases eboth.symm.trans e1
  exact ⟨_, et, ht, rfl, List.length_set.trans List.length_set, List.drop_drop, rfl⟩

/-! ## The setup read started (R191, R123, R124) -/

/-- What arm_setup leaves of `s` where the setup read starts, its command answered in time. -/
structure SetupReadStarted (n : Nat) (s t : State) : Prop where
  ep0 : t.ep 0 = { s.ep 0 with
    queue := [.setupRead], active := some .setupRead, resIdx := some s.cmdDraw.idx
    td := startedTd (setupReadRequest s.cfg.setupBuf) n .setup }
  others : ∀ q, q ≠ 0 → t.ep q = s.ep q
  ctl : t.ctl = { s.ctl with ep0Phase := .setup }
  regs : t.regs = { s.regs with ports := t.regs.ports }
  enabled : ∀ q, (t.port q).enabled = (s.port q).enabled
  read : t.req .setupRead = setupReadRequest s.cfg.setupBuf
  outs : t.outs = s.outs ++ [.command (startTransferCmd 0 (s.tdAddr 0))]
  marks : t.marks = s.marks

theorem armSetup_answered (hlen : 0 < s.eps.length) (hports : 0 < s.regs.ports.length) (hfree : s.onAnyQueue .setupRead = false)
    (hqueue : (s.ep 0).queue = []) (hstart : s.CanStart 0) (htd : s.TdPlaced 0)
    (hn : xferLen .OUT (s.ep 0).maxp 8 s.cfg.lenBits = .next n) (hok : s.CmdOk) :
    ∃ t, armSetup s = .next t ∧ SetupReadStarted n s t := by
  have harmed : s.armed.eps = s.eps.set 0 { s.ep 0 with queue := [.setupRead] } := by
    rw [State.armed, hqueue, List.nil_append]
  have hep : s.armed.ep 0 = { s.ep 0 with queue := [.setupRead] } :=
    (ep_congr (u := s.setEp 0 _) harmed 0).trans (setEp_ep_same s hlen _)
  have hread : s.armed.req .setupRead = setupReadRequest s.cfg.setupBuf :=
    (setReq_req s .setupRead .setupRead _).trans (if_pos rfl)
  have htdeps := eps_set_of_eps_set hlen harmed fun e => { e with td := startedTd (setupReadRequest s.cfg.setupBuf) n .setup }
  have heps := eps_set_of_eps_set (u := s.armed.withTd 0 (startedTd (setupReadRequest s.cfg.setupBuf) n .setup)) hlen htdeps
    fun e => { e with resIdx := some s.cmdDraw.idx, active := some .setupRead }
  have hcan : s.armed.CanStart 0 := by
    rw [State.CanStart, hep]
    exact hstart
  have he := startTransfer_starts (s := s.armed) (p := 0) (r := .setupRead) (rest := []) (n := n) (ty := .setup) hcan
    (by rw [hep]) (by rw [hep, hread]; exact hn) rfl htd
  rw [hread, issueNow_ok (s := s.armed.withTd 0 _) hports hok] at he
  refine ⟨_, (armSetup_eq hfree).trans ((if_pos ⟨hqueue, hstart.2.1⟩).trans he), ?_, fun q hq => ?_, rfl, rfl, fun q => ?_,
    hread, rfl, rfl⟩
  · exact (ep_congr (u := s.setEp 0 _) heps 0).trans (setEp_ep_same s hlen _)
  · exact (ep_congr (u := s.setEp 0 _) heps q).trans (setEp_ep_ne s hq.symm _)
  · refine (setPort_enabled (s := s) hports rfl q).trans (ite_eq_right_iff.mpr fun hq => ?_)
    rw [hq]
    rfl

/-- The draw of the command after `k` others. -/
theorem cmdDraw_after_cmds {k : Nat} (hd : u.draws.cmds = s.draws.cmds.drop k) :
    u.cmdDraw = s.draws.cmds.getD k { stillActive := 0, idx := 0 } := by
  rw [State.cmdDraw, hd, List.headD_eq_head?_getD, List.head?_drop, List.getD_eq_getElem?_getD]

/-! ## INIT -/

section
variable (hwf : s.cfg.wf = true) (hs : s.Shaped) (heps : s.eps = List.replicate s.cfg.numPhysEp Endpoint.creation)
include hwf hs heps

/-- EP0's records as INIT writes them over the creation state, and the others as they were (R290, R48). -/
theorem initialising_created (p : Nat) : s.initialising.ep p =
    if p < 2 then { Endpoint.creation with type := .control, maxp := s.cfg.maxpTable.ss.control } else Endpoint.creation := by
  have hcreated : s.ep p = Endpoint.creation := by
    simp only [State.ep, heps, List.getD_eq_getElem?_getD, List.getElem?_getD_replicate_default_eq]
  rw [initialising_ep (hs.1 ▸ Config.wf_two_endpoints hwf), hcreated]

/-- From the creation state INIT runs to its end, its commands answered in time. -/
theorem initController_answered (hpremises : initPremises s = true) (hok : s.CmdsOk 5)
    (hn : xferLen .OUT s.cfg.maxpTable.ss.control 8 s.cfg.lenBits = .next n) :
    ∃ u t, Ep0ActivatedOnly s.initialising u ∧ SetupReadStarted n u t ∧ initController s = .next (t.setRunStop true) := by
  have hnum := Config.wf_two_endpoints hwf
  have hep := initialising_created hwf hs heps
  have hep0 : s.initialising.ep 0 = _ := (hep 0).trans (if_pos Nat.zero_lt_two)
  have hep1 : s.initialising.ep 1 = _ := (hep 1).trans (if_pos Nat.one_lt_two)
  obtain ⟨u, eu, hu⟩ := activate_ep0_only (s := s.initialising) (hs.2.1 ▸ hnum) (by rw [hep0]) (by rw [hep1])
    (by rw [hep0]; rfl) (by rw [hep1]; rfl) fun k hk => hok k (by omega)
  have hcfg : u.cfg = s.cfg := hu.cfg
  have huep : ∀ p, u.ep p = s.initialising.ep p := ep_congr hu.eps
  have hempty : ∀ p, (u.ep p).queue = [] := fun p => by
    rw [huep, hep]
    split <;> rfl
  have hlen : 0 < u.eps.length := by
    simp only [hu.eps, State.initialising, initRegs, initEp0, setEp_eps, List.length_set, hs.1]
    omega
  have hports : 0 < u.regs.ports.length := by
    rw [hu.portCount]
    exact hs.ports (Nat.lt_of_lt_of_le Nat.zero_lt_two hnum)
  have hlast : u.CmdOk := (hok.drop (k := 4) hcfg hu.draws).cmdOk Nat.zero_lt_one
  obtain ⟨t, et, ht⟩ := armSetup_answered (s := u) (n := n) hlen hports
    (onAnyQueue_eq_false fun q => by rw [hempty]; exact List.not_mem_nil) (hempty 0)
    (by rw [State.CanStart, huep, hep0]; exact ⟨rfl, rfl, rfl⟩)
    (tdPlaced_of_wf (hcfg.symm ▸ hwf) (by rw [hcfg]; omega)) (by rw [huep, hep0, hcfg]; exact hn) hlast
  refine ⟨u, t, hu, ht, ?_⟩
  rw [initController_eq (Config.wf_ringAligned hwf) hpremises, eu, andThen_next, et, andThen_next]

end

/-- Settles O14: INIT's own writes over the creation state, EP0 activated there, and the setup read started on its empty queue. -/
theorem initLeavesTheInitState : Obligations.InitLeavesTheInitState := by
  intro s n hwf hs heps hctl hcount hrun hoff hlate hok hn
  have hep := initialising_created hwf hs heps
  obtain ⟨u, t, hu, ht, e⟩ := initController_answered hwf hs heps (initPremises_of_creation heps hctl hcount hrun hlate) hok hn
  have hcfg : u.cfg = s.cfg := hu.cfg
  have huep : ∀ p, u.ep p = s.initialising.ep p := ep_congr hu.eps
  have hother : ∀ p, p ≠ 0 → t.ep p = s.initialising.ep p := fun p hp => (ht.others p hp).trans (huep p)
  have hregs : t.regs = { s.initialising.regs with ports := t.regs.ports } := ht.regs.trans (by rw [hu.regs])
  have hinit : s.initialising.ctl = Controller.creation := by
    simp [State.initialising, initRegs, initEp0, hctl, Controller.creation]
  refine ⟨t.setRunStop true, e, ?_, (hother 1 one_ne_zero).trans (hep 1), fun p hp => ?_, ?_, rfl, ?_, ?_, ?_, ?_, fun p _ => ?_,
    ?_, ?_, ht.marks.trans hu.marks⟩
  · refine ht.ep0.trans ?_
    rw [huep, hep, cmdDraw_after_cmds hu.draws, hcfg]
    rfl
  · exact (hother p (by omega)).trans ((hep p).trans (if_neg (Nat.not_lt.mpr hp)))
  · exact ht.ctl.trans (by rw [hu.ctl, hinit])
  · exact (congrArg Regs.devAddr hregs :)
  · exact (congrArg Regs.evbufBase hregs :)
  · exact (congrArg Regs.evbufSize hregs :)
  · exact (congrArg Regs.evbufCount hregs :).trans hcount
  · refine (ht.enabled p).trans ?_
    match p with
    | 0 => exact hu.enabled0
    | 1 => exact hu.enabled1
    | p + 2 =>
      rw [hu.others (p + 2) (by omega), decide_eq_false (by omega)]
      exact hoff (p + 2)
  · exact hcfg ▸ ht.read
  · have hkinds : commandKinds t.outs = commandKinds u.outs ++ [(.startTransfer, 0)] := by
      rw [commandKinds, ht.outs, commandsOf_append, List.map_append]
      rfl
    exact hkinds.trans (by rw [hu.commands, List.append_assoc]; rfl)

end Sys2Proof.Machine
end
